-- ==== Sys2Proof/Word.lean ====
section
/-! DEFINITION. The word types of the core: bytes, 16-bit payload words, 32-bit registers and lanes, 64-bit
addresses and encoder records (00_scope.md R9, R10). -/

namespace Sys2Proof

/-- A byte of host memory, and a symbol of the coder. -/
abbrev Byte := BitVec 8

/-- A 16-bit payload word (30_encoding.md R316). -/
abbrev U16 := BitVec 16

/-- A 32-bit register, lane state or counter; its arithmetic is modulo `2^32` (00_scope.md R10). -/
abbrev U32 := BitVec 32

/-- A 64-bit host address or encoder-table record. -/
abbrev U64 := BitVec 64

end Sys2Proof
end

