-- ==== Sys2Proof/Syntax.lean ====
section
/-! DEFINITION. The five commands of spec/opcode_table.json (30_encoding.md R302, R320), one constructor a row. -/

namespace Sys2Proof

/-- A command. `pb` is the operand `N` of the syntax `pb=N` (30_encoding.md R320), the field `CMD[7:4]`.
The fields a command ignores (30_encoding.md R302) are no operands of it; the register `CMD` keeps them. -/
inductive Instr where
  /-- `nop` (40_commands.md R410). -/
  | nop
  /-- `build_table pb=N` (41_statistics.md R480). -/
  | buildTable (pb : Nat)
  /-- `encode pb=N` (42_encoder.md R530). -/
  | encode (pb : Nat)
  /-- `encode.t pb=N` (42_encoder.md R531). -/
  | encodeT (pb : Nat)
  /-- `decode` (43_decoder.md R630). -/
  | decode
  deriving DecidableEq, Repr

end Sys2Proof
end

