-- ==== Sys2Proof/WellFormed.lean ====
section
/-! DEFINITION. Which terms of `Instr` are commands a command word can hold: `N` is a number 0..15
(30_encoding.md R320). A `pb` outside 9, 10, 11 is well formed: the command itself refuses it (R303). -/

namespace Sys2Proof

/-- A `PB` operand fits the 4-bit field `CMD[7:4]` (30_encoding.md R300, R320). -/
def probBitsFit (pb : Nat) : Bool := decide (pb < 16)

/-- The command fits a command word (30_encoding.md R320). -/
def Instr.wellFormed : Instr → Bool
  | .nop => true
  | .buildTable pb => probBitsFit pb
  | .encode pb => probBitsFit pb
  | .encodeT pb => probBitsFit pb
  | .decode => true

end Sys2Proof
end

