-- ==== Sys2Proof/Decode.lean ====
section
/-! DEFINITION. The decoder, total on all 32-bit command words, and the encoder (30_encoding.md R300 to R304). -/

namespace Sys2Proof

/-- Why a command word is illegal (30_encoding.md R303). -/
inductive DecodeError where
  /-- Some of bits 31:9 is 1. -/
  | reservedBits
  /-- `OP` is 4..15. -/
  | reservedOp
  deriving DecidableEq, Repr

/-- Field `OP`, `CMD[3:0]` (30_encoding.md R300). -/
def opField (x : U32) : BitVec 4 := x.extractLsb' 0 4

/-- Field `PB`, `CMD[7:4]`, unsigned, no scaling (30_encoding.md R301). -/
def pbField (x : U32) : Nat := (x.extractLsb' 4 4).toNat

/-- Field `T`, `CMD[8]` (30_encoding.md R300). -/
def tField (x : U32) : BitVec 1 := x.extractLsb' 8 1

/-- Bits 31:9, which must be 0 (30_encoding.md R300). -/
def reservedField (x : U32) : BitVec 23 := x.extractLsb' 9 23

/-- A row of the opcode map (30_encoding.md R302). -/
structure OpcodeRow where
  bits : U32
  mask : U32
  deriving DecidableEq, Repr

/-- `x` selects the row (30_encoding.md R302). -/
def OpcodeRow.selects (r : OpcodeRow) (x : U32) : Bool := decide (x &&& r.mask = r.bits)

/-- The row of `NOP` (30_encoding.md R302). -/
def rowNop : OpcodeRow := ⟨0x00000000#32, 0xFFFFFE0F#32⟩
/-- The row of `BUILD_TABLE` (30_encoding.md R302). -/
def rowBuildTable : OpcodeRow := ⟨0x00000001#32, 0xFFFFFE0F#32⟩
/-- The row of `ENCODE` (30_encoding.md R302). -/
def rowEncode : OpcodeRow := ⟨0x00000002#32, 0xFFFFFF0F#32⟩
/-- The row of `ENCODE.T` (30_encoding.md R302). -/
def rowEncodeT : OpcodeRow := ⟨0x00000102#32, 0xFFFFFF0F#32⟩
/-- The row of `DECODE` (30_encoding.md R302). -/
def rowDecode : OpcodeRow := ⟨0x00000003#32, 0xFFFFFE0F#32⟩

/-- The opcode map in the table's order (30_encoding.md R302). -/
def opcodeMap : List OpcodeRow := [rowNop, rowBuildTable, rowEncode, rowEncodeT, rowDecode]

/-- The row a command belongs to. -/
def rowOf : Instr → OpcodeRow
  | .nop => rowNop
  | .buildTable _ => rowBuildTable
  | .encode _ => rowEncode
  | .encodeT _ => rowEncodeT
  | .decode => rowDecode

/-- The command a word selects, or why none (30_encoding.md R302, R303). -/
def decodeCommand (x : U32) : Except DecodeError Instr :=
  if rowNop.selects x then .ok .nop
  else if rowBuildTable.selects x then .ok (.buildTable (pbField x))
  else if rowEncode.selects x then .ok (.encode (pbField x))
  else if rowEncodeT.selects x then .ok (.encodeT (pbField x))
  else if rowDecode.selects x then .ok .decode
  else if reservedField x = 0#23 then .error .reservedOp
  else .error .reservedBits

/-- A command word from its fields (30_encoding.md R300). -/
def commandWord (op pb : BitVec 4) (t : BitVec 1) : U32 := 0#23 ++ t ++ pb ++ op

/-- The word of a command, ignored fields 0 (30_encoding.md R320). -/
def encodeCommand : Instr → U32
  | .nop => commandWord 0#4 0#4 0#1
  | .buildTable pb => commandWord 1#4 (BitVec.ofNat 4 pb) 0#1
  | .encode pb => commandWord 2#4 (BitVec.ofNat 4 pb) 0#1
  | .encodeT pb => commandWord 2#4 (BitVec.ofNat 4 pb) 1#1
  | .decode => commandWord 3#4 0#4 0#1

/-- The command word with the table's bits `w`, of which the table gives `nbits`: the one 32-bit word
(30_encoding.md R304), every bit above `nbits` 0. -/
def tableWord (nbits w : Nat) : U32 := BitVec.ofNat 32 (w % 2 ^ nbits)

/-- What the decoder reads from a word numbered as spec/opcode_table.json numbers it. -/
def decodeTableWord (nbits w : Nat) : Option Instr :=
  match decodeCommand (tableWord nbits w) with
  | .ok i => some i
  | .error _ => none

end Sys2Proof
end

