-- ==== Sys2Proof/Config.lean ====
section
/-! DEFINITION. What is fixed for the machine: the parameters of 00_scope.md R7 and R8, the open parameters of
92_eei_decisions.md, and the free values, constants with no body that no proof can evaluate. -/

namespace Sys2Proof

/-- `NSYM`: the alphabet size (00_scope.md R7). -/
def Config.numSymbols : Nat := 256

/-- `BLOCK`: decoded bytes of a block (00_scope.md R7). -/
def Config.blockBytes : Nat := 4096

/-- `LANES`: interleaved states of a block (00_scope.md R7, 90_conflicts.md C1). -/
def Config.lanes : Nat := 32

/-- `WARPS`: warps of a block, `BLOCK / LANES` (00_scope.md R7). -/
def Config.warps : Nat := 128

/-- `STATE_BITS`: the width of a state at step boundaries (00_scope.md R7). -/
def Config.stateBits : Nat := 31

/-- `L`: the minimum state, and the initial state of every lane (00_scope.md R7). -/
def Config.minState : U32 := 0x8000#32

/-- The container magic (00_scope.md R7). -/
def Config.magic : U16 := 0xD00D#16

/-- The container version (00_scope.md R7). -/
def Config.version : U16 := 0x0001#16

/-- What the register `ID` reads (10_state.md R102). -/
def Config.idValue : U32 := 0xD00D0001#32

/-- What the register `PARAMS` reads (10_state.md R103). -/
def Config.paramsValue : U32 := 0x00B90C20#32

/-- Bytes of the encoder-table image (30_encoding.md R312). -/
def Config.tableBytes : Nat := 2048

/-- One past the largest host address (00_scope.md R8, `ADDR_BITS` = 64). -/
def Config.addressSpace : Nat := 2 ^ 64

/-- FREE VALUE. The `n`-th "any value" byte the machine takes: spill bytes (42_encoder.md R518), bytes of an aborted
command's write windows (70_reset_and_hazards.md R1002), early host reads (20_memory.md R222).
Log entry 5; safe, since nothing constrains it. -/
opaque Config.freeByte : Nat → Byte

/-- FREE VALUE. What host memory holds at an address nothing has written. Log entry 4; safe. -/
opaque Config.powerOnByte : Nat → Byte

/-- FREE VALUE. Filler entry `i` of `writePermute[m]`, any value in 0..7 (45_simd.md R830). Log entry 6; safe. -/
opaque Config.writeFiller : BitVec 8 → Nat → BitVec 3

/-- FREE VALUE. Filler entry `l` of `readPermute[m]`, any value in 0..7 (45_simd.md R831). Log entry 6; safe. -/
opaque Config.readFiller : BitVec 8 → Nat → BitVec 3

/-- FREE VALUE. What a gather gives at an index outside `DEC` (45_simd.md R809 calls the function total and states no
value there). No command gathers there. Log entry 25; safe. -/
opaque Config.decOutside : Nat → U32

/-- FREE VALUE. What a gather gives at an index outside `ENC` (45_simd.md R809). No command gathers there. Log entry
25; safe. -/
opaque Config.encOutside : Nat → U64

/-- OPEN parameter `CORE_BASE`: the host address of the register block (10_state.md R100). Log entry 11. -/
opaque Config.coreBase : U64

/-- OPEN parameter `IRQ_LINE`: the platform interrupt input that `irq` drives (60_exceptions.md R910). Log entry 11. -/
opaque Config.irqLine : Nat

/-- OPEN parameter `BUS_COHERENT`: whether the core's accesses are coherent with host caches (20_memory.md R226).
No rule's effect depends on it: host cache maintenance is outside the model. Log entry 11. -/
opaque Config.busCoherent : Bool

end Sys2Proof
end

