-- ==== Sys2Proof/Machine/State.lean ====
section
/-! DEFINITION. The state of the machine, its faults and refusals, and the state after reset
(10_state.md, 70_reset_and_hazards.md R1000). Plain data throughout. -/

namespace Sys2Proof.Machine

/-- Host memory: the bytes something has written, at strictly rising addresses below `2^64` (20_memory.md R200).
An unlisted address holds no written byte; what the machine reads there is `Config.powerOnByte` (log entry 4). -/
abbrev Memory := List Host.Cell

/-- A contiguous range of host memory a command may touch: `[base, base + len)` (20_memory.md R206). -/
structure Window where
  base : Nat
  len : Nat
  deriving DecidableEq, Repr

/-- The register block's storage (10_state.md R101). `ID`, `PARAMS`, `CTRL.SRST`, `STATUS.IRQ` and the reserved
offsets have none. -/
structure Regs where
  /-- `CTRL.IE` (10_state.md R104). -/
  ie : Bool
  /-- `STATUS.BUSY` (10_state.md R105). -/
  busy : Bool
  /-- `STATUS.DONE` (10_state.md R105). -/
  done : Bool
  /-- `CMD` (10_state.md R106). -/
  cmd : U32
  /-- `ERROR` (10_state.md R107). -/
  error : U32
  /-- `RESULT` (10_state.md R108). -/
  result : U32
  /-- `SRC_ADDR_LO` (10_state.md R109). -/
  srcAddrLo : U32
  /-- `SRC_ADDR_HI` (10_state.md R109). -/
  srcAddrHi : U32
  /-- `SRC_LEN` (10_state.md R109). -/
  srcLen : U32
  /-- `DST_ADDR_LO` (10_state.md R109). -/
  dstAddrLo : U32
  /-- `DST_ADDR_HI` (10_state.md R109). -/
  dstAddrHi : U32
  /-- `DST_CAP` (10_state.md R109). -/
  dstCap : U32
  /-- `TBL_ADDR_LO` (10_state.md R109). -/
  tblAddrLo : U32
  /-- `TBL_ADDR_HI` (10_state.md R109). -/
  tblAddrHi : U32
  deriving DecidableEq, Repr

/-- The operands a command reads once, at issue (10_state.md R109, 40_commands.md R401). -/
structure Operands where
  src : U64
  srcLen : U32
  dst : U64
  dstCap : U32
  tbl : U64
  deriving DecidableEq, Repr

/-- What the encoder keeps of a finished block until the metadata is written: `st[k]`, `n[k]`, `startOffset[k]`
(42_encoder.md R532, 44_container.md R710). -/
structure BlockRow where
  states : Vector U32 32
  words : Nat
  startOffset : Nat
  deriving DecidableEq, Repr

/-- The engines' working state, not host-visible, transient (10_state.md R110 to R113, R120 to R122). -/
structure Engine where
  /-- The lane registers `S[0..31]` (10_state.md R110). -/
  lanes : Vector U32 32
  /-- The current block index `k` (10_state.md R111). -/
  block : Nat
  /-- The current warp index `w` (10_state.md R111). -/
  warp : Nat
  /-- The current group `g` (10_state.md R111). -/
  group : Fin 4
  /-- The payload cursor, in 16-bit words from the payload origin (10_state.md R111). An integer: on a corrupt
  payload the decoder's cursor falls below the origin (43_decoder.md R616). -/
  cur : Int
  /-- The running total of compressed words (10_state.md R111). -/
  total : Nat
  /-- The emit mask of each group (10_state.md R112). -/
  emitMask : Vector (BitVec 8) 4
  /-- The feed mask of each group (10_state.md R112). -/
  feedMask : Vector (BitVec 8) 4
  /-- The histogram counters `HIST` (10_state.md R122). -/
  hist : Vector U32 256
  /-- The quantized probabilities `Q` (10_state.md R122). -/
  q : Vector (BitVec 12) 256
  /-- The cumulative starts (10_state.md R122, 41_statistics.md R460). -/
  cdf : Vector (BitVec 12) 256
  /-- The encoder table RAM `ENC` (10_state.md R120). -/
  enc : Vector U64 256
  /-- The decoder table RAM `DEC` (10_state.md R121). -/
  dec : Vector U32 2048
  /-- The blocks encoded so far, in ascending order (42_encoder.md R532). -/
  rows : List BlockRow
  deriving DecidableEq, Repr

/-- The width of a host access to the register block (10_state.md R100). -/
inductive Width where
  | w8 | w16 | w32 | w64
  deriving DecidableEq, Repr

/-- Another busy instance of the core on the bus, as the windows of its running command (60_exceptions.md R943). -/
structure Peer where
  reads : List Window
  writes : List Window
  deriving DecidableEq, Repr

/-- One step of the world outside the core (00_scope.md R16). Register accesses name the offset from `CORE_BASE`
in the 0x80-byte block (10_state.md R100); memory accesses are single bytes (20_memory.md R205). -/
inductive HostAction where
  /-- A load from the register block. -/
  | load (off : BitVec 7) (width : Width)
  /-- A store to the register block. -/
  | store (off : BitVec 7) (width : Width) (value : U32)
  /-- The host loads a byte at a host address; at one of the register block it is `fault MmioAccess` (10_state.md
  R100). -/
  | memLoad (addr : U64)
  /-- The host, or another master, stores a byte at a host address; at one of the register block it is
  `fault MmioAccess` (10_state.md R100, log entry 24). It is another busy instance's own store too (log entry 30). -/
  | memStore (addr : U64) (value : Byte)
  /-- Power-on reset (70_reset_and_hazards.md R1000). -/
  | powerOn
  /-- Another instance's command starts (60_exceptions.md R943). -/
  | peerIssue (peer : Peer)
  /-- Another instance's command ends. -/
  | peerDone (peer : Peer)
  deriving DecidableEq, Repr

/-- Whose step is next (60_exceptions.md R931, 70_reset_and_hazards.md R1010). -/
inductive Turn where
  /-- The core's. -/
  | core
  /-- The host's, and what it does. -/
  | host (action : HostAction)
  deriving DecidableEq, Repr

/-- The whole machine. -/
structure State where
  /-- The register block. -/
  regs : Regs
  /-- The operand snapshot of the command issued last. -/
  snap : Operands
  /-- The engines' working state. -/
  eng : Engine
  /-- Host memory. -/
  mem : Memory
  /-- The MODEL's own: how many free bytes were taken so far (log entry 5). No statement rests on its value. -/
  draws : Nat
  /-- The MODEL's own: the turns still to come, next first; when empty the turn is the core's (log entry 2). -/
  inbox : List Turn
  /-- The MODEL's own: what the host's last load returned (log entry 2). -/
  hostData : U32
  /-- The windows of the other busy instances (60_exceptions.md R943, log entry 16). -/
  peers : List Peer
  deriving DecidableEq, Repr

/-- Why the machine stops: the model faults of 60_exceptions.md R920, behaviour the spec gives no meaning. Each is
SAFE: the hardware does something there, and the model says nothing about it. -/
inductive Fault where
  /-- A host access to the register block that is not a 4-byte-aligned 32-bit load or store (10_state.md R100).
  Raised by a host load or store of the block, or of a byte at one of its addresses. Safe. -/
  | mmioAccess
  /-- A window of the command ends above `2^64` (20_memory.md R207). Raised at issue and at dispatch. Safe. -/
  | addressWrap
  /-- A read window and a write window of the command share a byte (20_memory.md R207). Raised at issue and at
  dispatch. Safe. -/
  | windowOverlap
  /-- A core read outside every read window (20_memory.md R210). Raised by `DECODE` on a corrupt payload. Safe. -/
  | srcOverread
  /-- A table read outside every read window (20_memory.md R210). Raised by no command: the table window is exact.
  Safe. -/
  | tblOverread
  /-- A core write outside every write window (20_memory.md R210). Raised by `ENCODE` and `ENCODE.T` when container
  and spill exceed the capacity. Safe. -/
  | dstOverrun
  /-- A store by the host to a window of the running command, or another busy instance's window sharing a byte with
  one, or two other busy instances' windows (20_memory.md R222, 60_exceptions.md R943). Raised by host actions. Safe. -/
  | hostRace
  deriving DecidableEq, Repr

/-- Why the model gives an instruction no meaning. -/
inductive Refusal where
  /-- An instruction of the opcode table the model has not reached. Raised by an arm of `exec` alone. Safe. No arm
  raises it now. -/
  | notModelled (mnemonic : String)
  deriving DecidableEq, Repr

/-- The register block after reset (10_state.md R130). -/
def Regs.reset : Regs where
  ie := false
  busy := false
  done := false
  cmd := 0
  error := 0
  result := 0
  srcAddrLo := 0
  srcAddrHi := 0
  srcLen := 0
  dstAddrLo := 0
  dstAddrHi := 0
  dstCap := 0
  tblAddrLo := 0
  tblAddrHi := 0

/-- The operand snapshot before any issue. DESIGN CHOICE (log entry 8), unsafe: the spec gives none; every issue
writes it before a command reads it. -/
def Operands.reset : Operands := ⟨0, 0, 0, 0, 0⟩

/-- The working state after power-on. DESIGN CHOICE (log entry 7), unsafe: the spec leaves it unspecified
(10_state.md R130) and never observable (R113). -/
def Engine.reset : Engine where
  lanes := Vector.replicate 32 0
  block := 0
  warp := 0
  group := 0
  cur := 0
  total := 0
  emitMask := Vector.replicate 4 0
  feedMask := Vector.replicate 4 0
  hist := Vector.replicate 256 0
  q := Vector.replicate 256 0
  cdf := Vector.replicate 256 0
  enc := Vector.replicate 256 0
  dec := Vector.replicate 2048 0
  rows := []

/-- The machine right after power-on reset (70_reset_and_hazards.md R1000): every register at the value of
10_state.md R130, the core idle, nothing written to host memory. -/
def State.reset : State where
  regs := Regs.reset
  snap := Operands.reset
  eng := Engine.reset
  mem := []
  draws := 0
  inbox := []
  hostData := 0
  peers := []

end Sys2Proof.Machine
end

