-- ==== Sys2Proof/Machine/Ops.lean ====
section
/-! DEFINITION. The named operations over memory and registers: bytes of host memory, little-endian views, windows
and the checked accesses, the ways a command ends (completion and error), issue and acknowledgement. -/

namespace Sys2Proof.Machine

/-! ### Host memory -/

/-- The byte listed at `a`, if any. -/
def Memory.get? : Memory → Nat → Option Byte
  | [], _ => none
  | (b, v) :: m, a => if a = b then some v else Memory.get? m a

/-- List `v` at `a`, keeping the addresses strictly rising. -/
def Memory.put : Memory → Nat → Byte → Memory
  | [], a, v => [(a, v)]
  | (b, w) :: m, a, v =>
    if a < b then (a, v) :: (b, w) :: m
    else if a = b then (a, v) :: m
    else (b, w) :: Memory.put m a v

/-- The addresses rise strictly from `lo` on and lie in the address space. -/
def Memory.wfFrom : Nat → Memory → Bool
  | _, [] => true
  | lo, (a, _) :: m => decide (lo ≤ a) && decide (a < Config.addressSpace) && Memory.wfFrom (a + 1) m

/-- The canonical form: strictly rising addresses below `2^64`. Every listed byte differs from what an unlisted
address holds, no written byte at all. -/
def Memory.wf (m : Memory) : Bool := Memory.wfFrom 0 m

/-- Replace the register block. -/
def State.setRegs (s : State) (r : Regs) : State := { s with regs := r }

/-- Replace the operand snapshot. -/
def State.setSnap (s : State) (o : Operands) : State := { s with snap := o }

/-- Replace the working state. -/
def State.setEng (s : State) (e : Engine) : State := { s with eng := e }

/-- Replace host memory. -/
def State.setMem (s : State) (m : Memory) : State := { s with mem := m }

/-- Replace the count of free bytes taken. -/
def State.setDraws (s : State) (n : Nat) : State := { s with draws := n }

/-- Replace the turns still to come. -/
def State.setInbox (s : State) (ts : List Turn) : State := { s with inbox := ts }

/-- Replace what the host's last load returned. -/
def State.setHostData (s : State) (v : U32) : State := { s with hostData := v }

/-- Replace the other busy instances. -/
def State.setPeers (s : State) (ps : List Peer) : State := { s with peers := ps }

/-- What a read of the byte at `a` gives: the byte written last, else the free value of that address (log entry 4). -/
def State.byteAt (s : State) (a : Nat) : Byte := (s.mem.get? a).getD (Config.powerOnByte a)

/-- Store a byte. An address at or above `2^64` does not exist; no access that passed its window check reaches one. -/
def State.setByte (s : State) (a : Nat) (v : Byte) : State :=
  if a < Config.addressSpace then s.setMem (s.mem.put a v) else s

/-- The `n` bytes at `a .. a+n-1` (00_scope.md R12). -/
def State.readBytes (s : State) (a n : Nat) : Vector Byte n := Vector.ofFn fun i => s.byteAt (a + i.val)

/-- Store bytes at `a, a+1, ...` in this order (00_scope.md R12, 20_memory.md R220). -/
def State.writeBytes : List Byte → Nat → State → State
  | [], _, s => s
  | b :: bs, a, s => State.writeBytes bs (a + 1) (s.setByte a b)

/-- `MemWriteAny(a, n)`: each byte takes any value, a fresh draw (00_scope.md R12, log entry 5). -/
def State.havoc : Nat → Nat → State → State
  | 0, _, s => s
  | n + 1, a, s => State.havoc n (a + 1) ((s.setByte a (Config.freeByte s.draws)).setDraws (s.draws + 1))

/-! ### Byte order: everything is little-endian (20_memory.md R201) -/

/-- A 16-bit number from its bytes. -/
def le16 (b : Vector Byte 2) : U16 := b[1] ++ b[0]

/-- A 32-bit number from its bytes. -/
def le32 (b : Vector Byte 4) : U32 := b[3] ++ b[2] ++ b[1] ++ b[0]

/-- A 64-bit number from its bytes. -/
def le64 (b : Vector Byte 8) : U64 := b[7] ++ b[6] ++ b[5] ++ b[4] ++ b[3] ++ b[2] ++ b[1] ++ b[0]

/-- The `n` bytes of a number, least significant first. -/
def leBytes {w : Nat} (n : Nat) (v : BitVec w) : List Byte :=
  (List.range n).map fun i => v.extractLsb' (8 * i) 8

/-! ### Windows (20_memory.md R206, R207, R210) -/

/-- The range `a .. a+n-1` lies inside the window. The address is an exact integer: a cursor below the payload
origin may give one below 0, which no window holds (log entry 14). -/
def Window.holds (w : Window) (a : Int) (n : Nat) : Bool :=
  decide ((w.base : Int) ≤ a ∧ a + (n : Int) ≤ (w.base : Int) + (w.len : Int))

/-- The byte at `a` lies in the window. -/
def Window.hasByte (w : Window) (a : Nat) : Bool := decide (w.base ≤ a ∧ a < w.base + w.len)

/-- The window ends above `2^64` (20_memory.md R207). -/
def Window.wraps (w : Window) : Bool := decide (Config.addressSpace < w.base + w.len)

/-- The two windows share a byte; an empty window shares none (20_memory.md R207). -/
def Window.overlaps (w v : Window) : Bool :=
  decide (0 < w.len ∧ 0 < v.len ∧ w.base < v.base + v.len ∧ v.base < w.base + w.len)

/-- The windows a command grants the core (20_memory.md R206). -/
structure Grant where
  reads : List Window
  writes : List Window
  deriving DecidableEq, Repr

/-- Some read window holds the range. -/
def Grant.mayRead (g : Grant) (a : Int) (n : Nat) : Bool := g.reads.any fun w => w.holds a n

/-- Some write window holds the range. -/
def Grant.mayWrite (g : Grant) (a : Int) (n : Nat) : Bool := g.writes.any fun w => w.holds a n

/-- The byte at `a` lies in a write window. -/
def Grant.writesByte (g : Grant) (a : Nat) : Bool := g.writes.any fun w => w.hasByte a

/-- The byte at `a` lies in some window. -/
def Grant.hasByte (g : Grant) (a : Nat) : Bool := (g.reads ++ g.writes).any fun w => w.hasByte a

/-- A window of the command ends above `2^64`. -/
def Grant.wraps (g : Grant) : Bool := (g.reads ++ g.writes).any Window.wraps

/-- A read window and a write window of the command share a byte. -/
def Grant.selfOverlaps (g : Grant) : Bool := g.reads.any fun r => g.writes.any fun w => r.overlaps w

/-- The fault the windows of a command cause, `AddressWrap` before `WindowOverlap` (20_memory.md R207,
60_exceptions.md R930). -/
def Grant.fault? (g : Grant) : Option Fault :=
  if g.wraps then some .addressWrap else if g.selfOverlaps then some .windowOverlap else none

/-- The windows of another instance's running command. -/
def Peer.grant (p : Peer) : Grant := ⟨p.reads, p.writes⟩

/-- A write window of one shares a byte with a window of the other (60_exceptions.md R943). -/
def Grant.races (g : Grant) (p : Peer) : Bool :=
  (g.writes.any fun w => (p.reads ++ p.writes).any fun v => w.overlaps v) ||
    (p.writes.any fun w => (g.reads ++ g.writes).any fun v => w.overlaps v)

/-! ### How a command ends -/

/-- Error codes (60_exceptions.md R900). -/
inductive ErrorCode where
  | ok
  | partialBlock
  | dstCapacityTooSmall
  | unsupportedProbBits
  | badMagic
  | badVersion
  | illegalCommand
  | misaligned
  | truncated
  | badTable
  | corruptIndex
  deriving DecidableEq, Repr

/-- The code's number in `ERROR` (60_exceptions.md R900). -/
def ErrorCode.word : ErrorCode → U32
  | .ok => 0
  | .partialBlock => 1
  | .dstCapacityTooSmall => 2
  | .unsupportedProbBits => 3
  | .badMagic => 4
  | .badVersion => 5
  | .illegalCommand => 6
  | .misaligned => 7
  | .truncated => 8
  | .badTable => 9
  | .corruptIndex => 10

/-- Completion, one indivisible step (40_commands.md R404). -/
def complete (code : ErrorCode) (count : U32) (s : State) : State :=
  s.setRegs { s.regs with error := code.word, result := count, busy := false, done := true }

/-- `raise Error(code)`: the command ends with the code and `RESULT = 0` (00_scope.md R13, 60_exceptions.md R901).
This is all the exception entry the core has (60_exceptions.md R935). -/
def raise (code : ErrorCode) (s : State) : State := complete code 0 s

/-- Acknowledge a completion: `DONE` is cleared (10_state.md R105, 60_exceptions.md R936). This is all the exception
return the core has. -/
def acknowledge (s : State) : State := s.setRegs { s.regs with done := false }

/-- The operands the registers hold (10_state.md R109): `SRC = SRC_ADDR_HI ++ SRC_ADDR_LO`, and so on. -/
def Regs.operands (r : Regs) : Operands where
  src := r.srcAddrHi ++ r.srcAddrLo
  srcLen := r.srcLen
  dst := r.dstAddrHi ++ r.dstAddrLo
  dstCap := r.dstCap
  tbl := r.tblAddrHi ++ r.tblAddrLo

/-- Issue of the word `x`, one indivisible step (40_commands.md R401). -/
def issue (x : U32) (s : State) : State :=
  (s.setRegs { s.regs with cmd := x, done := false, error := 0, result := 0, busy := true }).setSnap s.regs.operands

/-- Why the run of a command stops before its next line. -/
inductive Halt where
  /-- The command has ended in this state. -/
  | ended (s : State)
  /-- The run is faulted (00_scope.md R14). -/
  | fault (f : Fault)
  deriving DecidableEq, Repr

/-- A part of a command's run that gives an `α` or stops. -/
abbrev Run (α : Type) := Except Halt α

/-- The outcome of a whole command. -/
def Run.finish : Run State → Host.Outcome State Fault Refusal
  | .ok s => .next s
  | .error (.ended s) => .next s
  | .error (.fault f) => .fault f

/-- A check of a command: unless it holds, the command raises `code` (40_commands.md R403). -/
def require (holds : Bool) (code : ErrorCode) (s : State) : Run Unit :=
  if holds then .ok () else .error (.ended (raise code s))

/-- Do `f` for each element in turn. -/
def sweep {α : Type} (f : α → State → Run State) : List α → State → Run State
  | [], s => .ok s
  | a :: as, s =>
    match f a s with
    | .ok t => sweep f as t
    | .error h => .error h

/-- Gather what `f` gives for each element in turn. -/
def collect {α β : Type} (f : α → Run β) : List α → Run (List β)
  | [] => .ok []
  | a :: as =>
    match f a with
    | .error h => .error h
    | .ok b =>
      match collect f as with
      | .error h => .error h
      | .ok bs => .ok (b :: bs)

/-! ### The core's accesses to host memory (00_scope.md R12, 20_memory.md R210) -/

/-- Which read it is, which names the fault of an access outside every read window (20_memory.md R210). -/
inductive ReadKind where
  | source
  | table
  deriving DecidableEq, Repr

/-- The fault of a read outside every read window (20_memory.md R210). -/
def ReadKind.fault : ReadKind → Fault
  | .source => .srcOverread
  | .table => .tblOverread

/-- `MemRead(a, n)` (00_scope.md R12). It changes nothing (20_memory.md R208). -/
def coreRead (g : Grant) (kind : ReadKind) (a : Int) (n : Nat) (s : State) : Run (Vector Byte n) :=
  if g.mayRead a n then .ok (s.readBytes a.toNat n) else .error (.fault kind.fault)

/-- `MemWrite(a, n, v)` with the bytes of `v` (00_scope.md R12). -/
def coreWrite (g : Grant) (a : Int) (bs : List Byte) (s : State) : Run State :=
  if g.mayWrite a bs.length then .ok (s.writeBytes bs a.toNat) else .error (.fault .dstOverrun)

/-- A store of `n` bytes whose first ones are `bs` and whose others take any value (42_encoder.md R518). -/
def coreWriteSpill (g : Grant) (a : Int) (bs : List Byte) (n : Nat) (s : State) : Run State :=
  if g.mayWrite a n then
    .ok ((s.writeBytes bs a.toNat).havoc (n - bs.length) (a.toNat + bs.length))
  else .error (.fault .dstOverrun)

end Sys2Proof.Machine
end

