-- ==== Sys2Proof/Machine/Operands.lean ====
section
/-! DEFINITION. Operand forms: the windows and checks a command derives from its operands, and the fields of the
data records (20_memory.md R204 to R207, 30_encoding.md R310 to R315, 40_commands.md R420 to R422). -/

namespace Sys2Proof.Machine

/-! ### Windows of the commands (20_memory.md R206) -/

/-- `[SRC, SRC+srcLen)`. -/
def Operands.srcWindow (o : Operands) : Window := ⟨o.src.toNat, o.srcLen.toNat⟩

/-- `[DST, DST+dstCapacity)`. -/
def Operands.dstWindow (o : Operands) : Window := ⟨o.dst.toNat, o.dstCap.toNat⟩

/-- `[TBL, TBL+2048)`. -/
def Operands.tblWindow (o : Operands) : Window := ⟨o.tbl.toNat, Config.tableBytes⟩

/-- The windows a command grants (20_memory.md R206). -/
def grantOf (i : Instr) (o : Operands) : Grant :=
  match i with
  | .nop => ⟨[], []⟩
  | .buildTable _ => ⟨[o.srcWindow], [o.tblWindow]⟩
  | .encode _ => ⟨[o.srcWindow], [o.dstWindow]⟩
  | .encodeT _ => ⟨[o.srcWindow, o.tblWindow], [o.dstWindow]⟩
  | .decode => ⟨[o.srcWindow], [o.dstWindow]⟩

/-- The windows of a command word; an illegal word has none (30_encoding.md R303: it touches no memory). -/
def grantOfWord (x : U32) (o : Operands) : Grant :=
  match decodeCommand x with
  | .ok i => grantOf i o
  | .error _ => ⟨[], []⟩

/-- The window checks made before any error check of the command (20_memory.md R207, 40_commands.md R402). -/
def checkWindows (g : Grant) : Run Unit :=
  match g.fault? with
  | some f => .error (.fault f)
  | none => .ok ()

/-! ### Checks shared by the commands -/

/-- The address is a multiple of `n` (20_memory.md R204). -/
def isAligned (a : U64) (n : Nat) : Bool := decide (a.toNat % n = 0)

/-- `probBits` is 9, 10 or 11 (40_commands.md R420). -/
def isProbBits (pb : Nat) : Bool := decide (pb = 9 ∨ pb = 10 ∨ pb = 11)

/-- The length is a positive multiple of 4096 (40_commands.md R421). -/
def isFullBlocks (n : Nat) : Bool := decide (n ≠ 0 ∧ n % Config.blockBytes = 0)

/-- The capacity is at least `srcLen + floor(srcLen / 4) + 2048`, exactly (40_commands.md R422). -/
def isEncodeCapacity (srcLen dstCap : Nat) : Bool := decide (srcLen + srcLen / 4 + 2048 ≤ dstCap)

/-! ### The encoder table entry (30_encoding.md R310) -/

/-- The record with these fields; bits 31:29 are 0. -/
def encRecord (divM1 : U32) (shift : BitVec 5) (cdf pdf : BitVec 12) : U64 := divM1 ++ 0#3 ++ shift ++ cdf ++ pdf

/-- `pdf`, bits 11:0. -/
def encPdf (e : U64) : U32 := (e.extractLsb' 0 12).setWidth 32

/-- `cdf`, bits 23:12. -/
def encCdf (e : U64) : U32 := (e.extractLsb' 12 12).setWidth 32

/-- `shift`, bits 28:24. -/
def encShift (e : U64) : U32 := (e.extractLsb' 24 5).setWidth 32

/-- `divM1`, bits 63:32. -/
def encDivM1 (e : U64) : U32 := e.extractLsb' 32 32

/-! ### The decoder table entry (30_encoding.md R311) -/

/-- `(slot << 20) | (pdf << 8) | symbol`. -/
def decRecord (slot pdf : BitVec 12) (symbol : Byte) : U32 := slot ++ pdf ++ symbol

/-- `symbol`, bits 7:0. -/
def decSymbol (e : U32) : Byte := e.extractLsb' 0 8

/-- `pdf`, bits 19:8. -/
def decPdf (e : U32) : U32 := (e.extractLsb' 8 12).setWidth 32

/-- `slot`, bits 31:20. -/
def decSlot (e : U32) : U32 := (e.extractLsb' 20 12).setWidth 32

/-! ### Container words (30_encoding.md R313 to R315) -/

/-- `magicAndVersion`: magic in bits 31:16, version in bits 15:0. -/
def magicAndVersion : U32 := Config.magic ++ Config.version

/-- The `options` word the writer stores: `probBits` in 3:0, all else 0. -/
def optionsWord (pb : Nat) : U32 := (0#28 : BitVec 28) ++ BitVec.ofNat 4 pb

/-- `probBits` of an `options` word, bits 3:0; the rest is ignored on read. -/
def optionsProbBits (w : U32) : Nat := (w.extractLsb' 0 4).toNat

/-- Word 0 of a block-index entry: `(uncompressedWords << 16) | compressedWords`. -/
def indexWord (uncompressed compressed : U16) : U32 := uncompressed ++ compressed

/-- `compressedWords` of an index word 0. -/
def indexCompressed (w : U32) : Nat := (w.extractLsb' 0 16).toNat

/-- `uncompressedWords` of an index word 0. -/
def indexUncompressed (w : U32) : Nat := (w.extractLsb' 16 16).toNat

end Sys2Proof.Machine
end

