-- ==== Sys2Proof/Machine/Flags.lean ====
section
/-! DEFINITION. The flag-like values: lane masks and their counts (10_state.md R112, 45_simd.md R808), and the
register words that report the status of the core (10_state.md R104, R105, 60_exceptions.md R910). -/

namespace Sys2Proof.Machine

/-- `popcount(m)` of an 8-bit mask (45_simd.md R808). -/
def popcount (m : BitVec 8) : Nat := (List.range 8).countP fun j => m.getLsbD j

/-- `rank(m, l) = popcount(m AND (2^l - 1))` (45_simd.md R831). -/
def rank (m : BitVec 8) (l : Nat) : Nat := (List.range l).countP fun j => m.getLsbD j

/-- The positions of the set bits of a mask, from bit 0 upward (45_simd.md R830). -/
def setBits (m : BitVec 8) : List Nat := (List.range 8).filter fun j => m.getLsbD j

/-- The interrupt output: `STATUS.DONE AND CTRL.IE` (60_exceptions.md R910). -/
def State.irq (s : State) : Bool := s.regs.done && s.regs.ie

/-- The level at the platform's interrupt input `line`, as far as this core drives it (60_exceptions.md R910). -/
def State.irqAt (s : State) (line : Nat) : Bool := decide (line = Config.irqLine) && s.irq

/-- What `STATUS` reads: `BUSY`, `DONE`, `IRQ` in bits 0, 1, 2 (10_state.md R105). -/
def State.statusWord (s : State) : U32 :=
  (0#29 : BitVec 29) ++ BitVec.ofBool s.irq ++ BitVec.ofBool s.regs.done ++ BitVec.ofBool s.regs.busy

/-- What `CTRL` reads: `IE` in bit 0, `SRST` reads 0 (10_state.md R104). -/
def State.ctrlWord (s : State) : U32 := (0#31 : BitVec 31) ++ BitVec.ofBool s.regs.ie

/-- Record group `g`'s emit mask (10_state.md R112). -/
def Engine.setEmit (e : Engine) (g : Fin 4) (m : BitVec 8) : Engine := { e with emitMask := e.emitMask.set g m }

/-- Record group `g`'s feed mask (10_state.md R112). -/
def Engine.setFeed (e : Engine) (g : Fin 4) (m : BitVec 8) : Engine := { e with feedMask := e.feedMask.set g m }

end Sys2Proof.Machine
end

