-- ==== Sys2Proof/Machine/Simd.lean ====
section
/-! DEFINITION. The 256-bit datapath's functions, lane by lane, and the permutation ROMs (45_simd.md R800 to R841).
The host cannot issue them (30_encoding.md R305); the engines are built from them. -/

namespace Sys2Proof.Machine

/-- A vector: 8 lanes of 32 bits (45_simd.md R800). -/
abbrev Vec := Vector U32 8

/-- A half-vector: 8 elements of 16 bits (45_simd.md R800). -/
abbrev Half := Vector U16 8

/-- `mulhi32(a, b) = floor(a * b / 2^32)` (00_scope.md R10). -/
def mulhi32 (a b : U32) : U32 := BitVec.ofNat 32 (a.toNat * b.toNat / 2 ^ 32)

/-- `clz(x)`, the number of leading zero bits, `clz(0) = 32` (00_scope.md R10). -/
def clz (x : U32) : Nat := ((List.range 32).reverse.takeWhile fun i => !x.getLsbD i).length

/-- `and` (45_simd.md R802). -/
def vand (a b : Vec) : Vec := Vector.ofFn fun j => a[j] &&& b[j]

/-- `or` (45_simd.md R802). -/
def vor (a b : Vec) : Vec := Vector.ofFn fun j => a[j] ||| b[j]

/-- `shl(a, c)` by a constant (45_simd.md R803). -/
def vshl (a : Vec) (c : Nat) : Vec := Vector.ofFn fun j => a[j] <<< c

/-- `shr(a, c)` by a constant, logical (45_simd.md R803). -/
def vshr (a : Vec) (c : Nat) : Vec := Vector.ofFn fun j => a[j] >>> c

/-- `shrv(a, s)`: each lane by its own count, 0 from 32 on (45_simd.md R804). -/
def vshrv (a s : Vec) : Vec := Vector.ofFn fun j => if s[j].toNat < 32 then a[j] >>> s[j].toNat else 0

/-- `add` modulo `2^32` (45_simd.md R805). -/
def vadd (a b : Vec) : Vec := Vector.ofFn fun j => a[j] + b[j]

/-- `sub` modulo `2^32` (45_simd.md R805). -/
def vsub (a b : Vec) : Vec := Vector.ofFn fun j => a[j] - b[j]

/-- `mullo32`, the low half of the product (45_simd.md R806). -/
def vmullo (a b : Vec) : Vec := Vector.ofFn fun j => a[j] * b[j]

/-- `mulhi32`, the high half of the unsigned product (45_simd.md R806). -/
def vmulhi (a b : Vec) : Vec := Vector.ofFn fun j => mulhi32 a[j] b[j]

/-- `cmp_gt`, unsigned (45_simd.md R807). -/
def vcmpGt (a b : Vec) : Vec := Vector.ofFn fun j => if b[j] < a[j] then 0xFFFFFFFF#32 else 0#32

/-- `mask`, the lanes' sign bits (45_simd.md R808). -/
def vmask (a : Vec) : BitVec 8 := BitVec.ofFnLE fun j : Fin 8 => a[j].msb

/-- `gather32(DEC, idx)` (45_simd.md R809). The engine uses it only with indexes below `2^PB`. DESIGN CHOICE (log entry
25): the spec states no value for an index of 2048 or more, and the model takes a free value there. -/
def gather32 (dec : Vector U32 2048) (idx : Vec) : Vec :=
  Vector.ofFn fun j => dec.getD idx[j].toNat (Config.decOutside idx[j].toNat)

/-- `gather64(ENC, idx)`, the low and high halves of the records (45_simd.md R809). The engine uses it only with
indexes below 256. DESIGN CHOICE (log entry 25): the spec states no value for an index of 256 or more, and the model
takes a free value there. -/
def gather64 (enc : Vector U64 256) (idx : Vec) : Vec × Vec :=
  (Vector.ofFn fun j => (enc.getD idx[j].toNat (Config.encOutside idx[j].toNat)).extractLsb' 0 32,
   Vector.ofFn fun j => (enc.getD idx[j].toNat (Config.encOutside idx[j].toNat)).extractLsb' 32 32)

/-- `permute8x32(a, idx)[j] = a[idx[j] AND 7]` (45_simd.md R810). -/
def permute8x32 (a : Vec) (idx : Vec) : Vec := Vector.ofFn fun j => a.get (Fin.ofNat 8 idx[j].toNat)

/-- `blendv(a, b, m)`: `b` where the sign bit of `m` is 1 (45_simd.md R811). -/
def blendv (a b m : Vec) : Vec := Vector.ofFn fun j => if m[j].msb then b[j] else a[j]

/-- `broadcast32(c)` (45_simd.md R812). -/
def broadcast32 (c : U32) : Vec := Vector.replicate 8 c

/-- `cvt_u8_u32` (45_simd.md R813). -/
def cvtU8 (b : Vector Byte 8) : Vec := Vector.ofFn fun j => b[j].setWidth 32

/-- The 8 halfwords of a 16-byte read, little-endian (45_simd.md R813). -/
def halves (b : Vector Byte 16) : Half := Vector.ofFn fun j => b[2 * j.val + 1] ++ b[2 * j.val]

/-- `cvt_u16_u32` (45_simd.md R813). -/
def cvtU16 (h : Half) : Vec := Vector.ofFn fun j => h[j].setWidth 32

/-- `pack32_16`, truncating (45_simd.md R814). -/
def pack32to16 (a : Vec) : Half := Vector.ofFn fun j => a[j].setWidth 16

/-- `pack32_16x2`: `a` in elements 0..7, `b` in 8..15 (45_simd.md R814). -/
def pack32to16x2 (a b : Vec) : Vector U16 16 :=
  Vector.ofFn fun j => if h : j.val < 8 then a[j.val].setWidth 16 else b[j.val - 8].setWidth 16

/-- `pack16_8`, truncating (45_simd.md R814). -/
def pack16to8 (u : Vector U16 16) : Vector Byte 16 := Vector.ofFn fun j => u[j].setWidth 8

/-- The memory image of a half-vector, 16 bytes (45_simd.md R800). -/
def halfBytes (h : Half) : List Byte := h.toList.flatMap fun v => leBytes 2 v

/-! ### Permutation ROMs -/

/-- `writePermute[m]`: entry `i` is the position of the `i`-th set bit, then filler (45_simd.md R830). -/
def writePermute (m : BitVec 8) : Vec :=
  Vector.ofFn fun i =>
    match (setBits m)[i.val]? with
    | some l => BitVec.ofNat 32 l
    | none => (Config.writeFiller m i.val).setWidth 32

/-- `readPermute[m]`: entry `l` of a set lane is `8 - n + rank(m, l)`, filler for a clear lane (45_simd.md R831). -/
def readPermute (m : BitVec 8) : Vec :=
  Vector.ofFn fun l =>
    if m.getLsbD l.val then BitVec.ofNat 32 (8 - popcount m + rank m l.val)
    else (Config.readFiller m l.val).setWidth 32

/-! ### The broadcast table load (45_simd.md R840) -/

/-- `lo` and `hi` of eight records from entry `8 * hb` on. -/
def tableEighth (enc : Vector U64 256) (hb : Nat) : Vec × Vec :=
  (Vector.ofFn fun j => (enc.getD (8 * hb + j.val) 0).extractLsb' 0 32,
   Vector.ofFn fun j => (enc.getD (8 * hb + j.val) 0).extractLsb' 32 32)

/-- The broadcast variant of the table load: permutes and blends of the first 16 records, selected by bit 3 of the
symbol (45_simd.md R840). -/
def broadcastLoad (enc : Vector U64 256) (sym : Vec) : Vec × Vec :=
  let sel := vshl sym 28
  (blendv (permute8x32 (tableEighth enc 0).1 sym) (permute8x32 (tableEighth enc 1).1 sym) sel,
   blendv (permute8x32 (tableEighth enc 0).2 sym) (permute8x32 (tableEighth enc 1).2 sym) sel)

/-! ### Lane groups (10_state.md R110, 45_simd.md R800) -/

/-- Group `g`: core lanes `8g .. 8g+7`. -/
def laneGroup (lanes : Vector U32 32) (g : Fin 4) : Vec := Vector.ofFn fun j => lanes[8 * g.val + j.val]

/-- Replace group `g`. -/
def setLaneGroup (lanes : Vector U32 32) (g : Fin 4) (x : Vec) : Vector U32 32 :=
  Vector.ofFn fun l => if l.val / 8 = g.val then x[l.val % 8] else lanes[l]

end Sys2Proof.Machine
end

