-- ==== Sys2Proof/Machine/Statistics.lean ====
section
/-! DEFINITION. The statistics unit and `BUILD_TABLE` (41_statistics.md). -/

namespace Sys2Proof.Machine

/-! ### Histogram (41_statistics.md R450) -/

/-- The table index of a symbol. -/
def symIdx (b : Byte) : Fin 256 := ⟨b.toNat, b.isLt⟩

/-- `HIST[b] <- HIST[b] + 1`. -/
def countSymbol (hist : Vector U32 256) (b : Byte) : Vector U32 256 :=
  hist.set (symIdx b) (hist.get (symIdx b) + 1)

/-- Count source byte `i`. -/
def histogramByte (g : Grant) (i : Nat) (s : State) : Run State := do
  let b ← coreRead g .source (s.snap.src.toNat + i) 1 s
  .ok (s.setEng { s.eng with hist := countSymbol s.eng.hist b[0] })

/-- `Histogram(SRC, srcLen)` (41_statistics.md R450). -/
def histogram (g : Grant) (s : State) : Run State :=
  sweep (histogramByte g) (List.range s.snap.srcLen.toNat)
    (s.setEng { s.eng with hist := Vector.replicate 256 0 })

/-! ### Quantization (41_statistics.md R452 to R456) -/

/-- `T`, the sum of the counters. -/
def histTotal (hist : Vector U32 256) : Nat := (hist.toList.map BitVec.toNat).sum

/-- The sum of the probabilities. -/
def probTotal (q : Vector Nat 256) : Nat := q.toList.sum

/-- Step 1: `floor(M * HIST[s] / T)`, exact (41_statistics.md R452). -/
def roundProbs (hist : Vector U32 256) (pb : Nat) : Vector Nat 256 :=
  let total := histTotal hist
  Vector.ofFn fun s => 2 ^ pb * hist[s].toNat / total

/-- Step 2: no live symbol at zero (41_statistics.md R453). -/
def liftLive (hist : Vector U32 256) (q : Vector Nat 256) : Vector Nat 256 :=
  Vector.ofFn fun s => if 0 < hist[s].toNat ∧ q[s] = 0 then 1 else q[s]

/-- Descending lexicographic order of the pairs `(Q[s], s)` (41_statistics.md R454). -/
def pairBefore (a b : Nat × Fin 256) : Bool := decide (b.1 < a.1 ∨ (b.1 = a.1 ∧ b.2 < a.2))

/-- Insert a pair into a list in descending order. -/
def insertPair (p : Nat × Fin 256) : List (Nat × Fin 256) → List (Nat × Fin 256)
  | [] => [p]
  | x :: xs => if pairBefore p x then p :: x :: xs else x :: insertPair p xs

/-- Step 3a: `order`, all 256 pairs, formed once (41_statistics.md R454). -/
def sortedOrder (q : Vector Nat 256) : List (Nat × Fin 256) :=
  (List.finRange 256).foldr (fun s xs => insertPair (q.get s, s) xs) []

/-- One visit of each listed symbol while a deficit `d` is left: add 1 (41_statistics.md R455). -/
def deficitPass : List (Fin 256) → Nat → Vector Nat 256 → Nat × Vector Nat 256
  | [], d, q => (d, q)
  | _ :: _, 0, q => (0, q)
  | s :: rest, d + 1, q => deficitPass rest d (q.set s (q.get s + 1))

/-- Step 3b: passes over the live symbols until the deficit is gone (41_statistics.md R455). The first number bounds
the passes. -/
def deficitFix (live : List (Fin 256)) : Nat → Nat → Vector Nat 256 → Vector Nat 256
  | 0, _, q => q
  | n + 1, d, q =>
    if d = 0 then q
    else
      let r := deficitPass live d q
      deficitFix live n r.1 r.2

/-- One visit of each listed symbol while a surplus `d` is left: take 1 where `Q[s] > 1` (41_statistics.md R456). -/
def surplusPass : List (Fin 256) → Nat → Vector Nat 256 → Nat × Vector Nat 256
  | [], d, q => (d, q)
  | _ :: _, 0, q => (0, q)
  | s :: rest, d + 1, q =>
    if 1 < q.get s then surplusPass rest d (q.set s (q.get s - 1)) else surplusPass rest (d + 1) q

/-- Step 3c: passes from the tail of `order` until the surplus is gone (41_statistics.md R456). The first number
bounds the passes: each pass takes at least one unit (R458). -/
def surplusFix (rev : List (Fin 256)) : Nat → Nat → Vector Nat 256 → Vector Nat 256
  | 0, _, q => q
  | n + 1, d, q =>
    if d = 0 then q
    else
      let r := surplusPass rev d q
      surplusFix rev n r.1 r.2

/-- Steps 3a to 3c: make the sum `M` (41_statistics.md R454 to R456). -/
def correctSum (m : Nat) (q : Vector Nat 256) : Vector Nat 256 :=
  let order := sortedOrder q
  if probTotal q < m then
    let d := m - probTotal q
    deficitFix ((order.filter fun p => decide (0 < p.1)).map Prod.snd) d d q
  else
    let d := probTotal q - m
    surplusFix (order.reverse.map Prod.snd) d d q

/-- The quantized probabilities as exact numbers (41_statistics.md R452 to R456). -/
def quantizeExact (hist : Vector U32 256) (pb : Nat) : Vector Nat 256 :=
  correctSum (2 ^ pb) (liftLive hist (roundProbs hist pb))

/-- `Quantize(HIST, PB)`, held in 12 bits (10_state.md R122). -/
def quantize (hist : Vector U32 256) (pb : Nat) : Vector (BitVec 12) 256 :=
  let q := quantizeExact hist pb
  Vector.ofFn fun s => BitVec.ofNat 12 q[s]

/-! ### Encoder table (41_statistics.md R460 to R465) -/

/-- `cdf[s]`, the sum of the probabilities before `s` (41_statistics.md R460). -/
def cumulative (q : Vector (BitVec 12) 256) : Vector (BitVec 12) 256 :=
  Vector.ofFn fun s => BitVec.ofNat 12 ((q.toList.take s.val).map BitVec.toNat).sum

/-- `shift(q)` (41_statistics.md R461). -/
def divShift (q : Nat) : Nat := if q ≤ 1 then 0 else 32 - clz (BitVec.ofNat 32 (q - 1))

/-- `divM1(q) = floor(2^32 * (2^shift - q) / q) + 1`, exact (41_statistics.md R462). -/
def divMagic (q : Nat) : Nat := 2 ^ 32 * (2 ^ divShift q - q) / q + 1

/-- The record of a symbol (41_statistics.md R465). -/
def encEntry (q cdf : BitVec 12) : U64 :=
  if 0 < q.toNat then
    encRecord (BitVec.ofNat 32 (divMagic q.toNat)) (BitVec.ofNat 5 (divShift q.toNat)) cdf q
  else encRecord 0 0 cdf 0

/-- `BuildEncTable(Q, PB)` (41_statistics.md R465). -/
def encTable (q : Vector (BitVec 12) 256) : Vector U64 256 :=
  let cdf := cumulative q
  Vector.ofFn fun s => encEntry q[s] cdf[s]

/-- `BuildStats(SRC, srcLen, PB)` (41_statistics.md R466). -/
def buildStats (g : Grant) (pb : Nat) (s : State) : Run State := do
  let s ← histogram g s
  let q := quantize s.eng.hist pb
  .ok (s.setEng { s.eng with q := q, cdf := cumulative q, enc := encTable q })

/-! ### BUILD_TABLE (41_statistics.md R480) -/

/-- `MemWrite(TBL + 8*i, 8, ENC[i])` (30_encoding.md R312). -/
def storeRecord (g : Grant) (i : Fin 256) (s : State) : Run State :=
  coreWrite g (s.snap.tbl.toNat + 8 * i.val) (leBytes 8 (s.eng.enc.get i)) s

/-- Write the encoder-table image. -/
def storeTable (g : Grant) (s : State) : Run State := sweep (storeRecord g) (List.finRange 256) s

/-- `BUILD_TABLE` (41_statistics.md R480). -/
def runBuildTable (pb : Nat) (s : State) : Run State := do
  let g := grantOf (.buildTable pb) s.snap
  checkWindows g
  require (isAligned s.snap.tbl 8) .misaligned s
  require (isFullBlocks s.snap.srcLen.toNat) .partialBlock s
  require (isProbBits pb) .unsupportedProbBits s
  let s ← buildStats g pb s
  let s ← storeTable g s
  .ok (complete .ok (BitVec.ofNat 32 Config.tableBytes) s)

/-- The meaning of `BUILD_TABLE` (41_statistics.md R480). -/
def execBuildTable (pb : Nat) (s : State) : Host.Outcome State Fault Refusal := (runBuildTable pb s).finish

end Sys2Proof.Machine
end

