-- ==== Sys2Proof/Machine/Container.lean ====
section
/-! DEFINITION. The container: geometry, writer and validator (44_container.md). -/

namespace Sys2Proof.Machine

/-! ### Geometry (44_container.md R700 to R702) -/

/-- Offset of `probs[s]`. -/
def probsOffset (s : Nat) : Nat := 32 + 2 * s

/-- Offset of `warpState[k][l]`. -/
def stateOffset (k l : Nat) : Nat := 544 + 128 * k + 4 * l

/-- `IndexOffset(nb)`. -/
def indexOffset (nb : Nat) : Nat := 544 + 128 * nb

/-- `PayloadOffset(nb)`; `ceil(nb/2) = (nb + 1) / 2`. -/
def payloadOffset (nb : Nat) : Nat := 544 + 128 * nb + 16 * ((nb + 1) / 2)

/-! ### Writer (44_container.md R710) -/

/-- Write the eight header words. -/
def writeHeader (g : Grant) (nb srcLen tc pb : Nat) (s : State) : Run State :=
  sweep (fun (p : Nat × U32) s => coreWrite g (s.snap.dst.toNat + p.1) (leBytes 4 p.2) s)
    [(0, magicAndVersion), (4, BitVec.ofNat 32 nb), (8, BitVec.ofNat 32 srcLen), (12, BitVec.ofNat 32 tc),
     (16, optionsWord pb), (20, 0), (24, 0), (28, 0)] s

/-- Write `probs[0..255]`, the `pdf` fields of the table used (92_eei_decisions.md D48). -/
def writeProbs (g : Grant) (s : State) : Run State :=
  sweep (fun (i : Fin 256) s =>
    coreWrite g (s.snap.dst.toNat + probsOffset i.val) (leBytes 2 ((encPdf (s.eng.enc.get i)).setWidth 16 : U16)) s)
    (List.finRange 256) s

/-- Write block `k`'s state vector and its index entry. DESIGN CHOICE (log entry 28): the entry is two stores of 4 bytes,
as 44_container.md R710 writes it, where the table of 20_memory.md R205 gives the width 8. -/
def writeBlockRow (g : Grant) (nb : Nat) (p : Nat × BlockRow) (s : State) : Run State := do
  let base := s.snap.dst.toNat
  let s ← sweep (fun (l : Fin 32) s =>
    coreWrite g (base + stateOffset p.1 l.val) (leBytes 4 (p.2.states.get l)) s) (List.finRange 32) s
  let s ← coreWrite g (base + (indexOffset nb + 8 * p.1))
    (leBytes 4 (indexWord (BitVec.ofNat 16 Config.blockBytes) (BitVec.ofNat 16 p.2.words))) s
  coreWrite g (base + (indexOffset nb + 8 * p.1 + 4)) (leBytes 4 (BitVec.ofNat 32 p.2.startOffset)) s

/-- Write the index pad entry when `nb` is odd (44_container.md R705). -/
def writeIndexPad (g : Grant) (nb : Nat) (s : State) : Run State :=
  if nb % 2 = 1 then coreWrite g (s.snap.dst.toNat + (indexOffset nb + 8 * nb)) (leBytes 8 (0 : U64)) s else .ok s

/-- `WriteContainerMeta` (44_container.md R710), with `ENC` and the blocks' rows taken from the working state. -/
def writeContainerMeta (g : Grant) (nb srcLen tc pb : Nat) (s : State) : Run State := do
  let s ← writeHeader g nb srcLen tc pb s
  let s ← writeProbs g s
  let s ← sweep (writeBlockRow g nb) ((List.range s.eng.rows.length).zip s.eng.rows) s
  writeIndexPad g nb s

/-! ### Validator (44_container.md R720) -/

/-- A validated container: `nb`, `PB`, `tu`, `probs` and the index entries `(word 0, startOffset)`. -/
structure Container where
  blocks : Nat
  probBits : Nat
  totalUncompressed : U32
  probs : List U16
  index : List (U32 × U32)
  deriving DecidableEq, Repr

/-- Read the 32-bit container word at an offset from `SRC`. -/
def readWord32 (g : Grant) (off : Nat) (s : State) : Run U32 := do
  let b ← coreRead g .source (s.snap.src.toNat + off) 4 s
  .ok (le32 b)

/-- Read `probs[i]`. -/
def readProb (g : Grant) (s : State) (i : Nat) : Run U16 := do
  let b ← coreRead g .source (s.snap.src.toNat + probsOffset i) 2 s
  .ok (le16 b)

/-- Read index entry `k`, 8 bytes: word 0 and `startOffset`. -/
def readIndexEntry (g : Grant) (nb : Nat) (s : State) (k : Nat) : Run (U32 × U32) := do
  let b ← coreRead g .source (s.snap.src.toNat + (indexOffset nb + 8 * k)) 8 s
  .ok ((le64 b).extractLsb' 0 32, (le64 b).extractLsb' 32 32)

/-- `Σ_s probs[s]`. -/
def probsTotal (ps : List U16) : Nat := (ps.map BitVec.toNat).sum

/-- `ValidateContainer(SRC, srcLen, dstCapacity)`, its eleven checks in order, exact arithmetic (44_container.md
R720). -/
def validateContainer (g : Grant) (s : State) : Run Container := do
  let srcLen := s.snap.srcLen.toNat
  require (decide (32 ≤ srcLen)) .truncated s
  let h ← collect (fun j => readWord32 g (4 * j) s) (List.range 8)
  let word := fun (j : Nat) => h.getD j 0
  require (decide ((word 0).extractLsb' 16 16 = Config.magic)) .badMagic s
  require (decide ((word 0).extractLsb' 0 16 = Config.version)) .badVersion s
  require (decide (544 ≤ srcLen)) .truncated s
  let nb := (word 1).toNat
  let tu := (word 2).toNat
  let tc := (word 3).toNat
  let pb := optionsProbBits (word 4)
  require (isProbBits pb) .unsupportedProbBits s
  require (decide (tu ≤ s.snap.dstCap.toNat)) .dstCapacityTooSmall s
  require (decide (tu = Config.blockBytes * nb)) .partialBlock s
  require (decide (payloadOffset nb + 2 * tc ≤ srcLen)) .truncated s
  let probs ← collect (readProb g s) (List.range 256)
  let index ← collect (readIndexEntry g nb s) (List.range nb)
  require (index.all fun e => decide (indexUncompressed e.1 = Config.blockBytes)) .partialBlock s
  require (index.all fun e => decide (e.2.toNat + indexCompressed e.1 ≤ tc)) .corruptIndex s
  require (decide (probsTotal probs = 2 ^ pb)) .badTable s
  .ok ⟨nb, pb, word 2, probs, index⟩

end Sys2Proof.Machine
end

