-- ==== Sys2Proof/Machine/Encoder.lean ====
section
/-! DEFINITION. The encoder engine, `ENCODE` and `ENCODE.T` (42_encoder.md). The engine runs the vector form the
hardware performs (R517); `encStep` is the scalar rule (R514) it equals lane by lane. -/

namespace Sys2Proof.Machine

/-! ### The scalar step (42_encoder.md R510 to R514) -/

/-- What `EncStep` gives: the new state, whether a word was emitted, and the word. -/
structure EncResult where
  state : U32
  emitted : Bool
  word : U16
  deriving DecidableEq, Repr

/-- The emit threshold `u32(pdf << (31 - PB))` (42_encoder.md R511). -/
def emitThreshold (e : U64) (pb : Nat) : U32 := encPdf e <<< (Config.stateBits - pb)

/-- The state after the emit (42_encoder.md R511): `x >> 16` if `x >= thr`, else `x`. -/
def afterEmit (x : U32) (e : U64) (pb : Nat) : U32 := if emitThreshold e pb ≤ x then x >>> 16 else x

/-- The quotient `u32(x + mulhi32(x, divM1)) >> shift` (42_encoder.md R513, 41_statistics.md R464). -/
def encDiv (x : U32) (e : U64) : U32 := (x + mulhi32 x (encDivM1 e)) >>> (encShift e).toNat

/-- The state update `div << PB + cdf + mod` (42_encoder.md R513). -/
def encUpdate (x : U32) (e : U64) (pb : Nat) : U32 :=
  (encDiv x e <<< pb) + encCdf e + (x - encDiv x e * encPdf e)

/-- `EncStep(x, e, PB)` (42_encoder.md R514). `word` is meaningful only when `emitted`. -/
def encStep (x : U32) (e : U64) (pb : Nat) : EncResult where
  state := encUpdate (afterEmit x e pb) e pb
  emitted := decide (emitThreshold e pb ≤ x)
  word := x.extractLsb' 0 16

/-! ### The group step, vector form (42_encoder.md R517) -/

/-- The lanes that do not emit: `cmp_gt(thr, x)`. -/
def keepLanes (lo x : Vec) (pb : Nat) : Vec :=
  vcmpGt (vshl (vand lo (broadcast32 0xFFF#32)) (Config.stateBits - pb)) x

/-- The emit mask `0xFF XOR mask(keep)`. -/
def emitMaskOf (lo x : Vec) (pb : Nat) : BitVec 8 := 0xFF#8 ^^^ vmask (keepLanes lo x pb)

/-- The emitted words packed to the low side. -/
def emittedWords (lo x : Vec) (pb : Nat) : Half :=
  pack32to16 (permute8x32 x (writePermute (emitMaskOf lo x pb)))

/-- The group's states after emit and update, from the gathered record halves `(lo, hi)`. -/
def groupUpdate (lo hi x : Vec) (pb : Nat) : Vec :=
  let pdf := vand lo (broadcast32 0xFFF#32)
  let cdf := vand (vshr lo 12) (broadcast32 0xFFF#32)
  let sh := vand (vshr lo 24) (broadcast32 0x1F#32)
  let x := blendv (vshr x 16) x (keepLanes lo x pb)
  let t := vmulhi x hi
  let div := vshrv (vadd x t) sh
  let mod := vsub x (vmullo div pdf)
  vadd (vadd (vshl div pb) cdf) mod

/-- Where the payload starts, `P = DST + PayloadOffset(nb)` (42_encoder.md R532). -/
def encPayload (s : State) (nb : Nat) : Nat := s.snap.dst.toNat + payloadOffset nb

/-- One group step: 8 symbols of warp `w` of block `k` (42_encoder.md R517). The 16-byte store holds the emitted words,
then bytes of any value (R518). -/
def encGroup (gr : Grant) (pb nb k w : Nat) (g : Fin 4) (s : State) : Run State := do
  let b ← coreRead gr .source (s.snap.src.toNat + (Config.blockBytes * k + Config.lanes * w + 8 * g.val)) 8 s
  let t := gather64 s.eng.enc (cvtU8 b)
  let x := laneGroup s.eng.lanes g
  let em := emitMaskOf t.1 x pb
  let n := popcount em
  let s ← coreWriteSpill gr (encPayload s nb + 2 * s.eng.cur) ((halfBytes (emittedWords t.1 x pb)).take (2 * n)) 16 s
  .ok (s.setEng { s.eng.setEmit g em with
    lanes := setLaneGroup s.eng.lanes g (groupUpdate t.1 t.2 x pb)
    block := k, warp := w, group := g
    cur := s.eng.cur + n
    total := s.eng.total + n })

/-- One warp: groups 0, 1 (pair 0), then 2, 3 (pair 1) (42_encoder.md R502). -/
def encWarp (gr : Grant) (pb nb k w : Nat) (s : State) : Run State := sweep (encGroup gr pb nb k w) [0, 1, 2, 3] s

/-- `EncodeBlock(k, cur)` (42_encoder.md R519), then the block's row is kept for the metadata (R532). -/
def encodeBlock (gr : Grant) (pb nb k : Nat) (s : State) : Run State := do
  let start := s.eng.total
  let s := s.setEng { s.eng with lanes := Vector.replicate 32 Config.minState }
  let s ← sweep (encWarp gr pb nb k) (List.range Config.warps) s
  .ok (s.setEng { s.eng with rows := s.eng.rows ++ [⟨s.eng.lanes, s.eng.total - start, start⟩] })

/-- Blocks of the source, `srcLen / 4096`. -/
def blocksOf (s : State) : Nat := s.snap.srcLen.toNat / Config.blockBytes

/-- `EncodeContainer(SRC, srcLen, DST, PB)` up to its return (42_encoder.md R532). -/
def encodeContainer (gr : Grant) (pb : Nat) (s : State) : Run State := do
  let nb := blocksOf s
  let s := s.setEng { s.eng with cur := 0, total := 0, rows := [] }
  let s ← sweep (encodeBlock gr pb nb) (List.range nb) s
  writeContainerMeta gr nb s.snap.srcLen.toNat s.eng.total pb s

/-- The container's length, what `EncodeContainer` returns (42_encoder.md R532). -/
def containerLength (nb tc : Nat) : Nat := payloadOffset nb + 2 * tc

/-- Completion of an encode command with the container's length (42_encoder.md R530). -/
def completeEncode (s : State) : State :=
  complete .ok (BitVec.ofNat 32 (containerLength (blocksOf s) s.eng.total)) s

/-- `ENCODE` (42_encoder.md R530). -/
def runEncode (pb : Nat) (s : State) : Run State := do
  let g := grantOf (.encode pb) s.snap
  checkWindows g
  require (isAligned s.snap.dst 32) .misaligned s
  require (isFullBlocks s.snap.srcLen.toNat) .partialBlock s
  require (isEncodeCapacity s.snap.srcLen.toNat s.snap.dstCap.toNat) .dstCapacityTooSmall s
  require (isProbBits pb) .unsupportedProbBits s
  let s ← buildStats g pb s
  let s ← encodeContainer g pb s
  .ok (completeEncode s)

/-- The meaning of `ENCODE` (42_encoder.md R530). -/
def execEncode (pb : Nat) (s : State) : Host.Outcome State Fault Refusal := (runEncode pb s).finish

/-! ### ENCODE.T (42_encoder.md R531) -/

/-- `ENC[i] <- MemRead(TBL + 8*i, 8)` (30_encoding.md R312). -/
def loadRecord (g : Grant) (i : Fin 256) (s : State) : Run State := do
  let b ← coreRead g .table (s.snap.tbl.toNat + 8 * i.val) 8 s
  .ok (s.setEng { s.eng with enc := s.eng.enc.set i (le64 b) })

/-- Load the table image into `ENC`. -/
def loadTable (g : Grant) (s : State) : Run State := sweep (loadRecord g) (List.finRange 256) s

/-- `Σ_s ENC[s][11:0]`. -/
def tablePdfTotal (enc : Vector U64 256) : Nat := (enc.toList.map fun e => (encPdf e).toNat).sum

/-- `ENCODE.T` (42_encoder.md R531). -/
def runEncodeT (pb : Nat) (s : State) : Run State := do
  let g := grantOf (.encodeT pb) s.snap
  checkWindows g
  require (isAligned s.snap.dst 32 && isAligned s.snap.tbl 8) .misaligned s
  require (isFullBlocks s.snap.srcLen.toNat) .partialBlock s
  require (isEncodeCapacity s.snap.srcLen.toNat s.snap.dstCap.toNat) .dstCapacityTooSmall s
  require (isProbBits pb) .unsupportedProbBits s
  let s ← loadTable g s
  require (decide (tablePdfTotal s.eng.enc = 2 ^ pb)) .badTable s
  let s ← encodeContainer g pb s
  .ok (completeEncode s)

/-- The meaning of `ENCODE.T` (42_encoder.md R531). -/
def execEncodeT (pb : Nat) (s : State) : Host.Outcome State Fault Refusal := (runEncodeT pb s).finish

end Sys2Proof.Machine
end

