-- ==== Sys2Proof/Machine/Decoder.lean ====
section
/-! DEFINITION. The decoder engine and `DECODE` (43_decoder.md). The engine runs the vector form the hardware
performs (R615); `decUpdate` and `decFeed` are the scalar rules (R612, R613). -/

namespace Sys2Proof.Machine

/-! ### The lookup table (43_decoder.md R601) -/

/-- The entries of one symbol, from slot 0: `DEC[c + slot] <- (slot << 20) | (probs[s] << 8) | s`. -/
def fillSymbol (p : U16) (sym : Nat) (c : Nat) (dec : Vector U32 2048) : Vector U32 2048 :=
  (List.range p.toNat).foldl (fun d slot =>
    d.setIfInBounds (c + slot)
      (decRecord (BitVec.ofNat 12 slot) (BitVec.ofNat 12 p.toNat) (BitVec.ofNat 8 sym))) dec

/-- The entries of the symbols from `sym` on, the first at `c`. -/
def fillTable : List U16 → Nat → Nat → Vector U32 2048 → Vector U32 2048
  | [], _, _, dec => dec
  | p :: ps, sym, c, dec => fillTable ps (sym + 1) (c + p.toNat) (fillSymbol p sym c dec)

/-- `BuildDecTable(probs, PB)` (43_decoder.md R601). -/
def buildDecTable (probs : List U16) (s : State) : State :=
  s.setEng { s.eng with dec := fillTable probs 0 0 s.eng.dec }

/-! ### The scalar step (43_decoder.md R612, R613) -/

/-- The lookup index `x AND (2^PB - 1)` (43_decoder.md R612). -/
def decIndex (x : U32) (pb : Nat) : U32 := x &&& BitVec.ofNat 32 (2 ^ pb - 1)

/-- The state update `pdf * (x >> PB) + slot` (43_decoder.md R612). -/
def decUpdate (x : U32) (e : U32) (pb : Nat) : U32 := decPdf e * (x >>> pb) + decSlot e

/-- The feed: a state below `L` takes the word (43_decoder.md R613). -/
def decFeed (y : U32) (word : U16) : U32 :=
  if y < Config.minState then (y <<< 16) ||| word.setWidth 32 else y

/-! ### The pair step, vector form (43_decoder.md R615) -/

/-- A group's symbols and updated states. -/
def decGroupUpdate (dec : Vector U32 2048) (x : Vec) (pb : Nat) : Vec × Vec :=
  let e := gather32 dec (vand x (broadcast32 (BitVec.ofNat 32 (2 ^ pb - 1))))
  let pdf := vand (vshr e 8) (broadcast32 0xFFF#32)
  (vand e (broadcast32 0xFF#32), vadd (vmullo pdf (vshr x pb)) (vshr e 20))

/-- The lanes with state below `L`. -/
def needLanes (x : Vec) : Vec := vcmpGt (broadcast32 Config.minState) x

/-- The group's states after the feed of the words `W[0..7]` that end at the cursor. -/
def feedUpdate (x : Vec) (words : Half) : Vec :=
  let need := needLanes x
  blendv x (vor (vshl x 16) (permute8x32 (cvtU16 words) (readPermute (vmask need)))) need

/-- Where the payload starts, `P = SRC + PayloadOffset(nb)` (43_decoder.md R630). -/
def decPayload (s : State) (nb : Nat) : Nat := s.snap.src.toNat + payloadOffset nb

/-- One group's feed: the 16-byte load happens only when some lane needs a word (43_decoder.md R615). -/
def decFeedGroup (gr : Grant) (nb : Nat) (g : Fin 4) (s : State) : Run State :=
  let x := laneGroup s.eng.lanes g
  let fm := vmask (needLanes x)
  let e := { s.eng.setFeed g fm with group := g }
  if popcount fm = 0 then .ok (s.setEng e)
  else do
    let b ← coreRead gr .source (decPayload s nb + 2 * (s.eng.cur - 8)) 16 s
    .ok (s.setEng { e with
      lanes := setLaneGroup s.eng.lanes g (feedUpdate x (halves b))
      cur := s.eng.cur - popcount fm })

/-- The lower group `2h` of a pair. -/
def lowGroup (h : Fin 2) : Fin 4 := ⟨2 * h.val, by omega⟩

/-- The upper group `2h + 1` of a pair. -/
def highGroup (h : Fin 2) : Fin 4 := ⟨2 * h.val + 1, by omega⟩

/-- One pair step: update both groups, store their 16 symbols, feed the upper group then the lower
(43_decoder.md R615, R617). -/
def decPair (gr : Grant) (pb nb k w : Nat) (h : Fin 2) (s : State) : Run State := do
  let lo := decGroupUpdate s.eng.dec (laneGroup s.eng.lanes (lowGroup h)) pb
  let hi := decGroupUpdate s.eng.dec (laneGroup s.eng.lanes (highGroup h)) pb
  let s := s.setEng { s.eng with
    lanes := setLaneGroup (setLaneGroup s.eng.lanes (lowGroup h) lo.2) (highGroup h) hi.2
    block := k, warp := w, group := highGroup h }
  let s ← coreWrite gr (s.snap.dst.toNat + (Config.blockBytes * k + Config.lanes * w + 16 * h.val))
    (pack16to8 (pack32to16x2 lo.1 hi.1)).toList s
  sweep (decFeedGroup gr nb) [highGroup h, lowGroup h] s

/-- One warp: pair 1, then pair 0 (43_decoder.md R614). -/
def decWarp (gr : Grant) (pb nb k w : Nat) (s : State) : Run State := sweep (decPair gr pb nb k w) [1, 0] s

/-- `S[l] <- MemRead(SRC + 544 + 128k + 4l, 4)` (43_decoder.md R610). -/
def loadLane (gr : Grant) (k : Nat) (l : Fin 32) (s : State) : Run State := do
  let b ← coreRead gr .source (s.snap.src.toNat + stateOffset k l.val) 4 s
  .ok (s.setEng { s.eng with lanes := s.eng.lanes.set l (le32 b) })

/-- `DecodeBlock(k)` (43_decoder.md R620), with the block's index entry `(word 0, startOffset)`. -/
def decodeBlock (gr : Grant) (pb nb : Nat) (p : Nat × (U32 × U32)) (s : State) : Run State := do
  let s ← sweep (loadLane gr p.1) (List.finRange 32) s
  let s := s.setEng { s.eng with block := p.1, cur := (p.2.2.toNat : Int) + indexCompressed p.2.1 }
  sweep (decWarp gr pb nb p.1) (List.range Config.warps).reverse s

/-- The sweep over a validated container's blocks (43_decoder.md R630). -/
def decodeBlocks (gr : Grant) (c : Container) (s : State) : Run State :=
  sweep (decodeBlock gr c.probBits c.blocks) ((List.range c.index.length).zip c.index) s

/-- `DECODE` (43_decoder.md R630). -/
def runDecode (s : State) : Run State := do
  let g := grantOf .decode s.snap
  checkWindows g
  require (isAligned s.snap.src 32) .misaligned s
  let c ← validateContainer g s
  let s ← decodeBlocks g c (buildDecTable c.probs s)
  .ok (complete .ok c.totalUncompressed s)

/-- The meaning of `DECODE` (43_decoder.md R630). -/
def execDecode (s : State) : Host.Outcome State Fault Refusal := (runDecode s).finish

end Sys2Proof.Machine
end

