-- ==== Sys2Proof/Machine/Protocol.lean ====
section
/-! DEFINITION. The command protocol: `NOP`, illegal words, the running command and its windows, issue with its
checks, soft and power-on reset (40_commands.md, 70_reset_and_hazards.md R1000 to R1003). -/

namespace Sys2Proof.Machine

/-- `NOP`: no windows, no checks, `return 0` (40_commands.md R410). -/
def execNop (s : State) : Host.Outcome State Fault Refusal := Run.finish do
  checkWindows (grantOf .nop s.snap)
  .ok (complete .ok 0 s)

/-- A word that matches no row completes with `IllegalCommand` (30_encoding.md R303, 40_commands.md R402). -/
def execIllegal (s : State) : Host.Outcome State Fault Refusal := .next (raise .illegalCommand s)

/-- What the core has to run: the word in `CMD`, decoded, while `BUSY` (40_commands.md R402). -/
def fetch (s : State) : Option (Except DecodeError Instr) :=
  if s.regs.busy then some (decodeCommand s.regs.cmd) else none

/-- The windows of the running command; none while idle. -/
def runningGrant (s : State) : Grant := if s.regs.busy then grantOfWord s.regs.cmd s.snap else ⟨[], []⟩

/-- A host write of `x` to `CMD` while idle: issue (40_commands.md R401), then the window checks made at issue
(20_memory.md R207), then the check against the other busy instances (60_exceptions.md R943). DESIGN CHOICE (log entry
26): where one issue causes a window fault and `HostRace`, the window fault comes first, since the list of
60_exceptions.md R930 does not place `HostRace`. -/
def issueCommand (x : U32) (s : State) : Run State := do
  let t := issue x s
  let g := grantOfWord x t.snap
  checkWindows g
  if t.peers.any g.races then .error (.fault .hostRace) else .ok t

/-- Every byte of the windows takes any value. -/
def havocWindows : List Window → State → State
  | [], s => s
  | w :: ws, s => havocWindows ws (s.havoc w.len w.base)

/-- Abort the running command, if any: it never completes, and its write windows hold any value
(70_reset_and_hazards.md R1002). -/
def abortRunning (s : State) : State := havocWindows (runningGrant s).writes s

/-- Soft reset (70_reset_and_hazards.md R1002): the register block returns to its reset values. -/
def softReset (s : State) : State := (abortRunning s).setRegs Regs.reset

/-- Power-on reset (70_reset_and_hazards.md R1000): every register and the working state, not host memory. A command
running at that moment leaves its write windows at any value (log entry 10). -/
def powerOnReset (s : State) : State :=
  (((abortRunning s).setRegs Regs.reset).setSnap Operands.reset).setEng Engine.reset

end Sys2Proof.Machine
end

