-- ==== Sys2Proof/Machine/HostPort.lean ====
section
/-! DEFINITION. What the host can do: loads and stores of the register block (10_state.md R100 to R109,
40_commands.md R406), of host memory (20_memory.md R222), resets, and other instances (60_exceptions.md R943). -/

namespace Sys2Proof.Machine

/-! ### The register block in the host's address map (10_state.md R100) -/

/-- The host address of the register at an offset, `CORE_BASE + offset`, modulo `2^64` (log entry 27). -/
def registerAddress (off : BitVec 7) : U64 := Config.coreBase + off.setWidth 64

/-- The offset a host address names in the 0x80-byte block, if it lies there. DESIGN CHOICE (log entry 27): the spec states
no placement of `CORE_BASE`, and a block whose end passes `2^64` goes on at address 0. -/
def blockOffset (addr : U64) : Option (BitVec 7) :=
  if addr - Config.coreBase < 0x80#64 then some ((addr - Config.coreBase).setWidth 7) else none

/-- The byte at a host address is one of the block's. -/
def isBlockByte (addr : U64) : Bool := (blockOffset addr).isSome

/-- The bytes of an access. -/
def Width.bytes : Width → Nat
  | .w8 => 1
  | .w16 => 2
  | .w32 => 4
  | .w64 => 8

/-- The host addresses of an access that starts at `addr`, in ascending order. DESIGN CHOICE (log entry 29): the spec does
not say what an access that runs past `2^64` does, and the model continues it at address 0. -/
def accessBytes (addr : U64) (width : Width) : List (Nat × U64) :=
  (List.range width.bytes).map fun i => (i, addr + BitVec.ofNat 64 i)

/-- The host actions of a load at any host address: one access of the block where it starts there, else its bytes (log
entry 12), of which one that lies in the block is `fault MmioAccess`. -/
def loadAt (addr : U64) (width : Width) : List HostAction :=
  match blockOffset addr with
  | some off => [.load off width]
  | none => (accessBytes addr width).map fun p => .memLoad p.2

/-- The host actions of a store at any host address, little-endian (20_memory.md R201). -/
def storeAt (addr : U64) (width : Width) (value : U64) : List HostAction :=
  match blockOffset addr with
  | some off => [.store off width (value.setWidth 32)]
  | none => (accessBytes addr width).map fun p => .memStore p.2 (value.extractLsb' (8 * p.1) 8)

/-- A 32-bit access at a 4-byte-aligned offset; any other is `fault MmioAccess` (10_state.md R100). DESIGN CHOICE (log
entry 27): the spec states no alignment of `CORE_BASE`, and the model tests the offset, not the host address. -/
def isRegisterAccess (off : BitVec 7) (width : Width) : Bool :=
  decide (width = .w32) && decide (off.toNat % 4 = 0)

/-! ### Register reads and writes (10_state.md R101) -/

/-- What a register reads; a reserved offset reads 0 (10_state.md R101). -/
def readRegister (s : State) (off : BitVec 7) : U32 :=
  match off.toNat with
  | 0x00 => Config.idValue
  | 0x04 => Config.paramsValue
  | 0x08 => s.ctrlWord
  | 0x0C => s.statusWord
  | 0x10 => s.regs.cmd
  | 0x14 => s.regs.error
  | 0x18 => s.regs.result
  | 0x20 => s.regs.srcAddrLo
  | 0x24 => s.regs.srcAddrHi
  | 0x28 => s.regs.srcLen
  | 0x30 => s.regs.dstAddrLo
  | 0x34 => s.regs.dstAddrHi
  | 0x38 => s.regs.dstCap
  | 0x40 => s.regs.tblAddrLo
  | 0x44 => s.regs.tblAddrHi
  | _ => 0

/-- An operand register write; every other offset is left alone (10_state.md R109). -/
def writeOperand (r : Regs) (off : BitVec 7) (v : U32) : Regs :=
  match off.toNat with
  | 0x20 => { r with srcAddrLo := v }
  | 0x24 => { r with srcAddrHi := v }
  | 0x28 => { r with srcLen := v }
  | 0x30 => { r with dstAddrLo := v }
  | 0x34 => { r with dstAddrHi := v }
  | 0x38 => { r with dstCap := v }
  | 0x40 => { r with tblAddrLo := v }
  | 0x44 => { r with tblAddrHi := v }
  | _ => r

/-- A write to `CTRL`: bit 1 is `SRST`, else bit 0 is `IE`; both whether or not the core is busy (10_state.md R104,
70_reset_and_hazards.md R1002). -/
def writeCtrl (v : U32) (s : State) : State :=
  if v.getLsbD 1 then softReset s else s.setRegs { s.regs with ie := v.getLsbD 0 }

/-- A write to `STATUS`: a 1 in bit 1 clears `DONE`; nothing else (10_state.md R105). -/
def writeStatus (v : U32) (s : State) : State := if v.getLsbD 1 then acknowledge s else s

/-- What a register write does. While `BUSY`, writes to `CMD` and the operand registers are ignored (10_state.md R106,
R109); read-only registers and reserved offsets ignore writes (R101). -/
def writeRegister (off : BitVec 7) (v : U32) (s : State) : Run State :=
  if off.toNat = 0x08 then .ok (writeCtrl v s)
  else if off.toNat = 0x0C then .ok (writeStatus v s)
  else if s.regs.busy then .ok s
  else if off.toNat = 0x10 then issueCommand v s
  else .ok (s.setRegs (writeOperand s.regs off v))

/-! ### The host's step -/

/-- A register load: what it returns, and nothing else changes. -/
def hostLoad (off : BitVec 7) (width : Width) (s : State) : Run State :=
  if isRegisterAccess off width then .ok (s.setHostData (readRegister s off)) else .error (.fault .mmioAccess)

/-- A register store. -/
def hostStore (off : BitVec 7) (width : Width) (v : U32) (s : State) : Run State :=
  if isRegisterAccess off width then writeRegister off v s else .error (.fault .mmioAccess)

/-- A load of a byte at a host address: one of the register block is no 32-bit access of it, `fault MmioAccess`
(10_state.md R100), and one of a write window of the running command is any value (20_memory.md R222). DESIGN CHOICE (log
entry 30): a load from a window of another busy instance is plain. -/
def hostMemLoad (a : U64) (s : State) : Run State :=
  if isBlockByte a then .error (.fault .mmioAccess)
  else if (runningGrant s).writesByte a.toNat then
    .ok ((s.setHostData ((Config.freeByte s.draws).setWidth 32)).setDraws (s.draws + 1))
  else .ok (s.setHostData ((s.byteAt a.toNat).setWidth 32))

/-- A store of a byte at a host address: one of the register block is `fault MmioAccess` (10_state.md R100), and one of a
window of the running command is `fault HostRace` (20_memory.md R222). DESIGN CHOICE (log entry 24): where both hold,
`MmioAccess` comes first, and another master's store to the block is taken as the host's. DESIGN CHOICE (log entry 30): a
store into a window of another busy instance is plain, since the action is that instance's own store too. -/
def hostMemStore (a : U64) (v : Byte) (s : State) : Run State :=
  if isBlockByte a then .error (.fault .mmioAccess)
  else if (runningGrant s).hasByte a.toNat then .error (.fault .hostRace)
  else .ok (s.setByte a.toNat v)

/-- Another instance's command starts: `HostRace` if it races with this core's running command or with a busy instance
(60_exceptions.md R943). -/
def peerIssue (p : Peer) (s : State) : Run State :=
  if (runningGrant s).races p || s.peers.any p.grant.races then .error (.fault .hostRace)
  else .ok (s.setPeers (p :: s.peers))

/-- Another instance's command ends. -/
def peerDone (p : Peer) (s : State) : State := s.setPeers (s.peers.erase p)

/-- One step of the world outside the core. -/
def hostStep (a : HostAction) (s : State) : Host.Outcome State Fault Refusal :=
  match a with
  | .load off width => (hostLoad off width s).finish
  | .store off width v => (hostStore off width v s).finish
  | .memLoad addr => (hostMemLoad addr s).finish
  | .memStore addr v => (hostMemStore addr v s).finish
  | .powerOn => .next (powerOnReset s)
  | .peerIssue p => (peerIssue p s).finish
  | .peerDone p => .next (peerDone p s)

end Sys2Proof.Machine
end

