-- ==== Sys2Proof/Machine/Dispatch.lean ====
section
/-! DEFINITION. Dispatch: one arm for each command of the opcode map (40_commands.md R402). -/

namespace Sys2Proof.Machine

-- exec i s is the whole run of command i in one step (00_scope.md R16, 70_reset_and_hazards.md R1010).
def exec (i : Instr) (s : State) : Host.Outcome State Fault Refusal :=
  match i with
  | .nop => Sys2Proof.Machine.execNop s
  | .buildTable pb => Sys2Proof.Machine.execBuildTable pb s
  | .encode pb => Sys2Proof.Machine.execEncode pb s
  | .encodeT pb => Sys2Proof.Machine.execEncodeT pb s
  | .decode => Sys2Proof.Machine.execDecode s

end Sys2Proof.Machine
end

