-- ==== Sys2Proof/Machine/Step.lean ====
section
/-! DEFINITION. One step of the machine: the turn at the head of the inbox, or the core's (60_exceptions.md R931). -/

namespace Sys2Proof.Machine

/-- The core's turn: run the issued command to its end, or stay idle (40_commands.md R402, 60_exceptions.md R945). -/
def coreTurn (s : State) : Host.Outcome State Fault Refusal :=
  match fetch s with
  | none => .next s
  | some (.ok i) => exec i s
  | some (.error _) => execIllegal s

/-- One step: whose turn it is stands in the state (log entry 2). -/
def step (s : State) : Host.Outcome State Fault Refusal :=
  match s.inbox with
  | [] => coreTurn s
  | .core :: ts => coreTurn (s.setInbox ts)
  | .host a :: ts => hostStep a (s.setInbox ts)

/-- `s` with the command word issued and the next turn the core's (log entry 3). -/
def State.withFetchWord (s : State) (nbits w : Nat) : State :=
  (issue (tableWord nbits w) s).setInbox (.core :: s.inbox)

end Sys2Proof.Machine
end

