-- ==== Sys2Proof/Safety.lean ====
section
/-! DEFINITION. What counts as a sound state and a safe run, in the terms the statements use. -/

namespace Sys2Proof.Machine

/-- The status registers agree with the command protocol: never busy and done at once (10_state.md R105), no code above
10 (60_exceptions.md R900), no count with an error (R901), no error and no count while busy (40_commands.md R401). -/
def Regs.sound (r : Regs) : Bool :=
  !(r.busy && r.done) && decide (r.error.toNat ≤ 10) && (decide (r.error = 0) || decide (r.result = 0)) &&
    (!r.busy || (decide (r.error = 0) && decide (r.result = 0)))

/-- While a command runs, the snapshot is what the operand registers hold: writes to them are ignored meanwhile
(10_state.md R109, 40_commands.md R401). -/
def State.snapHeld (s : State) : Bool := !s.regs.busy || decide (s.snap = s.regs.operands)

/-- While a command runs, its windows passed the checks made at issue (20_memory.md R207). -/
def State.windowsChecked (s : State) : Bool := !s.regs.busy || decide ((runningGrant s).fault? = none)

/-- Two of the other busy instances share a byte against the rule of 60_exceptions.md R943. -/
def peersClash : List Peer → Bool
  | [] => false
  | p :: ps => ps.any p.grant.races || peersClash ps

/-- No two busy instances, this core among them, share a byte against the rule of 60_exceptions.md R943. -/
def State.peersApart (s : State) : Bool := !(s.peers.any (runningGrant s).races) && !(peersClash s.peers)

/-- The invariant every step keeps. -/
def State.sound (s : State) : Bool := s.mem.wf && s.regs.sound && s.snapHeld && s.windowsChecked && s.peersApart

/-- The run of a command is safe: it ends in a next state, not in a fault or a refusal. -/
def completes (o : Host.Outcome State Fault Refusal) : Bool :=
  match o with
  | .next _ => true
  | .fault _ => false
  | .refused _ => false

/-- Two states a host cannot tell apart: they differ at most in the engines' working state (10_state.md R113). -/
def State.sameVisible (s t : State) : Bool := decide (s.setEng t.eng = t)

/-- Two outcomes a host cannot tell apart. -/
def sameOutcome (a b : Host.Outcome State Fault Refusal) : Prop :=
  match a, b with
  | .next s, .next t => s.sameVisible t = true
  | .fault f, .fault g => f = g
  | .refused r, .refused q => r = q
  | _, _ => False

/-! ### Numbers in host memory (20_memory.md R201) -/

/-- The little-endian 16-bit number at `a`. -/
def State.word16At (s : State) (a : Nat) : U16 := le16 (s.readBytes a 2)

/-- The little-endian 32-bit number at `a`. -/
def State.word32At (s : State) (a : Nat) : U32 := le32 (s.readBytes a 4)

/-- The little-endian 64-bit number at `a`. -/
def State.word64At (s : State) (a : Nat) : U64 := le64 (s.readBytes a 8)

/-! ### The operands of the command as exact numbers (10_state.md R109) -/

/-- `SRC`. -/
def State.srcBase (s : State) : Nat := s.snap.src.toNat
/-- `srcLen`. -/
def State.srcSize (s : State) : Nat := s.snap.srcLen.toNat
/-- `DST`. -/
def State.dstBase (s : State) : Nat := s.snap.dst.toNat
/-- `dstCapacity`. -/
def State.dstSize (s : State) : Nat := s.snap.dstCap.toNat
/-- `TBL`. -/
def State.tblBase (s : State) : Nat := s.snap.tbl.toNat

/-- How often a symbol occurs in the source window (41_statistics.md R450). -/
def State.sourceCount (s : State) (b : Nat) : Nat :=
  (List.range s.srcSize).countP fun i => decide ((s.byteAt (s.srcBase + i)).toNat = b)

/-- The histogram of the source window (41_statistics.md R450). -/
def State.sourceHistogram (s : State) : Vector U32 256 := Vector.ofFn fun b => BitVec.ofNat 32 (s.sourceCount b.val)

/-- The table `BuildStats` leaves in `ENC` for the source window (41_statistics.md R466). -/
def State.sourceTable (s : State) (pb : Nat) : Vector U64 256 := encTable (quantize s.sourceHistogram pb)

/-- The encoder-table image at `TBL` (30_encoding.md R312). -/
def State.imageTable (s : State) : Vector U64 256 := Vector.ofFn fun i => s.word64At (s.tblBase + 8 * i.val)

/-! ### The checks of each command, in its order, read off host memory directly -/

/-- The first check that fails. -/
def firstFailing : List (Bool × ErrorCode) → Option ErrorCode
  | [] => none
  | (holds, code) :: rest => if holds then firstFailing rest else some code

/-- The checks of `BUILD_TABLE` (41_statistics.md R480). -/
def buildTableError (pb : Nat) (s : State) : Option ErrorCode :=
  firstFailing [(isAligned s.snap.tbl 8, .misaligned), (isFullBlocks s.srcSize, .partialBlock),
    (isProbBits pb, .unsupportedProbBits)]

/-- The checks of `ENCODE` (42_encoder.md R530). -/
def encodeError (pb : Nat) (s : State) : Option ErrorCode :=
  firstFailing [(isAligned s.snap.dst 32, .misaligned), (isFullBlocks s.srcSize, .partialBlock),
    (isEncodeCapacity s.srcSize s.dstSize, .dstCapacityTooSmall), (isProbBits pb, .unsupportedProbBits)]

/-- The checks of `ENCODE.T` (42_encoder.md R531). -/
def encodeTError (pb : Nat) (s : State) : Option ErrorCode :=
  firstFailing [(isAligned s.snap.dst 32 && isAligned s.snap.tbl 8, .misaligned), (isFullBlocks s.srcSize, .partialBlock),
    (isEncodeCapacity s.srcSize s.dstSize, .dstCapacityTooSmall), (isProbBits pb, .unsupportedProbBits),
    (decide (tablePdfTotal s.imageTable = 2 ^ pb), .badTable)]

/-- Header word `j` of the container at `SRC` (44_container.md R700). -/
def State.headerWord (s : State) (j : Nat) : U32 := s.word32At (s.srcBase + 4 * j)

/-- `numBlocks` of the container at `SRC`. -/
def State.containerBlocks (s : State) : Nat := (s.headerWord 1).toNat

/-- `probBits` of the container at `SRC`. -/
def State.containerProbBits (s : State) : Nat := optionsProbBits (s.headerWord 4)

/-- Word 0 of index entry `k` of the container at `SRC` (44_container.md R701). -/
def State.indexWord0 (s : State) (k : Nat) : U32 := s.word32At (s.srcBase + (indexOffset s.containerBlocks + 8 * k))

/-- `startOffset[k]` of the container at `SRC` (44_container.md R701). -/
def State.indexStart (s : State) (k : Nat) : Nat :=
  (s.word32At (s.srcBase + (indexOffset s.containerBlocks + 8 * k + 4))).toNat

/-- The cursor block `k` of the container at `SRC` starts with (43_decoder.md R611). -/
def State.startCursor (s : State) (k : Nat) : Nat := s.indexStart k + indexCompressed (s.indexWord0 k)

/-- The sum of `probs` of the container at `SRC`. -/
def State.containerProbTotal (s : State) : Nat :=
  ((List.range 256).map fun i => (s.word16At (s.srcBase + probsOffset i)).toNat).sum

/-- The checks of `DECODE`, its own and the eleven of `ValidateContainer` (43_decoder.md R630, 44_container.md R720). -/
def decodeError (s : State) : Option ErrorCode :=
  firstFailing [(isAligned s.snap.src 32, .misaligned),
    (decide (32 ≤ s.srcSize), .truncated),
    (decide ((s.headerWord 0).extractLsb' 16 16 = Config.magic), .badMagic),
    (decide ((s.headerWord 0).extractLsb' 0 16 = Config.version), .badVersion),
    (decide (544 ≤ s.srcSize), .truncated),
    (isProbBits s.containerProbBits, .unsupportedProbBits),
    (decide ((s.headerWord 2).toNat ≤ s.dstSize), .dstCapacityTooSmall),
    (decide ((s.headerWord 2).toNat = Config.blockBytes * s.containerBlocks), .partialBlock),
    (decide (payloadOffset s.containerBlocks + 2 * (s.headerWord 3).toNat ≤ s.srcSize), .truncated),
    ((List.range s.containerBlocks).all fun k => decide (indexUncompressed (s.indexWord0 k) = Config.blockBytes),
      .partialBlock),
    ((List.range s.containerBlocks).all fun k => decide (s.startCursor k ≤ (s.headerWord 3).toNat), .corruptIndex),
    (decide (s.containerProbTotal = 2 ^ s.containerProbBits), .badTable)]

/-! ### When a command completes with its own effect -/

/-- `BUILD_TABLE` completes: the windows and all checks pass (41_statistics.md R480). -/
def buildTableReady (pb : Nat) (s : State) : Bool :=
  decide ((grantOf (.buildTable pb) s.snap).fault? = none) && decide (buildTableError pb s = none)

/-! ### The encoder's scalar sweep (42_encoder.md R500 to R519) -/

/-- One scalar encode step of the sweep: block byte `i` goes to lane `i mod 32` (42_encoder.md R500, R502). -/
def scalarEncodeStep (enc : Vector U64 256) (pb : Nat) (acc : Vector U32 32 × List U16) (p : Nat × Byte) :
    Vector U32 32 × List U16 :=
  let l := Fin.ofNat 32 p.1
  let r := encStep (acc.1.get l) (enc.get (symIdx p.2)) pb
  (acc.1.set l r.state, if r.emitted then acc.2 ++ [r.word] else acc.2)

/-- A block by the scalar rules: the final states and the emitted words in sweep order (42_encoder.md R514, R516,
R519). -/
def scalarEncodeBlock (enc : Vector U64 256) (pb : Nat) (block : List Byte) : Vector U32 32 × List U16 :=
  ((List.range block.length).zip block).foldl (scalarEncodeStep enc pb) (Vector.replicate 32 Config.minState, [])

/-- The payload words of a block (42_encoder.md R516). -/
def scalarEncodeWords (enc : Vector U64 256) (pb : Nat) (block : List Byte) : List U16 :=
  (scalarEncodeBlock enc pb block).2

/-- Block `k` of the source (42_encoder.md R500). -/
def State.sourceBlock (s : State) (k : Nat) : List Byte :=
  (s.readBytes (s.srcBase + Config.blockBytes * k) Config.blockBytes).toList

/-- The payload words of block `k` of the source under the table `enc` (42_encoder.md R516). -/
def State.blockWords (s : State) (enc : Vector U64 256) (pb k : Nat) : List U16 :=
  scalarEncodeWords enc pb (s.sourceBlock k)

/-- `tc`, the payload words of the whole source under the table `enc` (42_encoder.md R532). -/
def State.payloadWords (s : State) (enc : Vector U64 256) (pb : Nat) : Nat :=
  ((List.range (blocksOf s)).map fun k => (s.blockWords enc pb k).length).sum

/-- The cursor at which the last group of the sweep stores its 16 bytes: the words of all but the source's last eight
bytes (42_encoder.md R518). -/
def State.lastStoreCursor (s : State) (enc : Vector U64 256) (pb : Nat) : Nat :=
  ((List.range (blocksOf s - 1)).map fun k => (s.blockWords enc pb k).length).sum +
    (scalarEncodeWords enc pb ((s.sourceBlock (blocksOf s - 1)).take 4088)).length

/-- The last group's store, and so every store, lies in the destination window (42_encoder.md R518). -/
def encodeFits (pb : Nat) (enc : Vector U64 256) (s : State) : Bool :=
  decide (payloadOffset (blocksOf s) + 2 * s.lastStoreCursor enc pb + 16 ≤ s.dstSize)

/-- The capacity that always suffices for container and spill, `PayloadOffset(nb) + 2*srcLen + 16`
(70_reset_and_hazards.md R1014). -/
def amplyCapable (s : State) : Bool := decide (payloadOffset (blocksOf s) + 2 * s.srcSize + 16 ≤ s.dstSize)

/-- `ENCODE` completes: windows and checks pass, and every store fits (42_encoder.md R518, R530). -/
def encodeReady (pb : Nat) (s : State) : Bool :=
  decide ((grantOf (.encode pb) s.snap).fault? = none) && decide (encodeError pb s = none) &&
    encodeFits pb (s.sourceTable pb) s

/-- `ENCODE.T` completes: windows and checks pass, and every store fits (42_encoder.md R518, R531). -/
def encodeTReady (pb : Nat) (s : State) : Bool :=
  decide ((grantOf (.encodeT pb) s.snap).fault? = none) && decide (encodeTError pb s = none) &&
    encodeFits pb s.imageTable s

/-! ### The decoder's scalar sweep (43_decoder.md R610 to R620) -/

/-- Where the scalar decode of a block stands. -/
structure ScalarDecode where
  /-- The lane states. -/
  lanes : Vector U32 32
  /-- The payload cursor. -/
  cur : Int
  /-- The cursors at which the 16-byte loads made so far ended, the latest first (43_decoder.md R615). -/
  loads : List Int
  /-- The bytes decoded so far, which are the block's last ones, in ascending order (43_decoder.md R617). -/
  bytes : List Byte
  deriving DecidableEq, Repr

/-- How many of the first `j` lanes of group `g` need a word: their state is below `L` (43_decoder.md R613). -/
def needsBelow (lanes : Vector U32 32) (g : Fin 4) (j : Nat) : Nat :=
  (List.range j).countP fun i => decide (lanes.getD (8 * g.val + i) 0 < Config.minState)

/-- The feed of group `g`: of its `n` needing lanes the `i`-th in ascending order takes the word at `cur - n + i`, then
`cur <- cur - n`; a load is made when `n > 0` (43_decoder.md R614, R615). -/
def scalarFeedGroup (word : Int → U16) (d : ScalarDecode) (g : Fin 4) : ScalarDecode :=
  let n := needsBelow d.lanes g 8
  { d with
    lanes := Vector.ofFn fun l =>
      if l.val / 8 = g.val then
        decFeed (d.lanes.get l) (word (d.cur - n + needsBelow d.lanes g (l.val % 8)))
      else d.lanes.get l
    cur := d.cur - n
    loads := if n = 0 then d.loads else d.cur :: d.loads }

/-- One warp: every lane's lookup, output and update, then the feeds of groups 3, 2, 1, 0 (43_decoder.md R612, R614). -/
def scalarDecodeWarp (entry : Nat → U32) (word : Int → U16) (pb : Nat) (d : ScalarDecode) : ScalarDecode :=
  let e := fun l : Fin 32 => entry (decIndex (d.lanes.get l) pb).toNat
  [3, 2, 1, 0].foldl (scalarFeedGroup word)
    { d with
      lanes := Vector.ofFn fun l => decUpdate (d.lanes.get l) (e l) pb
      bytes := (List.ofFn fun l => decSymbol (e l)) ++ d.bytes }

/-- The next `n` warps. -/
def scalarDecodeWarps (entry : Nat → U32) (word : Int → U16) (pb : Nat) : Nat → ScalarDecode → ScalarDecode
  | 0, d => d
  | n + 1, d => scalarDecodeWarps entry word pb n (scalarDecodeWarp entry word pb d)

/-- A block by the scalar rules, from its stored states and its starting cursor: warps 127 down to 0 (43_decoder.md
R614, R620). -/
def scalarDecodeBlock (entry : Nat → U32) (word : Int → U16) (pb : Nat) (states : Vector U32 32) (cur : Int) :
    ScalarDecode :=
  scalarDecodeWarps entry word pb Config.warps ⟨states, cur, [], []⟩

/-- `probs` of the container at `SRC`. -/
def State.containerProbs (s : State) : List U16 := (List.range 256).map fun i => s.word16At (s.srcBase + probsOffset i)

/-- Entry `i` of the lookup table of the container at `SRC` (43_decoder.md R601). -/
def State.containerEntry (s : State) (i : Nat) : U32 :=
  (fillTable s.containerProbs 0 0 (Vector.replicate 2048 0)).getD i 0

/-- Payload word `j` of the container at `SRC`, its address an exact integer (44_container.md R701). -/
def State.payloadWord (s : State) (j : Int) : U16 :=
  s.word16At ((s.srcBase + payloadOffset s.containerBlocks : Nat) + 2 * j : Int).toNat

/-- `warpState[k]` of the container at `SRC` (43_decoder.md R610). -/
def State.storedStates (s : State) (k : Nat) : Vector U32 32 :=
  Vector.ofFn fun l => s.word32At (s.srcBase + stateOffset k l.val)

/-- Block `k` of the container at `SRC`, decoded by the scalar rules (43_decoder.md R620). -/
def State.decodedBlock (s : State) (k : Nat) : ScalarDecode :=
  scalarDecodeBlock s.containerEntry s.payloadWord s.containerProbBits (s.storedStates k) (s.startCursor k)

/-- No payload load of any block starts below `SRC` (43_decoder.md R616). -/
def loadsHeld (s : State) : Bool :=
  (List.range s.containerBlocks).all fun k =>
    (s.decodedBlock k).loads.all fun c => decide (0 ≤ (payloadOffset s.containerBlocks : Int) + 2 * (c - 8))

/-- `DECODE` completes: windows and checks pass, and no load starts below `SRC` (43_decoder.md R616, R630). -/
def decodeReady (s : State) : Bool :=
  decide ((grantOf .decode s.snap).fault? = none) && decide (decodeError s = none) && loadsHeld s

/-! ### The quantizer's loops, as their rules write them -/

/-- `Q` after steps 1 and 2: the exact floor, and 1 for a live symbol at 0 (41_statistics.md R452, R453). -/
def roundedLive (hist : Vector U32 256) (pb : Nat) : Vector Nat 256 := Vector.ofFn fun s =>
  let q := 2 ^ pb * (hist.get s).toNat / histTotal hist
  if 0 < (hist.get s).toNat ∧ q = 0 then 1 else q

/-- The deficit loop, `d` units from index `i` on: visit `live[i mod len(live)]` and add 1 (41_statistics.md R455). -/
def deficitLoop (live : List (Fin 256)) : Nat → Nat → Vector Nat 256 → Vector Nat 256
  | 0, _, q => q
  | d + 1, i, q =>
    let s := live.getD (i % live.length) 0
    deficitLoop live d (i + 1) (q.set s (q.get s + 1))

/-- The surplus loop, at most so many visits from index `i` on, `d` units left: visit `rev[i mod 256]` and take 1 where
`Q[s] > 1` (41_statistics.md R456). -/
def surplusLoop (rev : List (Fin 256)) : Nat → Nat → Nat → Vector Nat 256 → Vector Nat 256
  | 0, _, _, q => q
  | n + 1, i, d, q =>
    if d = 0 then q
    else
      let s := rev.getD (i % 256) 0
      if 1 < q.get s then surplusLoop rev n (i + 1) (d - 1) (q.set s (q.get s - 1))
      else surplusLoop rev n (i + 1) d q

/-! ### What an encode writes -/

/-- Word 0 of index entry `k` of the container `t` holds at `s`'s `DST`. -/
def writtenIndexWord0 (s t : State) (k : Nat) : U32 := t.word32At (s.dstBase + (indexOffset (blocksOf s) + 8 * k))

/-- `startOffset[k]` of the container `t` holds at `s`'s `DST`. -/
def writtenStart (s t : State) (k : Nat) : Nat :=
  (t.word32At (s.dstBase + (indexOffset (blocksOf s) + 8 * k + 4))).toNat

/-- The header, `probs`, index and pad of the container with `tc` payload words that `t` holds at `s`'s `DST`
(44_container.md R710, R705). -/
def containerMetaWritten (pb : Nat) (enc : Vector U64 256) (tc : Nat) (s t : State) : Prop :=
  ((List.range 8).map fun j => t.word32At (s.dstBase + 4 * j)) =
      [0xD00D0001#32, BitVec.ofNat 32 (blocksOf s), s.snap.srcLen, BitVec.ofNat 32 tc, BitVec.ofNat 32 pb, 0, 0, 0] ∧
    (∀ i : Fin 256, (t.word16At (s.dstBase + probsOffset i.val)).setWidth 32 = encPdf (enc.get i)) ∧
    (∀ k, k < blocksOf s →
      indexUncompressed (writtenIndexWord0 s t k) = 4096 ∧ indexCompressed (writtenIndexWord0 s t k) ≤ 4096) ∧
    writtenStart s t 0 = 0 ∧
    (∀ k, k + 1 < blocksOf s →
      writtenStart s t (k + 1) = writtenStart s t k + indexCompressed (writtenIndexWord0 s t k)) ∧
    (∀ k, k + 1 = blocksOf s → tc = writtenStart s t k + indexCompressed (writtenIndexWord0 s t k)) ∧
    (blocksOf s % 2 = 1 → t.word64At (s.dstBase + (indexOffset (blocksOf s) + 8 * blocksOf s)) = 0)

/-- Every block's states and payload words are those of the scalar rules (42_encoder.md R516, R519). -/
def containerBlocksWritten (pb : Nat) (enc : Vector U64 256) (s t : State) : Prop :=
  ∀ k, k < blocksOf s →
    let words := s.blockWords enc pb k
    (∀ l : Fin 32,
      t.word32At (s.dstBase + stateOffset k l.val) = (scalarEncodeBlock enc pb (s.sourceBlock k)).1.get l) ∧
      indexCompressed (writtenIndexWord0 s t k) = words.length ∧
      (∀ j (h : j < words.length),
        t.word16At (s.dstBase + (payloadOffset (blocksOf s) + 2 * (writtenStart s t k + j))) = words[j])

/-- The registers of `t` are those of `s` but for a completion without error and with this count
(40_commands.md R404). -/
def completedWith (count : Nat) (s t : State) : Prop :=
  t.regs = { s.regs with error := 0, result := BitVec.ofNat 32 count, busy := false, done := true } ∧
    t.snap = s.snap ∧ t.inbox = s.inbox ∧ t.hostData = s.hostData ∧ t.peers = s.peers

/-- `t` reads as `s` at every byte outside `[base, base + n)`. -/
def sameOutside (base n : Nat) (s t : State) : Prop :=
  ∀ a, a < base ∨ base + n ≤ a → t.byteAt a = s.byteAt a

end Sys2Proof.Machine
end

