-- ==== Sys2Proof/Certificates/Slice0/Obligations.lean ====
section
/-! DEFINITION. The statements for the provers, one `Obligations.<Name>` each, from the numbered rules of spec/. -/

open Sys2Proof Sys2Proof.Machine

/-! ### Encodings -/

/-- Decoding the word of a well-formed command gives the command back, every `PB` 0..15 (30_encoding.md R300, R302,
R320). -/
def Obligations.CommandWordsRoundTrip : Prop :=
  ∀ i : Instr, i.wellFormed = true → decodeCommand (encodeCommand i) = .ok i

/-- A word selects at most one row of the opcode map, and decodes to a command of the row it selects; a word that
selects none decodes to none (30_encoding.md R302, R303). -/
def Obligations.OpcodeRowsSelect : Prop :=
  ∀ x : U32,
    (∀ r ∈ opcodeMap, ∀ r' ∈ opcodeMap, r.selects x = true → r'.selects x = true → r = r') ∧
    (∀ r ∈ opcodeMap, r.selects x = true → ∃ i, decodeCommand x = .ok i ∧ rowOf i = r) ∧
    (∀ i, decodeCommand x = .ok i → (rowOf i).selects x = true)

/-- A legal word is the word of the command it decodes to, up to the fields that command ignores: `PB` and `T` of
`NOP` and `DECODE`, `T` of `BUILD_TABLE` (30_encoding.md R302). -/
def Obligations.DecodedWordsReencode : Prop :=
  ∀ (x : U32) (i : Instr), decodeCommand x = .ok i →
    i.wellFormed = true ∧
    match i with
    | .nop => encodeCommand i = x &&& 0xFFFFFE0F#32
    | .buildTable _ => encodeCommand i = x &&& 0xFFFFFEFF#32
    | .encode _ => encodeCommand i = x
    | .encodeT _ => encodeCommand i = x
    | .decode => encodeCommand i = x &&& 0xFFFFFE0F#32

/-- A word whose `OP` is 4..15, or with any of bits 31:9 set, is illegal: issued, the core's turn completes it with
`IllegalCommand` and `RESULT = 0` and changes nothing but the status registers, as the step when no turn comes before the
core's; every other word is legal, whatever its `PB` (30_encoding.md R303, 40_commands.md R402). The inbox that says
whose turn it is stands in no rule: it is the model's choice (log entry 2). -/
def Obligations.IllegalWordsComplete : Prop :=
  (∀ s : State, s.regs.busy = true → (4 ≤ (opField s.regs.cmd).toNat ∨ reservedField s.regs.cmd ≠ 0) →
    let regs := { s.regs with error := 6, result := 0, busy := false, done := true }
    (s.inbox = [] → step s = .next { s with regs := regs }) ∧
    (∀ ts, s.inbox = .core :: ts → step s = .next { s with regs := regs, inbox := ts })) ∧
  (∀ x : U32, (opField x).toNat < 4 → reservedField x = 0 → ∃ i, decodeCommand x = .ok i)

/-- The command words the manual lists decode to the commands it lists them for (30_encoding.md R320,
95_test_vectors.md part 3). -/
def Obligations.ManualWordsDecode : Prop :=
  decodeTableWord 32 0x00000000 = some .nop ∧ decodeTableWord 32 0x000000A1 = some (.buildTable 10) ∧
  decodeTableWord 32 0x000000A2 = some (.encode 10) ∧ decodeTableWord 32 0x00000082 = some (.encode 8) ∧
  decodeTableWord 32 0x000001A2 = some (.encodeT 10) ∧ decodeTableWord 32 0x00000003 = some .decode ∧
  decodeTableWord 32 0x00000004 = none ∧ decodeTableWord 32 0x000002A2 = none

/-! ### Steps -/

/-- The core's step runs the issued command: when the core is busy with a word that decodes to `i`, a step with no
turn before the core's is `exec i`, the core's turn taken off the inbox if it stood there. The same for a word placed
by `withFetchWord`. The inbox is the model's own form of interleaving (log entries 2 and 3). -/
def Obligations.StepRunsIssuedCommand : Prop :=
  (∀ (s : State) (i : Instr), s.regs.busy = true → decodeCommand s.regs.cmd = .ok i → s.inbox = [] →
    step s = exec i s) ∧
  (∀ (s : State) (i : Instr) (ts : List Turn), s.regs.busy = true → decodeCommand s.regs.cmd = .ok i →
    s.inbox = .core :: ts → step s = exec i { s with inbox := ts }) ∧
  (∀ (s : State) (i : Instr) (w : Nat), decodeTableWord 32 w = some i →
    step (s.withFetchWord 32 w) = exec i (issue (BitVec.ofNat 32 w) s))

/-- An idle core stays as it is, when no turn is to come and at its own turn, and the host's turn is the host's step
(70_reset_and_hazards.md R1000: after reset the core waits for a write to `CMD`). The inbox is the model's own (log
entry 2). -/
def Obligations.IdleCoreWaits : Prop :=
  (∀ s : State, s.regs.busy = false → s.inbox = [] → step s = .next s) ∧
  (∀ (s : State) (ts : List Turn), s.regs.busy = false → s.inbox = .core :: ts →
    step s = .next { s with inbox := ts }) ∧
  (∀ (s : State) (a : HostAction) (ts : List Turn), s.inbox = .host a :: ts →
    step s = hostStep a { s with inbox := ts })

/-- Every step keeps the machine sound: host memory in canonical form, `BUSY` and `DONE` never both 1, no code above
10, no count beside an error, no error or count while busy, the snapshot equal to the operand registers while busy,
the running command's windows checked, and no race between two busy instances, this core or others (10_state.md R105,
R109, 40_commands.md R401, 20_memory.md R207, 60_exceptions.md R900, R901, R943). The canonical form of memory is the
model's (log entry 4), and so is another instance as its windows (log entry 16). -/
def Obligations.StepKeepsSound : Prop :=
  ∀ s t : State, s.sound = true → step s = .next t → t.sound = true

/-- The machine after reset is sound. -/
def Obligations.ResetIsSound : Prop := State.reset.sound = true

/-- Issue: a 32-bit host store of `x` to `CMD` while idle, with windows that pass their checks and no race with another
busy instance, latches the word, clears `DONE`, `ERROR` and `RESULT`, sets `BUSY` and takes the operand snapshot; nothing
else changes (40_commands.md R401). -/
def Obligations.IssueLatchesCommand : Prop :=
  ∀ (s : State) (x : U32), s.regs.busy = false → (grantOfWord x s.regs.operands).fault? = none →
    s.peers.any (grantOfWord x s.regs.operands).races = false →
    hostStep (.store 0x10#7 .w32 x) s =
      .next { s with
        regs := { s.regs with cmd := x, done := false, error := 0, result := 0, busy := true }
        snap := { src := s.regs.srcAddrHi ++ s.regs.srcAddrLo, srcLen := s.regs.srcLen,
                  dst := s.regs.dstAddrHi ++ s.regs.dstAddrLo, dstCap := s.regs.dstCap,
                  tbl := s.regs.tblAddrHi ++ s.regs.tblAddrLo } }

/-- The window checks: a window above `2^64` is `fault AddressWrap`, else a byte shared by a read and a write window is
`fault WindowOverlap`, before any error check and for every command; a command with neither does not end in these faults
(20_memory.md R207, 40_commands.md R402, 60_exceptions.md R930). The model's choices: the checks are made both at the issue
and at the run (log entry 9), and at an issue that also races with another busy instance the window fault comes before
`HostRace`, which R930 does not place (log entry 26). -/
def Obligations.WindowChecksFault : Prop :=
  let wraps := fun (g : Grant) => ∃ w ∈ g.reads ++ g.writes, 2 ^ 64 < w.base + w.len
  let shares := fun (g : Grant) => ∃ r ∈ g.reads, ∃ w ∈ g.writes, ∃ a, r.hasByte a = true ∧ w.hasByte a = true
  (∀ (i : Instr) (s : State),
    let g := grantOf i s.snap
    (wraps g → exec i s = .fault .addressWrap) ∧
    (¬wraps g → shares g → exec i s = .fault .windowOverlap) ∧
    (¬wraps g → ¬shares g → exec i s ≠ .fault .addressWrap ∧ exec i s ≠ .fault .windowOverlap)) ∧
  (∀ (i : Instr) (s : State) (x : U32), s.regs.busy = false → decodeCommand x = .ok i →
    let g := grantOf i s.regs.operands
    let issued := hostStep (.store 0x10#7 .w32 x) s
    (wraps g → issued = .fault .addressWrap) ∧
    (¬wraps g → shares g → issued = .fault .windowOverlap) ∧
    (¬wraps g → ¬shares g → issued ≠ .fault .addressWrap ∧ issued ≠ .fault .windowOverlap))

/-- Completion: a command that reaches a next state has cleared `BUSY`, set `DONE`, written a code of the list to `ERROR`
and a count to `RESULT`, and no other register; `irq` is then `CTRL.IE`. The snapshot, the turns to come, the host's data
and the other instances are unchanged (40_commands.md R404, 60_exceptions.md R900, R910). -/
def Obligations.CompletionWritesStatus : Prop :=
  ∀ (i : Instr) (s t : State), exec i s = .next t →
    t.regs = { s.regs with error := t.regs.error, result := t.regs.result, busy := false, done := true } ∧
    t.regs.error.toNat ≤ 10 ∧ t.irq = s.regs.ie ∧
    t.snap = s.snap ∧ t.inbox = s.inbox ∧ t.hostData = s.hostData ∧ t.peers = s.peers

/-- A command that ends in an error has written no byte of host memory and taken no free byte, and differs from the
state before only in the status registers (and the engines' hidden working state); so does an illegal word
(60_exceptions.md R902). -/
def Obligations.ErrorsLeaveMemory : Prop :=
  (∀ (i : Instr) (s t : State), exec i s = .next t → t.regs.error ≠ 0 →
    t = { s with
      eng := t.eng
      regs := { s.regs with error := t.regs.error, result := 0, busy := false, done := true } }) ∧
  (∀ s t : State, execIllegal s = .next t →
    t = { s with regs := { s.regs with error := 6, result := 0, busy := false, done := true } })

/-- A command writes only inside its write windows: every byte outside them reads as before (20_memory.md R206, R223). -/
def Obligations.CommandsStayInWindows : Prop :=
  ∀ (i : Instr) (s t : State), exec i s = .next t →
    ∀ a, (∀ w ∈ (grantOf i s.snap).writes, a < w.base ∨ w.base + w.len ≤ a) → t.byteAt a = s.byteAt a

/-- No working state carries a value into a command: two runs from states that differ only in lanes, sequencer,
masks, histogram, probabilities and tables end alike, up to that working state (10_state.md R113, 00_scope.md R17). -/
def Obligations.WorkingStateIsInvisible : Prop :=
  ∀ (i : Instr) (s : State) (e : Engine), sameOutcome (exec i s) (exec i (s.setEng e))

/-! ### NOP -/

/-- `NOP` completes from every state with `ERROR = 0`, `RESULT = 0`, `BUSY = 0`, `DONE = 1` and changes nothing else; it
is every word with `OP = 0` and bits 31:9 zero, `PB` and `T` ignored, and with any of these bits 1 the word is illegal
(40_commands.md R410). -/
def Obligations.NopCompletes : Prop :=
  (∀ s : State, exec .nop s =
    .next { s with regs := { s.regs with error := 0, result := 0, busy := false, done := true } }) ∧
  (∀ x : U32, opField x = 0 →
    decodeCommand x = if reservedField x = 0 then .ok .nop else .error .reservedBits)

/-! ### Statistics and BUILD_TABLE -/

/-- The histogram engine counts every byte of the source window, and the counters sum to `srcLen`; it writes nothing
else (41_statistics.md R450, R451). -/
def Obligations.HistogramCountsSource : Prop :=
  ∀ (g : Grant) (s : State), s.snap.srcWindow ∈ g.reads →
    ∃ t, histogram g s = .ok t ∧
      (∀ b : Fin 256, (t.eng.hist.get b).toNat = s.sourceCount b.val) ∧
      histTotal t.eng.hist = s.srcSize ∧
      t = s.setEng { s.eng with hist := t.eng.hist }

/-- Quantization sums to exactly `2^PB`, keeps every live symbol at 1 or more and every dead symbol at 0, and no
probability exceeds `2^PB` (41_statistics.md R457). -/
def Obligations.QuantizedProbsSum : Prop :=
  ∀ (hist : Vector U32 256) (pb : Nat), isProbBits pb = true → 0 < histTotal hist →
    ((quantize hist pb).toList.map BitVec.toNat).sum = 2 ^ pb ∧
    ∀ s : Fin 256,
      (0 < (hist.get s).toNat → 1 ≤ ((quantize hist pb).get s).toNat) ∧
      ((hist.get s).toNat = 0 → ((quantize hist pb).get s).toNat = 0) ∧
      ((quantize hist pb).get s).toNat ≤ 2 ^ pb

/-- The quantizer is the one of its rules: `Q` after steps 1 and 2 is the exact floor, lifted to 1 for a live symbol;
`order` is all 256 pairs `(Q[s], s)` in descending lexicographic order, formed once; a deficit visits the live symbols of
`order` cyclically from its head and adds 1 at each visit, a surplus visits `order` cyclically from its tail and takes 1
where `Q[s] > 1`, within the visits of R458; the values are held in 12 bits (41_statistics.md R452 to R456, R458). The
model computes the loops in passes (log entry 15). -/
def Obligations.QuantizerFollowsLoops : Prop :=
  ∀ (hist : Vector U32 256) (pb : Nat), isProbBits pb = true → 0 < histTotal hist →
    let q := roundedLive hist pb
    ∃ order : List (Nat × Fin 256),
      order.Perm ((List.finRange 256).map fun s => (q.get s, s)) ∧
      order.Pairwise (fun a b => b.1 < a.1 ∨ (b.1 = a.1 ∧ b.2 < a.2)) ∧
      (quantize hist pb).map BitVec.toNat =
        if probTotal q < 2 ^ pb then
          deficitLoop ((order.filter fun p => decide (0 < p.1)).map Prod.snd) (2 ^ pb - probTotal q) 0 q
        else
          surplusLoop (order.reverse.map Prod.snd) (256 * (probTotal q - 2 ^ pb + 1)) 0 (probTotal q - 2 ^ pb) q

/-- For every `q` in 1..2048: `shift` is `ceil(log2 q)`, at most 11, and `divM1` lies in `1 .. 2^32 - 1`
(41_statistics.md R461, R463). -/
def Obligations.DivisionPairRange : Prop :=
  ∀ q, 1 ≤ q → q ≤ 2048 →
    divShift q = Nat.clog 2 q ∧ divShift q ≤ 11 ∧ 1 ≤ divMagic q ∧ divMagic q ≤ 2 ^ 32 - 1

/-- The divide identity: for every `q` in 1..2048 and every `x < 2^31`, `floor(x / q) = (x + mulhi32(x, divM1)) >> shift`,
and the sum does not wrap (41_statistics.md R464). -/
def Obligations.DivideIdentity : Prop :=
  ∀ (q : Nat) (x : U32), 1 ≤ q → q ≤ 2048 → x.toNat < 2 ^ 31 →
    x.toNat + (mulhi32 x (BitVec.ofNat 32 (divMagic q))).toNat < 2 ^ 32 ∧
    x.toNat / q = ((x + mulhi32 x (BitVec.ofNat 32 (divMagic q))) >>> divShift q).toNat

/-- The encoder table of probabilities that sum to at most 2048: each record is
`divM1 << 32 | shift << 24 | cdf << 12 | pdf` for a live symbol and `cdf << 12` for a dead one, with `cdf` the sum of the
probabilities before it (41_statistics.md R460, R465). -/
def Obligations.EncoderTableRecords : Prop :=
  ∀ q : Vector (BitVec 12) 256, (q.toList.map BitVec.toNat).sum ≤ 2048 →
    ∀ s : Fin 256,
      let cdf := ((q.toList.take s.val).map BitVec.toNat).sum
      let pdf := (q.get s).toNat
      ((encTable q).get s).toNat =
        if 0 < pdf then divMagic pdf * 2 ^ 32 + divShift pdf * 2 ^ 24 + cdf * 2 ^ 12 + pdf else cdf * 2 ^ 12

/-- `BUILD_TABLE` completes whenever its windows and checks pass: `ERROR = 0`, `RESULT = 2048`, the table image of the
source's statistics at `TBL`, every byte outside `[TBL, TBL+2048)` unchanged, no free byte taken
(41_statistics.md R466, R480, 30_encoding.md R312). -/
def Obligations.BuildTableCompletes : Prop :=
  ∀ (pb : Nat) (s : State), buildTableReady pb s = true →
    ∃ t, exec (.buildTable pb) s = .next t ∧ completedWith 2048 s t ∧
      t.imageTable = s.sourceTable pb ∧ sameOutside s.tblBase 2048 s t ∧ t.draws = s.draws

/-- `BUILD_TABLE` reports the first of its checks that fails, in the order alignment, length, `probBits`, and changes
only the status registers (41_statistics.md R480, 40_commands.md R403). -/
def Obligations.BuildTableChecksInOrder : Prop :=
  ∀ (pb : Nat) (s : State) (c : ErrorCode), (grantOf (.buildTable pb) s.snap).fault? = none →
    buildTableError pb s = some c →
    exec (.buildTable pb) s =
      .next { s with regs := { s.regs with error := c.word, result := 0, busy := false, done := true } }

/-! ### The encoder -/

/-- `ENCODE` reports the first of its checks that fails, in the order alignment, length, capacity, `probBits`, and
changes only the status registers (42_encoder.md R530, 40_commands.md R403). -/
def Obligations.EncodeChecksInOrder : Prop :=
  ∀ (pb : Nat) (s : State) (c : ErrorCode), (grantOf (.encode pb) s.snap).fault? = none → encodeError pb s = some c →
    exec (.encode pb) s =
      .next { s with regs := { s.regs with error := c.word, result := 0, busy := false, done := true } }

/-- `ENCODE.T` reports the first of its checks that fails, the sum of the table image's `pdf` fields last, and changes
only the status registers and hidden working state (42_encoder.md R531, 40_commands.md R403). -/
def Obligations.EncodeTChecksInOrder : Prop :=
  ∀ (pb : Nat) (s : State) (c : ErrorCode), (grantOf (.encodeT pb) s.snap).fault? = none →
    encodeTError pb s = some c →
    ∃ e, exec (.encodeT pb) s =
      .next { s with
        eng := e
        regs := { s.regs with error := c.word, result := 0, busy := false, done := true } }

/-- The vector group step equals the scalar step on each lane: the new states, the emit mask, and the emitted words
packed in ascending lane order, for every table and every input (42_encoder.md R514, R517, 45_simd.md R830). -/
def Obligations.GroupStepIsScalar : Prop :=
  ∀ (enc : Vector U64 256) (sym : Vector Byte 8) (x : Vec) (pb : Nat) (j : Fin 8),
    let t := gather64 enc (cvtU8 sym)
    let em := emitMaskOf t.1 x pb
    let r := encStep (x.get j) (enc.get (symIdx (sym.get j))) pb
    (groupUpdate t.1 t.2 x pb).get j = r.state ∧
    em.getLsbD j.val = r.emitted ∧
    (r.emitted = true → (emittedWords t.1 x pb).toList[rank em j.val]? = some r.word)

/-- At most one emit: for a live symbol and a state in `[L, 2^31)` the threshold is `pdf * 2^(31-PB)`, at least `2^20`,
and a state shifted once is below it and below `L`; with `pdf = 2^PB` no state emits (42_encoder.md R512). -/
def Obligations.OneEmitSuffices : Prop :=
  ∀ (q : Vector (BitVec 12) 256) (pb : Nat) (s : Fin 256) (x : U32), isProbBits pb = true →
    (q.toList.map BitVec.toNat).sum = 2 ^ pb → 0 < (q.get s).toNat → Config.minState ≤ x → x.toNat < 2 ^ 31 →
    let e := (encTable q).get s
    (emitThreshold e pb).toNat = (q.get s).toNat * 2 ^ (31 - pb) ∧ 2 ^ 20 ≤ (emitThreshold e pb).toNat ∧
    (emitThreshold e pb ≤ x → x >>> 16 < Config.minState ∧ x >>> 16 < emitThreshold e pb) ∧
    ((q.get s).toNat = 2 ^ pb → (encStep x e pb).emitted = false)

/-- Every state stays in `[L, 2^31)` at step boundaries: over any sequence of live symbols, from any state in the
range, so from `L` (42_encoder.md R515). -/
def Obligations.StatesStayInRange : Prop :=
  ∀ (q : Vector (BitVec 12) 256) (pb : Nat) (syms : List (Fin 256)) (x : U32), isProbBits pb = true →
    (q.toList.map BitVec.toNat).sum = 2 ^ pb → (∀ s ∈ syms, 0 < (q.get s).toNat) →
    Config.minState ≤ x → x.toNat < 2 ^ 31 →
    let y := syms.foldl (fun x s => (encStep x ((encTable q).get s) pb).state) x
    Config.minState ≤ y ∧ y.toNat < 2 ^ 31

/-- `ENCODE` completes exactly as its scalar sweep says, whenever its windows and checks pass and every store fits: with
`tc` the words the sweep emits, at most one a source byte, `ERROR = 0`, `RESULT = PayloadOffset(nb) + 2*tc`, the metadata
written with the probabilities of the source's own statistics, every byte outside `[DST, DST + RESULT + 16)` unchanged
(42_encoder.md R518, R521, R530, R532, 44_container.md R710, R711). -/
def Obligations.EncodeCompletes : Prop :=
  ∀ (pb : Nat) (s : State), encodeReady pb s = true →
    let tc := s.payloadWords (s.sourceTable pb) pb
    ∃ t, exec (.encode pb) s = .next t ∧ tc ≤ s.srcSize ∧
      completedWith (payloadOffset (blocksOf s) + 2 * tc) s t ∧
      containerMetaWritten pb (s.sourceTable pb) tc s t ∧
      sameOutside s.dstBase (payloadOffset (blocksOf s) + 2 * tc + 16) s t

/-- `ENCODE.T` completes under the same conditions and the sum check of its table image, with the words and the metadata
of the image's table (42_encoder.md R518, R531, R532, 44_container.md R710, R711). -/
def Obligations.EncodeTCompletes : Prop :=
  ∀ (pb : Nat) (s : State), encodeTReady pb s = true →
    let tc := s.payloadWords s.imageTable pb
    ∃ t, exec (.encodeT pb) s = .next t ∧ tc ≤ s.srcSize ∧
      completedWith (payloadOffset (blocksOf s) + 2 * tc) s t ∧
      containerMetaWritten pb s.imageTable tc s t ∧
      sameOutside s.dstBase (payloadOffset (blocksOf s) + 2 * tc + 16) s t

/-- `ENCODE` and `ENCODE.T`, their windows and checks passed, end in `fault DstOverrun` exactly when the last store of the
sweep, 16 bytes at the cursor before the last group's words, does not fit in the destination window; with a capacity of
`PayloadOffset(nb) + 2*srcLen + 16` they never do (42_encoder.md R518, 20_memory.md R210, R211,
70_reset_and_hazards.md R1013, R1014). -/
def Obligations.EncodeOverrunsExactly : Prop :=
  ∀ (pb : Nat) (s : State),
    ((grantOf (.encode pb) s.snap).fault? = none → encodeError pb s = none →
      (exec (.encode pb) s = .fault .dstOverrun ↔ encodeFits pb (s.sourceTable pb) s = false) ∧
      (amplyCapable s = true → exec (.encode pb) s ≠ .fault .dstOverrun)) ∧
    ((grantOf (.encodeT pb) s.snap).fault? = none → encodeTError pb s = none →
      (exec (.encodeT pb) s = .fault .dstOverrun ↔ encodeFits pb s.imageTable s = false) ∧
      (amplyCapable s = true → exec (.encodeT pb) s ≠ .fault .dstOverrun))

/-- The encoder engine refines the scalar rules: every block's saved states and payload words are those of the scalar
sweep over its 4096 bytes, for the source's own table and for any table image (42_encoder.md R500 to R502, R514, R516,
R519, R522). -/
def Obligations.EncodeWritesScalarBlocks : Prop :=
  ∀ (pb : Nat) (s : State),
    (encodeReady pb s = true →
      ∃ t, exec (.encode pb) s = .next t ∧ containerBlocksWritten pb (s.sourceTable pb) s t) ∧
    (encodeTReady pb s = true →
      ∃ t, exec (.encodeT pb) s = .next t ∧ containerBlocksWritten pb s.imageTable s t)

/-- With the table `BUILD_TABLE` wrote from the same source with the same `PB`, `ENCODE.T` gives what `ENCODE` gives: the
same count and the same bytes everywhere but in the table's own window and in the bytes `[DST + RESULT, DST + RESULT + 16)`
that the last store may leave at any value (42_encoder.md R518, R531). -/
def Obligations.EncodeTMatchesEncode : Prop :=
  ∀ (pb : Nat) (s : State), buildTableReady pb s = true → encodeReady pb s = true →
    (grantOf (.encodeT pb) s.snap).fault? = none →
    ∃ t u v, exec (.encode pb) s = .next t ∧ exec (.buildTable pb) s = .next u ∧ exec (.encodeT pb) u = .next v ∧
      v.regs.error = 0 ∧ v.regs.result = t.regs.result ∧
      ∀ a, (a < s.tblBase ∨ s.tblBase + 2048 ≤ a) →
        (a < s.dstBase + t.regs.result.toNat ∨ s.dstBase + t.regs.result.toNat + 16 ≤ a) → v.byteAt a = t.byteAt a

/-- A table `BUILD_TABLE` wrote with another `PB` is always caught: `ENCODE.T` ends with `BadTable`, host memory unchanged
(42_encoder.md R531, 70_reset_and_hazards.md R1016, 90_conflicts.md C13). -/
def Obligations.ForeignTableCaught : Prop :=
  ∀ (pb pb' : Nat) (s : State), buildTableReady pb' s = true → encodeError pb s = none → pb ≠ pb' →
    (grantOf (.encodeT pb) s.snap).fault? = none →
    ∃ u v, exec (.buildTable pb') s = .next u ∧ exec (.encodeT pb) u = .next v ∧
      v.regs.error = 9 ∧ v.regs.result = 0 ∧ v.mem = u.mem

/-! ### The decoder -/

/-- `DECODE` reports the first check that fails: the alignment of `SRC`, then the eleven checks of `ValidateContainer` in
their order, on the fields read off host memory; only the status registers change (43_decoder.md R630, 44_container.md
R720). -/
def Obligations.DecodeChecksInOrder : Prop :=
  ∀ (s : State) (c : ErrorCode), (grantOf .decode s.snap).fault? = none → decodeError s = some c →
    exec .decode s =
      .next { s with regs := { s.regs with error := c.word, result := 0, busy := false, done := true } }

/-- The decoder table is complete: with probabilities that sum to `2^PB`, symbol `s` and slot `j < probs[s]` stand at
entry `cdf_s + j`, with `pdf = probs[s]`, and every entry below `2^PB` is one of these, for one `s` and `j` only
(43_decoder.md R601, R602). -/
def Obligations.DecoderTableComplete : Prop :=
  ∀ (probs : List U16) (pb : Nat) (dec : Vector U32 2048), isProbBits pb = true → probs.length = 256 →
    probsTotal probs = 2 ^ pb →
    (∀ (s j : Nat) (p : U16), probs[s]? = some p → j < p.toNat →
      let e := (fillTable probs 0 0 dec).getD (probsTotal (probs.take s) + j) 0
      (decSymbol e).toNat = s ∧ (decPdf e).toNat = p.toNat ∧ (decSlot e).toNat = j) ∧
    (∀ i, i < 2 ^ pb → ∃! sj : Nat × Nat, ∃ p, probs[sj.1]? = some p ∧ sj.2 < p.toNat ∧
      i = probsTotal (probs.take sj.1) + sj.2)

/-- The vector pair step equals the scalar rules on each lane: lookup, symbol and update, and the feed, in which the
needing lane of rank `i` takes the word at `cur - n + i` of the eight words that end at the cursor (43_decoder.md R612 to
R615, 45_simd.md R831). -/
def Obligations.DecodeStepIsScalar : Prop :=
  (∀ (dec : Vector U32 2048) (x : Vec) (pb : Nat) (j : Fin 8), isProbBits pb = true →
    let e := dec.getD (decIndex (x.get j) pb).toNat 0
    ((decGroupUpdate dec x pb).1.get j).toNat = (decSymbol e).toNat ∧
    (decGroupUpdate dec x pb).2.get j = decUpdate (x.get j) e pb) ∧
  (∀ (x : Vec) (words : Half) (j : Fin 8),
    let fm := vmask (needLanes x)
    (fm.getLsbD j.val = true ↔ x.get j < Config.minState) ∧
    (feedUpdate x words).get j =
      decFeed (x.get j) (words.toList.getD (8 - popcount fm + rank fm j.val) 0))

/-- The decode step inverts the encode step on each lane: for probabilities that sum to `2^PB`, a live symbol and a state
in `[L, 2^31)`, the lookup at the encoded state finds the symbol, the update gives the state after the emit, which is
below `L` exactly when a word was emitted, and the feed of that word gives the state before (43_decoder.md R618). -/
def Obligations.LaneInversion : Prop :=
  ∀ (q : Vector (BitVec 12) 256) (pb : Nat) (s : Fin 256) (x : U32) (dec : Vector U32 2048),
    isProbBits pb = true → (q.toList.map BitVec.toNat).sum = 2 ^ pb → 0 < (q.get s).toNat →
    Config.minState ≤ x → x.toNat < 2 ^ 31 →
    let e := (encTable q).get s
    let r := encStep x e pb
    let table := fillTable (q.toList.map fun p => p.setWidth 16) 0 0 dec
    let d := table.getD (decIndex r.state pb).toNat 0
    (decSymbol d).toNat = s.val ∧ decUpdate r.state d pb = afterEmit x e pb ∧
    (r.emitted = true ↔ afterEmit x e pb < Config.minState) ∧ decFeed (afterEmit x e pb) r.word = x

/-- `DECODE` completes whenever its windows and checks pass and no payload load starts below `SRC`: `ERROR = 0`,
`RESULT = totalUncompressedWords`, block `k`'s 4096 bytes at `DST + 4096*k` those of the scalar sweep from its stored
states and starting cursor, every byte outside `[DST, DST + 4096*numBlocks)` unchanged, no free byte taken; with no blocks
nothing is written (43_decoder.md R610 to R617, R620, R630). -/
def Obligations.DecodeCompletes : Prop :=
  ∀ s : State, decodeReady s = true →
    ∃ t, exec .decode s = .next t ∧ completedWith (s.headerWord 2).toNat s t ∧
      (∀ k, k < s.containerBlocks → ∀ i, i < 4096 →
        (s.decodedBlock k).bytes[i]? = some (t.byteAt (s.dstBase + (4096 * k + i)))) ∧
      sameOutside s.dstBase (4096 * s.containerBlocks) s t ∧ t.draws = s.draws

/-- `DECODE`, its windows and checks passed, ends in `fault SrcOverread` exactly when the scalar sweep of some block makes
a payload load that starts below `SRC` (43_decoder.md R615, R616, 20_memory.md R210). -/
def Obligations.DecodeOverreadsExactly : Prop :=
  ∀ s : State, (grantOf .decode s.snap).fault? = none → decodeError s = none →
    (exec .decode s = .fault .srcOverread ↔ loadsHeld s = false)

/-- Containers of the core decode: whatever `ENCODE`, or `ENCODE.T` with any table image, wrote passes every check of
`DECODE` with `SRC` that container, `srcLen` at least its length and a capacity of at least the source's size; and the
container of `ENCODE`, and of `ENCODE.T` with the table `BUILD_TABLE` wrote from the same source with the same `PB`, turns
back into the source bytes in a destination window clear of the container's, with `ERROR = 0` and `RESULT` the source's
length (44_container.md R722, 43_decoder.md R618). -/
def Obligations.MachineRoundTrip : Prop :=
  ∀ (pb : Nat) (s : State) (n cap : U32) (dst : U64), s.srcSize ≤ cap.toNat →
    let decoding := fun (t : State) => { t with snap :=
      { src := s.snap.dst, srcLen := n, dst := dst, dstCap := cap, tbl := s.snap.tbl } }
    let restored := fun (t : State) => dst.toNat + cap.toNat ≤ 2 ^ 64 → s.dstBase + n.toNat ≤ 2 ^ 64 →
      (dst.toNat + cap.toNat ≤ s.dstBase ∨ s.dstBase + n.toNat ≤ dst.toNat) →
      ∃ v, exec .decode (decoding t) = .next v ∧ v.regs.error = 0 ∧ v.regs.result = s.snap.srcLen ∧
        ∀ i, i < s.srcSize → v.byteAt (dst.toNat + i) = s.byteAt (s.srcBase + i)
    (encodeReady pb s = true → ∃ t, exec (.encode pb) s = .next t ∧
      (t.regs.result.toNat ≤ n.toNat → decodeError (decoding t) = none ∧ restored t)) ∧
    (encodeTReady pb s = true → ∃ t, exec (.encodeT pb) s = .next t ∧
      (t.regs.result.toNat ≤ n.toNat → decodeError (decoding t) = none)) ∧
    (encodeReady pb s = true → buildTableReady pb s = true → (grantOf (.encodeT pb) s.snap).fault? = none →
      ∃ u t, exec (.buildTable pb) s = .next u ∧ exec (.encodeT pb) u = .next t ∧
        (t.regs.result.toNat ≤ n.toNat → restored t))

/-! ### Memory accesses and the datapath -/

/-- Every core access checks its whole range: a read outside every read window is `fault SrcOverread`, or `TblOverread` for
a table read, and a write outside every write window is `fault DstOverrun` (20_memory.md R210). -/
def Obligations.AccessesOutsideWindowsFault : Prop :=
  (∀ (g : Grant) (a : Int) (n : Nat) (s : State),
    (¬∃ w ∈ g.reads, (w.base : Int) ≤ a ∧ a + n ≤ w.base + w.len) →
    coreRead g .source a n s = .error (.fault .srcOverread) ∧
    coreRead g .table a n s = .error (.fault .tblOverread)) ∧
  (∀ (g : Grant) (a : Int) (bs : List Byte) (n : Nat) (s : State),
    ((¬∃ w ∈ g.writes, (w.base : Int) ≤ a ∧ a + bs.length ≤ w.base + w.len) →
      coreWrite g a bs s = .error (.fault .dstOverrun)) ∧
    ((¬∃ w ∈ g.writes, (w.base : Int) ≤ a ∧ a + n ≤ w.base + w.len) →
      coreWriteSpill g a bs n s = .error (.fault .dstOverrun)))

/-- The broadcast table load gives what the gather gives, for symbols below 16 (45_simd.md R840, R841). -/
def Obligations.BroadcastMatchesGather : Prop :=
  ∀ (enc : Vector U64 256) (sym : Vec), (∀ j : Fin 8, (sym.get j).toNat < 16) →
    broadcastLoad enc sym = gather64 enc sym

/-- `writePermute[m]`: entry `i` below `popcount(m)` is the position of the `i`-th set bit; every entry is in 0..7
(45_simd.md R830). -/
def Obligations.WritePermutePacks : Prop :=
  ∀ (m : BitVec 8) (i : Fin 8),
    let p := ((writePermute m).get i).toNat
    p < 8 ∧ (i.val < popcount m → m.getLsbD p = true ∧ rank m p = i.val)

/-- `readPermute[m]`: the entry of a set lane `l` is `8 - n + rank(m, l)`; every entry is in 0..7 (45_simd.md R831). -/
def Obligations.ReadPermuteRoutes : Prop :=
  ∀ (m : BitVec 8) (l : Fin 8),
    let p := ((readPermute m).get l).toNat
    p < 8 ∧ (m.getLsbD l.val = true → p = 8 - popcount m + rank m l.val)

/-- The permutations undo each other: words packed with `writePermute[m]`, laid so that the last of them is the last of
the eight words at the cursor, come back to their own lanes through `readPermute[m]` (45_simd.md R830, R831,
95_test_vectors.md V-P). -/
def Obligations.PermutesInvert : Prop :=
  ∀ (m : BitVec 8) (x : Vec) (words : Half),
    (∀ i : Fin 8, i.val < popcount m →
      words.toList[8 - popcount m + i.val]? = some ((pack32to16 (permute8x32 x (writePermute m))).get i)) →
    ∀ l : Fin 8, m.getLsbD l.val = true →
      (permute8x32 (cvtU16 words) (readPermute m)).get l = ((x.get l).setWidth 16).setWidth 32

/-! ### The register block and the host -/

/-- Every register reads as the map says, reserved offsets read 0, and an aligned 32-bit load changes nothing but what the
host got (10_state.md R101 to R109). -/
def Obligations.RegisterReads : Prop :=
  ∀ s : State,
    (∀ off : BitVec 7, off.toNat % 4 = 0 →
      hostStep (.load off .w32) s = .next { s with hostData := readRegister s off }) ∧
    readRegister s 0x00#7 = 0xD00D0001#32 ∧ readRegister s 0x04#7 = 0x00B90C20#32 ∧
    (readRegister s 0x08#7).toNat = s.regs.ie.toNat ∧
    (readRegister s 0x0C#7).toNat = s.regs.busy.toNat + 2 * s.regs.done.toNat + 4 * (s.regs.done && s.regs.ie).toNat ∧
    readRegister s 0x10#7 = s.regs.cmd ∧ readRegister s 0x14#7 = s.regs.error ∧
    readRegister s 0x18#7 = s.regs.result ∧
    readRegister s 0x20#7 = s.regs.srcAddrLo ∧ readRegister s 0x24#7 = s.regs.srcAddrHi ∧
    readRegister s 0x28#7 = s.regs.srcLen ∧ readRegister s 0x30#7 = s.regs.dstAddrLo ∧
    readRegister s 0x34#7 = s.regs.dstAddrHi ∧ readRegister s 0x38#7 = s.regs.dstCap ∧
    readRegister s 0x40#7 = s.regs.tblAddrLo ∧ readRegister s 0x44#7 = s.regs.tblAddrHi ∧
    readRegister s 0x1C#7 = 0 ∧ readRegister s 0x2C#7 = 0 ∧ readRegister s 0x3C#7 = 0 ∧
    (∀ off : BitVec 7, 0x48 ≤ off.toNat → readRegister s off = 0)

/-- Writes to `ID`, `PARAMS`, `ERROR`, `RESULT` and the reserved offsets are ignored (10_state.md R101, R102, R103). -/
def Obligations.ReadOnlyWritesIgnored : Prop :=
  ∀ (s : State) (off : BitVec 7) (v : U32), off.toNat % 4 = 0 →
    (off.toNat ∈ [0x00, 0x04, 0x14, 0x18, 0x1C, 0x2C, 0x3C] ∨ 0x48 ≤ off.toNat) →
    hostStep (.store off .w32 v) s = .next s

/-- The register block is the 0x80 bytes from `CORE_BASE` on, a register at `CORE_BASE + offset`, and any access that has a
byte in the block and is not a 4-byte-aligned 32-bit load or store of it is `fault MmioAccess`: one of another width or
alignment that starts in the block, a byte of the block, and one of the bytes of a wide access that reaches into the block
from below (10_state.md R100). The model's choices: an access that starts outside the block is its bytes (log entry 12),
which go on at address 0 past `2^64` (log entry 29), host actions name the offset (log entry 11), a byte store to the block
faults whichever master makes it and whatever command runs (log entry 24), alignment is that of the offset, and the block's
addresses are taken modulo `2^64`, whatever `CORE_BASE` is (log entry 27). -/
def Obligations.MmioAccessFaults : Prop :=
  let blockByte := fun (off : BitVec 7) => Config.coreBase + off.setWidth 64
  (∀ (off : BitVec 7) (width : Width) (v : U64),
    loadAt (blockByte off) width = [.load off width] ∧
    storeAt (blockByte off) width v = [.store off width (v.setWidth 32)]) ∧
  (∀ (s : State) (off : BitVec 7) (width : Width) (v : U32), (width ≠ .w32 ∨ off.toNat % 4 ≠ 0) →
    hostStep (.load off width) s = .fault .mmioAccess ∧ hostStep (.store off width v) s = .fault .mmioAccess) ∧
  (∀ (s : State) (off : BitVec 7) (v : Byte),
    hostStep (.memLoad (blockByte off)) s = .fault .mmioAccess ∧
    hostStep (.memStore (blockByte off) v) s = .fault .mmioAccess) ∧
  (∀ (addr : U64) (width : Width) (v : U64), (∀ off, addr ≠ blockByte off) →
    loadAt addr width = ((List.range width.bytes).map fun i => .memLoad (addr + BitVec.ofNat 64 i)) ∧
    storeAt addr width v =
      ((List.range width.bytes).map fun i => .memStore (addr + BitVec.ofNat 64 i) (v.extractLsb' (8 * i) 8)) ∧
    ∀ (off : BitVec 7) (k : Nat), k < width.bytes → addr + BitVec.ofNat 64 k = blockByte off →
      (∃ x ∈ loadAt addr width, ∀ s, hostStep x s = .fault .mmioAccess) ∧
      (∃ x ∈ storeAt addr width v, ∀ s, hostStep x s = .fault .mmioAccess))

/-- While idle, a write to an operand register sets it, all 32 bits, and nothing else (10_state.md R109). -/
def Obligations.OperandWritesLatch : Prop :=
  ∀ (s : State) (v : U32), s.regs.busy = false →
    hostStep (.store 0x20#7 .w32 v) s = .next { s with regs := { s.regs with srcAddrLo := v } } ∧
    hostStep (.store 0x24#7 .w32 v) s = .next { s with regs := { s.regs with srcAddrHi := v } } ∧
    hostStep (.store 0x28#7 .w32 v) s = .next { s with regs := { s.regs with srcLen := v } } ∧
    hostStep (.store 0x30#7 .w32 v) s = .next { s with regs := { s.regs with dstAddrLo := v } } ∧
    hostStep (.store 0x34#7 .w32 v) s = .next { s with regs := { s.regs with dstAddrHi := v } } ∧
    hostStep (.store 0x38#7 .w32 v) s = .next { s with regs := { s.regs with dstCap := v } } ∧
    hostStep (.store 0x40#7 .w32 v) s = .next { s with regs := { s.regs with tblAddrLo := v } } ∧
    hostStep (.store 0x44#7 .w32 v) s = .next { s with regs := { s.regs with tblAddrHi := v } }

/-- While busy, writes to `CMD` and to the operand registers are ignored, with no error and no record
(70_reset_and_hazards.md R1012). -/
def Obligations.BusyWritesIgnored : Prop :=
  ∀ (s : State) (off : BitVec 7) (v : U32), s.regs.busy = true →
    off.toNat ∈ [0x10, 0x20, 0x24, 0x28, 0x30, 0x34, 0x38, 0x40, 0x44] →
    hostStep (.store off .w32 v) s = .next s

/-- A write to `CTRL` without `SRST` sets `IE` to bit 0, busy or not, and nothing else; a write to `STATUS` clears `DONE`
where bit 1 is 1 and does nothing else (10_state.md R104, R105). -/
def Obligations.CtrlAndStatusWrites : Prop :=
  ∀ (s : State) (v : U32),
    (v.getLsbD 1 = false →
      hostStep (.store 0x08#7 .w32 v) s = .next { s with regs := { s.regs with ie := v.getLsbD 0 } }) ∧
    hostStep (.store 0x0C#7 .w32 v) s =
      .next { s with regs := { s.regs with done := s.regs.done && !v.getLsbD 1 } }

/-- `irq` is `DONE AND IE`: clearing `IE` deasserts it and leaves `DONE`, an acknowledge and an issue deassert it, and the
platform input it drives is `IRQ_LINE` alone (60_exceptions.md R910). -/
def Obligations.IrqIsDoneAndEnabled : Prop :=
  ∀ s : State,
    s.irq = (s.regs.done && s.regs.ie) ∧
    (∃ t, hostStep (.store 0x08#7 .w32 0) s = .next t ∧ t.irq = false ∧ t.regs.done = s.regs.done) ∧
    (∃ t, hostStep (.store 0x0C#7 .w32 2) s = .next t ∧ t.irq = false ∧ t.regs.ie = s.regs.ie) ∧
    (∀ x, (issue x s).irq = false) ∧
    s.irqAt Config.irqLine = s.irq ∧ ∀ line, line ≠ Config.irqLine → s.irqAt line = false

/-- Soft reset: a write to `CTRL` with bit 1 set returns every register to its reset value, whatever bit 0 says, so that
nothing is busy and `irq` is low; a running command is gone, every byte outside its write windows is unchanged, and inside
them is any value; while idle nothing but the register block changes (70_reset_and_hazards.md R1002, 10_state.md R130).
The model's choices: the working state and the snapshot stay when a command is aborted (log entries 18 and 8), and any
value is the machine's next free byte (log entry 5). -/
def Obligations.SoftResetEffect : Prop :=
  ∀ (s : State) (v : U32), v.getLsbD 1 = true →
    ∃ t, hostStep (.store 0x08#7 .w32 v) s = .next t ∧ t.regs = State.reset.regs ∧ t.irq = false ∧
      t.snap = s.snap ∧ t.eng = s.eng ∧ t.inbox = s.inbox ∧ t.hostData = s.hostData ∧ t.peers = s.peers ∧
      (s.regs.busy = false → t = { s with regs := State.reset.regs }) ∧
      (∀ a, (∀ w ∈ (runningGrant s).writes, a < w.base ∨ w.base + w.len ≤ a) → t.byteAt a = s.byteAt a) ∧
      (∀ w, (runningGrant s).writes = [w] → w.base + w.len ≤ 2 ^ 64 →
        ∀ k, k < w.len → t.byteAt (w.base + k) = Config.freeByte (s.draws + k))

/-- Power-on reset: registers, snapshot and working state as in `State.reset`; while idle nothing else changes, and with a
command running every byte outside its write windows is unchanged too. The model's choices: the values of snapshot and
working state (log entries 7, 8), and that the write windows of a command it ends hold any value, the machine's next free
bytes (log entries 10, 5) (70_reset_and_hazards.md R1000, 10_state.md R130). -/
def Obligations.PowerOnResetEffect : Prop :=
  (∀ s : State, s.regs.busy = false →
    hostStep .powerOn s =
      .next { s with regs := State.reset.regs, snap := State.reset.snap, eng := State.reset.eng }) ∧
  (∀ s : State, ∃ t, hostStep .powerOn s = .next t ∧ t.regs = State.reset.regs ∧ t.snap = State.reset.snap ∧
    t.eng = State.reset.eng ∧ t.irq = false ∧ t.inbox = s.inbox ∧ t.hostData = s.hostData ∧ t.peers = s.peers ∧
    (∀ a, (∀ w ∈ (runningGrant s).writes, a < w.base ∨ w.base + w.len ≤ a) → t.byteAt a = s.byteAt a) ∧
    (∀ w, (runningGrant s).writes = [w] → w.base + w.len ≤ 2 ^ 64 →
      ∀ k, k < w.len → t.byteAt (w.base + k) = Config.freeByte (s.draws + k)))

/-- The registers after reset: `ID` and `PARAMS` read their constants and every other offset reads 0, the core idle and
the interrupt low (10_state.md R130, 70_reset_and_hazards.md R1000). -/
def Obligations.ResetRegisterValues : Prop :=
  readRegister State.reset 0x00#7 = 0xD00D0001#32 ∧ readRegister State.reset 0x04#7 = 0x00B90C20#32 ∧
  (∀ off : BitVec 7, 8 ≤ off.toNat → readRegister State.reset off = 0) ∧ State.reset.irq = false

/-- Host accesses to memory while a command runs, at addresses outside the register block (those inside are
`MmioAccessFaults`): a store to any byte of any window of it is `fault HostRace`, a load from a write window gives any
value, and accesses elsewhere are plain, so every one while an illegal word, which touches no memory, is not yet completed
(20_memory.md R222, 30_encoding.md R303). That an illegal word has no windows is the model's inference (log entry 22); the
model's choices are the free byte (log entry 5), accesses of single bytes (log entry 12), and that an access to a window
of another busy instance is plain (log entry 30). -/
def Obligations.HostAccessWhileBusy : Prop :=
  ∀ (s : State) (g : Grant) (a : U64) (v : Byte), s.regs.busy = true →
    (∀ off : BitVec 7, a ≠ Config.coreBase + off.setWidth 64) →
    (∀ i, decodeCommand s.regs.cmd = .ok i → g = grantOf i s.snap) →
    (∀ e, decodeCommand s.regs.cmd = .error e → g = ⟨[], []⟩) →
    (g.hasByte a.toNat = true → hostStep (.memStore a v) s = .fault .hostRace) ∧
    (g.hasByte a.toNat = false → ∃ t, hostStep (.memStore a v) s = .next t ∧ t.byteAt a.toNat = v ∧
      t.regs = s.regs ∧ t.snap = s.snap ∧ ∀ b, b ≠ a.toNat → t.byteAt b = s.byteAt b) ∧
    (g.writesByte a.toNat = true → hostStep (.memLoad a) s =
      .next { s with hostData := (Config.freeByte s.draws).setWidth 32, draws := s.draws + 1 }) ∧
    (g.writesByte a.toNat = false → hostStep (.memLoad a) s =
      .next { s with hostData := (s.byteAt a.toNat).setWidth 32 })

/-- Two busy instances, one of them with a write window that shares a byte with a window of the other, are
`fault HostRace`: another instance that starts beside this core's running command or beside a third instance, and a
command of this core issued while another instance runs. An instance that shares no such byte starts and ends freely
(60_exceptions.md R943). The model's choices: another instance is its windows alone, and the fault comes where the later
of the two commands starts (log entry 16). -/
def Obligations.PeersRace : Prop :=
  let shares := fun (g h : Grant) =>
    ∃ a, ((∃ w ∈ g.writes, w.hasByte a = true) ∧ (∃ v ∈ h.reads ++ h.writes, v.hasByte a = true)) ∨
      ((∃ w ∈ h.writes, w.hasByte a = true) ∧ (∃ v ∈ g.reads ++ g.writes, v.hasByte a = true))
  (∀ (s : State) (i : Instr) (p : Peer), s.regs.busy = true → decodeCommand s.regs.cmd = .ok i →
    shares (grantOf i s.snap) p.grant → hostStep (.peerIssue p) s = .fault .hostRace) ∧
  (∀ (s : State) (p q : Peer), q ∈ s.peers → shares q.grant p.grant →
    hostStep (.peerIssue p) s = .fault .hostRace) ∧
  (∀ (s : State) (p : Peer), (∀ i, s.regs.busy = true → decodeCommand s.regs.cmd = .ok i →
      ¬shares (grantOf i s.snap) p.grant) → (∀ q ∈ s.peers, ¬shares q.grant p.grant) →
    hostStep (.peerIssue p) s = .next { s with peers := p :: s.peers }) ∧
  (∀ (s : State) (p : Peer), hostStep (.peerDone p) s = .next { s with peers := s.peers.erase p }) ∧
  (∀ (s : State) (i : Instr) (x : U32) (p : Peer), decodeCommand x = .ok i → s.regs.busy = false →
    (grantOf i s.regs.operands).fault? = none → p ∈ s.peers → shares (grantOf i s.regs.operands) p.grant →
    hostStep (.store 0x10#7 .w32 x) s = .fault .hostRace)

/-- Container geometry: the payload origin of a 32-byte-aligned container is 16-byte aligned, and the offsets of one to
four blocks are the manual's (44_container.md R702). -/
def Obligations.PayloadOffsetGeometry : Prop :=
  (∀ nb, payloadOffset nb % 16 = 0 ∧ indexOffset nb + 8 * nb ≤ payloadOffset nb) ∧
  (List.range 5).map payloadOffset = [544, 688, 816, 960, 1088]
end

