-- ==== Sys2Proof/Laws/State.lean ====
section
/-! SUPPORT. One lemma for each field and each update of the state, so that no proof unfolds a record update. -/

namespace Sys2Proof.Machine

/-! ### `setRegs` -/

@[simp] theorem State.setRegs_regs (s : State) (r : Regs) : (s.setRegs r).regs = r := rfl
@[simp] theorem State.setRegs_snap (s : State) (r : Regs) : (s.setRegs r).snap = s.snap := rfl
@[simp] theorem State.setRegs_eng (s : State) (r : Regs) : (s.setRegs r).eng = s.eng := rfl
@[simp] theorem State.setRegs_mem (s : State) (r : Regs) : (s.setRegs r).mem = s.mem := rfl
@[simp] theorem State.setRegs_draws (s : State) (r : Regs) : (s.setRegs r).draws = s.draws := rfl
@[simp] theorem State.setRegs_inbox (s : State) (r : Regs) : (s.setRegs r).inbox = s.inbox := rfl
@[simp] theorem State.setRegs_hostData (s : State) (r : Regs) : (s.setRegs r).hostData = s.hostData := rfl
@[simp] theorem State.setRegs_peers (s : State) (r : Regs) : (s.setRegs r).peers = s.peers := rfl

/-! ### `setSnap` -/

@[simp] theorem State.setSnap_regs (s : State) (o : Operands) : (s.setSnap o).regs = s.regs := rfl
@[simp] theorem State.setSnap_snap (s : State) (o : Operands) : (s.setSnap o).snap = o := rfl
@[simp] theorem State.setSnap_eng (s : State) (o : Operands) : (s.setSnap o).eng = s.eng := rfl
@[simp] theorem State.setSnap_mem (s : State) (o : Operands) : (s.setSnap o).mem = s.mem := rfl
@[simp] theorem State.setSnap_draws (s : State) (o : Operands) : (s.setSnap o).draws = s.draws := rfl
@[simp] theorem State.setSnap_inbox (s : State) (o : Operands) : (s.setSnap o).inbox = s.inbox := rfl
@[simp] theorem State.setSnap_hostData (s : State) (o : Operands) : (s.setSnap o).hostData = s.hostData := rfl
@[simp] theorem State.setSnap_peers (s : State) (o : Operands) : (s.setSnap o).peers = s.peers := rfl

/-! ### `setEng` -/

@[simp] theorem State.setEng_regs (s : State) (e : Engine) : (s.setEng e).regs = s.regs := rfl
@[simp] theorem State.setEng_snap (s : State) (e : Engine) : (s.setEng e).snap = s.snap := rfl
@[simp] theorem State.setEng_eng (s : State) (e : Engine) : (s.setEng e).eng = e := rfl
@[simp] theorem State.setEng_mem (s : State) (e : Engine) : (s.setEng e).mem = s.mem := rfl
@[simp] theorem State.setEng_draws (s : State) (e : Engine) : (s.setEng e).draws = s.draws := rfl
@[simp] theorem State.setEng_inbox (s : State) (e : Engine) : (s.setEng e).inbox = s.inbox := rfl
@[simp] theorem State.setEng_hostData (s : State) (e : Engine) : (s.setEng e).hostData = s.hostData := rfl
@[simp] theorem State.setEng_peers (s : State) (e : Engine) : (s.setEng e).peers = s.peers := rfl

/-! ### `setMem` -/

@[simp] theorem State.setMem_regs (s : State) (m : Memory) : (s.setMem m).regs = s.regs := rfl
@[simp] theorem State.setMem_snap (s : State) (m : Memory) : (s.setMem m).snap = s.snap := rfl
@[simp] theorem State.setMem_eng (s : State) (m : Memory) : (s.setMem m).eng = s.eng := rfl
@[simp] theorem State.setMem_mem (s : State) (m : Memory) : (s.setMem m).mem = m := rfl
@[simp] theorem State.setMem_draws (s : State) (m : Memory) : (s.setMem m).draws = s.draws := rfl
@[simp] theorem State.setMem_inbox (s : State) (m : Memory) : (s.setMem m).inbox = s.inbox := rfl
@[simp] theorem State.setMem_hostData (s : State) (m : Memory) : (s.setMem m).hostData = s.hostData := rfl
@[simp] theorem State.setMem_peers (s : State) (m : Memory) : (s.setMem m).peers = s.peers := rfl

/-! ### `setDraws` -/

@[simp] theorem State.setDraws_regs (s : State) (n : Nat) : (s.setDraws n).regs = s.regs := rfl
@[simp] theorem State.setDraws_snap (s : State) (n : Nat) : (s.setDraws n).snap = s.snap := rfl
@[simp] theorem State.setDraws_eng (s : State) (n : Nat) : (s.setDraws n).eng = s.eng := rfl
@[simp] theorem State.setDraws_mem (s : State) (n : Nat) : (s.setDraws n).mem = s.mem := rfl
@[simp] theorem State.setDraws_draws (s : State) (n : Nat) : (s.setDraws n).draws = n := rfl
@[simp] theorem State.setDraws_inbox (s : State) (n : Nat) : (s.setDraws n).inbox = s.inbox := rfl
@[simp] theorem State.setDraws_hostData (s : State) (n : Nat) : (s.setDraws n).hostData = s.hostData := rfl
@[simp] theorem State.setDraws_peers (s : State) (n : Nat) : (s.setDraws n).peers = s.peers := rfl

/-! ### `setInbox` -/

@[simp] theorem State.setInbox_regs (s : State) (ts : List Turn) : (s.setInbox ts).regs = s.regs := rfl
@[simp] theorem State.setInbox_snap (s : State) (ts : List Turn) : (s.setInbox ts).snap = s.snap := rfl
@[simp] theorem State.setInbox_eng (s : State) (ts : List Turn) : (s.setInbox ts).eng = s.eng := rfl
@[simp] theorem State.setInbox_mem (s : State) (ts : List Turn) : (s.setInbox ts).mem = s.mem := rfl
@[simp] theorem State.setInbox_draws (s : State) (ts : List Turn) : (s.setInbox ts).draws = s.draws := rfl
@[simp] theorem State.setInbox_inbox (s : State) (ts : List Turn) : (s.setInbox ts).inbox = ts := rfl
@[simp] theorem State.setInbox_hostData (s : State) (ts : List Turn) : (s.setInbox ts).hostData = s.hostData := rfl
@[simp] theorem State.setInbox_peers (s : State) (ts : List Turn) : (s.setInbox ts).peers = s.peers := rfl

/-! ### `setHostData` -/

@[simp] theorem State.setHostData_regs (s : State) (v : U32) : (s.setHostData v).regs = s.regs := rfl
@[simp] theorem State.setHostData_snap (s : State) (v : U32) : (s.setHostData v).snap = s.snap := rfl
@[simp] theorem State.setHostData_eng (s : State) (v : U32) : (s.setHostData v).eng = s.eng := rfl
@[simp] theorem State.setHostData_mem (s : State) (v : U32) : (s.setHostData v).mem = s.mem := rfl
@[simp] theorem State.setHostData_draws (s : State) (v : U32) : (s.setHostData v).draws = s.draws := rfl
@[simp] theorem State.setHostData_inbox (s : State) (v : U32) : (s.setHostData v).inbox = s.inbox := rfl
@[simp] theorem State.setHostData_hostData (s : State) (v : U32) : (s.setHostData v).hostData = v := rfl
@[simp] theorem State.setHostData_peers (s : State) (v : U32) : (s.setHostData v).peers = s.peers := rfl

/-! ### `setPeers` -/

@[simp] theorem State.setPeers_regs (s : State) (ps : List Peer) : (s.setPeers ps).regs = s.regs := rfl
@[simp] theorem State.setPeers_snap (s : State) (ps : List Peer) : (s.setPeers ps).snap = s.snap := rfl
@[simp] theorem State.setPeers_eng (s : State) (ps : List Peer) : (s.setPeers ps).eng = s.eng := rfl
@[simp] theorem State.setPeers_mem (s : State) (ps : List Peer) : (s.setPeers ps).mem = s.mem := rfl
@[simp] theorem State.setPeers_draws (s : State) (ps : List Peer) : (s.setPeers ps).draws = s.draws := rfl
@[simp] theorem State.setPeers_inbox (s : State) (ps : List Peer) : (s.setPeers ps).inbox = s.inbox := rfl
@[simp] theorem State.setPeers_hostData (s : State) (ps : List Peer) : (s.setPeers ps).hostData = s.hostData := rfl
@[simp] theorem State.setPeers_peers (s : State) (ps : List Peer) : (s.setPeers ps).peers = ps := rfl

/-! ### An update with the value a field has changes nothing -/

@[simp] theorem State.setRegs_self (s : State) : s.setRegs s.regs = s := rfl
@[simp] theorem State.setSnap_self (s : State) : s.setSnap s.snap = s := rfl
@[simp] theorem State.setEng_self (s : State) : s.setEng s.eng = s := rfl
@[simp] theorem State.setMem_self (s : State) : s.setMem s.mem = s := rfl
@[simp] theorem State.setDraws_self (s : State) : s.setDraws s.draws = s := rfl
@[simp] theorem State.setInbox_self (s : State) : s.setInbox s.inbox = s := rfl
@[simp] theorem State.setHostData_self (s : State) : s.setHostData s.hostData = s := rfl
@[simp] theorem State.setPeers_self (s : State) : s.setPeers s.peers = s := rfl

/-! ### The last of two updates of one field stands -/

@[simp] theorem State.setRegs_setRegs (s : State) (r r' : Regs) :
    (s.setRegs r).setRegs r' = s.setRegs r' := rfl
@[simp] theorem State.setSnap_setSnap (s : State) (o o' : Operands) :
    (s.setSnap o).setSnap o' = s.setSnap o' := rfl
@[simp] theorem State.setEng_setEng (s : State) (e e' : Engine) :
    (s.setEng e).setEng e' = s.setEng e' := rfl
@[simp] theorem State.setMem_setMem (s : State) (m m' : Memory) :
    (s.setMem m).setMem m' = s.setMem m' := rfl
@[simp] theorem State.setDraws_setDraws (s : State) (n n' : Nat) :
    (s.setDraws n).setDraws n' = s.setDraws n' := rfl
@[simp] theorem State.setInbox_setInbox (s : State) (ts ts' : List Turn) :
    (s.setInbox ts).setInbox ts' = s.setInbox ts' := rfl
@[simp] theorem State.setHostData_setHostData (s : State) (v v' : U32) :
    (s.setHostData v).setHostData v' = s.setHostData v' := rfl
@[simp] theorem State.setPeers_setPeers (s : State) (ps ps' : List Peer) :
    (s.setPeers ps).setPeers ps' = s.setPeers ps' := rfl

/-! ### Completion, error and issue -/

@[simp] theorem complete_snap (c : ErrorCode) (n : U32) (s : State) : (complete c n s).snap = s.snap := rfl
@[simp] theorem complete_eng (c : ErrorCode) (n : U32) (s : State) : (complete c n s).eng = s.eng := rfl
@[simp] theorem complete_mem (c : ErrorCode) (n : U32) (s : State) : (complete c n s).mem = s.mem := rfl
@[simp] theorem complete_draws (c : ErrorCode) (n : U32) (s : State) : (complete c n s).draws = s.draws := rfl
@[simp] theorem complete_inbox (c : ErrorCode) (n : U32) (s : State) : (complete c n s).inbox = s.inbox := rfl
@[simp] theorem complete_hostData (c : ErrorCode) (n : U32) (s : State) : (complete c n s).hostData = s.hostData := rfl
@[simp] theorem complete_peers (c : ErrorCode) (n : U32) (s : State) : (complete c n s).peers = s.peers := rfl
@[simp] theorem complete_regs (c : ErrorCode) (n : U32) (s : State) :
    (complete c n s).regs = { s.regs with error := c.word, result := n, busy := false, done := true } := rfl

@[simp] theorem raise_eq_complete (c : ErrorCode) (s : State) : raise c s = complete c 0 s := rfl

@[simp] theorem issue_regs (x : U32) (s : State) :
    (issue x s).regs = { s.regs with cmd := x, done := false, error := 0, result := 0, busy := true } := rfl
@[simp] theorem issue_snap (x : U32) (s : State) : (issue x s).snap = s.regs.operands := rfl
@[simp] theorem issue_eng (x : U32) (s : State) : (issue x s).eng = s.eng := rfl
@[simp] theorem issue_mem (x : U32) (s : State) : (issue x s).mem = s.mem := rfl
@[simp] theorem issue_draws (x : U32) (s : State) : (issue x s).draws = s.draws := rfl
@[simp] theorem issue_inbox (x : U32) (s : State) : (issue x s).inbox = s.inbox := rfl
@[simp] theorem issue_hostData (x : U32) (s : State) : (issue x s).hostData = s.hostData := rfl
@[simp] theorem issue_peers (x : U32) (s : State) : (issue x s).peers = s.peers := rfl

/-- No error code is above 10 (60_exceptions.md R900). -/
theorem ErrorCode.word_le (c : ErrorCode) : c.word.toNat ≤ 10 := by cases c <;> decide

end Sys2Proof.Machine
end

