-- ==== Sys2Proof/Laws/Memory.lean ====
section
/-! SUPPORT. Host memory: read after write, the canonical form and that every memory operation keeps it. -/

namespace Sys2Proof.Machine

theorem Memory.get?_put (m : Memory) (a b : Nat) (v : Byte) :
    (m.put a v).get? b = if b = a then some v else m.get? b := by
  induction m with
  | nil => simp [Memory.put, Memory.get?]
  | cons c m ih =>
    obtain ⟨c, w⟩ := c
    simp only [Memory.put]
    split
    · simp only [Memory.get?]
    · split
      · subst_vars
        simp only [Memory.get?]
        split <;> simp_all
      · simp only [Memory.get?, ih]
        split <;> simp_all <;> omega

theorem Memory.wfFrom_mono {lo lo' : Nat} {m : Memory} (h : lo' ≤ lo) (hm : Memory.wfFrom lo m = true) :
    Memory.wfFrom lo' m = true := by
  cases m with
  | nil => rfl
  | cons c m =>
    obtain ⟨c, w⟩ := c
    simp only [Memory.wfFrom, Bool.and_eq_true, decide_eq_true_eq] at hm ⊢
    exact ⟨⟨by omega, hm.1.2⟩, hm.2⟩

theorem Memory.wfFrom_put {lo a : Nat} {m : Memory} (v : Byte) (hm : Memory.wfFrom lo m = true) (hlo : lo ≤ a)
    (ha : a < Config.addressSpace) : Memory.wfFrom lo (m.put a v) = true := by
  induction m generalizing lo with
  | nil => simp [Memory.put, Memory.wfFrom, hlo, ha]
  | cons c m ih =>
    obtain ⟨c, w⟩ := c
    simp only [Memory.wfFrom, Bool.and_eq_true, decide_eq_true_eq] at hm
    simp only [Memory.put]
    split
    · simp only [Memory.wfFrom, Bool.and_eq_true, decide_eq_true_eq]
      exact ⟨⟨hlo, ha⟩, ⟨by omega, hm.1.2⟩, hm.2⟩
    · split
      · subst_vars
        simp only [Memory.wfFrom, Bool.and_eq_true, decide_eq_true_eq]
        exact hm
      · simp only [Memory.wfFrom, Bool.and_eq_true, decide_eq_true_eq]
        exact ⟨hm.1, ih hm.2 (by omega)⟩

theorem Memory.wf_put {a : Nat} {m : Memory} (v : Byte) (hm : m.wf = true) (ha : a < Config.addressSpace) :
    (m.put a v).wf = true := Memory.wfFrom_put v hm (Nat.zero_le a) ha

theorem Memory.get?_of_lt_wfFrom {lo a : Nat} {m : Memory} (hm : Memory.wfFrom lo m = true) (h : a < lo) :
    m.get? a = none := by
  induction m generalizing lo with
  | nil => rfl
  | cons c m ih =>
    obtain ⟨c, w⟩ := c
    simp only [Memory.wfFrom, Bool.and_eq_true, decide_eq_true_eq] at hm
    simp only [Memory.get?]
    rw [if_neg (by omega), ih hm.2 (by omega)]

/-- Equal memories are equal data: two memories in canonical form that list the same bytes are the same list. -/
theorem Memory.ext_of_wfFrom {lo : Nat} {m n : Memory} (hm : Memory.wfFrom lo m = true) (hn : Memory.wfFrom lo n = true)
    (h : ∀ a, m.get? a = n.get? a) : m = n := by
  induction m generalizing lo n with
  | nil =>
    cases n with
    | nil => rfl
    | cons d n =>
      obtain ⟨d, x⟩ := d
      have := h d
      simp [Memory.get?] at this
  | cons c m ih =>
    obtain ⟨c, w⟩ := c
    cases n with
    | nil =>
      have := h c
      simp [Memory.get?] at this
    | cons d n =>
      obtain ⟨d, x⟩ := d
      simp only [Memory.wfFrom, Bool.and_eq_true, decide_eq_true_eq] at hm hn
      have hcd : c = d := by
        rcases Nat.lt_trichotomy c d with hlt | heq | hgt
        · have hc := h c
          rw [Memory.get?, if_pos rfl, Memory.get?, if_neg (by omega),
            Memory.get?_of_lt_wfFrom hn.2 (by omega)] at hc
          exact absurd hc (by simp)
        · exact heq
        · have hd := h d
          rw [Memory.get?, if_neg (by omega), Memory.get?_of_lt_wfFrom hm.2 (by omega), Memory.get?, if_pos rfl] at hd
          exact absurd hd (by simp)
      subst hcd
      have hw : w = x := by
        have := h c
        simpa [Memory.get?] using this
      subst hw
      rw [ih hm.2 hn.2 fun a => ?_]
      by_cases hac : a = c
      · subst hac
        rw [Memory.get?_of_lt_wfFrom hm.2 (by omega), Memory.get?_of_lt_wfFrom hn.2 (by omega)]
      · have := h a
        simpa [Memory.get?, hac] using this

theorem Memory.ext_of_wf {m n : Memory} (hm : m.wf = true) (hn : n.wf = true) (h : ∀ a, m.get? a = n.get? a) : m = n :=
  Memory.ext_of_wfFrom hm hn h

/-! ### Bytes of the state -/

theorem State.byteAt_congr {s t : State} (h : s.mem = t.mem) (a : Nat) : s.byteAt a = t.byteAt a := by
  simp [State.byteAt, h]

@[simp] theorem State.byteAt_setRegs (s : State) (r : Regs) (a : Nat) : (s.setRegs r).byteAt a = s.byteAt a := rfl
@[simp] theorem State.byteAt_setSnap (s : State) (o : Operands) (a : Nat) : (s.setSnap o).byteAt a = s.byteAt a := rfl
@[simp] theorem State.byteAt_setEng (s : State) (e : Engine) (a : Nat) : (s.setEng e).byteAt a = s.byteAt a := rfl
@[simp] theorem State.byteAt_setDraws (s : State) (n a : Nat) : (s.setDraws n).byteAt a = s.byteAt a := rfl
@[simp] theorem State.byteAt_setInbox (s : State) (ts : List Turn) (a : Nat) : (s.setInbox ts).byteAt a = s.byteAt a := rfl
@[simp] theorem State.byteAt_setHostData (s : State) (v : U32) (a : Nat) : (s.setHostData v).byteAt a = s.byteAt a := rfl
@[simp] theorem State.byteAt_setPeers (s : State) (ps : List Peer) (a : Nat) : (s.setPeers ps).byteAt a = s.byteAt a := rfl
@[simp] theorem byteAt_complete (c : ErrorCode) (n : U32) (s : State) (a : Nat) :
    (complete c n s).byteAt a = s.byteAt a := rfl

theorem State.byteAt_setByte {s : State} {a : Nat} (b : Nat) (v : Byte) (ha : a < Config.addressSpace) :
    (s.setByte a v).byteAt b = if b = a then v else s.byteAt b := by
  simp only [State.setByte, if_pos ha, State.byteAt, State.setMem_mem, Memory.get?_put]
  split <;> simp

theorem State.byteAt_setByte_ne {s : State} {a b : Nat} (v : Byte) (h : b ≠ a) :
    (s.setByte a v).byteAt b = s.byteAt b := by
  by_cases ha : a < Config.addressSpace
  · rw [State.byteAt_setByte b v ha, if_neg h]
  · simp [State.setByte, ha]

/-- Storing a byte changes at most host memory. -/
theorem State.setByte_eq_setMem (s : State) (a : Nat) (v : Byte) : ∃ m, s.setByte a v = s.setMem m := by
  by_cases ha : a < Config.addressSpace
  · exact ⟨_, if_pos ha⟩
  · exact ⟨s.mem, if_neg ha⟩

theorem State.wf_setByte {s : State} (a : Nat) (v : Byte) (h : s.mem.wf = true) : (s.setByte a v).mem.wf = true := by
  by_cases ha : a < Config.addressSpace
  · simpa [State.setByte, ha] using Memory.wf_put v h ha
  · simpa [State.setByte, ha] using h

/-- Storing bytes changes at most host memory. -/
theorem State.writeBytes_eq_setMem (bs : List Byte) (a : Nat) (s : State) : ∃ m, s.writeBytes bs a = s.setMem m := by
  induction bs generalizing a s with
  | nil => exact ⟨s.mem, rfl⟩
  | cons b bs ih =>
    obtain ⟨m, hm⟩ := State.setByte_eq_setMem s a b
    obtain ⟨m', hm'⟩ := ih (a + 1) (s.setByte a b)
    exact ⟨m', by rw [State.writeBytes, hm', hm]; rfl⟩

theorem State.wf_writeBytes (bs : List Byte) (a : Nat) {s : State} (h : s.mem.wf = true) :
    (s.writeBytes bs a).mem.wf = true := by
  induction bs generalizing a s with
  | nil => exact h
  | cons b bs ih => exact ih (a + 1) (State.wf_setByte a b h)

/-- A byte outside the stored range reads as before. -/
theorem State.byteAt_writeBytes_out (bs : List Byte) {a b : Nat} (s : State) (h : b < a ∨ a + bs.length ≤ b) :
    (s.writeBytes bs a).byteAt b = s.byteAt b := by
  induction bs generalizing a s with
  | nil => rfl
  | cons c bs ih =>
    simp only [List.length_cons] at h
    rw [State.writeBytes, ih _ (by omega), State.byteAt_setByte_ne c (by omega)]

/-- A byte inside the stored range reads as stored. -/
theorem State.byteAt_writeBytes_in (bs : List Byte) {a i : Nat} (s : State) (hi : i < bs.length)
    (ha : a + bs.length ≤ Config.addressSpace) : (s.writeBytes bs a).byteAt (a + i) = bs[i] := by
  induction bs generalizing a i s with
  | nil => simp at hi
  | cons c bs ih =>
    simp only [List.length_cons] at hi ha
    cases i with
    | zero =>
      rw [State.writeBytes, State.byteAt_writeBytes_out bs _ (by omega), Nat.add_zero,
        State.byteAt_setByte a c (by omega), if_pos rfl]
      rfl
    | succ i =>
      rw [State.writeBytes, show a + (i + 1) = a + 1 + i by omega, ih _ (by omega) (by omega)]
      rfl

/-- Free bytes change at most host memory and the count of draws, which rises by their number. -/
theorem State.havoc_eq (n a : Nat) (s : State) : ∃ m, s.havoc n a = (s.setMem m).setDraws (s.draws + n) := by
  induction n generalizing a s with
  | zero => exact ⟨s.mem, rfl⟩
  | succ n ih =>
    obtain ⟨m, hm⟩ := State.setByte_eq_setMem s a (Config.freeByte s.draws)
    obtain ⟨m', hm'⟩ := ih (a + 1) ((s.setByte a (Config.freeByte s.draws)).setDraws (s.draws + 1))
    refine ⟨m', ?_⟩
    rw [State.havoc, hm', hm, State.setDraws_draws, Nat.add_assoc, Nat.add_comm 1 n]
    rfl

theorem State.wf_havoc (n a : Nat) {s : State} (h : s.mem.wf = true) : (s.havoc n a).mem.wf = true := by
  induction n generalizing a s with
  | zero => exact h
  | succ n ih => exact ih (a + 1) (by simpa using State.wf_setByte a _ h)

/-- A byte outside the freed range reads as before. -/
theorem State.byteAt_havoc_out (n : Nat) {a b : Nat} (s : State) (h : b < a ∨ a + n ≤ b) :
    (s.havoc n a).byteAt b = s.byteAt b := by
  induction n generalizing a s with
  | zero => rfl
  | succ n ih =>
    rw [State.havoc, ih _ (by omega), State.byteAt_setDraws, State.byteAt_setByte_ne _ (by omega)]

/-- A byte inside the freed range is a draw. -/
theorem State.byteAt_havoc_in (n : Nat) {a i : Nat} (s : State) (hi : i < n) (ha : a + n ≤ Config.addressSpace) :
    (s.havoc n a).byteAt (a + i) = Config.freeByte (s.draws + i) := by
  induction n generalizing a i s with
  | zero => omega
  | succ n ih =>
    cases i with
    | zero =>
      rw [State.havoc, State.byteAt_havoc_out n _ (by omega), State.byteAt_setDraws, Nat.add_zero,
        State.byteAt_setByte a _ (by omega), if_pos rfl, Nat.add_zero]
    | succ i =>
      rw [State.havoc, show a + (i + 1) = a + 1 + i by omega, ih _ (by omega) (by omega), State.setDraws_draws]
      congr 1
      omega

/-! ### Byte order -/

@[simp] theorem length_leBytes {w : Nat} (n : Nat) (v : BitVec w) : (leBytes n v).length = n := by
  simp [leBytes]

@[simp] theorem getElem_leBytes {w : Nat} (n : Nat) (v : BitVec w) (i : Nat) (h : i < (leBytes n v).length) :
    (leBytes n v)[i] = v.extractLsb' (8 * i) 8 := by
  simp [leBytes]

@[simp] theorem State.getElem_readBytes (s : State) (a n i : Nat) (h : i < n) :
    (s.readBytes a n)[i] = s.byteAt (a + i) := by
  simp [State.readBytes]

end Sys2Proof.Machine
end

