-- ==== Sys2Proof/Laws/Run.lean ====
section
/-! SUPPORT. The shape of a command's run: binds, checks, sweeps, and the checked accesses to host memory. -/

namespace Sys2Proof.Machine

theorem Run.bind_eq_ok {α β : Type} {x : Run α} {f : α → Run β} {b : β} (h : (x >>= f) = .ok b) :
    ∃ a, x = .ok a ∧ f a = .ok b := by
  cases x with
  | error e => cases h
  | ok a => exact ⟨a, rfl, h⟩

theorem Run.bind_eq_error {α β : Type} {x : Run α} {f : α → Run β} {e : Halt} (h : (x >>= f) = .error e) :
    x = .error e ∨ ∃ a, x = .ok a ∧ f a = .error e := by
  cases x with
  | error d =>
    cases h
    exact .inl rfl
  | ok a => exact .inr ⟨a, rfl, h⟩

@[simp] theorem Run.ok_bind {α β : Type} (a : α) (f : α → Run β) : ((.ok a : Run α) >>= f) = f a := rfl
@[simp] theorem Run.error_bind {α β : Type} (e : Halt) (f : α → Run β) : ((.error e : Run α) >>= f) = .error e := rfl

@[simp] theorem Run.finish_ok (s : State) : Run.finish (.ok s) = .next s := rfl
@[simp] theorem Run.finish_ended (s : State) : Run.finish (.error (.ended s)) = .next s := rfl
@[simp] theorem Run.finish_fault (f : Fault) : Run.finish (.error (.fault f)) = .fault f := rfl

/-- A command that goes to a next state either ran to its end or was ended by an error. -/
theorem Run.finish_eq_next {r : Run State} {t : State} (h : r.finish = .next t) :
    r = .ok t ∨ r = .error (.ended t) := by
  match r with
  | .ok s => exact .inl (by simpa using h)
  | .error (.ended s) => exact .inr (by simpa using h)
  | .error (.fault f) => simp at h

/-- No command's run is refused. -/
theorem Run.finish_ne_refused (r : Run State) (q : Refusal) : r.finish ≠ .refused q := by
  match r with
  | .ok s => simp
  | .error (.ended s) => simp
  | .error (.fault f) => simp

@[simp] theorem require_true (c : ErrorCode) (s : State) : require true c s = .ok () := rfl
@[simp] theorem require_false (c : ErrorCode) (s : State) : require false c s = .error (.ended (raise c s)) := rfl

theorem require_eq_ok {p : Bool} {c : ErrorCode} {s : State} (h : require p c s = .ok ()) : p = true := by
  cases p with
  | true => rfl
  | false => simp at h

theorem require_eq_error {p : Bool} {c : ErrorCode} {s : State} {e : Halt} (h : require p c s = .error e) :
    p = false ∧ e = .ended (complete c 0 s) := by
  cases p with
  | true => simp at h
  | false => exact ⟨rfl, by simpa using h.symm⟩

theorem checkWindows_eq_ok {g : Grant} (h : checkWindows g = .ok ()) : g.fault? = none := by
  unfold checkWindows at h
  split at h
  · cases h
  · assumption

theorem checkWindows_eq_error {g : Grant} {e : Halt} (h : checkWindows g = .error e) :
    ∃ f, g.fault? = some f ∧ e = .fault f := by
  unfold checkWindows at h
  split at h
  · exact ⟨_, ‹_›, by simpa using h.symm⟩
  · cases h

@[simp] theorem checkWindows_none {g : Grant} (h : g.fault? = none) : checkWindows g = .ok () := by
  simp [checkWindows, h]

/-! ### Sweeps -/

@[simp] theorem sweep_nil {α : Type} (f : α → State → Run State) (s : State) : sweep f [] s = .ok s := rfl

theorem sweep_cons {α : Type} (f : α → State → Run State) (a : α) (as : List α) (s : State) :
    sweep f (a :: as) s = f a s >>= sweep f as := by
  simp only [sweep]
  cases f a s <;> rfl

theorem sweep_append {α : Type} (f : α → State → Run State) (as bs : List α) (s : State) :
    sweep f (as ++ bs) s = sweep f as s >>= sweep f bs := by
  induction as generalizing s with
  | nil => rfl
  | cons a as ih =>
    rw [List.cons_append, sweep_cons, sweep_cons]
    cases f a s with
    | error e => rfl
    | ok t => exact ih t

/-- What each step of a sweep keeps between its two states, the sweep keeps, if it composes. -/
theorem sweep_rel {α : Type} {f : α → State → Run State} {R : State → State → Prop} (refl : ∀ s, R s s)
    (trans : ∀ {s t u}, R s t → R t u → R s u) (step : ∀ a s t, f a s = .ok t → R s t) {as : List α} {s t : State}
    (h : sweep f as s = .ok t) : R s t := by
  induction as generalizing s with
  | nil =>
    cases h
    exact refl _
  | cons a as ih =>
    rw [sweep_cons] at h
    obtain ⟨u, hu, ht⟩ := Run.bind_eq_ok h
    exact trans (step a s u hu) (ih ht)

/-- An invariant under which each step succeeds and which each step keeps: the sweep succeeds and keeps it. -/
theorem sweep_ok {α : Type} {f : α → State → Run State} {P : State → Prop} {as : List α}
    (step : ∀ a ∈ as, ∀ s, P s → ∃ t, f a s = .ok t ∧ P t) {s : State} (hs : P s) :
    ∃ t, sweep f as s = .ok t ∧ P t := by
  induction as generalizing s with
  | nil => exact ⟨s, rfl, hs⟩
  | cons a as ih =>
    obtain ⟨u, hu, hP⟩ := step a (by simp) s hs
    obtain ⟨t, ht, hQ⟩ := ih (fun b hb => step b (by simp [hb])) hP
    exact ⟨t, by rw [sweep_cons, hu]; exact ht, hQ⟩

/-- A sweep whose steps never end the command ends it never. -/
theorem sweep_not_ended {α : Type} {f : α → State → Run State} (step : ∀ a s t, f a s ≠ .error (.ended t))
    (as : List α) (s t : State) : sweep f as s ≠ .error (.ended t) := by
  induction as generalizing s with
  | nil => simp
  | cons a as ih =>
    intro h
    rw [sweep_cons] at h
    rcases Run.bind_eq_error h with h | ⟨u, _, h⟩
    · exact step a s t h
    · exact ih u h

theorem collect_cons {α β : Type} (f : α → Run β) (a : α) (as : List α) :
    collect f (a :: as) = f a >>= fun b => collect f as >>= fun bs => .ok (b :: bs) := by
  simp only [collect]
  cases f a with
  | error e => rfl
  | ok b => cases h : collect f as <;> rfl

/-- If every element gives a value, the collection is their list. -/
theorem collect_eq_ok {α β : Type} {f : α → Run β} {v : α → β} {as : List α} (h : ∀ a ∈ as, f a = .ok (v a)) :
    collect f as = .ok (as.map v) := by
  induction as with
  | nil => rfl
  | cons a as ih =>
    rw [collect_cons, h a (by simp), ih fun b hb => h b (by simp [hb])]
    rfl

/-- A collection that succeeds gathered each element's value. -/
theorem collect_length {α β : Type} {f : α → Run β} {as : List α} {bs : List β} (h : collect f as = .ok bs) :
    bs.length = as.length := by
  induction as generalizing bs with
  | nil => cases h; rfl
  | cons a as ih =>
    rw [collect_cons] at h
    obtain ⟨b, _, h⟩ := Run.bind_eq_ok h
    obtain ⟨bs', hb, h⟩ := Run.bind_eq_ok h
    cases h
    simp [ih hb]

/-- A collection whose reads never end the command ends it never. -/
theorem collect_not_ended {α β : Type} {f : α → Run β} (step : ∀ a t, f a ≠ .error (.ended t)) (as : List α)
    (t : State) : collect f as ≠ .error (.ended t) := by
  induction as with
  | nil => exact fun h => nomatch h
  | cons a as ih =>
    intro h
    rw [collect_cons] at h
    rcases Run.bind_eq_error h with h | ⟨b, _, h⟩
    · exact step a t h
    · rcases Run.bind_eq_error h with h | ⟨bs, _, h⟩
      · exact ih h
      · cases h

/-! ### The core's accesses -/

/-- A read inside a read window gives the bytes and changes nothing; any other faults. -/
theorem coreRead_ok {g : Grant} (kind : ReadKind) {a : Int} {n : Nat} (s : State) (h : g.mayRead a n = true) :
    coreRead g kind a n s = .ok (s.readBytes a.toNat n) := if_pos h

theorem coreRead_eq_ok {g : Grant} {kind : ReadKind} {a : Int} {n : Nat} {s : State} {b : Vector Byte n}
    (h : coreRead g kind a n s = .ok b) : g.mayRead a n = true ∧ b = s.readBytes a.toNat n := by
  unfold coreRead at h
  split at h
  · exact ⟨‹_›, by simpa using h.symm⟩
  · cases h

theorem coreRead_not_ended (g : Grant) (kind : ReadKind) (a : Int) (n : Nat) (s t : State) :
    coreRead g kind a n s ≠ .error (.ended t) := by
  unfold coreRead
  split <;> simp

/-- A write inside a write window stores its bytes; any other faults. -/
theorem coreWrite_ok {g : Grant} {a : Int} {bs : List Byte} (s : State) (h : g.mayWrite a bs.length = true) :
    coreWrite g a bs s = .ok (s.writeBytes bs a.toNat) := if_pos h

theorem coreWrite_eq_ok {g : Grant} {a : Int} {bs : List Byte} {s t : State} (h : coreWrite g a bs s = .ok t) :
    g.mayWrite a bs.length = true ∧ t = s.writeBytes bs a.toNat := by
  unfold coreWrite at h
  split at h
  · exact ⟨‹_›, by simpa using h.symm⟩
  · cases h

theorem coreWrite_not_ended (g : Grant) (a : Int) (bs : List Byte) (s t : State) :
    coreWrite g a bs s ≠ .error (.ended t) := by
  unfold coreWrite
  split <;> simp

theorem coreWriteSpill_ok {g : Grant} {a : Int} (bs : List Byte) {n : Nat} (s : State) (h : g.mayWrite a n = true) :
    coreWriteSpill g a bs n s = .ok ((s.writeBytes bs a.toNat).havoc (n - bs.length) (a.toNat + bs.length)) := if_pos h

theorem coreWriteSpill_eq_ok {g : Grant} {a : Int} {bs : List Byte} {n : Nat} {s t : State}
    (h : coreWriteSpill g a bs n s = .ok t) :
    g.mayWrite a n = true ∧ t = (s.writeBytes bs a.toNat).havoc (n - bs.length) (a.toNat + bs.length) := by
  unfold coreWriteSpill at h
  split at h
  · exact ⟨‹_›, by simpa using h.symm⟩
  · cases h

theorem coreWriteSpill_not_ended (g : Grant) (a : Int) (bs : List Byte) (n : Nat) (s t : State) :
    coreWriteSpill g a bs n s ≠ .error (.ended t) := by
  unfold coreWriteSpill
  split <;> simp

/-! ### Windows -/

/-- A granted write range lies byte by byte in the write windows. -/
theorem Grant.writesByte_of_mayWrite {g : Grant} {a : Int} {n b : Nat} (h : g.mayWrite a n = true)
    (hb : a ≤ (b : Int) ∧ (b : Int) < a + n) : g.writesByte b = true := by
  simp only [Grant.mayWrite, List.any_eq_true, Window.holds, decide_eq_true_eq] at h
  obtain ⟨w, hw, h1, h2⟩ := h
  simp only [Grant.writesByte, List.any_eq_true, Window.hasByte, decide_eq_true_eq]
  exact ⟨w, hw, by omega, by omega⟩

theorem Grant.mayWrite_nonneg {g : Grant} {a : Int} {n : Nat} (h : g.mayWrite a n = true) : 0 ≤ a := by
  simp only [Grant.mayWrite, List.any_eq_true, Window.holds, decide_eq_true_eq] at h
  obtain ⟨w, _, h1, _⟩ := h
  omega

end Sys2Proof.Machine
end

