-- ==== Sys2Proof/Laws/Confined.lean ====
section
/-! SUPPORT. Everything a command's run can do to the state beside the engines' working state: it stores inside the
write windows, takes free bytes, and touches nothing else. One lemma for each part of a run. -/

namespace Sys2Proof.Machine

/-- From `s` the run reached `t` by stores inside the write windows of `g` alone; the working state is free. -/
structure Confined (g : Grant) (s t : State) : Prop where
  regs : t.regs = s.regs
  snap : t.snap = s.snap
  inbox : t.inbox = s.inbox
  hostData : t.hostData = s.hostData
  peers : t.peers = s.peers
  draws : s.draws ≤ t.draws
  bytes : ∀ b, g.writesByte b = false → t.byteAt b = s.byteAt b
  wf : s.mem.wf = true → t.mem.wf = true

theorem Confined.refl (g : Grant) (s : State) : Confined g s s :=
  ⟨rfl, rfl, rfl, rfl, rfl, Nat.le_refl _, fun _ _ => rfl, id⟩

theorem Confined.trans {g : Grant} {s t u : State} (h : Confined g s t) (k : Confined g t u) : Confined g s u :=
  ⟨k.regs.trans h.regs, k.snap.trans h.snap, k.inbox.trans h.inbox, k.hostData.trans h.hostData,
    k.peers.trans h.peers, Nat.le_trans h.draws k.draws, fun b hb => (k.bytes b hb).trans (h.bytes b hb),
    fun w => k.wf (h.wf w)⟩

/-- Working state alone. -/
theorem Confined.setEng (g : Grant) (s : State) (e : Engine) : Confined g s (s.setEng e) :=
  ⟨rfl, rfl, rfl, rfl, rfl, Nat.le_refl _, fun _ _ => rfl, id⟩

theorem Confined.then_setEng {g : Grant} {s t : State} (h : Confined g s t) (e : Engine) : Confined g s (t.setEng e) :=
  h.trans (Confined.setEng g t e)

theorem Confined.writeBytes {g : Grant} {a : Int} {bs : List Byte} (s : State) (h : g.mayWrite a bs.length = true) :
    Confined g s (s.writeBytes bs a.toNat) := by
  obtain ⟨m, hm⟩ := State.writeBytes_eq_setMem bs a.toNat s
  have h0 := Grant.mayWrite_nonneg h
  refine ⟨by rw [hm]; rfl, by rw [hm]; rfl, by rw [hm]; rfl, by rw [hm]; rfl, by rw [hm]; rfl, by rw [hm]; exact Nat.le_refl _,
    fun b hb => ?_, State.wf_writeBytes bs a.toNat⟩
  refine State.byteAt_writeBytes_out bs s ?_
  by_contra hc
  rw [Grant.writesByte_of_mayWrite h (b := b) (by omega)] at hb
  exact absurd hb (by decide)

theorem coreWrite_confined {g : Grant} {a : Int} {bs : List Byte} {s t : State} (h : coreWrite g a bs s = .ok t) :
    Confined g s t := by
  obtain ⟨hw, rfl⟩ := coreWrite_eq_ok h
  exact Confined.writeBytes s hw

theorem coreWriteSpill_confined {g : Grant} {a : Int} {bs : List Byte} {n : Nat} {s t : State} (hn : bs.length ≤ n)
    (h : coreWriteSpill g a bs n s = .ok t) : Confined g s t := by
  obtain ⟨hw, rfl⟩ := coreWriteSpill_eq_ok h
  have h0 := Grant.mayWrite_nonneg hw
  obtain ⟨m, hm⟩ := State.writeBytes_eq_setMem bs a.toNat s
  obtain ⟨m', hm'⟩ := State.havoc_eq (n - bs.length) (a.toNat + bs.length) (s.writeBytes bs a.toNat)
  have hm'' := hm'
  rw [hm] at hm''
  refine ⟨by rw [hm, hm'']; rfl, by rw [hm, hm'']; rfl, by rw [hm, hm'']; rfl, by rw [hm, hm'']; rfl,
    by rw [hm, hm'']; rfl, by rw [hm, hm'']; exact Nat.le_add_right _ _, fun b hb => ?_,
    fun w => State.wf_havoc _ _ (State.wf_writeBytes bs _ w)⟩
  have hout : ¬(a ≤ (b : Int) ∧ (b : Int) < a + n) := fun hc => by
    rw [Grant.writesByte_of_mayWrite hw (b := b) hc] at hb
    exact absurd hb (by decide)
  rw [State.byteAt_havoc_out _ _ (by omega), State.byteAt_writeBytes_out bs s (by omega)]

theorem sweep_confined {α : Type} {g : Grant} {f : α → State → Run State}
    (step : ∀ a s t, f a s = .ok t → Confined g s t) {as : List α} {s t : State} (h : sweep f as s = .ok t) :
    Confined g s t :=
  sweep_rel (Confined.refl g) (fun h k => h.trans k) step h

/-! ### Statistics -/

theorem histogramByte_confined {g : Grant} {i : Nat} {s t : State} (h : histogramByte g i s = .ok t) :
    Confined g s t := by
  obtain ⟨b, _, h⟩ := Run.bind_eq_ok h
  cases h
  exact Confined.setEng g s _

theorem histogram_confined {g : Grant} {s t : State} (h : histogram g s = .ok t) : Confined g s t :=
  (Confined.setEng g s _).trans (sweep_confined (fun _ _ _ => histogramByte_confined) h)

theorem buildStats_confined {g : Grant} {pb : Nat} {s t : State} (h : buildStats g pb s = .ok t) : Confined g s t := by
  obtain ⟨u, hu, h⟩ := Run.bind_eq_ok h
  cases h
  exact (histogram_confined hu).then_setEng _

theorem storeTable_confined {g : Grant} {s t : State} (h : storeTable g s = .ok t) : Confined g s t :=
  sweep_confined (fun _ _ _ => coreWrite_confined) h

/-! ### Container metadata -/

theorem writeHeader_confined {g : Grant} {nb srcLen tc pb : Nat} {s t : State}
    (h : writeHeader g nb srcLen tc pb s = .ok t) : Confined g s t :=
  sweep_confined (fun _ _ _ => coreWrite_confined) h

theorem writeProbs_confined {g : Grant} {s t : State} (h : writeProbs g s = .ok t) : Confined g s t :=
  sweep_confined (fun _ _ _ => coreWrite_confined) h

theorem writeBlockRow_confined {g : Grant} {nb : Nat} {p : Nat × BlockRow} {s t : State}
    (h : writeBlockRow g nb p s = .ok t) : Confined g s t := by
  obtain ⟨u, hu, h⟩ := Run.bind_eq_ok h
  obtain ⟨v, hv, h⟩ := Run.bind_eq_ok h
  exact ((sweep_confined (fun _ _ _ => coreWrite_confined) hu).trans (coreWrite_confined hv)).trans
    (coreWrite_confined h)

theorem writeIndexPad_confined {g : Grant} {nb : Nat} {s t : State} (h : writeIndexPad g nb s = .ok t) :
    Confined g s t := by
  unfold writeIndexPad at h
  split at h
  · exact coreWrite_confined h
  · cases h
    exact Confined.refl g s

theorem writeContainerMeta_confined {g : Grant} {nb srcLen tc pb : Nat} {s t : State}
    (h : writeContainerMeta g nb srcLen tc pb s = .ok t) : Confined g s t := by
  obtain ⟨u, hu, h⟩ := Run.bind_eq_ok h
  obtain ⟨v, hv, h⟩ := Run.bind_eq_ok h
  obtain ⟨w, hw, h⟩ := Run.bind_eq_ok h
  exact (((writeHeader_confined hu).trans (writeProbs_confined hv)).trans
    (sweep_confined (fun _ _ _ => writeBlockRow_confined) hw)).trans (writeIndexPad_confined h)

/-! ### Encoder -/

theorem popcount_le (m : BitVec 8) : popcount m ≤ 8 := by
  simpa [popcount] using List.countP_le_length (p := fun j => m.getLsbD j) (l := List.range 8)

theorem length_take_halfBytes_le (h : Half) (n : Nat) : ((halfBytes h).take n).length ≤ 16 := by
  have hl : (halfBytes h).length = 16 := by
    simp only [halfBytes, List.length_flatMap, length_leBytes, List.map_const', List.sum_replicate]
    simp
  simp [hl]

theorem encGroup_confined {gr : Grant} {pb nb k w : Nat} {g : Fin 4} {s t : State}
    (h : encGroup gr pb nb k w g s = .ok t) : Confined gr s t := by
  obtain ⟨b, _, h⟩ := Run.bind_eq_ok h
  obtain ⟨u, hu, h⟩ := Run.bind_eq_ok h
  cases h
  exact (coreWriteSpill_confined (length_take_halfBytes_le _ _) hu).then_setEng _

theorem encWarp_confined {gr : Grant} {pb nb k w : Nat} {s t : State} (h : encWarp gr pb nb k w s = .ok t) :
    Confined gr s t :=
  sweep_confined (fun _ _ _ => encGroup_confined) h

theorem encodeBlock_confined {gr : Grant} {pb nb k : Nat} {s t : State} (h : encodeBlock gr pb nb k s = .ok t) :
    Confined gr s t := by
  obtain ⟨u, hu, h⟩ := Run.bind_eq_ok h
  cases h
  exact ((Confined.setEng gr s _).trans (sweep_confined (fun _ _ _ => encWarp_confined) hu)).then_setEng _

theorem encodeContainer_confined {gr : Grant} {pb : Nat} {s t : State} (h : encodeContainer gr pb s = .ok t) :
    Confined gr s t := by
  obtain ⟨u, hu, h⟩ := Run.bind_eq_ok h
  exact ((Confined.setEng gr s _).trans (sweep_confined (fun _ _ _ => encodeBlock_confined) hu)).trans
    (writeContainerMeta_confined h)

theorem loadTable_confined {g : Grant} {s t : State} (h : loadTable g s = .ok t) : Confined g s t :=
  sweep_confined (fun i s t h => by
    obtain ⟨b, _, h⟩ := Run.bind_eq_ok h
    cases h
    exact Confined.setEng g s _) h

/-! ### Decoder -/

theorem decFeedGroup_confined {gr : Grant} {nb : Nat} {g : Fin 4} {s t : State} (h : decFeedGroup gr nb g s = .ok t) :
    Confined gr s t := by
  unfold decFeedGroup at h
  simp only at h
  split at h
  · cases h
    exact Confined.setEng gr s _
  · obtain ⟨b, _, h⟩ := Run.bind_eq_ok h
    cases h
    exact Confined.setEng gr s _

theorem decPair_confined {gr : Grant} {pb nb k w : Nat} {p : Fin 2} {s t : State}
    (h : decPair gr pb nb k w p s = .ok t) : Confined gr s t := by
  obtain ⟨u, hu, h⟩ := Run.bind_eq_ok h
  exact ((Confined.setEng gr s _).trans (coreWrite_confined hu)).trans
    (sweep_confined (fun _ _ _ => decFeedGroup_confined) h)

theorem decodeBlock_confined {gr : Grant} {pb nb : Nat} {p : Nat × (U32 × U32)} {s t : State}
    (h : decodeBlock gr pb nb p s = .ok t) : Confined gr s t := by
  obtain ⟨u, hu, h⟩ := Run.bind_eq_ok h
  refine ((sweep_confined (fun l s t h => ?_) hu).trans (Confined.setEng gr u _)).trans
    (sweep_confined (fun w s t h => sweep_confined (fun _ _ _ => decPair_confined) h) h)
  obtain ⟨b, _, h⟩ := Run.bind_eq_ok h
  cases h
  exact Confined.setEng gr s _

theorem decodeBlocks_confined {gr : Grant} {c : Container} {s t : State} (h : decodeBlocks gr c s = .ok t) :
    Confined gr s t :=
  sweep_confined (fun _ _ _ => decodeBlock_confined) h

end Sys2Proof.Machine
end

