-- ==== Sys2Proof/Laws/Commands.lean ====
section
/-! SUPPORT. Everything a command can do when it ends: it completes, from a state its run reached inside its windows;
with an error the count is 0. No part of a run ends the command but a check. -/

namespace Sys2Proof.Machine

/-- How a command's run that started in `s` ends in `t` (40_commands.md R404). -/
def EndsIn (g : Grant) (s t : State) : Prop :=
  ∃ (c : ErrorCode) (n : U32) (u : State), t = complete c n u ∧ Confined g s u ∧ (c ≠ .ok → n = 0)

theorem EndsIn.error {g : Grant} {s u : State} (c : ErrorCode) (h : Confined g s u) : EndsIn g s (complete c 0 u) :=
  ⟨c, 0, u, rfl, h, fun _ => rfl⟩

theorem EndsIn.ok {g : Grant} {s u : State} (n : U32) (h : Confined g s u) : EndsIn g s (complete .ok n u) :=
  ⟨.ok, n, u, rfl, h, fun hc => absurd rfl hc⟩

/-- `r`, a part of a command's run from `s`, ends the command only as `EndsIn` says. -/
def EndsWell {α : Type} (g : Grant) (s : State) (r : Run α) : Prop := ∀ t, r = .error (.ended t) → EndsIn g s t

theorem EndsWell.of_not_ended {α : Type} {g : Grant} {s : State} {r : Run α} (h : ∀ t, r ≠ .error (.ended t)) :
    EndsWell g s r := fun t ht => absurd ht (h t)

theorem EndsWell.bind {α β : Type} {g : Grant} {s : State} {r : Run α} {f : α → Run β} (h : EndsWell g s r)
    (k : ∀ a, r = .ok a → EndsWell g s (f a)) : EndsWell g s (r >>= f) := fun t ht => by
  rcases Run.bind_eq_error ht with ht | ⟨a, ha, ht⟩
  · exact h t ht
  · exact k a ha t ht

theorem EndsWell.ok {α : Type} (g : Grant) (s : State) (a : α) : EndsWell g s (.ok a : Run α) := fun _ h => nomatch h

theorem require_endsWell {g : Grant} {s u : State} (p : Bool) (c : ErrorCode) (h : Confined g s u) :
    EndsWell g s (require p c u) := fun t ht => by
  obtain ⟨_, he⟩ := require_eq_error ht
  cases he
  exact EndsIn.error c h

theorem checkWindows_endsWell (g g' : Grant) (s : State) : EndsWell g s (checkWindows g') := fun t ht => by
  obtain ⟨f, _, he⟩ := checkWindows_eq_error ht
  cases he

/-! ### No part of a run ends the command -/

theorem bind_not_ended {α β : Type} {r : Run α} {f : α → Run β} (h : ∀ t, r ≠ .error (.ended t))
    (k : ∀ a t, f a ≠ .error (.ended t)) (t : State) : (r >>= f) ≠ .error (.ended t) := fun ht => by
  rcases Run.bind_eq_error ht with ht | ⟨a, _, ht⟩
  · exact h t ht
  · exact k a t ht

theorem ok_not_ended {α : Type} (a : α) (t : State) : (.ok a : Run α) ≠ .error (.ended t) := fun h => nomatch h

theorem buildStats_not_ended (g : Grant) (pb : Nat) (s t : State) : buildStats g pb s ≠ .error (.ended t) :=
  bind_not_ended (fun t => sweep_not_ended (fun _ s t =>
    bind_not_ended (fun t => coreRead_not_ended g .source _ 1 s t) (fun _ t => ok_not_ended _ t) t) _ _ t)
    (fun _ t => ok_not_ended _ t) t

theorem storeTable_not_ended (g : Grant) (s t : State) : storeTable g s ≠ .error (.ended t) :=
  sweep_not_ended (fun _ s t => coreWrite_not_ended g _ _ s t) _ s t

theorem loadTable_not_ended (g : Grant) (s t : State) : loadTable g s ≠ .error (.ended t) :=
  sweep_not_ended (fun _ s t =>
    bind_not_ended (fun t => coreRead_not_ended g .table _ 8 s t) (fun _ t => ok_not_ended _ t) t) _ s t

theorem writeContainerMeta_not_ended (g : Grant) (nb srcLen tc pb : Nat) (s t : State) :
    writeContainerMeta g nb srcLen tc pb s ≠ .error (.ended t) := by
  refine bind_not_ended (fun t => sweep_not_ended (fun _ s t => coreWrite_not_ended g _ _ s t) _ s t) (fun a t => ?_) t
  refine bind_not_ended (fun t => sweep_not_ended (fun _ s t => coreWrite_not_ended g _ _ s t) _ a t) (fun a t => ?_) t
  refine bind_not_ended (fun t => sweep_not_ended (fun p s t => ?_) _ a t) (fun a t => ?_) t
  · refine bind_not_ended (fun t => sweep_not_ended (fun _ s t => coreWrite_not_ended g _ _ s t) _ s t) (fun a t => ?_) t
    exact bind_not_ended (fun t => coreWrite_not_ended g _ _ a t) (fun a t => coreWrite_not_ended g _ _ a t) t
  · unfold writeIndexPad
    split
    · exact coreWrite_not_ended g _ _ a t
    · exact ok_not_ended a t

theorem encGroup_not_ended (gr : Grant) (pb nb k w : Nat) (g : Fin 4) (s t : State) :
    encGroup gr pb nb k w g s ≠ .error (.ended t) :=
  bind_not_ended (fun t => coreRead_not_ended gr .source _ 8 s t)
    (fun _ t => bind_not_ended (fun t => coreWriteSpill_not_ended gr _ _ 16 s t) (fun _ t => ok_not_ended _ t) t) t

theorem encodeBlock_not_ended (gr : Grant) (pb nb k : Nat) (s t : State) :
    encodeBlock gr pb nb k s ≠ .error (.ended t) :=
  bind_not_ended (fun t => sweep_not_ended (fun w s t =>
    sweep_not_ended (fun g s t => encGroup_not_ended gr pb nb k w g s t) _ s t) _ _ t) (fun _ t => ok_not_ended _ t) t

theorem encodeContainer_not_ended (gr : Grant) (pb : Nat) (s t : State) :
    encodeContainer gr pb s ≠ .error (.ended t) :=
  bind_not_ended (fun t => sweep_not_ended (fun k s t => encodeBlock_not_ended gr pb _ k s t) _ _ t)
    (fun a t => writeContainerMeta_not_ended gr _ _ _ pb a t) t

theorem decFeedGroup_not_ended (gr : Grant) (nb : Nat) (g : Fin 4) (s t : State) :
    decFeedGroup gr nb g s ≠ .error (.ended t) := by
  unfold decFeedGroup
  simp only
  split
  · exact ok_not_ended _ t
  · exact bind_not_ended (fun t => coreRead_not_ended gr .source _ 16 s t) (fun _ t => ok_not_ended _ t) t

theorem decPair_not_ended (gr : Grant) (pb nb k w : Nat) (h : Fin 2) (s t : State) :
    decPair gr pb nb k w h s ≠ .error (.ended t) :=
  bind_not_ended (fun t => coreWrite_not_ended gr _ _ _ t)
    (fun a t => sweep_not_ended (fun g s t => decFeedGroup_not_ended gr nb g s t) _ a t) t

theorem decodeBlocks_not_ended (gr : Grant) (c : Container) (s t : State) :
    decodeBlocks gr c s ≠ .error (.ended t) := by
  refine sweep_not_ended (fun p s t => ?_) _ s t
  refine bind_not_ended (fun t => sweep_not_ended (fun l s t => ?_) _ s t) (fun a t => ?_) t
  · exact bind_not_ended (fun t => coreRead_not_ended gr .source _ 4 s t) (fun _ t => ok_not_ended _ t) t
  · exact sweep_not_ended (fun w s t => sweep_not_ended (fun h s t => decPair_not_ended gr _ _ _ w h s t) _ s t) _ _ t

theorem validateContainer_endsWell (g : Grant) (s : State) : EndsWell g s (validateContainer g s) := by
  have rq : ∀ (p : Bool) (c : ErrorCode), EndsWell g s (require p c s) := fun p c =>
    require_endsWell p c (Confined.refl g s)
  have rd : ∀ {β : Type} (a : Int) (n : Nat) (k : ReadKind) (f : Vector Byte n → β) (t : State),
      ((coreRead g k a n s >>= fun b => (.ok (f b) : Run β)) ≠ .error (.ended t)) := fun a n k f t =>
    bind_not_ended (fun t => coreRead_not_ended g k a n s t) (fun _ t => ok_not_ended _ t) t
  unfold validateContainer
  refine (rq _ _).bind fun _ _ => ?_
  refine (EndsWell.of_not_ended fun t => collect_not_ended (fun j t => rd _ 4 _ _ t) _ t).bind fun h _ => ?_
  refine (rq _ _).bind fun _ _ => (rq _ _).bind fun _ _ => (rq _ _).bind fun _ _ => (rq _ _).bind fun _ _ =>
    (rq _ _).bind fun _ _ => (rq _ _).bind fun _ _ => (rq _ _).bind fun _ _ => ?_
  refine (EndsWell.of_not_ended fun t => collect_not_ended (fun j t => rd _ 2 _ _ t) _ t).bind fun ps _ => ?_
  refine (EndsWell.of_not_ended fun t => collect_not_ended (fun j t => rd _ 8 _ _ t) _ t).bind fun ix _ => ?_
  exact (rq _ _).bind fun _ _ => (rq _ _).bind fun _ _ => (rq _ _).bind fun _ _ => EndsWell.ok g s _

/-! ### The five commands -/

/-- A run that goes to a next state, whose ends and whose finish are as they should be, ends as `EndsIn` says. -/
theorem EndsIn.of_finish {g : Grant} {s t : State} {r : Run State} (e : EndsWell g s r)
    (k : ∀ t, r = .ok t → EndsIn g s t) (h : r.finish = .next t) : EndsIn g s t := by
  rcases Run.finish_eq_next h with h | h
  · exact k t h
  · exact e t h

theorem execNop_endsIn {s t : State} (h : execNop s = .next t) : EndsIn (grantOf .nop s.snap) s t := by
  refine EndsIn.of_finish ((checkWindows_endsWell _ _ s).bind fun _ _ => EndsWell.ok _ s _) (fun t ht => ?_) h
  obtain ⟨_, _, ht⟩ := Run.bind_eq_ok ht
  cases ht
  exact EndsIn.ok 0 (Confined.refl _ s)

theorem execBuildTable_endsIn {pb : Nat} {s t : State} (h : execBuildTable pb s = .next t) :
    EndsIn (grantOf (.buildTable pb) s.snap) s t := by
  have rq := fun p c => require_endsWell p c (Confined.refl (grantOf (.buildTable pb) s.snap) s)
  refine EndsIn.of_finish ?_ (fun t ht => ?_) h
  · exact (checkWindows_endsWell _ _ s).bind fun _ _ => (rq _ _).bind fun _ _ => (rq _ _).bind fun _ _ =>
      (rq _ _).bind fun _ _ => (EndsWell.of_not_ended (buildStats_not_ended _ pb s)).bind fun u _ =>
        (EndsWell.of_not_ended (storeTable_not_ended _ u)).bind fun _ _ => EndsWell.ok _ s _
  · obtain ⟨_, _, ht⟩ := Run.bind_eq_ok ht
    obtain ⟨_, _, ht⟩ := Run.bind_eq_ok ht
    obtain ⟨_, _, ht⟩ := Run.bind_eq_ok ht
    obtain ⟨_, _, ht⟩ := Run.bind_eq_ok ht
    obtain ⟨u, hu, ht⟩ := Run.bind_eq_ok ht
    obtain ⟨v, hv, ht⟩ := Run.bind_eq_ok ht
    cases ht
    exact EndsIn.ok _ ((buildStats_confined hu).trans (storeTable_confined hv))

theorem execEncode_endsIn {pb : Nat} {s t : State} (h : execEncode pb s = .next t) :
    EndsIn (grantOf (.encode pb) s.snap) s t := by
  have rq := fun p c => require_endsWell p c (Confined.refl (grantOf (.encode pb) s.snap) s)
  refine EndsIn.of_finish ?_ (fun t ht => ?_) h
  · exact (checkWindows_endsWell _ _ s).bind fun _ _ => (rq _ _).bind fun _ _ => (rq _ _).bind fun _ _ =>
      (rq _ _).bind fun _ _ => (rq _ _).bind fun _ _ =>
        (EndsWell.of_not_ended (buildStats_not_ended _ pb s)).bind fun u _ =>
          (EndsWell.of_not_ended (encodeContainer_not_ended _ pb u)).bind fun _ _ => EndsWell.ok _ s _
  · obtain ⟨_, _, ht⟩ := Run.bind_eq_ok ht
    obtain ⟨_, _, ht⟩ := Run.bind_eq_ok ht
    obtain ⟨_, _, ht⟩ := Run.bind_eq_ok ht
    obtain ⟨_, _, ht⟩ := Run.bind_eq_ok ht
    obtain ⟨_, _, ht⟩ := Run.bind_eq_ok ht
    obtain ⟨u, hu, ht⟩ := Run.bind_eq_ok ht
    obtain ⟨v, hv, ht⟩ := Run.bind_eq_ok ht
    cases ht
    exact EndsIn.ok _ ((buildStats_confined hu).trans (encodeContainer_confined hv))

theorem execEncodeT_endsIn {pb : Nat} {s t : State} (h : execEncodeT pb s = .next t) :
    EndsIn (grantOf (.encodeT pb) s.snap) s t := by
  have rq := fun p c => require_endsWell p c (Confined.refl (grantOf (.encodeT pb) s.snap) s)
  refine EndsIn.of_finish ?_ (fun t ht => ?_) h
  · exact (checkWindows_endsWell _ _ s).bind fun _ _ => (rq _ _).bind fun _ _ => (rq _ _).bind fun _ _ =>
      (rq _ _).bind fun _ _ => (rq _ _).bind fun _ _ =>
        (EndsWell.of_not_ended (loadTable_not_ended _ s)).bind fun u hu =>
          (require_endsWell _ _ (loadTable_confined hu)).bind fun _ _ =>
            (EndsWell.of_not_ended (encodeContainer_not_ended _ pb u)).bind fun _ _ => EndsWell.ok _ s _
  · obtain ⟨_, _, ht⟩ := Run.bind_eq_ok ht
    obtain ⟨_, _, ht⟩ := Run.bind_eq_ok ht
    obtain ⟨_, _, ht⟩ := Run.bind_eq_ok ht
    obtain ⟨_, _, ht⟩ := Run.bind_eq_ok ht
    obtain ⟨_, _, ht⟩ := Run.bind_eq_ok ht
    obtain ⟨u, hu, ht⟩ := Run.bind_eq_ok ht
    obtain ⟨_, _, ht⟩ := Run.bind_eq_ok ht
    obtain ⟨v, hv, ht⟩ := Run.bind_eq_ok ht
    cases ht
    exact EndsIn.ok _ ((loadTable_confined hu).trans (encodeContainer_confined hv))

theorem execDecode_endsIn {s t : State} (h : execDecode s = .next t) : EndsIn (grantOf .decode s.snap) s t := by
  have rq := fun p c => require_endsWell p c (Confined.refl (grantOf .decode s.snap) s)
  refine EndsIn.of_finish ?_ (fun t ht => ?_) h
  · exact (checkWindows_endsWell _ _ s).bind fun _ _ => (rq _ _).bind fun _ _ =>
      (validateContainer_endsWell _ s).bind fun c _ =>
        (EndsWell.of_not_ended (decodeBlocks_not_ended _ c _)).bind fun _ _ => EndsWell.ok _ s _
  · obtain ⟨_, _, ht⟩ := Run.bind_eq_ok ht
    obtain ⟨_, _, ht⟩ := Run.bind_eq_ok ht
    obtain ⟨c, _, ht⟩ := Run.bind_eq_ok ht
    obtain ⟨u, hu, ht⟩ := Run.bind_eq_ok ht
    cases ht
    exact EndsIn.ok _ ((Confined.setEng _ s _).trans (decodeBlocks_confined hu))

/-- Whatever command runs, if it goes to a next state it has completed as `EndsIn` says. -/
theorem exec_endsIn {i : Instr} {s t : State} (h : exec i s = .next t) : EndsIn (grantOf i s.snap) s t := by
  cases i with
  | nop => exact execNop_endsIn h
  | buildTable pb => exact execBuildTable_endsIn h
  | encode pb => exact execEncode_endsIn h
  | encodeT pb => exact execEncodeT_endsIn h
  | decode => exact execDecode_endsIn h

end Sys2Proof.Machine
end

