-- ==== Sys2Proof/Laws/HostPort.lean ====
section
/-! SUPPORT. Windows that share bytes, and everything a host access, an abort and an issue can do. -/

namespace Sys2Proof.Machine

/-- Two windows overlap exactly when some byte lies in both (20_memory.md R207). -/
theorem Window.overlaps_iff (w v : Window) : w.overlaps v = true ↔ ∃ a, w.hasByte a = true ∧ v.hasByte a = true := by
  simp only [Window.overlaps, Window.hasByte, decide_eq_true_eq]
  constructor
  · rintro ⟨h1, h2, h3, h4⟩
    exact ⟨max w.base v.base, by omega, by omega⟩
  · rintro ⟨a, h1, h2⟩; omega

theorem Window.wraps_iff (w : Window) : w.wraps = true ↔ 2 ^ 64 < w.base + w.len :=
  decide_eq_true_iff

/-- Two busy instances race exactly when a write window of one shares a byte with a window of the other
(60_exceptions.md R943). -/
theorem Grant.races_iff (g : Grant) (p : Peer) :
    g.races p = true ↔
      ∃ a, ((∃ w ∈ g.writes, w.hasByte a = true) ∧ (∃ v ∈ p.reads ++ p.writes, v.hasByte a = true)) ∨
        ((∃ w ∈ p.writes, w.hasByte a = true) ∧ (∃ v ∈ g.reads ++ g.writes, v.hasByte a = true)) := by
  simp only [Grant.races, Bool.or_eq_true, List.any_eq_true, Window.overlaps_iff]
  constructor
  · rintro (⟨w, hw, v, hv, a, h1, h2⟩ | ⟨w, hw, v, hv, a, h1, h2⟩)
    · exact ⟨a, .inl ⟨⟨w, hw, h1⟩, v, hv, h2⟩⟩
    · exact ⟨a, .inr ⟨⟨w, hw, h1⟩, v, hv, h2⟩⟩
  · rintro ⟨a, ⟨⟨w, hw, h1⟩, v, hv, h2⟩ | ⟨⟨w, hw, h1⟩, v, hv, h2⟩⟩
    · exact .inl ⟨w, hw, v, hv, a, h1, h2⟩
    · exact .inr ⟨w, hw, v, hv, a, h1, h2⟩

/-- It does not matter which of two other instances is asked. -/
theorem Peer.grant_races_comm (p q : Peer) : p.grant.races q = q.grant.races p := by
  simp only [Grant.races, Peer.grant, Bool.or_comm]

/-- The windows of a command pass their checks exactly when none ends above `2^64` and no read window shares a byte
with a write window (20_memory.md R207). -/
theorem Grant.fault?_eq_none_iff (g : Grant) :
    g.fault? = none ↔ (∀ w ∈ g.reads ++ g.writes, w.base + w.len ≤ 2 ^ 64) ∧
      ∀ r ∈ g.reads, ∀ w ∈ g.writes, ∀ a, ¬(r.hasByte a = true ∧ w.hasByte a = true) := by
  unfold Grant.fault?
  by_cases hw : g.wraps = true
  · simp only [hw, if_true, reduceCtorEq, false_iff, not_and_or]
    obtain ⟨w, hm, h⟩ := List.any_eq_true.1 hw
    exact .inl fun hall => by have := hall w hm; have := (Window.wraps_iff w).1 h; omega
  · have hle : ∀ w ∈ g.reads ++ g.writes, w.base + w.len ≤ 2 ^ 64 := fun w hm => by
      by_contra hc
      exact hw (List.any_eq_true.2 ⟨w, hm, (Window.wraps_iff w).2 (by omega)⟩)
    by_cases hs : g.selfOverlaps = true
    · rw [if_neg hw, if_pos hs]
      simp only [reduceCtorEq, false_iff]
      obtain ⟨r, hr, h⟩ := List.any_eq_true.1 hs
      obtain ⟨w, hm, h⟩ := List.any_eq_true.1 h
      obtain ⟨a, ha⟩ := (Window.overlaps_iff r w).1 h
      exact fun hall => hall.2 r hr w hm a ha
    · rw [if_neg hw, if_neg hs]
      refine iff_of_true rfl ⟨hle, fun r hr w hm a ha => hs ?_⟩
      exact List.any_eq_true.2 ⟨r, hr, List.any_eq_true.2 ⟨w, hm, (Window.overlaps_iff r w).2 ⟨a, ha⟩⟩⟩

/-- Every command has at most one write window (20_memory.md R206). -/
theorem grantOf_writes_length (i : Instr) (o : Operands) : (grantOf i o).writes.length ≤ 1 := by
  cases i <;> simp [grantOf]

/-- An abort changes host memory and the count of free bytes, and nothing else. -/
theorem havocWindows_eq (ws : List Window) (s : State) : ∃ m n, havocWindows ws s = (s.setMem m).setDraws n := by
  induction ws generalizing s with
  | nil => exact ⟨s.mem, s.draws, rfl⟩
  | cons w ws ih =>
    obtain ⟨m, h⟩ := State.havoc_eq w.len w.base s
    obtain ⟨m', n', h'⟩ := ih (s.havoc w.len w.base)
    exact ⟨m', n', by rw [havocWindows, h', h]; rfl⟩

theorem byteAt_havocWindows_out (ws : List Window) {a : Nat} (s : State)
    (h : ∀ w ∈ ws, a < w.base ∨ w.base + w.len ≤ a) : (havocWindows ws s).byteAt a = s.byteAt a := by
  induction ws generalizing s with
  | nil => rfl
  | cons w ws ih =>
    rw [havocWindows, ih _ fun v hv => h v (List.mem_cons_of_mem w hv)]
    exact State.byteAt_havoc_out _ s (h w List.mem_cons_self)

theorem wf_havocWindows (ws : List Window) {s : State} (h : s.mem.wf = true) : (havocWindows ws s).mem.wf = true := by
  induction ws generalizing s with
  | nil => exact h
  | cons w ws ih => exact ih (State.wf_havoc _ _ h)

/-- An idle core has nothing to abort. -/
theorem abortRunning_idle {s : State} (h : s.regs.busy = false) : abortRunning s = s := by
  simp [abortRunning, runningGrant, h, havocWindows]

/-- The bytes of the block are those at `CORE_BASE + offset` (10_state.md R100). -/
theorem blockOffset_registerAddress (off : BitVec 7) : blockOffset (registerAddress off) = some off := by
  have h : registerAddress off - Config.coreBase = off.setWidth 64 := by
    unfold registerAddress; rw [BitVec.add_comm, BitVec.add_sub_cancel]
  have hlt : off.setWidth 64 < 0x80#64 := by
    rw [BitVec.lt_def]; simp only [BitVec.toNat_setWidth]; simp; omega
  unfold blockOffset
  rw [h, if_pos hlt]
  refine congrArg some (BitVec.eq_of_toNat_eq ?_)
  simp only [BitVec.toNat_setWidth]
  omega

theorem isBlockByte_iff (addr : U64) : isBlockByte addr = true ↔ ∃ off : BitVec 7, addr = registerAddress off := by
  constructor
  · intro h
    by_cases hlt : addr - Config.coreBase < 0x80#64
    · refine ⟨(addr - Config.coreBase).setWidth 7, ?_⟩
      have hw : ((addr - Config.coreBase).setWidth 7).setWidth 64 = addr - Config.coreBase := by
        have hn : (addr - Config.coreBase).toNat < 128 := BitVec.lt_def.1 hlt
        refine BitVec.eq_of_toNat_eq ?_
        rw [BitVec.toNat_setWidth, BitVec.toNat_setWidth]
        omega
      unfold registerAddress
      rw [hw, BitVec.add_comm, BitVec.sub_add_cancel]
    · simp [isBlockByte, blockOffset, hlt] at h
  · rintro ⟨off, rfl⟩
    rw [isBlockByte, blockOffset_registerAddress]
    rfl

/-- A byte of the block cannot be accessed by itself (10_state.md R100). -/
theorem hostMemLoad_block {a : U64} (h : isBlockByte a = true) (s : State) :
    hostMemLoad a s = .error (.fault .mmioAccess) := if_pos h

theorem hostMemStore_block {a : U64} (h : isBlockByte a = true) (v : Byte) (s : State) :
    hostMemStore a v s = .error (.fault .mmioAccess) := if_pos h

/-- Everything a load of a byte outside the block can answer (20_memory.md R222): it never faults. -/
theorem hostMemLoad_memory {a : U64} (h : isBlockByte a = false) (s : State) :
    ((runningGrant s).writesByte a.toNat = true ∧ hostMemLoad a s =
        .ok ((s.setHostData ((Config.freeByte s.draws).setWidth 32)).setDraws (s.draws + 1))) ∨
      ((runningGrant s).writesByte a.toNat = false ∧
        hostMemLoad a s = .ok (s.setHostData ((s.byteAt a.toNat).setWidth 32))) := by
  cases hw : (runningGrant s).writesByte a.toNat <;> simp [hostMemLoad, h, hw]

/-- Everything a store of a byte outside the block can answer (20_memory.md R222). -/
theorem hostMemStore_memory {a : U64} (h : isBlockByte a = false) (v : Byte) (s : State) :
    ((runningGrant s).hasByte a.toNat = true ∧ hostMemStore a v s = .error (.fault .hostRace)) ∨
      ((runningGrant s).hasByte a.toNat = false ∧ hostMemStore a v s = .ok (s.setByte a.toNat v)) := by
  cases hw : (runningGrant s).hasByte a.toNat <;> simp [hostMemStore, h, hw]

/-- A register store of 32 bits at an aligned offset is the register's write. -/
theorem hostStep_store {off : BitVec 7} (h : off.toNat % 4 = 0) (v : U32) (s : State) :
    hostStep (.store off .w32 v) s = (writeRegister off v s).finish := by
  simp [hostStep, hostStore, isRegisterAccess, h]

/-- Everything the start of another instance can answer (60_exceptions.md R943). -/
theorem peerIssue_cases (p : Peer) (s : State) :
    (((runningGrant s).races p = true ∨ ∃ q ∈ s.peers, q.grant.races p = true) ∧
        peerIssue p s = .error (.fault .hostRace)) ∨
      ((runningGrant s).races p = false ∧ (∀ q ∈ s.peers, q.grant.races p = false) ∧
        peerIssue p s = .ok (s.setPeers (p :: s.peers))) := by
  unfold peerIssue
  cases h1 : (runningGrant s).races p with
  | true => exact .inl ⟨.inl rfl, rfl⟩
  | false =>
    cases h2 : s.peers.any p.grant.races with
    | true =>
      obtain ⟨q, hq, h⟩ := List.any_eq_true.1 h2
      exact .inl ⟨.inr ⟨q, hq, by rw [Peer.grant_races_comm]; exact h⟩, rfl⟩
    | false =>
      refine .inr ⟨rfl, fun q hq => ?_, rfl⟩
      rw [Peer.grant_races_comm]
      exact Bool.eq_false_iff.2 (List.any_eq_false.1 h2 q hq)

/-- Everything an issue can answer: a fault of the windows, a race, or the issued state (40_commands.md R401). -/
theorem issueCommand_cases (x : U32) (s : State) :
    (∃ f, (grantOfWord x s.regs.operands).fault? = some f ∧ issueCommand x s = .error (.fault f)) ∨
      ((grantOfWord x s.regs.operands).fault? = none ∧ s.peers.any (grantOfWord x s.regs.operands).races = true ∧
        issueCommand x s = .error (.fault .hostRace)) ∨
      ((grantOfWord x s.regs.operands).fault? = none ∧ s.peers.any (grantOfWord x s.regs.operands).races = false ∧
        issueCommand x s = .ok (issue x s)) := by
  have hsnap : (issue x s).snap = s.regs.operands := rfl
  have hpeers : (issue x s).peers = s.peers := rfl
  unfold issueCommand
  simp only [hsnap, hpeers, checkWindows]
  cases hf : (grantOfWord x s.regs.operands).fault? with
  | some f => exact .inl ⟨f, rfl, rfl⟩
  | none =>
    cases hr : s.peers.any (grantOfWord x s.regs.operands).races with
    | true => exact .inr (.inl ⟨rfl, rfl, rfl⟩)
    | false => exact .inr (.inr ⟨rfl, rfl, rfl⟩)

end Sys2Proof.Machine
end

