-- ==== Sys2Proof/Laws/PerInstr.lean ====
section
/-! SUPPORT. Statements made for each constructor of `Instr`, about the instruction as syntax. -/

namespace Sys2Proof.Laws.RowMatch

/-- The word of a well-formed command selects that command's row of the opcode map (30_encoding.md R302, R320). -/
def Statement (i : Instr) : Prop := i.wellFormed = true → (rowOf i).selects (encodeCommand i) = true

/-- A command word with `PB` anything and bits 31:9 zero, under a mask that ignores `PB`. -/
theorem selects_of_pb {r : OpcodeRow} {op : BitVec 4} {t : BitVec 1}
    (h : ∀ n : BitVec 4, r.selects (commandWord op n t) = true) (pb : Nat) :
    r.selects (commandWord op (BitVec.ofNat 4 pb) t) = true := h _

theorem nop : Statement .nop := fun _ => by decide

theorem buildTable (pb : Nat) : Statement (.buildTable pb) := fun _ => selects_of_pb (r := rowBuildTable) (by decide) pb

theorem encode (pb : Nat) : Statement (.encode pb) := fun _ => selects_of_pb (r := rowEncode) (by decide) pb

theorem encodeT (pb : Nat) : Statement (.encodeT pb) := fun _ => selects_of_pb (r := rowEncodeT) (by decide) pb

theorem decode : Statement .decode := fun _ => by decide

end Sys2Proof.Laws.RowMatch
end

