-- ==== Sys2Proof/Laws/Scalar.lean ====
section
/-! SUPPORT. The scalar sweeps of Safety.lean: how many words an encode emits, what the lookup table holds, and that a
decode's cursor never rises, its loads stay recorded, and it reads only the words between its cursors. -/

namespace Sys2Proof.Machine

/-! ### Words emitted by the encoder's sweep (42_encoder.md R516, R521) -/

/-- A sweep over listed bytes adds at most one word for each. -/
theorem length_foldl_scalarEncodeStep_le (enc : Vector U64 256) (pb : Nat) (ps : List (Nat × Byte))
    (acc : Vector U32 32 × List U16) :
    (ps.foldl (scalarEncodeStep enc pb) acc).2.length ≤ acc.2.length + ps.length := by
  induction ps generalizing acc with
  | nil => simp
  | cons p ps ih =>
    refine (ih _).trans ?_
    have : (scalarEncodeStep enc pb acc p).2.length ≤ acc.2.length + 1 := by
      simp only [scalarEncodeStep]; split <;> simp
    simp only [List.length_cons]
    omega

/-- A block emits at most one word for each byte (42_encoder.md R521). -/
theorem length_scalarEncodeWords_le (enc : Vector U64 256) (pb : Nat) (block : List Byte) :
    (scalarEncodeWords enc pb block).length ≤ block.length := by
  simpa [scalarEncodeWords, scalarEncodeBlock] using length_foldl_scalarEncodeStep_le enc pb ((List.range block.length).zip block) (_, [])

/-- A sweep whose symbols emit at every state adds exactly one word for each byte. -/
theorem length_foldl_scalarEncodeStep_of_emits {enc : Vector U64 256} {pb : Nat} {ps : List (Nat × Byte)}
    (acc : Vector U32 32 × List U16)
    (h : ∀ p ∈ ps, ∀ x, (encStep x (enc.get (symIdx p.2)) pb).emitted = true) :
    (ps.foldl (scalarEncodeStep enc pb) acc).2.length = acc.2.length + ps.length := by
  induction ps generalizing acc with
  | nil => simp
  | cons p ps ih =>
    rw [List.foldl_cons, ih _ fun q hq => h q (List.mem_cons_of_mem _ hq)]
    simp only [scalarEncodeStep, h p List.mem_cons_self, if_true, List.length_append, List.length_cons, List.length_nil]
    omega

theorem length_scalarEncodeWords_of_emits {enc : Vector U64 256} {pb : Nat} {block : List Byte}
    (h : ∀ b ∈ block, ∀ x, (encStep x (enc.get (symIdx b)) pb).emitted = true) :
    (scalarEncodeWords enc pb block).length = block.length := by
  have := length_foldl_scalarEncodeStep_of_emits (ps := (List.range block.length).zip block)
    (Vector.replicate 32 Config.minState, []) fun p hp => h p.2 (List.of_mem_zip hp).2
  simpa [scalarEncodeWords, scalarEncodeBlock] using this

/-- A sweep whose symbols keep the initial state and emit nothing there ends as it began (42_encoder.md R512: one symbol
with all the probability). -/
theorem foldl_scalarEncodeStep_of_fixed {enc : Vector U64 256} {pb : Nat} {ps : List (Nat × Byte)}
    (h : ∀ p ∈ ps, (encStep Config.minState (enc.get (symIdx p.2)) pb).state = Config.minState ∧
      (encStep Config.minState (enc.get (symIdx p.2)) pb).emitted = false) :
    ps.foldl (scalarEncodeStep enc pb) (Vector.replicate 32 Config.minState, []) =
      (Vector.replicate 32 Config.minState, []) := by
  induction ps with
  | nil => rfl
  | cons p ps ih =>
    obtain ⟨hs, he⟩ := h p List.mem_cons_self
    have hget : (Vector.replicate 32 Config.minState).get (Fin.ofNat 32 p.1) = Config.minState := by simp [Vector.get]
    have hstep : scalarEncodeStep enc pb (Vector.replicate 32 Config.minState, []) p =
        (Vector.replicate 32 Config.minState, []) := by
      simp only [scalarEncodeStep, hget, hs, he]
      refine Prod.ext (Vector.ext fun i hi => ?_) rfl
      simp only [Vector.getElem_set, Vector.getElem_replicate, ite_self]
    rw [List.foldl_cons, hstep]
    exact ih fun q hq => h q (List.mem_cons_of_mem _ hq)

theorem scalarEncodeBlock_of_fixed {enc : Vector U64 256} {pb : Nat} {block : List Byte}
    (h : ∀ b ∈ block, (encStep Config.minState (enc.get (symIdx b)) pb).state = Config.minState ∧
      (encStep Config.minState (enc.get (symIdx b)) pb).emitted = false) :
    scalarEncodeBlock enc pb block = (Vector.replicate 32 Config.minState, []) :=
  foldl_scalarEncodeStep_of_fixed fun p hp => h p.2 (List.of_mem_zip hp).2

theorem scalarEncodeWords_of_fixed {enc : Vector U64 256} {pb : Nat} {block : List Byte}
    (h : ∀ b ∈ block, (encStep Config.minState (enc.get (symIdx b)) pb).state = Config.minState ∧
      (encStep Config.minState (enc.get (symIdx b)) pb).emitted = false) : scalarEncodeWords enc pb block = [] := by
  rw [scalarEncodeWords, scalarEncodeBlock_of_fixed h]

@[simp] theorem State.length_sourceBlock (s : State) (k : Nat) : (s.sourceBlock k).length = 4096 := by
  simp [State.sourceBlock, Config.blockBytes]

/-- A sum over the first `n` indexes of terms at most `b`. -/
theorem sum_map_range_le (f : Nat → Nat) (b n : Nat) (h : ∀ k, f k ≤ b) : ((List.range n).map f).sum ≤ b * n := by
  induction n with
  | zero => simp
  | succ n ih => simp only [List.range_succ, List.map_append, List.sum_append, List.map_cons, List.map_nil,
      List.sum_cons, List.sum_nil]; have := h n; rw [Nat.mul_succ]; omega

theorem State.length_blockWords_le (s : State) (enc : Vector U64 256) (pb k : Nat) :
    (s.blockWords enc pb k).length ≤ 4096 := by
  have h := length_scalarEncodeWords_le enc pb (s.sourceBlock k)
  rw [s.length_sourceBlock k] at h
  exact h

/-- The words of the whole source are at most its bytes (42_encoder.md R521). -/
theorem State.payloadWords_le (s : State) (enc : Vector U64 256) (pb : Nat) : s.payloadWords enc pb ≤ s.srcSize := by
  refine (sum_map_range_le _ 4096 _ fun k => s.length_blockWords_le enc pb k).trans ?_
  exact Nat.mul_div_le s.snap.srcLen.toNat 4096

/-- The capacity of 70_reset_and_hazards.md R1014 always suffices. -/
theorem encodeFits_of_amplyCapable {s : State} (pb : Nat) (enc : Vector U64 256) (hb : 1 ≤ blocksOf s)
    (h : amplyCapable s = true) : encodeFits pb enc s = true := by
  have h1 := sum_map_range_le (fun k => (s.blockWords enc pb k).length) 4096 (blocksOf s - 1)
    fun k => s.length_blockWords_le enc pb k
  have h2 := length_scalarEncodeWords_le enc pb ((s.sourceBlock (blocksOf s - 1)).take 4088)
  have h3 : 4096 * blocksOf s ≤ s.srcSize := Nat.mul_div_le s.snap.srcLen.toNat 4096
  simp only [List.length_take, State.length_sourceBlock] at h2
  simp only [amplyCapable, decide_eq_true_eq] at h
  rw [encodeFits, decide_eq_true_eq, State.lastStoreCursor]
  omega

theorem encodeReady_of_amplyCapable {pb : Nat} {s : State} (hw : (grantOf (.encode pb) s.snap).fault? = none)
    (he : encodeError pb s = none) (hb : 1 ≤ blocksOf s) (h : amplyCapable s = true) : encodeReady pb s = true := by
  rw [encodeReady, hw, he, encodeFits_of_amplyCapable pb _ hb h]
  rfl

theorem encodeTReady_of_amplyCapable {pb : Nat} {s : State} (hw : (grantOf (.encodeT pb) s.snap).fault? = none)
    (he : encodeTError pb s = none) (hb : 1 ≤ blocksOf s) (h : amplyCapable s = true) : encodeTReady pb s = true := by
  rw [encodeTReady, hw, he, encodeFits_of_amplyCapable pb _ hb h]
  rfl

/-! ### The lookup table (43_decoder.md R601) -/

theorem Vector.getD_setIfInBounds {α : Type} {n : Nat} (v : Vector α n) (i j : Nat) (a d : α) :
    (v.setIfInBounds i a).getD j d = if i = j ∧ j < n then a else v.getD j d := by
  by_cases hj : j < n
  · by_cases hi : i = j <;> simp [Vector.getD, hj, hi]
  · simp [Vector.getD, hj]

/-- A symbol's entries, the slots in ascending order, and every other entry as before. -/
theorem fillSymbol_getD (p : U16) (sym c i : Nat) (dec : Vector U32 2048) :
    (fillSymbol p sym c dec).getD i 0 =
      if c ≤ i ∧ i < c + p.toNat ∧ i < 2048 then
        decRecord (BitVec.ofNat 12 (i - c)) (BitVec.ofNat 12 p.toNat) (BitVec.ofNat 8 sym)
      else dec.getD i 0 := by
  unfold fillSymbol
  generalize BitVec.ofNat 12 p.toNat = pdf
  generalize p.toNat = n
  induction n with
  | zero =>
    have : ¬(c ≤ i ∧ i < c + 0 ∧ i < 2048) := by omega
    simp only [if_neg this, List.range_zero, List.foldl_nil]
  | succ n ih =>
    rw [List.range_succ, List.foldl_append, List.foldl_cons, List.foldl_nil, Vector.getD_setIfInBounds, ih]
    by_cases hi : c + n = i
    · subst hi
      by_cases h : c + n < 2048
      · simp [h]
      · simp [h]
    · have h1 : ¬(c + n = i ∧ i < 2048) := by omega
      have h2 : (c ≤ i ∧ i < c + n ∧ i < 2048) ↔ (c ≤ i ∧ i < c + (n + 1) ∧ i < 2048) := by omega
      simp only [if_neg h1, h2]

/-- Symbols of probability 0 have no entry. -/
theorem fillTable_zeros (n sym c : Nat) (dec : Vector U32 2048) : fillTable (List.replicate n 0) sym c dec = dec := by
  induction n generalizing sym with
  | zero => rfl
  | succ n ih => exact ih (sym + 1)

/-! ### The decoder's sweep (43_decoder.md R612 to R616) -/

theorem needsBelow_succ (lanes : Vector U32 32) (g : Fin 4) (j : Nat) :
    needsBelow lanes g (j + 1) =
      needsBelow lanes g j + if lanes.getD (8 * g.val + j) 0 < Config.minState then 1 else 0 := by
  simp [needsBelow, List.range_succ, List.countP_append, List.countP_cons]

theorem needsBelow_mono (lanes : Vector U32 32) (g : Fin 4) {i j : Nat} (h : i ≤ j) :
    needsBelow lanes g i ≤ needsBelow lanes g j := by
  induction j with
  | zero => simp_all
  | succ j ih =>
    rw [needsBelow_succ]
    rcases Nat.lt_or_ge j i with hj | hj
    · have : i = j + 1 := by omega
      subst this; rw [needsBelow_succ]
    · have := ih hj; omega

/-- A needing lane's rank is below the number of needing lanes. -/
theorem needsBelow_lt {lanes : Vector U32 32} {l : Fin 32} (h : lanes.get l < Config.minState) {g : Fin 4}
    (hg : l.val / 8 = g.val) : needsBelow lanes g (l.val % 8) < needsBelow lanes g 8 := by
  have hl : 8 * g.val + l.val % 8 = l.val := by omega
  have h1 := needsBelow_succ lanes g (l.val % 8)
  have h2 : lanes.getD l.val 0 = lanes.get l := by simp [Vector.getD, Vector.get]
  rw [hl, h2, if_pos h] at h1
  have := needsBelow_mono lanes g (show l.val % 8 + 1 ≤ 8 by omega)
  omega

/-- A group that needs no word is left as it is, with no load (43_decoder.md R615). -/
theorem scalarFeedGroup_of_fed (word : Int → U16) {d : ScalarDecode} {g : Fin 4}
    (h : ∀ l : Fin 32, ¬d.lanes.get l < Config.minState) : scalarFeedGroup word d g = d := by
  have hn : needsBelow d.lanes g 8 = 0 := by
    simp only [needsBelow, List.countP_eq_zero, List.mem_range, decide_eq_true_eq]
    intro i hi
    have := h ⟨8 * g.val + i, by omega⟩
    simpa [Vector.getD, Vector.get, show 8 * g.val + i < 32 by omega] using this
  have hl : d.lanes = Vector.ofFn fun l => if l.val / 8 = g.val then
      decFeed (d.lanes.get l) (word (d.cur - 0 + needsBelow d.lanes g (l.val % 8))) else d.lanes.get l := by
    refine Vector.ext fun i hi => ?_
    have := h ⟨i, hi⟩
    simp only [Vector.getElem_ofFn, decFeed, if_neg this, ite_self]
    rfl
  obtain ⟨lanes, cur, loads, bytes⟩ := d
  simp only [scalarFeedGroup, hn, if_true, Int.natCast_zero, Int.sub_zero] at hl ⊢
  rw [← hl]

/-- The cursor never rises. -/
theorem scalarFeedGroup_cur_le (word : Int → U16) (d : ScalarDecode) (g : Fin 4) :
    (scalarFeedGroup word d g).cur ≤ d.cur := by
  simp only [scalarFeedGroup]
  omega

theorem foldl_scalarFeedGroup_cur_le (word : Int → U16) (gs : List (Fin 4)) (d : ScalarDecode) :
    (gs.foldl (scalarFeedGroup word) d).cur ≤ d.cur := by
  induction gs generalizing d with
  | nil => exact Int.le_refl _
  | cons g gs ih =>
    simp only [List.foldl_cons]
    exact Int.le_trans (ih _) (scalarFeedGroup_cur_le word d g)

/-- The lookups of a warp leave cursor and loads to the feeds. -/
theorem scalarDecodeWarp_cur_le (entry : Nat → U32) (word : Int → U16) (pb : Nat) (d : ScalarDecode) :
    (scalarDecodeWarp entry word pb d).cur ≤ d.cur := by
  unfold scalarDecodeWarp
  refine Int.le_trans (foldl_scalarFeedGroup_cur_le word _ _) ?_
  exact Int.le_refl d.cur

theorem scalarDecodeWarps_cur_le (entry : Nat → U32) (word : Int → U16) (pb n : Nat) (d : ScalarDecode) :
    (scalarDecodeWarps entry word pb n d).cur ≤ d.cur := by
  induction n generalizing d with
  | zero => exact Int.le_refl _
  | succ n ih =>
    simp only [scalarDecodeWarps]
    exact Int.le_trans (ih _) (scalarDecodeWarp_cur_le entry word pb d)

theorem scalarDecodeWarps_add (entry : Nat → U32) (word : Int → U16) (pb m n : Nat) (d : ScalarDecode) :
    scalarDecodeWarps entry word pb (m + n) d =
      scalarDecodeWarps entry word pb n (scalarDecodeWarps entry word pb m d) := by
  induction m generalizing d with
  | zero => simp [scalarDecodeWarps]
  | succ m ih =>
    simp only [Nat.succ_add, scalarDecodeWarps]
    exact ih _

/-- A load once made stays recorded. -/
theorem mem_loads_scalarFeedGroup (word : Int → U16) {d : ScalarDecode} {c : Int} (g : Fin 4) (h : c ∈ d.loads) :
    c ∈ (scalarFeedGroup word d g).loads := by
  simp only [scalarFeedGroup]
  split
  · exact h
  · exact List.mem_cons_of_mem _ h

theorem mem_loads_foldl_scalarFeedGroup (word : Int → U16) (gs : List (Fin 4)) {d : ScalarDecode} {c : Int}
    (h : c ∈ d.loads) : c ∈ (gs.foldl (scalarFeedGroup word) d).loads := by
  induction gs generalizing d with
  | nil => exact h
  | cons g gs ih =>
    simp only [List.foldl_cons]
    exact ih (mem_loads_scalarFeedGroup word g h)

theorem mem_loads_scalarDecodeWarps (entry : Nat → U32) (word : Int → U16) (pb n : Nat) {d : ScalarDecode} {c : Int}
    (h : c ∈ d.loads) : c ∈ (scalarDecodeWarps entry word pb n d).loads := by
  induction n generalizing d with
  | zero => exact h
  | succ n ih =>
    simp only [scalarDecodeWarps, scalarDecodeWarp]
    exact ih (mem_loads_foldl_scalarFeedGroup word _ h)

/-- A feed reads only the words between the cursor after it and the cursor before it (43_decoder.md R614). -/
theorem scalarFeedGroup_congr {word word' : Int → U16} {d : ScalarDecode} {g : Fin 4}
    (h : ∀ j, (scalarFeedGroup word' d g).cur ≤ j → j < d.cur → word j = word' j) :
    scalarFeedGroup word d g = scalarFeedGroup word' d g := by
  simp only [scalarFeedGroup, ScalarDecode.mk.injEq, and_self, and_true] at h ⊢
  refine Vector.ext fun i hi => ?_
  simp only [Vector.getElem_ofFn]
  split
  · next hg =>
    by_cases hl : d.lanes.get ⟨i, hi⟩ < Config.minState
    · have : needsBelow d.lanes g (i % 8) < needsBelow d.lanes g 8 := needsBelow_lt hl hg
      rw [h _ (by omega) (by omega)]
    · simp only [decFeed, if_neg hl]
  · rfl

theorem foldl_scalarFeedGroup_congr {word word' : Int → U16} (gs : List (Fin 4)) {d : ScalarDecode}
    (h : ∀ j, (gs.foldl (scalarFeedGroup word') d).cur ≤ j → j < d.cur → word j = word' j) :
    gs.foldl (scalarFeedGroup word) d = gs.foldl (scalarFeedGroup word') d := by
  induction gs generalizing d with
  | nil => rw [List.foldl_nil, List.foldl_nil]
  | cons g gs ih =>
    have hc := scalarFeedGroup_cur_le word' d g
    have hf := foldl_scalarFeedGroup_cur_le word' gs (scalarFeedGroup word' d g)
    simp only [List.foldl_cons] at h ⊢
    rw [scalarFeedGroup_congr fun j h1 h2 => h j (Int.le_trans hf h1) h2]
    exact ih fun j h1 h2 => h j h1 (Int.lt_of_lt_of_le h2 hc)

/-- The lookup index is below the table's size. -/
theorem decIndex_lt (x : U32) {pb : Nat} (h : pb ≤ 32) : (decIndex x pb).toNat < 2 ^ pb := by
  have h2 : 2 ^ pb ≤ 2 ^ 32 := Nat.pow_le_pow_right (by omega) h
  have hp : 0 < 2 ^ pb := Nat.pow_pos (by omega)
  rw [decIndex, BitVec.toNat_and, BitVec.toNat_ofNat, Nat.mod_eq_of_lt (by omega), Nat.and_two_pow_sub_one_eq_mod]
  exact Nat.mod_lt _ hp

/-- A warp reads only table entries below `2^PB`, and only the words its cursor passes. -/
theorem scalarDecodeWarp_congr {entry entry' : Nat → U32} {word word' : Int → U16} {pb : Nat} {d : ScalarDecode}
    (hpb : pb ≤ 32) (he : ∀ i, i < 2 ^ pb → entry i = entry' i)
    (h : ∀ j, (scalarDecodeWarp entry' word' pb d).cur ≤ j → j < d.cur → word j = word' j) :
    scalarDecodeWarp entry word pb d = scalarDecodeWarp entry' word' pb d := by
  have hl : (fun l : Fin 32 => entry (decIndex (d.lanes.get l) pb).toNat) =
      fun l => entry' (decIndex (d.lanes.get l) pb).toNat := funext fun l => he _ (decIndex_lt _ hpb)
  have hl' : ∀ l : Fin 32, entry (decIndex (d.lanes.get l) pb).toNat = entry' (decIndex (d.lanes.get l) pb).toNat :=
    congrFun hl
  simp only [scalarDecodeWarp] at h ⊢
  simp only [hl']
  exact foldl_scalarFeedGroup_congr _ h

/-- So do any number of warps. -/
theorem scalarDecodeWarps_congr {entry entry' : Nat → U32} {word word' : Int → U16} {pb : Nat} (n : Nat)
    {d : ScalarDecode} (hpb : pb ≤ 32) (he : ∀ i, i < 2 ^ pb → entry i = entry' i)
    (h : ∀ j, (scalarDecodeWarps entry' word' pb n d).cur ≤ j → j < d.cur → word j = word' j) :
    scalarDecodeWarps entry word pb n d = scalarDecodeWarps entry' word' pb n d := by
  induction n generalizing d with
  | zero => rw [scalarDecodeWarps, scalarDecodeWarps]
  | succ n ih =>
    have hc := scalarDecodeWarp_cur_le entry' word' pb d
    have hf := scalarDecodeWarps_cur_le entry' word' pb n (scalarDecodeWarp entry' word' pb d)
    simp only [scalarDecodeWarps] at h ⊢
    rw [scalarDecodeWarp_congr hpb he fun j h1 h2 => h j (Int.le_trans hf h1) h2]
    exact ih fun j h1 h2 => h j h1 (Int.lt_of_lt_of_le h2 hc)

/-- Where every lane's update keeps its state, at `L` or above, no warp makes a load (43_decoder.md R615). -/
theorem loads_scalarDecodeWarps_of_fixed {entry : Nat → U32} {word : Int → U16} {pb : Nat} (n : Nat) {d : ScalarDecode}
    (hL : ∀ l : Fin 32, ¬d.lanes.get l < Config.minState)
    (h : ∀ l : Fin 32, decUpdate (d.lanes.get l) (entry (decIndex (d.lanes.get l) pb).toNat) pb = d.lanes.get l) :
    (scalarDecodeWarps entry word pb n d).loads = d.loads := by
  induction n generalizing d with
  | zero => rfl
  | succ n ih =>
    have hl : (Vector.ofFn fun l => decUpdate (d.lanes.get l) (entry (decIndex (d.lanes.get l) pb).toNat) pb) = d.lanes := by
      refine Vector.ext fun i hi => ?_
      rw [Vector.getElem_ofFn]; exact h ⟨i, hi⟩
    have hw : ∃ bs : List Byte, scalarDecodeWarp entry word pb d = { d with bytes := bs } := by
      refine ⟨(List.ofFn fun l => decSymbol (entry (decIndex (d.lanes.get l) pb).toNat)) ++ d.bytes, ?_⟩
      simp only [scalarDecodeWarp, hl, List.foldl_cons, List.foldl_nil]
      have hf : ∀ (bs : List Byte) (g : Fin 4), scalarFeedGroup word { d with bytes := bs } g = { d with bytes := bs } :=
        fun bs g => scalarFeedGroup_of_fed word hL
      simp only [hf]
    obtain ⟨bs, hw⟩ := hw
    simp only [scalarDecodeWarps, hw]
    exact ih hL h

end Sys2Proof.Machine
end

