-- ==== Sys2Proof/Laws/Simd.lean ====
section
/-! SUPPORT. Each datapath function lane by lane, as 45_simd.md gives it, and lane groups. -/

namespace Sys2Proof.Machine

theorem get_ofFn {α : Type} {n : Nat} (f : Fin n → α) (j : Fin n) : (Vector.ofFn f).get j = f j := by
  show (Vector.ofFn f)[j.val] = f j
  simp

@[simp] theorem vand_get (a b : Vec) (j : Fin 8) : (vand a b).get j = a.get j &&& b.get j :=
  get_ofFn _ j
@[simp] theorem vor_get (a b : Vec) (j : Fin 8) : (vor a b).get j = a.get j ||| b.get j :=
  get_ofFn _ j
@[simp] theorem vshl_get (a : Vec) (c : Nat) (j : Fin 8) : (vshl a c).get j = a.get j <<< c :=
  get_ofFn _ j
@[simp] theorem vshr_get (a : Vec) (c : Nat) (j : Fin 8) : (vshr a c).get j = a.get j >>> c :=
  get_ofFn _ j
@[simp] theorem vadd_get (a b : Vec) (j : Fin 8) : (vadd a b).get j = a.get j + b.get j :=
  get_ofFn _ j
@[simp] theorem vsub_get (a b : Vec) (j : Fin 8) : (vsub a b).get j = a.get j - b.get j :=
  get_ofFn _ j
@[simp] theorem vmullo_get (a b : Vec) (j : Fin 8) : (vmullo a b).get j = a.get j * b.get j :=
  get_ofFn _ j
@[simp] theorem vmulhi_get (a b : Vec) (j : Fin 8) : (vmulhi a b).get j = mulhi32 (a.get j) (b.get j) :=
  get_ofFn _ j
@[simp] theorem broadcast32_get (c : U32) (j : Fin 8) : (broadcast32 c).get j = c := by simp [broadcast32, Vector.get]

@[simp] theorem vshrv_get (a s : Vec) (j : Fin 8) :
    (vshrv a s).get j = if (s.get j).toNat < 32 then a.get j >>> (s.get j).toNat else 0 :=
  get_ofFn _ j

@[simp] theorem vcmpGt_get (a b : Vec) (j : Fin 8) :
    (vcmpGt a b).get j = if b.get j < a.get j then 0xFFFFFFFF#32 else 0#32 :=
  get_ofFn _ j

@[simp] theorem blendv_get (a b m : Vec) (j : Fin 8) :
    (blendv a b m).get j = if (m.get j).msb then b.get j else a.get j :=
  get_ofFn _ j

@[simp] theorem permute8x32_get (a idx : Vec) (j : Fin 8) :
    (permute8x32 a idx).get j = a.get (Fin.ofNat 8 (idx.get j).toNat) :=
  get_ofFn _ j

@[simp] theorem cvtU8_get (b : Vector Byte 8) (j : Fin 8) : (cvtU8 b).get j = (b.get j).setWidth 32 :=
  get_ofFn _ j

@[simp] theorem cvtU16_get (h : Half) (j : Fin 8) : (cvtU16 h).get j = (h.get j).setWidth 32 :=
  get_ofFn _ j

@[simp] theorem pack32to16_get (a : Vec) (j : Fin 8) : (pack32to16 a).get j = (a.get j).setWidth 16 :=
  get_ofFn _ j

@[simp] theorem vmask_getLsbD (a : Vec) (j : Fin 8) : (vmask a).getLsbD j.val = (a.get j).msb := by
  simp [vmask, Vector.get]

/-- A lane of a group is the core lane it stands for (10_state.md R110). -/
@[simp] theorem laneGroup_get (lanes : Vector U32 32) (g : Fin 4) (j : Fin 8) :
    (laneGroup lanes g).get j = lanes.get ⟨8 * g.val + j.val, by omega⟩ :=
  get_ofFn _ j

/-- Replacing a group replaces its eight lanes only. -/
theorem setLaneGroup_get (lanes : Vector U32 32) (g : Fin 4) (x : Vec) (l : Fin 32) :
    (setLaneGroup lanes g x).get l = if l.val / 8 = g.val then x.get ⟨l.val % 8, by omega⟩ else lanes.get l :=
  get_ofFn _ l

@[simp] theorem laneGroup_setLaneGroup (lanes : Vector U32 32) (g : Fin 4) (x : Vec) :
    laneGroup (setLaneGroup lanes g x) g = x := by
  apply Vector.ext
  intro j hj
  have h1 : (8 * g.val + j) / 8 = g.val := by omega
  have h2 : (8 * g.val + j) % 8 = j := by omega
  simp only [laneGroup, setLaneGroup, Vector.getElem_ofFn, h1, if_true, h2]

theorem laneGroup_setLaneGroup_ne (lanes : Vector U32 32) {g h : Fin 4} (x : Vec) (ne : g ≠ h) :
    laneGroup (setLaneGroup lanes g x) h = laneGroup lanes h := by
  apply Vector.ext
  intro j hj
  have : (8 * h.val + j) / 8 ≠ g.val := by have := Fin.val_ne_of_ne ne; omega
  simp [laneGroup, setLaneGroup, this]

end Sys2Proof.Machine
end

