-- ==== Sys2Proof/Tests/Slice0.lean ====
section
/-! SUPPORT. The model's own tests: command words written out from 30_encoding.md R300, the manual's vectors of
95_test_vectors.md, one step at a time, and for every statement with hypotheses a witness that meets them. -/

namespace Sys2Proof.Tests

-- One theorem at a time: a thread for each waiting check would take more memory than the check allows.
set_option Elab.async false

open Sys2Proof Sys2Proof.Machine

/-! ### Small states -/

/-- The machine after reset with this operand snapshot. -/
def withOperands (o : Operands) : State := State.reset.setSnap o

/-- One block at 0x1000, a destination of 0x3000 bytes at 0x4000, a table at 0x10000. -/
def oneBlock : Operands := ⟨0x1000, 4096, 0x4000, 0x3000, 0x10000⟩

/-- The registers that give a snapshot. -/
def regsOf (o : Operands) : Regs :=
  { Regs.reset with
    srcAddrLo := o.src.setWidth 32, srcAddrHi := o.src.extractLsb' 32 32, srcLen := o.srcLen
    dstAddrLo := o.dst.setWidth 32, dstAddrHi := o.dst.extractLsb' 32 32, dstCap := o.dstCap
    tblAddrLo := o.tbl.setWidth 32, tblAddrHi := o.tbl.extractLsb' 32 32 }

/-- An idle machine whose operand registers hold `o`. -/
def idleWith (o : Operands) : State := State.reset.setRegs (regsOf o)

/-- A busy machine that runs the word `x` with the operands `o`. -/
def busyWith (x : U32) (o : Operands) : State := issue x (idleWith o)

/-- `ERROR` and `RESULT` after a step that gives a next state. -/
def reportOf (o : Host.Outcome State Fault Refusal) : Option (Nat × Nat) :=
  match o with
  | .next t => some (t.regs.error.toNat, t.regs.result.toNat)
  | .fault _ => none
  | .refused _ => none

/-- The state after a step that gives a next state. -/
def stateOf (o : Host.Outcome State Fault Refusal) : Option State :=
  match o with
  | .next t => some t
  | .fault _ => none
  | .refused _ => none

/-- The fault a step ends in. -/
def faultOf (o : Host.Outcome State Fault Refusal) : Option Fault :=
  match o with
  | .next _ => none
  | .fault f => some f
  | .refused _ => none

/-- Bytes `f 0 .. f (n-1)` listed from `base` on. -/
def bytesAt (base n : Nat) (f : Nat → Byte) : Memory := (List.range n).map fun i => (base + i, f i)

/-! ### Well-formedness, decoding, encoding -/

/-- `N` is a number 0..15 (30_encoding.md R320): 16 is refused for each command that has it. -/
theorem test_ill_formed_refused :
    (Instr.buildTable 16).wellFormed = false ∧ (Instr.encode 16).wellFormed = false ∧
      (Instr.encodeT 16).wellFormed = false := by decide

/-- Bits 31:9 zero, `T`, `PB`, `OP` (30_encoding.md R300): NOP with ignored fields 1. -/
theorem test_decode_nop_word : decodeTableWord 32 0b00000000000000000000000_1_1111_0000 = some .nop := by decide

/-- `build_table pb=11`, and with the ignored `T` 1 (30_encoding.md R302). -/
theorem test_decode_build_table_word :
    decodeTableWord 32 0b00000000000000000000000_0_1011_0001 = some (.buildTable 11) ∧
      decodeTableWord 32 0b00000000000000000000000_1_1011_0001 = some (.buildTable 11) := by decide

/-- `encode pb=9`: `OP` 2, `T` 0 (30_encoding.md R302). -/
theorem test_decode_encode_word :
    decodeTableWord 32 0b00000000000000000000000_0_1001_0010 = some (.encode 9) := by decide

/-- `encode.t pb=9`: `OP` 2, `T` 1 (30_encoding.md R302). -/
theorem test_decode_encode_t_word :
    decodeTableWord 32 0b00000000000000000000000_1_1001_0010 = some (.encodeT 9) := by decide

/-- `decode`, with `PB` and `T` ignored (30_encoding.md R302). -/
theorem test_decode_decode_word :
    decodeTableWord 32 0b00000000000000000000000_0_0000_0011 = some .decode ∧
      decodeTableWord 32 0b00000000000000000000000_1_0110_0011 = some .decode := by decide

/-- `OP` 4 and 15, bit 9 and bit 31 (30_encoding.md R303; V-R1, V-R2 of 95_test_vectors.md). -/
theorem test_illegal_words :
    decodeCommand 0x00000004#32 = .error .reservedOp ∧ decodeCommand 0x0000000F#32 = .error .reservedOp ∧
      decodeCommand 0x000002A2#32 = .error .reservedBits ∧ decodeCommand 0x80000000#32 = .error .reservedBits :=
  ⟨rfl, rfl, rfl, rfl⟩

/-- The words of 30_encoding.md R320. -/
theorem test_encode_words :
    encodeCommand (.buildTable 10) = 0xA1#32 ∧ encodeCommand (.encode 11) = 0xB2#32 ∧
      encodeCommand (.encodeT 9) = 0x192#32 ∧ encodeCommand .decode = 3#32 ∧ encodeCommand .nop = 0#32 := by decide

/-! ### Steps -/

/-- V-H11: `NOP` clears a stale `ERROR` and completes. -/
theorem test_nop_step :
    reportOf (step (((State.reset.setRegs { Regs.reset with error := 6, done := true })).withFetchWord 32 0)) =
      some (0, 0) := by decide

/-- V-R11 to V-R13: the checks of `BUILD_TABLE`. -/
theorem test_build_table_errors :
    reportOf (exec (.buildTable 10) (withOperands { oneBlock with tbl := 0x10004 })) = some (7, 0) ∧
      reportOf (exec (.buildTable 9) (withOperands { oneBlock with srcLen := 4097 })) = some (1, 0) ∧
      reportOf (exec (.buildTable 7) (withOperands oneBlock)) = some (3, 0) := by decide +kernel

/-- V-R3 to V-R8: the checks of `ENCODE`. -/
theorem test_encode_errors :
    reportOf (exec (.encode 10) (withOperands { oneBlock with dst := 0x4010 })) = some (7, 0) ∧
      reportOf (exec (.encode 10) (withOperands { oneBlock with srcLen := 0 })) = some (1, 0) ∧
      reportOf (exec (.encode 10) (withOperands { oneBlock with srcLen := 100 })) = some (1, 0) ∧
      reportOf (exec (.encode 10) (withOperands { oneBlock with dstCap := 7167 })) = some (2, 0) ∧
      reportOf (exec (.encode 8) (withOperands { oneBlock with dstCap := 7168 })) = some (3, 0) ∧
      reportOf (exec (.encode 12) (withOperands { oneBlock with dstCap := 7168 })) = some (3, 0) := by decide +kernel

/-- V-R10, and a destination off 32 with a table on 8: one check for both (42_encoder.md R531). -/
theorem test_encode_t_errors :
    reportOf (exec (.encodeT 10) (withOperands { oneBlock with tbl := 0x10004 })) = some (7, 0) ∧
      reportOf (exec (.encodeT 10) (withOperands { oneBlock with dst := 0x4008 })) = some (7, 0) := by decide +kernel

/-! ### Statistics: V-D, V-Q, V-T of 95_test_vectors.md -/

/-- Counters of the symbols from 0 on, the rest 0. -/
def histOf (cs : List Nat) : Vector U32 256 := Vector.ofFn fun s => BitVec.ofNat 32 (cs.getD s.val 0)

/-- Probabilities of the symbols from 0 on, the rest 0. -/
def probsOf (qs : List Nat) : Vector (BitVec 12) 256 := Vector.ofFn fun s => BitVec.ofNat 12 (qs.getD s.val 0)

/-- V-D: the division pairs. -/
theorem test_division_pairs :
    ([1, 2, 3, 4, 5, 7, 100, 171, 1023, 1024, 1025, 2047, 2048].map fun q => (divShift q, divMagic q)) =
      [(0, 1), (1, 1), (2, 0x55555556), (2, 1), (3, 0x9999999A), (3, 0x24924925), (7, 0x47AE147B), (8, 0x7F405FD1),
        (10, 0x00401005), (10, 1), (11, 0xFF801FF9), (11, 0x00200401), (11, 1)] := by decide +kernel

/-- V-Q3: the order puts the larger symbol first among equals, and a deficit of 2 goes to its first two. -/
theorem test_quantize_deficit :
    insertPair (170, 0) (insertPair (170, 1) (insertPair (170, 2) [(0, 255)])) =
        [(170, 2), (170, 1), (170, 0), (0, 255)] ∧
      ((deficitPass [2, 1, 0] 2 (Vector.replicate 256 170)).2.toList.take 3) = [170, 171, 171] := by decide +kernel

/-- As V-Q4, a surplus of 3 over three symbols: the tail at 1 is skipped, the rest give one each in turn. -/
theorem test_quantize_surplus :
    (surplusFix [2, 1, 0] 3 3 ((Vector.replicate 256 1).set 0 9 |>.set 1 2)).toList.take 3 = [7, 1, 1] := by
  decide +kernel

/-- V-T3, V-T4: records from probability and cumulative start, and the starts of V-Q3. -/
theorem test_table_records :
    encEntry 170 0 = 0x81818182080000AA ∧ encEntry 171 170 = 0x7F405FD1080AA0AB ∧ encEntry 0 512 = 0x200000 ∧
      encEntry 257 0 = 0xFE01FE0209000101 ∧ encEntry 1 511 = 0x00000001001FF001 ∧
      ([0, 1, 2].map fun s => (cumulative (probsOf [170, 171, 171])).getD s 0) = [0, 170, 341] := by decide +kernel

/-! ### The encoder and decoder steps: V-E, V-X -/

/-- V-E4 to V-E9 and V-E11: state after, emitted, and the word where one is. -/
theorem test_enc_steps :
    encStep 0x007FFFFF 0x0000000102000004 10 = ⟨0x7FFFFC03, false, 0xFFFF⟩ ∧
      encStep 0x00800000 0x0000000102000004 10 = ⟨0x00008000, true, 0⟩ ∧
      encStep 0x00008000 0x0000000100005001 9 = ⟨0x01000005, false, 0x8000⟩ ∧
      encStep 0x00400000 0x00000001001FF001 9 = ⟨0x000081FF, true, 0⟩ ∧
      encStep 0x7FFFFFFF 0x555555560200A003 11 = ⟨0x0155500B, true, 0xFFFF⟩ ∧
      encStep 0x7FFFFFFF 0x000000010B000800 11 = ⟨0x7FFFFFFF, false, 0xFFFF⟩ ∧
      encStep 0x12345678 0x0000000000007000 10 = ⟨0x0048E23B, true, 0x5678⟩ := by decide +kernel

/-- V-X2 to V-X4 and V-X6: lookup index, symbol, updated state, fed state. -/
theorem test_dec_steps :
    decSymbol 0x00000483 = 0x83 ∧ decIndex 0x0000820C 10 = 0x20C ∧ decUpdate 0x0000820C 0x00000483 10 = 0x80 ∧
      decIndex 0x4000020B 10 = 0x20B ∧ decUpdate 0x4000020B 0x00300482 10 = 0x00400003 ∧
      decUpdate 0x0000812C 0x0000012C 9 = 0x40 ∧ decFeed 0x82 0x8301 = 0x00828301 ∧
      decFeed 0x00400003 0x1234 = 0x00400003 := by decide +kernel

/-- Entry 511 of the decoder table of V-Q3, and the first entries for `probs` 2, 0, 1 (43_decoder.md R601). -/
theorem test_dec_table :
    decRecord 170 171 2 = 0x0AA0AB02 ∧
      ((fillTable [2, 0, 1] 0 0 (Vector.replicate 2048 0)).toList.take 4) =
        [0x00000200, 0x00100200, 0x00000102, 0] := by decide +kernel

/-- V-P: entries of the permutation ROMs for the mask 0b10010010. -/
theorem test_permutation_roms :
    ([0, 1, 2].map fun i => (writePermute 0b10010010).toList.getD i 0) = [1, 4, 7] ∧
      ([1, 4, 7].map fun l => (readPermute 0b10010010).toList.getD l 0) = [5, 6, 7] ∧
      (readPermute 0b00000101).toList.getD 0 0 = 6 ∧ (writePermute 0b10000000).toList.getD 0 0 = 7 := by decide +kernel

/-! ### DECODE of listed containers: V-R -/

/-- Byte `i` of the container V-S1, with the changed bytes `patch` before it. -/
def zeroContainerByte (patch : List (Nat × Byte)) (i : Nat) : Byte :=
  match patch.lookup i with
  | some b => b
  | none =>
    ([(0, 0x01), (2, 0x0D), (3, 0xD0), (4, 0x01), (9, 0x10), (16, 0x0A), (33, 0x04), (675, 0x10)] :
      List (Nat × Byte)).lookup i |>.getD (if 544 ≤ i ∧ i < 672 ∧ i % 4 = 1 then 0x80 else 0)

/-- A machine with the changed container V-S1 at 0x2000, `SRC_LEN` and `DST_CAP`. -/
def zeroContainer (patch : List (Nat × Byte)) (srcLen dstCap : U32) : State :=
  (withOperands ⟨0x2000, srcLen, 0x4000, dstCap, 0⟩).setMem (bytesAt 0x2000 690 (zeroContainerByte patch))

/-- V-R14 to V-R19. -/
theorem test_decode_header_errors :
    reportOf (exec .decode (withOperands ⟨0x2008, 688, 0x4000, 4096, 0⟩)) = some (7, 0) ∧
      reportOf (exec .decode (zeroContainer [] 31 4096)) = some (8, 0) ∧
      reportOf (exec .decode (zeroContainer [(2, 0x0E)] 688 4096)) = some (4, 0) ∧
      reportOf (exec .decode (zeroContainer [(0, 0x02)] 688 4096)) = some (5, 0) ∧
      reportOf (exec .decode (zeroContainer [] 543 4096)) = some (8, 0) ∧
      reportOf (exec .decode (zeroContainer [(16, 0x08)] 688 4096)) = some (3, 0) := by decide +kernel

/-- V-R20 to V-R22. -/
theorem test_decode_content_errors :
    reportOf (exec .decode (zeroContainer [] 688 4095)) = some (2, 0) ∧
      reportOf (exec .decode (zeroContainer [(8, 0xA0), (9, 0x0F)] 688 4096)) = some (1, 0) ∧
      reportOf (exec .decode (zeroContainer [(12, 0x01)] 688 4096)) = some (8, 0) := by decide +kernel

/-! ### The register block: V-H -/

/-- V-H5 to V-H8: write-1-to-clear, and the interrupt follows `IE`. -/
theorem test_status_and_irq :
    let s := State.reset.setRegs { Regs.reset with done := true, ie := true }
    readRegister s 0x0C = 6 ∧
      ((stateOf (hostStep (.store 0x0C .w32 1) s)).map fun t => t.regs.done) = some true ∧
      ((stateOf (hostStep (.store 0x0C .w32 2) s)).map fun t => readRegister t 0x0C) = some 0 ∧
      ((stateOf (hostStep (.store 0x08 .w32 0) s)).map fun t => readRegister t 0x0C) = some 2 := by decide +kernel

/-- V-H9, V-H10, V-H12. -/
theorem test_register_writes :
    let b := busyWith 0xA2 oneBlock
    ((stateOf (hostStep (.store 0x28 .w32 5) b)).map fun t => (t.regs.srcLen, t.regs.cmd)) = some (4096, 0xA2) ∧
      faultOf (hostStep (.store 0x10 .w16 0) State.reset) = some .mmioAccess ∧
      ((stateOf (hostStep (.store 0x08 .w32 2) (idleWith oneBlock))).map fun t => readRegister t 0x28) = some 0 := by
  decide +kernel

/-! ### Memory as listed bytes -/

/-- Bytes `f i, f (i+1), ..`, `n` of them, listed from `base + i` on. -/
def bytesFrom (f : Nat → Byte) (base : Nat) : Nat → Nat → Memory
  | 0, _ => []
  | n + 1, i => (base + i, f i) :: bytesFrom f base n (i + 1)

theorem get?_bytesFrom (f : Nat → Byte) (base : Nat) (j : Nat) :
    ∀ n i, i ≤ j → j < i + n → Memory.get? (bytesFrom f base n i) (base + j) = some (f j)
  | 0, i, h, h' => by omega
  | n + 1, i, h, h' => by
    by_cases hj : j = i
    · simp [bytesFrom, Memory.get?, hj]
    · have : ¬base + j = base + i := by omega
      simp only [bytesFrom, Memory.get?, if_neg this]
      exact get?_bytesFrom f base j n (i + 1) (by omega) (by omega)

/-- A machine with these operands and the bytes `f 0 .. f (n-1)` from `base` on. -/
def listed (o : Operands) (base n : Nat) (f : Nat → Byte) : State := (withOperands o).setMem (bytesFrom f base n 0)

theorem listed_byte (o : Operands) (base n : Nat) (f : Nat → Byte) {j : Nat} (h : j < n) :
    (listed o base n f).byteAt (base + j) = f j := by
  have := get?_bytesFrom f base j n 0 (by omega) (by omega)
  simp [State.byteAt, listed, State.setMem, this]

/-- The `n` bytes of `s` from `a` on are those of `f`. -/
def HasBytes (s : State) (a n : Nat) (f : Nat → Byte) : Prop := ∀ j, j < n → s.byteAt (a + j) = f j

theorem HasBytes.word16 {s : State} {a n : Nat} {f : Nat → Byte} (h : HasBytes s a n f) {j : Nat} (hj : j + 2 ≤ n) :
    s.word16At (a + j) = f (j + 1) ++ f j := by
  simp only [State.word16At, le16, State.readBytes, Vector.getElem_ofFn, Nat.add_assoc]
  rw [h _ (by omega), h _ (by omega)]
  rfl

theorem HasBytes.word32 {s : State} {a n : Nat} {f : Nat → Byte} (h : HasBytes s a n f) {j : Nat} (hj : j + 4 ≤ n) :
    s.word32At (a + j) = f (j + 3) ++ f (j + 2) ++ f (j + 1) ++ f j := by
  simp only [State.word32At, le32, State.readBytes, Vector.getElem_ofFn, Nat.add_assoc]
  rw [h _ (by omega), h _ (by omega), h _ (by omega), h _ (by omega)]
  rfl

theorem HasBytes.word64 {s : State} {a n : Nat} {f : Nat → Byte} (h : HasBytes s a n f) {j : Nat} (hj : j + 8 ≤ n) :
    s.word64At (a + j) =
      f (j + 7) ++ f (j + 6) ++ f (j + 5) ++ f (j + 4) ++ f (j + 3) ++ f (j + 2) ++ f (j + 1) ++ f j := by
  simp only [State.word64At, le64, State.readBytes, Vector.getElem_ofFn, Nat.add_assoc]
  rw [h _ (by omega), h _ (by omega), h _ (by omega), h _ (by omega), h _ (by omega), h _ (by omega), h _ (by omega),
    h _ (by omega)]
  rfl

/-- Byte `i` of an area whose nonzero bytes are listed. -/
def sparse (l : List (Nat × Byte)) (i : Nat) : Byte := (l.lookup i).getD 0

/-! ### Containers as listed bytes -/

/-- The bytes of `probs`, as numbers. -/
def probBytes (f : Nat → Byte) : List U16 := (List.range 256).map fun i => f (32 + 2 * i + 1) ++ f (32 + 2 * i)

theorem HasBytes.probs {s : State} {f : Nat → Byte} (h : HasBytes s s.srcBase 544 f) : s.containerProbs = probBytes f := by
  refine List.map_congr_left fun i hi => ?_
  have := List.mem_range.1 hi
  exact h.word16 (j := 32 + 2 * i) (by omega)

theorem HasBytes.probTotal {s : State} {f : Nat → Byte} (h : HasBytes s s.srcBase 544 f) :
    s.containerProbTotal = ((probBytes f).map BitVec.toNat).sum := by
  rw [← h.probs, State.containerProbTotal, State.containerProbs, List.map_map]
  rfl

theorem HasBytes.header {s : State} {f : Nat → Byte} (h : HasBytes s s.srcBase 544 f) {j : Nat} (hj : j < 8) :
    s.headerWord j = f (4 * j + 3) ++ f (4 * j + 2) ++ f (4 * j + 1) ++ f (4 * j) := h.word32 (by omega)

theorem HasBytes.mono {s : State} {a m n : Nat} {f : Nat → Byte} (h : HasBytes s a n f) (hm : m ≤ n) :
    HasBytes s a m f := fun j hj => h j (by omega)

/-- V-R28: no blocks, `probs[0]` 1024, `probBits` 10. -/
def emptyBytes : Nat → Byte := sparse [(0, 0x01), (2, 0x0D), (3, 0xD0), (16, 0x0A), (33, 0x04)]

/-- The one-block container V-S1 but for its states: all the probability at symbol 0, no payload words. -/
structure ZeroContainer (s : State) (f : Nat → Byte) : Prop where
  bytes : HasBytes s s.srcBase 688 f
  header : ∀ j < 8, f (4 * j + 3) ++ f (4 * j + 2) ++ f (4 * j + 1) ++ f (4 * j) =
    ([0xD00D0001, 1, 4096, 0, 10, 0, 0, 0] : List U32).getD j 0
  probs : probBytes f = 1024 :: List.replicate 255 0
  index0 : f 675 ++ f 674 ++ f 673 ++ f 672 = (0x10000000 : U32)
  index1 : f 679 ++ f 678 ++ f 677 ++ f 676 = (0 : U32)
  operands : s.snap.src.toNat % 32 = 0 ∧ s.srcSize = 688 ∧ s.dstSize = 4096

namespace ZeroContainer

variable {s : State} {f : Nat → Byte}

theorem word (z : ZeroContainer s f) {j : Nat} (hj : j < 8) :
    s.headerWord j = ([0xD00D0001, 1, 4096, 0, 10, 0, 0, 0] : List U32).getD j 0 :=
  ((z.bytes.mono (by omega)).header hj).trans (z.header j hj)

theorem blocks (z : ZeroContainer s f) : s.containerBlocks = 1 := by
  rw [State.containerBlocks, z.word (by omega)]; rfl

theorem probBits (z : ZeroContainer s f) : s.containerProbBits = 10 := by
  rw [State.containerProbBits, z.word (by omega)]; rfl

theorem cursor (z : ZeroContainer s f) : s.startCursor 0 = 0 := by
  have h0 : s.word32At (s.srcBase + 672) = 0x10000000 := (z.bytes.word32 (by omega)).trans z.index0
  have h1 : s.word32At (s.srcBase + 676) = 0 := (z.bytes.word32 (by omega)).trans z.index1
  rw [State.startCursor, State.indexStart, State.indexWord0, z.blocks]
  rw [show indexOffset 1 + 8 * 0 + 4 = 676 from rfl, show indexOffset 1 + 8 * 0 = 672 from rfl, h0, h1]
  rfl

theorem index (z : ZeroContainer s f) : s.indexWord0 0 = 0x10000000 := by
  rw [State.indexWord0, z.blocks]
  exact (z.bytes.word32 (j := 672) (by omega)).trans z.index0

theorem decodeError_eq_none (z : ZeroContainer s f) : decodeError s = none := by
  obtain ⟨ha, hn, hc⟩ := z.operands
  have hp : s.containerProbTotal = 1024 := by
    rw [(z.bytes.mono (by omega)).probTotal, z.probs]
    decide +kernel
  simp only [decodeError, isAligned, ha, hn, hc, hp, z.blocks, z.probBits, z.cursor, z.index, z.word (show 0 < 8 by omega),
    z.word (show 2 < 8 by omega), z.word (show 3 < 8 by omega), show List.range 1 = [0] from rfl, List.all_cons, List.all_nil]
  decide +kernel

theorem entry (z : ZeroContainer s f) {i : Nat} (hi : i < 2 ^ 10) :
    s.containerEntry i = decRecord (BitVec.ofNat 12 i) 1024 0 := by
  rw [State.containerEntry, (z.bytes.mono (by omega)).probs, z.probs, fillTable, fillTable_zeros, fillSymbol_getD]
  rw [if_pos ⟨Nat.zero_le _, by simpa using hi, by omega⟩]
  rfl

end ZeroContainer

/-- V-S1 at 0x2000. -/
def zeroAt : State := listed ⟨0x2000, 688, 0x10000, 4096, 0⟩ 0x2000 688 (zeroContainerByte [])

theorem zeroAt_zero : ZeroContainer zeroAt (zeroContainerByte []) where
  bytes := fun _ => listed_byte _ _ _ _
  header := by decide +kernel
  probs := by decide +kernel
  index0 := by decide +kernel
  index1 := by decide +kernel
  operands := by decide +kernel

theorem zeroAt_states (l : Fin 32) : (zeroAt.storedStates 0).get l = 0x8000 := by
  rw [State.storedStates, get_ofFn]
  refine (zeroAt_zero.bytes.word32 (by simp only [stateOffset]; omega)).trans ?_
  revert l
  decide +kernel

/-- V-S1 makes no payload load. -/
theorem zeroAt_held : loadsHeld zeroAt = true := by
  have hl : (zeroAt.decodedBlock 0).loads = [] := by
    refine loads_scalarDecodeWarps_of_fixed 128 (fun l => ?_) fun l => ?_
    · simp only [zeroAt_states]; decide
    · simp only [zeroAt_states, zeroAt_zero.probBits]
      rw [zeroAt_zero.entry (by decide)]
      decide
  rw [loadsHeld, zeroAt_zero.blocks]
  simp [hl]

/-- V-S1 with all states 0 and 256 bytes of 0 before it: its lanes ask for words below `SRC`. -/
def overBytes (i : Nat) : Byte :=
  if i < 256 then 0
  else sparse [(0, 0x01), (2, 0x0D), (3, 0xD0), (4, 0x01), (9, 0x10), (16, 0x0A), (33, 0x04), (675, 0x10)] (i - 256)

/-- The container at 0x2100. -/
def overAt : State := listed ⟨0x2100, 688, 0x10000, 4096, 0⟩ 0x2000 944 overBytes

theorem overAt_zero : ZeroContainer overAt fun i => overBytes (256 + i) where
  bytes := fun j hj => by
    have := listed_byte ⟨0x2100, 688, 0x10000, 4096, 0⟩ 0x2000 944 overBytes (j := 256 + j) (by omega)
    rw [← Nat.add_assoc] at this
    exact this
  header := by decide +kernel
  probs := by decide +kernel
  index0 := by decide +kernel
  index1 := by decide +kernel
  operands := by decide +kernel

theorem overAt_states : overAt.storedStates 0 = Vector.replicate 32 0 := by
  refine Vector.ext fun l hl => ?_
  rw [State.storedStates, Vector.getElem_ofFn, Vector.getElem_replicate]
  refine (overAt_zero.bytes.word32 (by simp only [stateOffset]; omega)).trans ?_
  have : ∀ l : Fin 32, overBytes (256 + (stateOffset 0 l.val + 3)) ++ overBytes (256 + (stateOffset 0 l.val + 2)) ++
      overBytes (256 + (stateOffset 0 l.val + 1)) ++ overBytes (256 + stateOffset 0 l.val) = (0 : U32) := by decide +kernel
  exact this ⟨l, hl⟩

/-- Payload word `j` of `overAt`. -/
def overWord (j : Int) : U16 := overBytes ((944 + 2 * j).toNat + 1) ++ overBytes (944 + 2 * j).toNat

theorem overAt_word {j : Int} (h : -472 ≤ j) (h' : j < 0) : overAt.payloadWord j = overWord j := by
  have hb : HasBytes overAt 0x2000 944 overBytes := fun _ => listed_byte _ _ _ _
  have ha : ((overAt.srcBase + payloadOffset overAt.containerBlocks : Nat) + 2 * j : Int).toNat =
      0x2000 + (944 + 2 * j).toNat := by
    rw [overAt_zero.blocks]
    have : overAt.srcBase + payloadOffset 1 = 0x2000 + 944 := rfl
    omega
  rw [State.payloadWord, ha]
  exact hb.word16 (by omega)

/-- Where `overAt`'s block stands after its first 12 warps. -/
def overSweep : ScalarDecode :=
  scalarDecodeWarps (fun i => decRecord (BitVec.ofNat 12 i) 1024 0) overWord 10 12 ⟨Vector.replicate 32 0, 0, [], []⟩

theorem overSweep_load : (-472 : Int) ≤ overSweep.cur ∧ overSweep.loads.any fun c => decide (688 + 2 * (c - 8) < 0) := by
  decide +kernel

/-- `overAt` makes a payload load below `SRC`. -/
theorem overAt_overreads : loadsHeld overAt = false := by
  obtain ⟨hc, hl⟩ := overSweep_load
  obtain ⟨c, hm, hneg⟩ := List.any_eq_true.1 hl
  have hs : scalarDecodeWarps overAt.containerEntry overAt.payloadWord 10 12 ⟨Vector.replicate 32 0, 0, [], []⟩ =
      overSweep :=
    scalarDecodeWarps_congr 12 (by omega) (fun i hi => overAt_zero.entry hi) fun j h1 h2 =>
      overAt_word (Int.le_trans hc h1) h2
  have hmem : c ∈ (overAt.decodedBlock 0).loads := by
    rw [State.decodedBlock, overAt_zero.probBits, overAt_zero.cursor, overAt_states, scalarDecodeBlock,
      show Config.warps = 12 + 116 from rfl, scalarDecodeWarps_add]
    refine mem_loads_scalarDecodeWarps _ _ _ _ ?_
    rw [Int.natCast_zero, hs]
    exact hm
  have hneg' : ¬(0 ≤ (payloadOffset 1 : Int) + 2 * (c - 8)) := by
    have := of_decide_eq_true hneg
    have : (payloadOffset 1 : Int) = 688 := rfl
    omega
  rw [loadsHeld, overAt_zero.blocks]
  simp only [List.all_eq_false, List.mem_range]
  exact ⟨0, by omega, by simp only [List.all_eq_true, decide_eq_true_eq]; exact fun h => hneg' (h c hmem)⟩

/-! ### A source and a table image as listed bytes -/

/-- The image of V-T1: record 0 has all the probability, the others `cdf` 1024 only. -/
def zeroTableBytes (i : Nat) : Byte :=
  sparse [(1, 0x04), (3, 0x0A), (4, 0x01)] i ||| (if 8 ≤ i ∧ i % 8 = 2 then 0x40 else 0)

/-- One block of the byte `b` at 0x1000, the image of V-T1 at 0x2000, a destination at 0x4000. -/
def sameBytes (b : Byte) (dstCap : U32) : State :=
  listed ⟨0x1000, 4096, 0x4000, dstCap, 0x2000⟩ 0x1000 6144 fun i => if i < 4096 then b else zeroTableBytes (i - 4096)

theorem sameBytes_blocks (b : Byte) (dstCap : U32) : blocksOf (sameBytes b dstCap) = 1 := by
  show (4096#32).toNat / 4096 = 1
  decide

theorem sameBytes_source (b : Byte) (dstCap : U32) {j : Nat} (hj : j < 4096) :
    (sameBytes b dstCap).byteAt (0x1000 + j) = b := by
  rw [sameBytes, listed_byte _ _ _ _ (by omega), if_pos hj]

theorem sameBytes_block (b : Byte) (dstCap : U32) : ∀ c ∈ (sameBytes b dstCap).sourceBlock 0, c = b := by
  intro c hc
  obtain ⟨i, hi, rfl⟩ := List.getElem_of_mem hc
  have hi' : i < 4096 := by simpa using hi
  have hs : (sameBytes b dstCap).srcBase + Config.blockBytes * 0 = 0x1000 := rfl
  simp only [State.sourceBlock, hs, Vector.getElem_toList, State.getElem_readBytes]
  exact sameBytes_source b dstCap hi'

theorem sameBytes_count (b : Byte) (dstCap : U32) (c : Nat) :
    (sameBytes b dstCap).sourceCount c = if b.toNat = c then 4096 else 0 := by
  have hs : (sameBytes b dstCap).srcSize = 4096 := rfl
  have hb : (sameBytes b dstCap).srcBase = 0x1000 := rfl
  have hc : ∀ i ∈ List.range 4096, decide (((sameBytes b dstCap).byteAt (0x1000 + i)).toNat = c) = decide (b.toNat = c) :=
    fun i hi => by rw [sameBytes_source b dstCap (List.mem_range.1 hi)]
  rw [State.sourceCount, hs, hb]
  split
  · next h =>
    rw [List.countP_eq_length.2 fun i hi => (hc i hi).trans (decide_eq_true h), List.length_range]
  · next h =>
    exact List.countP_eq_zero.2 fun i hi => by rw [hc i hi]; simpa using h

theorem sameBytes_image (b : Byte) (dstCap : U32) :
    (sameBytes b dstCap).imageTable = Vector.ofFn fun i : Fin 256 =>
      zeroTableBytes (8 * i.val + 7) ++ zeroTableBytes (8 * i.val + 6) ++ zeroTableBytes (8 * i.val + 5) ++
        zeroTableBytes (8 * i.val + 4) ++ zeroTableBytes (8 * i.val + 3) ++ zeroTableBytes (8 * i.val + 2) ++
        zeroTableBytes (8 * i.val + 1) ++ zeroTableBytes (8 * i.val) := by
  have hb : HasBytes (sameBytes b dstCap) 0x2000 2048 zeroTableBytes := fun j hj => by
    have := listed_byte ⟨0x1000, 4096, 0x4000, dstCap, 0x2000⟩ 0x1000 6144
      (fun i => if i < 4096 then b else zeroTableBytes (i - 4096)) (j := 4096 + j) (by omega)
    rw [← Nat.add_assoc, if_neg (by omega), Nat.add_sub_cancel_left] at this
    exact this
  refine congrArg Vector.ofFn (funext fun i => ?_)
  exact hb.word64 (by omega)

/-- Record 0 of V-T1, and the others. -/
theorem sameBytes_records (b : Byte) (dstCap : U32) :
    (sameBytes b dstCap).imageTable.get 0 = 0x000000010A000400 ∧ (sameBytes b dstCap).imageTable.get 1 = 0x400000 ∧
      tablePdfTotal (sameBytes b dstCap).imageTable = 1024 := by
  rw [sameBytes_image]
  decide +kernel

/-- The statistics of 4096 zero bytes (41_statistics.md R480): record 0 of V-T1. -/
theorem sameBytes_table (dstCap : U32) : ((sameBytes 0 dstCap).sourceTable 10).get 0 = 0x000000010A000400 := by
  have hh : (sameBytes 0 dstCap).sourceHistogram = Vector.ofFn fun s : Fin 256 => if s.val = 0 then 4096 else 0 := by
    refine congrArg Vector.ofFn (funext fun s => ?_)
    rw [sameBytes_count]
    by_cases h : s.val = 0
    · rw [h]; rfl
    · have : ¬(0 : Byte).toNat = s.val := fun e => h e.symm
      rw [if_neg this, if_neg h]
      rfl
  rw [State.sourceTable, hh]
  decide +kernel

/-- A symbol with V-T1's record 0 keeps the initial state and emits nothing; one of probability 0 emits at every
state. -/
theorem zeroTable_steps :
    (encStep Config.minState 0x000000010A000400 10).state = Config.minState ∧
      (encStep Config.minState 0x000000010A000400 10).emitted = false ∧
      ∀ x, (encStep x 0x400000 10).emitted = true := by
  refine ⟨by decide, by decide, fun x => ?_⟩
  have : emitThreshold 0x400000 10 ≤ x := by
    rw [show emitThreshold 0x400000 10 = 0 from by decide]
    exact Nat.zero_le _
  exact decide_eq_true this

/-- 4096 zero bytes fit into `DST_CAP` 7168 with record 0 of V-T1, with no payload words (V-S1). -/
theorem zeros_fit {enc : Vector U64 256} (h : enc.get 0 = 0x000000010A000400) :
    encodeFits 10 enc (sameBytes 0 7168) = true ∧ (sameBytes 0 7168).payloadWords enc 10 = 0 := by
  have hw : ∀ block : List Byte, (∀ c ∈ block, c = 0) → scalarEncodeWords enc 10 block = [] := fun block hb =>
    scalarEncodeWords_of_fixed fun c hc => by
      have : enc.get (symIdx c) = 0x000000010A000400 := by rw [hb c hc]; exact h
      rw [this]
      exact ⟨zeroTable_steps.1, zeroTable_steps.2.1⟩
  have hb := sameBytes_block 0 7168
  constructor
  · have hl : (sameBytes 0 7168).lastStoreCursor enc 10 = 0 := by
      rw [State.lastStoreCursor, sameBytes_blocks, hw _ fun c hc => hb c (List.mem_of_mem_take hc)]
      rfl
    rw [encodeFits, hl, sameBytes_blocks]
    decide
  · rw [State.payloadWords, sameBytes_blocks]
    simp only [show List.range 1 = [0] from rfl, List.map_cons, List.map_nil, State.blockWords, hw _ hb]
    rfl

/-- The checks of the encode commands on one block of equal bytes. -/
theorem sameBytes_checks (b : Byte) {cap : U32} (hc : cap ∈ [(7168 : U32), 8896]) :
    (grantOf (.encode 10) (sameBytes b cap).snap).fault? = none ∧
      (grantOf (.encodeT 10) (sameBytes b cap).snap).fault? = none ∧ encodeError 10 (sameBytes b cap) = none ∧
      buildTableReady 10 (sameBytes b cap) = true ∧ encodeTError 10 (sameBytes b cap) = none ∧
      encodeTError 9 (sameBytes b cap) = some .badTable := by
  have ht := (sameBytes_records b cap).2.2
  have hs : (sameBytes b cap).snap = ⟨0x1000, 4096, 0x4000, cap, 0x2000⟩ := rfl
  have h1 : (sameBytes b cap).srcSize = 4096 := rfl
  have h2 : (sameBytes b cap).dstSize = cap.toNat := rfl
  simp only [buildTableReady, encodeError, encodeTError, buildTableError, ht, hs, h1, h2]
  clear ht hs h1 h2
  rcases List.mem_pair.1 hc with rfl | rfl <;> decide +kernel

theorem zeros_ready :
    encodeReady 10 (sameBytes 0 7168) = true ∧ encodeTReady 10 (sameBytes 0 7168) = true ∧
      buildTableReady 10 (sameBytes 0 7168) = true := by
  obtain ⟨h1, h2, h3, h4, h5, -⟩ := sameBytes_checks 0 (cap := 7168) (by decide)
  have f1 := (zeros_fit (sameBytes_table 7168)).1
  have f2 := (zeros_fit (sameBytes_records 0 7168).1).1
  refine ⟨?_, ?_, h4⟩
  · rw [encodeReady, Bool.and_eq_true, Bool.and_eq_true, decide_eq_true_eq, decide_eq_true_eq]
    exact ⟨⟨h1, h3⟩, f1⟩
  · rw [encodeTReady, Bool.and_eq_true, Bool.and_eq_true, decide_eq_true_eq, decide_eq_true_eq]
    exact ⟨⟨h2, h5⟩, f2⟩

/-- With V-T1's table every step of a block of the byte 1 emits, and the container does not fit into `DST_CAP` 7168. -/
theorem ones_overrun : encodeFits 10 (sameBytes 1 7168).imageTable (sameBytes 1 7168) = false := by
  have hw : (scalarEncodeWords (sameBytes 1 7168).imageTable 10 (((sameBytes 1 7168).sourceBlock 0).take 4088)).length =
      4088 := by
    rw [length_scalarEncodeWords_of_emits fun c hc x => ?_, List.length_take, State.length_sourceBlock]
    · rfl
    · have : (sameBytes 1 7168).imageTable.get (symIdx c) = 0x400000 := by
        rw [sameBytes_block 1 7168 c (List.mem_of_mem_take hc)]
        exact (sameBytes_records 1 7168).2.1
      rw [this]
      exact zeroTable_steps.2.2 x
  have hl : (sameBytes 1 7168).lastStoreCursor (sameBytes 1 7168).imageTable 10 = 4088 := by
    rw [State.lastStoreCursor, sameBytes_blocks, Nat.sub_self, hw]
    rfl
  rw [encodeFits, hl, sameBytes_blocks]
  decide

/-! ### Witnesses: each meets the hypotheses of the statement it names -/

theorem witness_CommandWordsRoundTrip :
    ([.nop, .buildTable 0, .buildTable 15, .encode 0, .encode 15, .encodeT 0, .encodeT 15, .decode] : List Instr).all
      Instr.wellFormed = true := by decide

theorem witness_OpcodeRowsSelect :
    rowNop.selects 0x1F0 = true ∧ rowBuildTable.selects 0x1F1 = true ∧ rowEncode.selects 0xF2 = true ∧
      rowEncodeT.selects 0x1F2 = true ∧ rowDecode.selects 0x1F3 = true ∧
      ∀ r ∈ opcodeMap, r.selects 0x10002 = false := by decide

theorem witness_DecodedWordsReencode :
    decodeTableWord 32 0x1F0 = some .nop ∧ decodeTableWord 32 0x1F1 = some (.buildTable 15) ∧
      decodeTableWord 32 0xF2 = some (.encode 15) ∧ decodeTableWord 32 0x1F2 = some (.encodeT 15) ∧
      decodeTableWord 32 0x1F3 = some .decode := by decide

theorem witness_IllegalWordsComplete :
    ((busyWith 0x4 oneBlock).regs.busy = true ∧ 4 ≤ (opField (busyWith 0x4 oneBlock).regs.cmd).toNat ∧
        (busyWith 0x4 oneBlock).inbox = []) ∧
      (let s := (busyWith 0x200 oneBlock).setInbox [.core]
       s.regs.busy = true ∧ reservedField s.regs.cmd ≠ 0 ∧ s.inbox = .core :: []) ∧
      ((opField 0x1F3).toNat < 4 ∧ reservedField 0x1F3 = 0) := by decide

theorem witness_StepRunsIssuedCommand :
    (let s := busyWith 0xA2 oneBlock
     s.regs.busy = true ∧ decodeTableWord 32 s.regs.cmd.toNat = some (.encode 10) ∧ s.inbox = []) ∧
      (let s := (busyWith 3 oneBlock).setInbox [.core]
       s.regs.busy = true ∧ decodeTableWord 32 s.regs.cmd.toNat = some .decode ∧ s.inbox = .core :: []) ∧
      decodeTableWord 32 0x1B2 = some (.encodeT 11) := by decide

theorem witness_IdleCoreWaits :
    (State.reset.regs.busy = false ∧ State.reset.inbox = []) ∧
      (let s := State.reset.setInbox [.core, .core]
       s.regs.busy = false ∧ s.inbox = .core :: [.core]) ∧
      (State.reset.setInbox [.host .powerOn]).inbox = .host .powerOn :: [] := by decide

/-- A busy machine is sound and its step gives a next state; so for the host's issue of that command, and for an instance
that starts beside another one. -/
theorem witness_StepKeepsSound :
    ((busyWith 0x82 oneBlock).sound = true ∧ reportOf (step (busyWith 0x82 oneBlock)) = some (3, 0)) ∧
      (let s := (idleWith oneBlock).setInbox [.host (.store 0x10 .w32 0xA2)]
       s.sound = true ∧ reportOf (step s) = some (0, 0)) ∧
      (let s := (State.reset.setPeers [⟨[⟨0, 64⟩], [⟨64, 64⟩]⟩]).setInbox [.host (.peerIssue ⟨[⟨0, 64⟩], [⟨128, 64⟩]⟩)]
       s.sound = true ∧ reportOf (step s) = some (0, 0)) := by decide +kernel

theorem witness_IssueLatchesCommand :
    let s := (idleWith oneBlock).setPeers [⟨[⟨0x1000, 4096⟩], [⟨0x20000, 64⟩]⟩]
    s.regs.busy = false ∧ (grantOfWord 0xA2 s.regs.operands).fault? = none ∧
      s.peers.any (grantOfWord 0xA2 s.regs.operands).races = false := by decide +kernel

/-- A window one byte too long, windows that share one byte, and windows that just touch and just end at `2^64`. -/
theorem witness_WindowChecksFault :
    (∃ w ∈ (grantOf (.encode 10) ⟨0xFFFFFFFFFFFFFFFF, 2, 0, 0, 0⟩).reads, 2 ^ 64 < w.base + w.len) ∧
      (∃ r ∈ (grantOf .decode ⟨0x1000, 65, 0x1040, 32, 0⟩).reads,
        ∃ w ∈ (grantOf .decode ⟨0x1000, 65, 0x1040, 32, 0⟩).writes, r.hasByte 0x1040 = true ∧ w.hasByte 0x1040 = true) ∧
      (grantOf .decode ⟨0x1000, 65, 0x1040, 32, 0⟩).wraps = false ∧
      (grantOf .decode ⟨0x1000, 64, 0x1040, 32, 0⟩).fault? = none ∧
      (grantOf .decode ⟨0xFFFFFFFFFFFFFFFF, 1, 0, 0, 0⟩).fault? = none ∧
      (idleWith ⟨0x1000, 65, 0x1040, 32, 0⟩).regs.busy = false ∧
      (idleWith ⟨0x1000, 65, 0x1040, 32, 0⟩).regs.operands = ⟨0x1000, 65, 0x1040, 32, 0⟩ ∧
      decodeTableWord 32 3 = some .decode := by decide +kernel

theorem witness_CompletionWritesStatus : ∃ t, exec .nop (busyWith 0 oneBlock) = .next t := ⟨_, rfl⟩

theorem witness_ErrorsLeaveMemory :
    reportOf (exec (.encode 8) (withOperands oneBlock)) = some (3, 0) ∧
      ∃ t, execIllegal (busyWith 4 oneBlock) = .next t := ⟨by decide +kernel, _, rfl⟩

/-- A command that completes, and the bytes just outside its write window. -/
theorem witness_CommandsStayInWindows :
    (reportOf (exec (.encode 8) (withOperands oneBlock))).isSome = true ∧
      ∀ w ∈ (grantOf (.encode 8) oneBlock).writes,
        (0x3FFF < w.base ∨ w.base + w.len ≤ 0x3FFF) ∧ (0x7000 < w.base ∨ w.base + w.len ≤ 0x7000) := by decide +kernel

theorem witness_NopCompletes :
    opField 0x1F0 = 0 ∧ reservedField 0x1F0 = 0 ∧ opField 0x200 = 0 ∧ reservedField 0x200 ≠ 0 := by decide

theorem witness_HistogramCountsSource :
    oneBlock.srcWindow ∈ (grantOf (.encodeT 10) oneBlock).reads ∧
      oneBlock.srcWindow ∈ (grantOf (.buildTable 10) oneBlock).reads := by decide

theorem witness_QuantizedProbsSum :
    (isProbBits 9 = true ∧ isProbBits 11 = true) ∧ 0 < histTotal (histOf [1365, 1365, 1366]) ∧
      0 < ((histOf [1365, 1365, 1366]).getD 2 0).toNat ∧ ((histOf [1365, 1365, 1366]).getD 3 0).toNat = 0 := by
  decide +kernel

/-- A deficit, a surplus and neither. -/
theorem witness_QuantizerFollowsLoops :
    isProbBits 9 = true ∧
      (0 < histTotal (histOf [1365, 1365, 1366]) ∧ probTotal (roundedLive (histOf [1365, 1365, 1366]) 9) < 512) ∧
      (0 < histTotal (histOf (3841 :: List.replicate 255 1)) ∧
        512 < probTotal (roundedLive (histOf (3841 :: List.replicate 255 1)) 9)) ∧
      (0 < histTotal (histOf [4096]) ∧ probTotal (roundedLive (histOf [4096]) 9) = 512) := by decide +kernel

theorem witness_DivisionPairRange : (1 ≤ 1 ∧ 1 ≤ 2048) ∧ (1 ≤ 2048 ∧ 2048 ≤ 2048) := by decide

theorem witness_DivideIdentity :
    (1 ≤ 1 ∧ 1 ≤ 2048 ∧ (0#32).toNat < 2 ^ 31) ∧ (1 ≤ 2048 ∧ 2048 ≤ 2048 ∧ (0x7FFFFFFF#32).toNat < 2 ^ 31) := by decide

/-- A live and a dead symbol, sums 512 and 2048. -/
theorem witness_EncoderTableRecords :
    ((probsOf [170, 171, 171]).toList.map BitVec.toNat).sum ≤ 2048 ∧ ((probsOf [2048]).toList.map BitVec.toNat).sum ≤ 2048 ∧
      0 < ((probsOf [2048]).getD 0 0).toNat ∧ ((probsOf [2048]).getD 1 0).toNat = 0 := by decide +kernel

theorem witness_BuildTableCompletes :
    buildTableReady 9 (withOperands oneBlock) = true ∧ buildTableReady 11 (withOperands oneBlock) = true := by
  decide +kernel

theorem witness_BuildTableChecksInOrder :
    (grantOf (.buildTable 7) { oneBlock with tbl := 0x10004, srcLen := 0 }).fault? = none ∧
      buildTableError 7 (withOperands { oneBlock with tbl := 0x10004, srcLen := 0 }) = some .misaligned ∧
      buildTableError 7 (withOperands { oneBlock with srcLen := 0 }) = some .partialBlock ∧
      buildTableError 7 (withOperands oneBlock) = some .unsupportedProbBits := by decide +kernel

theorem witness_EncodeChecksInOrder :
    (grantOf (.encode 8) { oneBlock with dst := 0x4010, dstCap := 7167 }).fault? = none ∧
      encodeError 8 (withOperands { oneBlock with dst := 0x4010, dstCap := 7167 }) = some .misaligned ∧
      encodeError 8 (withOperands { oneBlock with srcLen := 4095, dstCap := 7166 }) = some .partialBlock ∧
      encodeError 8 (withOperands { oneBlock with dstCap := 7167 }) = some .dstCapacityTooSmall ∧
      encodeError 12 (withOperands { oneBlock with dstCap := 7168 }) = some .unsupportedProbBits := by decide +kernel

theorem witness_EncodeTChecksInOrder :
    (grantOf (.encodeT 8) { oneBlock with tbl := 0x10004 }).fault? = none ∧
      encodeTError 8 (withOperands { oneBlock with tbl := 0x10004 }) = some .misaligned ∧
      encodeTError 8 (withOperands { oneBlock with dstCap := 7167 }) = some .dstCapacityTooSmall ∧
      encodeTError 8 (withOperands oneBlock) = some .unsupportedProbBits := by decide +kernel

/-- A table, a live symbol, and the two ends of the state range: for `OneEmitSuffices` and `LaneInversion`, at a symbol
with all the probability and at one with `1`. -/
theorem witness_OneEmitSuffices :
    isProbBits 11 = true ∧ ((probsOf [2047, 1]).toList.map BitVec.toNat).sum = 2 ^ 11 ∧
      0 < ((probsOf [2047, 1]).getD 1 0).toNat ∧ ((probsOf [2048]).toList.map BitVec.toNat).sum = 2 ^ 11 ∧
      ((probsOf [2048]).getD 0 0).toNat = 2 ^ 11 ∧ Config.minState ≤ 0x8000#32 ∧ (0x8000#32).toNat < 2 ^ 31 ∧
      Config.minState ≤ 0x7FFFFFFF#32 ∧ (0x7FFFFFFF#32).toNat < 2 ^ 31 := by decide +kernel

theorem witness_LaneInversion :
    isProbBits 11 = true ∧ ((probsOf [2047, 1]).toList.map BitVec.toNat).sum = 2 ^ 11 ∧
      0 < ((probsOf [2047, 1]).getD 1 0).toNat ∧ Config.minState ≤ 0x7FFFFFFF#32 ∧ (0x7FFFFFFF#32).toNat < 2 ^ 31 := by
  decide +kernel

theorem witness_StatesStayInRange :
    isProbBits 11 = true ∧ ((probsOf [2047, 1]).toList.map BitVec.toNat).sum = 2 ^ 11 ∧
      (∀ s ∈ ([0, 1, 1] : List (Fin 256)), 0 < ((probsOf [2047, 1]).get s).toNat) ∧ Config.minState ≤ 0x8000#32 ∧
      (0x8000#32).toNat < 2 ^ 31 := by decide +kernel

theorem witness_GroupStepIsScalar :
    (encStep 0x00800000 0x0000000102000004 10).emitted = true ∧ (encStep 0x007FFFFF 0x0000000102000004 10).emitted = false := by
  decide +kernel

/-- The bound of 70_reset_and_hazards.md R1014 on any source, and `DST_CAP` 7168, all that the check asks, on zeros. -/
theorem witness_EncodeCompletes :
    encodeReady 9 (withOperands { oneBlock with dstCap := 8896 }) = true ∧ encodeReady 10 (sameBytes 0 7168) = true := by
  refine ⟨encodeReady_of_amplyCapable ?_ ?_ ?_ ?_, zeros_ready.1⟩ <;> decide +kernel

theorem witness_EncodeTCompletes : encodeTReady 10 (sameBytes 0 7168) = true := zeros_ready.2.1

theorem witness_EncodeWritesScalarBlocks :
    encodeReady 10 (sameBytes 0 7168) = true ∧ encodeTReady 10 (sameBytes 0 7168) = true :=
  ⟨zeros_ready.1, zeros_ready.2.1⟩

/-- Stores that fit, for both commands, a store that does not, and the ample capacity. -/
theorem witness_EncodeOverrunsExactly :
    (∀ cap ∈ [(7168 : U32), 8896], ∀ b : Byte, (grantOf (.encode 10) (sameBytes b cap).snap).fault? = none ∧
      (grantOf (.encodeT 10) (sameBytes b cap).snap).fault? = none ∧ encodeError 10 (sameBytes b cap) = none ∧
      encodeTError 10 (sameBytes b cap) = none) ∧
      encodeFits 10 ((sameBytes 0 7168).sourceTable 10) (sameBytes 0 7168) = true ∧
      encodeFits 10 (sameBytes 0 7168).imageTable (sameBytes 0 7168) = true ∧
      encodeFits 10 (sameBytes 1 7168).imageTable (sameBytes 1 7168) = false ∧
      amplyCapable (sameBytes 1 8896) = true := by
  refine ⟨fun cap hc b => ?_, (zeros_fit (sameBytes_table 7168)).1, (zeros_fit (sameBytes_records 0 7168).1).1,
    ones_overrun, ?_⟩
  · obtain ⟨h1, h2, h3, -, h4, -⟩ := sameBytes_checks b hc
    exact ⟨h1, h2, h3, h4⟩
  · rw [amplyCapable, sameBytes_blocks]
    decide

/-- V-R9: the same image with `PB` 9. -/
theorem witness_EncodeTChecksInOrder_sum : encodeTError 9 (sameBytes 0 7168) = some .badTable :=
  (sameBytes_checks 0 (by decide)).2.2.2.2.2

theorem witness_ForeignTableCaught :
    buildTableReady 11 (withOperands oneBlock) = true ∧ encodeError 10 (withOperands oneBlock) = none ∧
      (grantOf (.encodeT 10) oneBlock).fault? = none := by decide +kernel

theorem witness_EncodeTMatchesEncode :
    buildTableReady 10 (sameBytes 0 7168) = true ∧ encodeReady 10 (sameBytes 0 7168) = true ∧
      (grantOf (.encodeT 10) (sameBytes 0 7168).snap).fault? = none :=
  ⟨zeros_ready.2.2, zeros_ready.1, (sameBytes_checks 0 (by decide)).2.1⟩

theorem witness_DecodeChecksInOrder :
    (grantOf .decode (zeroContainer [(2, 0x0E)] 688 4096).snap).fault? = none ∧
      decodeError (withOperands ⟨0x2008, 688, 0x4000, 4096, 0⟩) = some .misaligned ∧
      decodeError (zeroContainer [] 31 4096) = some .truncated ∧
      decodeError (zeroContainer [(2, 0x0E)] 688 4096) = some .badMagic ∧
      decodeError (zeroContainer [] 543 4096) = some .truncated ∧
      decodeError (zeroContainer [] 688 4095) = some .dstCapacityTooSmall ∧
      decodeError (zeroContainer [(674, 0xA0), (675, 0x0F)] 688 4096) = some .partialBlock ∧
      decodeError (zeroContainer [(12, 1), (672, 1), (676, 1)] 690 4096) = some .corruptIndex := by decide +kernel

/-- `probs` 511 and 1 at the ends of the alphabet: symbol 255 has the last entry, slot 0. -/
theorem witness_DecoderTableComplete :
    let probs : List U16 := 511 :: List.replicate 254 0 ++ [1]
    isProbBits 9 = true ∧ probs.length = 256 ∧ probsTotal probs = 2 ^ 9 ∧ probs[255]? = some 1 ∧ 510 < (511#16).toNat ∧
      511 < 2 ^ 9 := by decide +kernel

theorem witness_DecodeStepIsScalar : isProbBits 9 = true ∧ isProbBits 10 = true ∧ isProbBits 11 = true := by decide

theorem witness_DecodeCompletes_empty : decodeReady (listed ⟨0x2000, 544, 0x10000, 0, 0⟩ 0x2000 544 emptyBytes) = true := by
  have hb : HasBytes (listed ⟨0x2000, 544, 0x10000, 0, 0⟩ 0x2000 544 emptyBytes) 0x2000 544 emptyBytes :=
    fun _ => listed_byte _ _ _ _
  have h0 := hb.header (j := 0) (by omega)
  have h1 := hb.header (j := 1) (by omega)
  have h2 := hb.header (j := 2) (by omega)
  have h3 := hb.header (j := 3) (by omega)
  have h4 := hb.header (j := 4) (by omega)
  have hp := hb.probTotal
  simp only [decodeReady, decodeError, loadsHeld, State.containerBlocks, State.containerProbBits, h0, h1, h2, h3, h4, hp]
  decide +kernel

/-- V-S1: 688 bytes, all of `DST_CAP` needed. -/
theorem witness_DecodeCompletes_block : decodeReady zeroAt = true := by
  rw [decodeReady, zeroAt_zero.decodeError_eq_none, zeroAt_held]
  decide +kernel

/-- A container whose lanes ask for words below `SRC`, and one whose do not. -/
theorem witness_DecodeOverreadsExactly :
    ((grantOf .decode overAt.snap).fault? = none ∧ decodeError overAt = none ∧ loadsHeld overAt = false) ∧
      ((grantOf .decode zeroAt.snap).fault? = none ∧ decodeError zeroAt = none ∧ loadsHeld zeroAt = true) :=
  ⟨⟨by decide +kernel, overAt_zero.decodeError_eq_none, overAt_overreads⟩,
    by decide +kernel, zeroAt_zero.decodeError_eq_none, zeroAt_held⟩

/-- A container of 688 bytes, `srcLen` exactly that and as large as can be, and destinations above and below it. -/
theorem witness_MachineRoundTrip :
    encodeReady 10 (sameBytes 0 7168) = true ∧ encodeTReady 10 (sameBytes 0 7168) = true ∧
      buildTableReady 10 (sameBytes 0 7168) = true ∧ (grantOf (.encodeT 10) (sameBytes 0 7168).snap).fault? = none ∧
      payloadOffset 1 + 2 * (sameBytes 0 7168).payloadWords ((sameBytes 0 7168).sourceTable 10) 10 ≤ (688#32).toNat ∧
      payloadOffset 1 + 2 * (sameBytes 0 7168).payloadWords (sameBytes 0 7168).imageTable 10 ≤ (688#32).toNat ∧
      (sameBytes 0 7168).srcSize ≤ (4096#32).toNat ∧ (0x200000000#64).toNat + (4096#32).toNat ≤ 2 ^ 64 ∧
      (sameBytes 0 7168).dstBase + (0xFFFFFFFF#32).toNat ≤ (0x200000000#64).toNat ∧
      (0x3000#64).toNat + (4096#32).toNat ≤ (sameBytes 0 7168).dstBase := by
  refine ⟨zeros_ready.1, zeros_ready.2.1, zeros_ready.2.2, (sameBytes_checks 0 (by decide)).2.1, ?_, ?_, ?_⟩
  · rw [(zeros_fit (sameBytes_table 7168)).2]
    decide
  · rw [(zeros_fit (sameBytes_records 0 7168).1).2]
    decide
  · decide +kernel

/-- A read one byte past the window, a store of 16 bytes one byte past it, and a read below address 0. -/
theorem witness_AccessesOutsideWindowsFault :
    let g : Grant := ⟨[⟨0x1000, 16⟩], [⟨0x2000, 16⟩]⟩
    (¬∃ w ∈ g.reads, (w.base : Int) ≤ 0x1001 ∧ (0x1001 : Int) + 16 ≤ w.base + w.len) ∧
      (¬∃ w ∈ g.reads, (w.base : Int) ≤ -2 ∧ (-2 : Int) + 16 ≤ w.base + w.len) ∧
      (¬∃ w ∈ g.writes, (w.base : Int) ≤ 0x2001 ∧ (0x2001 : Int) + 16 ≤ w.base + w.len) := by decide

theorem witness_BroadcastMatchesGather : ∀ j : Fin 8, ((#v[0, 1, 7, 8, 9, 14, 15, 15] : Vec).get j).toNat < 16 := by
  decide +kernel

/-- V-P: lanes 1, 4 and 7 of `[10, 11, .., 17]` packed by the mask 0b10010010, at the end of the eight words. -/
theorem witness_PermutesInvert :
    (∀ i : Fin 8, i.val < popcount 0b10010010 →
      (#v[0, 0, 0, 0, 0, 11, 14, 17] : Half).toList[8 - popcount 0b10010010 + i.val]? =
        some ((pack32to16 (permute8x32 #v[10, 11, 12, 13, 14, 15, 16, 17] (writePermute 0b10010010))).get i)) ∧
      (0b10010010 : BitVec 8).getLsbD 7 = true := by decide +kernel

theorem witness_WritePermutePacks : (2 : Nat) < popcount 0b10010010 ∧ (0b10010010 : BitVec 8).getLsbD 1 = true := by decide

theorem witness_ReadPermuteRoutes : (0b10010010 : BitVec 8).getLsbD 1 = true ∧ (0b10010010 : BitVec 8).getLsbD 7 = true := by
  decide

theorem witness_RegisterReads : (0x7C#7).toNat % 4 = 0 ∧ 0x48 ≤ (0x48#7).toNat := by decide

theorem witness_ReadOnlyWritesIgnored :
    (0x48#7).toNat % 4 = 0 ∧ 0x48 ≤ (0x48#7).toNat ∧ (0x3C#7).toNat % 4 = 0 ∧
      (0x3C#7).toNat ∈ [0x00, 0x04, 0x14, 0x18, 0x1C, 0x2C, 0x3C] := by decide

theorem witness_MmioAccessFaults :
    ((Width.w64 ≠ .w32) ∨ (0x10#7).toNat % 4 ≠ 0) ∧ ((Width.w32 ≠ .w32) ∨ (0x7D#7).toNat % 4 ≠ 0) := by decide

/-- The address one past the block's last byte, and the one before its first, from where an access of 16 bits reaches in
with its second byte, are none of the block's. -/
theorem witness_MmioAccessFaults_outside :
    (∀ off : BitVec 7, Config.coreBase + 0x80#64 ≠ Config.coreBase + off.setWidth 64) ∧
      (∀ off : BitVec 7, Config.coreBase - 1#64 ≠ Config.coreBase + off.setWidth 64) ∧ 1 < Width.w16.bytes ∧
      Config.coreBase - 1#64 + BitVec.ofNat 64 1 = Config.coreBase + (0#7).setWidth 64 := by
  refine ⟨fun off h => ?_, fun off h => ?_, by decide, ?_⟩
  · have := congrArg BitVec.toNat h
    simp only [BitVec.toNat_add, BitVec.toNat_setWidth, BitVec.toNat_ofNat] at this
    omega
  · have := congrArg BitVec.toNat h
    simp only [BitVec.toNat_add, BitVec.toNat_sub, BitVec.toNat_setWidth, BitVec.toNat_ofNat] at this
    omega
  · simp

theorem witness_OperandWritesLatch : (idleWith oneBlock).regs.busy = false := by decide

theorem witness_BusyWritesIgnored :
    (busyWith 0xA2 oneBlock).regs.busy = true ∧
      ∀ n ∈ [0x10, 0x20, 0x24, 0x28, 0x30, 0x34, 0x38, 0x40, 0x44], (BitVec.ofNat 7 n).toNat = n := by decide

theorem witness_CtrlAndStatusWrites : (0xFFFFFFFD#32).getLsbD 1 = false := by decide

theorem witness_IrqIsDoneAndEnabled : Config.irqLine + 1 ≠ Config.irqLine := by omega

theorem witness_SoftResetEffect :
    (3#32).getLsbD 1 = true ∧ (idleWith oneBlock).regs.busy = false ∧
      (runningGrant (busyWith 0xA2 oneBlock)).writes = [⟨0x4000, 0x3000⟩] ∧ 0x4000 + 0x3000 ≤ 2 ^ 64 ∧ 0x2FFF < 0x3000 := by
  decide +kernel

theorem witness_PowerOnResetEffect :
    (idleWith oneBlock).regs.busy = false ∧ (runningGrant (busyWith 0xA2 oneBlock)).writes = [⟨0x4000, 0x3000⟩] ∧
      0x4000 + 0x3000 ≤ 2 ^ 64 ∧ 0x2FFF < 0x3000 ∧
      ∀ w ∈ (runningGrant (busyWith 0xA2 oneBlock)).writes, 0x3FFF < w.base ∨ w.base + w.len ≤ 0x3FFF := by decide +kernel

theorem witness_ResetRegisterValues : 8 ≤ (0x08#7).toNat ∧ 8 ≤ (0x7F#7).toNat := by decide

/-- The operands of `oneBlock`, moved up by `b`. -/
def movedBlock (b : U64) : Operands := ⟨b + 0x1000, 4096, b + 0x4000, 0x3000, b + 0x10000⟩

/-- The first and last bytes of the windows of a running `ENCODE`, the bytes just outside, and an illegal word, in the half
of the address space the register block is not in. -/
theorem witness_HostAccessWhileBusy :
    ∃ b ∈ [(0 : U64), 0x8000000000000000],
      (∀ x ∈ [(0x1000 : U64), 0x1FFF, 0x2000, 0x3FFF, 0x4000, 0x6FFF, 0x7000],
        ∀ off : BitVec 7, b + x ≠ Config.coreBase + off.setWidth 64) ∧
      (let s := busyWith 0xA2 (movedBlock b)
       let g := grantOf (.encode 10) s.snap
       s.regs.busy = true ∧ decodeTableWord 32 s.regs.cmd.toNat = some (.encode 10) ∧
         g.hasByte (b + 0x1000).toNat = true ∧ g.hasByte (b + 0x1FFF).toNat = true ∧ g.hasByte (b + 0x2000).toNat = false ∧
         g.hasByte (b + 0x3FFF).toNat = false ∧ g.writesByte (b + 0x4000).toNat = true ∧
         g.writesByte (b + 0x6FFF).toNat = true ∧ g.writesByte (b + 0x7000).toNat = false ∧
         g.writesByte (b + 0x1000).toNat = false) ∧
      decodeTableWord 32 (busyWith 4 (movedBlock b)).regs.cmd.toNat = none := by
  have hr : ∀ x ∈ [(0x1000 : U64), 0x1FFF, 0x2000, 0x3FFF, 0x4000, 0x6FFF, 0x7000], 0x1000 ≤ x.toNat ∧ x.toNat ≤ 0x7000 := by
    simp
  by_cases hc : Config.coreBase.toNat < 2 ^ 63
  · refine ⟨0x8000000000000000, by decide, fun x hx off h => ?_, by decide +kernel⟩
    obtain ⟨h1, h2⟩ := hr x hx
    have := congrArg BitVec.toNat h
    simp only [BitVec.toNat_add, BitVec.toNat_setWidth] at this
    simp at this
    omega
  · refine ⟨0, by decide, fun x hx off h => ?_, by decide +kernel⟩
    obtain ⟨h1, h2⟩ := hr x hx
    have := congrArg BitVec.toNat h
    simp only [BitVec.toNat_add, BitVec.toNat_setWidth] at this
    simp at this
    omega

/-- Another instance that writes the last byte of the source, one that reads the last byte of the destination, one that
only reads the source, and two that write one byte. -/
theorem witness_PeersRace :
    let o := oneBlock
    let g := grantOf (.encode 10) o
    decodeTableWord 32 0xA2 = some (.encode 10) ∧ (busyWith 0xA2 o).regs.busy = true ∧ (busyWith 0xA2 o).regs.cmd = 0xA2 ∧
      (busyWith 0xA2 o).snap = o ∧ (idleWith o).regs.busy = false ∧ (idleWith o).regs.operands = o ∧ g.fault? = none ∧
      (∃ w ∈ (⟨[], [⟨0x1FFF, 1⟩]⟩ : Peer).writes, w.hasByte 0x1FFF = true ∧ o.srcWindow.hasByte 0x1FFF = true) ∧
      (∃ v ∈ (⟨[⟨0x6FFF, 64⟩], []⟩ : Peer).reads, v.hasByte 0x6FFF = true ∧ o.dstWindow.hasByte 0x6FFF = true) ∧
      g.races ⟨[⟨0x1000, 4096⟩], [⟨0x7000, 1⟩]⟩ = false ∧
      (⟨[], [⟨64, 1⟩]⟩ : Peer).grant.races ⟨[], [⟨0, 65⟩]⟩ = true ∧
      (⟨[], [⟨64, 1⟩]⟩ : Peer).grant.races ⟨[], [⟨0, 64⟩]⟩ = false := by decide +kernel

end Sys2Proof.Tests
end

