-- ==== Sys2Proof/Proofs/WorkingState.lean ====
section
/-! PROOF of O15. A relational reading of a command's run: two states that differ in working state only, run side by
side, with what the engines agree on at each point of the run (10_state.md R113). -/

namespace Sys2Proof.Machine

/-! ### States that differ in working state only, and runs from them -/

/-- `t` is `s` up to working state, and the two engines are related by `E`. -/
def Twins (E : Engine → Engine → Prop) (s t : State) : Prop := ∃ e, t = s.setEng e ∧ E s.eng e

/-- Nothing is asked of the two engines. -/
def Engine.anyTwo (_ _ : Engine) : Prop := True

/-- Two parts of a run stop alike, up to working state, or give results related by `R`. -/
inductive RunAlike {α : Type} (R : α → α → Prop) : Run α → Run α → Prop where
  | ok {a b : α} (h : R a b) : RunAlike R (.ok a) (.ok b)
  | ended {s t : State} (h : Twins Engine.anyTwo s t) : RunAlike R (.error (.ended s)) (.error (.ended t))
  | fault (f : Fault) : RunAlike R (.error (.fault f)) (.error (.fault f))

theorem Twins.mono {E E' : Engine → Engine → Prop} {s t : State} (h : Twins E s t) (hE : ∀ e e', E e e' → E' e e') :
    Twins E' s t := by
  obtain ⟨e, rfl, he⟩ := h
  exact ⟨e, rfl, hE _ _ he⟩

theorem Twins.anyTwo {E : Engine → Engine → Prop} {s t : State} (h : Twins E s t) : Twins Engine.anyTwo s t :=
  h.mono fun _ _ _ => trivial

theorem Twins.eng {E : Engine → Engine → Prop} {s t : State} (h : Twins E s t) : E s.eng t.eng := by
  obtain ⟨e, rfl, he⟩ := h
  exact he

theorem Twins.snap {E : Engine → Engine → Prop} {s t : State} (h : Twins E s t) : t.snap = s.snap := by
  obtain ⟨e, rfl, -⟩ := h
  rfl

/-- A new working state on each side. -/
theorem Twins.setEng {E E' : Engine → Engine → Prop} {s t : State} (h : Twins E s t) {e e' : Engine} (he : E' e e') :
    Twins E' (s.setEng e) (t.setEng e') := by
  obtain ⟨d, rfl, -⟩ := h
  exact ⟨e', rfl, he⟩

theorem Twins.complete {E : Engine → Engine → Prop} {s t : State} (h : Twins E s t) (c : ErrorCode) (n : U32) :
    Twins E (complete c n s) (complete c n t) := by
  obtain ⟨e, rfl, he⟩ := h
  exact ⟨e, rfl, he⟩

/-! ### Stores and loads do not see the working state -/

theorem State.setByte_setEng (s : State) (e : Engine) (a : Nat) (v : Byte) :
    (s.setEng e).setByte a v = (s.setByte a v).setEng e := by
  unfold State.setByte
  split <;> rfl

theorem State.setByte_eng (s : State) (a : Nat) (v : Byte) : (s.setByte a v).eng = s.eng := by
  obtain ⟨m, hm⟩ := s.setByte_eq_setMem a v
  rw [hm, State.setMem_eng]

theorem Twins.setByte {E : Engine → Engine → Prop} {s t : State} (h : Twins E s t) (a : Nat) (v : Byte) :
    Twins E (s.setByte a v) (t.setByte a v) := by
  obtain ⟨e, rfl, he⟩ := h
  exact ⟨e, s.setByte_setEng e a v, by rwa [s.setByte_eng]⟩

theorem Twins.writeBytes {E : Engine → Engine → Prop} (bs : List Byte) (a : Nat) {s t : State} (h : Twins E s t) :
    Twins E (s.writeBytes bs a) (t.writeBytes bs a) := by
  induction bs generalizing a s t with
  | nil => exact h
  | cons b bs ih => exact ih (a + 1) (h.setByte a b)

theorem Twins.nextDraw {E : Engine → Engine → Prop} {s t : State} (h : Twins E s t) (a : Nat) :
    Twins E ((s.setByte a (Config.freeByte s.draws)).setDraws (s.draws + 1))
      ((t.setByte a (Config.freeByte t.draws)).setDraws (t.draws + 1)) := by
  have hd : t.draws = s.draws := by
    obtain ⟨e, rfl, -⟩ := h
    rfl
  rw [hd]
  obtain ⟨e, he, hE⟩ := h.setByte a (Config.freeByte s.draws)
  exact ⟨e, by rw [he]; rfl, hE⟩

theorem Twins.havoc {E : Engine → Engine → Prop} (n a : Nat) {s t : State} (h : Twins E s t) :
    Twins E (s.havoc n a) (t.havoc n a) := by
  induction n generalizing a s t with
  | zero => exact h
  | succ n ih => exact ih (a + 1) (h.nextDraw a)

/-! ### Parts of a run -/

/-- Any result in common will do for two runs that are one. -/
theorem RunAlike.refl {α : Type} {R : α → α → Prop} (h : ∀ a, R a a) (r : Run α) : RunAlike R r r := by
  match r with
  | .ok a => exact .ok (h a)
  | .error (.ended s) => exact .ended ⟨s.eng, rfl, trivial⟩
  | .error (.fault f) => exact .fault f

theorem RunAlike.bind {α β : Type} {R : α → α → Prop} {Q : β → β → Prop} {r r' : Run α} {f f' : α → Run β}
    (h : RunAlike R r r') (k : ∀ a b, R a b → RunAlike Q (f a) (f' b)) : RunAlike Q (r >>= f) (r' >>= f') := by
  cases h with
  | ok h => exact k _ _ h
  | ended h => exact .ended h
  | fault g => exact .fault g

theorem RunAlike.mono {α : Type} {R Q : α → α → Prop} {r r' : Run α} (h : RunAlike R r r') (k : ∀ a b, R a b → Q a b) :
    RunAlike Q r r' := by
  cases h with
  | ok h => exact .ok (k _ _ h)
  | ended h => exact .ended h
  | fault g => exact .fault g

/-- A part that reads no working state gives both runs the same value. -/
theorem RunAlike.bind_same {α β : Type} {Q : β → β → Prop} (r : Run α) {f f' : α → Run β}
    (k : ∀ a, RunAlike Q (f a) (f' a)) : RunAlike Q (r >>= f) (r >>= f') := by
  refine (RunAlike.refl (R := Eq) (fun _ => rfl) r).bind fun a b hab => ?_
  subst hab
  exact k a

/-- A check, which goes on only where it holds. -/
theorem RunAlike.require {β : Type} {E : Engine → Engine → Prop} {Q : β → β → Prop} {s t : State} (h : Twins E s t)
    {p : Bool} (c : ErrorCode) {f f' : Unit → Run β} (k : p = true → RunAlike Q (f ()) (f' ())) :
    RunAlike Q (require p c s >>= f) (require p c t >>= f') := by
  cases p with
  | true => exact k rfl
  | false => exact .ended (h.complete c 0).anyTwo

theorem coreRead_alike {E : Engine → Engine → Prop} {s t : State} (h : Twins E s t) (g : Grant) (kind : ReadKind)
    (a : Int) (n : Nat) : RunAlike Eq (coreRead g kind a n s) (coreRead g kind a n t) := by
  obtain ⟨e, rfl, -⟩ := h
  exact RunAlike.refl (fun _ => rfl) _

theorem coreWrite_alike {E : Engine → Engine → Prop} {s t : State} (h : Twins E s t) (g : Grant) (a : Int)
    (bs : List Byte) : RunAlike (Twins E) (coreWrite g a bs s) (coreWrite g a bs t) := by
  unfold coreWrite
  split
  · exact .ok (h.writeBytes bs a.toNat)
  · exact .fault .dstOverrun

theorem coreWriteSpill_alike {E : Engine → Engine → Prop} {s t : State} (h : Twins E s t) (g : Grant) (a : Int)
    (bs : List Byte) (n : Nat) : RunAlike (Twins E) (coreWriteSpill g a bs n s) (coreWriteSpill g a bs n t) := by
  unfold coreWriteSpill
  split
  · exact .ok ((h.writeBytes bs a.toNat).havoc _ _)
  · exact .fault .dstOverrun

/-- A sweep builds up its relation element by element: `R done` relates the states once the elements of `done` are
through. -/
theorem sweep_alike_upto {α : Type} {f f' : α → State → Run State} {R : List α → State → State → Prop}
    (step : ∀ done a s t, R done s t → RunAlike (R (a :: done)) (f a s) (f' a t)) (as done : List α) {s t : State}
    (h : R done s t) : RunAlike (R (as.reverse ++ done)) (sweep f as s) (sweep f' as t) := by
  induction as generalizing done s t with
  | nil => exact .ok h
  | cons a as ih =>
    rw [sweep_cons, sweep_cons, List.reverse_cons, List.append_assoc]
    exact (step done a s t h).bind fun u v huv => ih (a :: done) huv

/-- A sweep each of whose steps keeps a relation keeps it. -/
theorem sweep_alike {α : Type} {f f' : α → State → Run State} {R : State → State → Prop}
    (step : ∀ a s t, R s t → RunAlike R (f a s) (f' a t)) (as : List α) {s t : State} (h : R s t) :
    RunAlike R (sweep f as s) (sweep f' as t) :=
  sweep_alike_upto (R := fun _ => R) (fun _ => step) as [] h

/-- Runs that are alike finish alike. -/
theorem RunAlike.finish {E : Engine → Engine → Prop} {r r' : Run State} (h : RunAlike (Twins E) r r') :
    sameOutcome r.finish r'.finish := by
  have visible : ∀ {s t : State}, Twins Engine.anyTwo s t → s.sameVisible t = true := by
    rintro s t ⟨e, rfl, -⟩
    exact decide_eq_true rfl
  cases h with
  | ok h => exact visible h.anyTwo
  | ended h => exact visible h
  | fault f => exact rfl

/-! ### What the engines agree on -/

/-- The same counters. -/
def Engine.sameHist (e e' : Engine) : Prop := e.hist = e'.hist

/-- The same encoder table. -/
def Engine.sameTable (e e' : Engine) : Prop := e.enc = e'.enc

/-- The same encoder table, as far as it is loaded. -/
def Engine.sameRecords (done : List (Fin 256)) (e e' : Engine) : Prop := ∀ i ∈ done, e.enc[i] = e'.enc[i]

/-- What an encode carries from block to block. -/
structure Engine.sameProgress (e e' : Engine) : Prop where
  enc : e.enc = e'.enc
  cur : e.cur = e'.cur
  total : e.total = e'.total
  rows : e.rows = e'.rows

/-- What an encode carries from group to group. -/
structure Engine.sameEncoding (e e' : Engine) : Prop extends Engine.sameProgress e e' where
  lanes : e.lanes = e'.lanes

/-- The same entries of the lookup table, below `n`. -/
def Engine.sameLookup (n : Nat) (e e' : Engine) : Prop := ∀ i < n, e.dec.getD i 0 = e'.dec.getD i 0

/-- The same lookups, and the same lanes as far as they are loaded. -/
def Engine.sameLanes (n : Nat) (done : List (Fin 32)) (e e' : Engine) : Prop :=
  Engine.sameLookup n e e' ∧ ∀ l ∈ done, e.lanes[l] = e'.lanes[l]

/-- What a decode carries from step to step. -/
structure Engine.sameDecoding (n : Nat) (e e' : Engine) : Prop where
  lookup : Engine.sameLookup n e e'
  lanes : e.lanes = e'.lanes
  cur : e.cur = e'.cur

/-! ### Statistics and the table image -/

theorem histogramByte_alike (g : Grant) (i : Nat) {s t : State} (h : Twins Engine.sameHist s t) :
    RunAlike (Twins Engine.sameHist) (histogramByte g i s) (histogramByte g i t) := by
  unfold histogramByte
  rw [h.snap]
  refine (coreRead_alike h ..).bind fun b _ hb => ?_
  subst hb
  exact .ok (h.setEng (congrArg (countSymbol · b[0]) h.eng))

theorem histogram_alike (g : Grant) {E : Engine → Engine → Prop} {s t : State} (h : Twins E s t) :
    RunAlike (Twins Engine.sameHist) (histogram g s) (histogram g t) := by
  unfold histogram
  rw [h.snap]
  exact sweep_alike (fun i _ _ => histogramByte_alike g i) _ (h.setEng rfl)

/-- The statistics start from cleared counters, so the table built from them is one. -/
theorem buildStats_alike (g : Grant) (pb : Nat) {E : Engine → Engine → Prop} {s t : State} (h : Twins E s t) :
    RunAlike (Twins Engine.sameTable) (buildStats g pb s) (buildStats g pb t) := by
  refine (histogram_alike g h).bind fun u v huv => ?_
  exact .ok (huv.setEng (congrArg (fun hist => encTable (quantize hist pb)) huv.eng))

theorem storeRecord_alike (g : Grant) (i : Fin 256) {s t : State} (h : Twins Engine.sameTable s t) :
    RunAlike (Twins Engine.sameTable) (storeRecord g i s) (storeRecord g i t) := by
  have henc : s.eng.enc = t.eng.enc := h.eng
  unfold storeRecord
  rw [h.snap, henc]
  exact coreWrite_alike h ..

theorem loadRecord_alike (g : Grant) (done : List (Fin 256)) (i : Fin 256) {s t : State}
    (h : Twins (Engine.sameRecords done) s t) :
    RunAlike (Twins (Engine.sameRecords (i :: done))) (loadRecord g i s) (loadRecord g i t) := by
  unfold loadRecord
  rw [h.snap]
  refine (coreRead_alike h ..).bind fun b _ hb => ?_
  subst hb
  refine .ok (h.setEng fun j hj => ?_)
  by_cases hij : i = j
  · simp [hij]
  · have hdone : j ∈ done := (List.mem_cons.1 hj).resolve_left (Ne.symm hij)
    simpa [Vector.getElem_set_ne, Fin.val_ne_of_ne hij] using h.eng j hdone

/-- Every record is loaded, so nothing of the old table is left. -/
theorem loadTable_alike (g : Grant) {E : Engine → Engine → Prop} {s t : State} (h : Twins E s t) :
    RunAlike (Twins Engine.sameTable) (loadTable g s) (loadTable g t) := by
  have none_yet : Twins (Engine.sameRecords []) s t := h.mono fun _ _ _ _ hi => nomatch hi
  have all := sweep_alike_upto (R := fun done => Twins (Engine.sameRecords done))
    (fun done i _ _ => loadRecord_alike g done i) (List.finRange 256) [] none_yet
  refine all.mono fun u v huv => huv.mono fun e e' he => Vector.ext fun i hi => ?_
  exact he ⟨i, hi⟩ (by simp)

/-! ### Container metadata -/

theorem writeHeader_alike (g : Grant) (nb srcLen tc pb : Nat) {E : Engine → Engine → Prop} {s t : State}
    (h : Twins E s t) : RunAlike (Twins E) (writeHeader g nb srcLen tc pb s) (writeHeader g nb srcLen tc pb t) := by
  refine sweep_alike (fun p u v huv => ?_) _ h
  rw [huv.snap]
  exact coreWrite_alike huv ..

theorem writeProbs_alike (g : Grant) {s t : State} (h : Twins Engine.sameProgress s t) :
    RunAlike (Twins Engine.sameProgress) (writeProbs g s) (writeProbs g t) := by
  refine sweep_alike (fun i u v huv => ?_) _ h
  rw [huv.snap, huv.eng.enc]
  exact coreWrite_alike huv ..

theorem writeBlockRow_alike (g : Grant) (nb : Nat) (p : Nat × BlockRow) {E : Engine → Engine → Prop} {s t : State}
    (h : Twins E s t) : RunAlike (Twins E) (writeBlockRow g nb p s) (writeBlockRow g nb p t) := by
  unfold writeBlockRow
  simp only [h.snap]
  refine (sweep_alike (R := Twins E) (fun l u v huv => ?_) _ h).bind fun u v huv => ?_
  · exact coreWrite_alike huv ..
  · exact (coreWrite_alike huv ..).bind fun u v huv => coreWrite_alike huv ..

theorem writeIndexPad_alike (g : Grant) (nb : Nat) {E : Engine → Engine → Prop} {s t : State} (h : Twins E s t) :
    RunAlike (Twins E) (writeIndexPad g nb s) (writeIndexPad g nb t) := by
  unfold writeIndexPad
  rw [h.snap]
  split
  · exact coreWrite_alike h ..
  · exact .ok h

theorem writeContainerMeta_alike (g : Grant) (nb srcLen tc pb : Nat) {s t : State} (h : Twins Engine.sameProgress s t) :
    RunAlike (Twins Engine.sameProgress) (writeContainerMeta g nb srcLen tc pb s)
      (writeContainerMeta g nb srcLen tc pb t) := by
  refine (writeHeader_alike g nb srcLen tc pb h).bind fun u v huv => ?_
  refine (writeProbs_alike g huv).bind fun u v huv => ?_
  rw [huv.eng.rows]
  exact (sweep_alike (fun p _ _ => writeBlockRow_alike g nb p) _ huv).bind fun u v huv => writeIndexPad_alike g nb huv

/-! ### The encoder -/

theorem encGroup_alike (gr : Grant) (pb nb k w : Nat) (g : Fin 4) {s t : State} (h : Twins Engine.sameEncoding s t) :
    RunAlike (Twins Engine.sameEncoding) (encGroup gr pb nb k w g s) (encGroup gr pb nb k w g t) := by
  unfold encGroup encPayload
  rw [h.snap, h.eng.enc, h.eng.lanes, h.eng.cur]
  refine (coreRead_alike h ..).bind fun b _ hb => ?_
  subst hb
  refine (coreWriteSpill_alike h ..).bind fun u v huv => ?_
  obtain ⟨⟨henc, hcur, htotal, hrows⟩, hlanes⟩ := huv.eng
  refine .ok (huv.setEng ⟨⟨henc, ?_, ?_, hrows⟩, ?_⟩)
  · simp only [hcur]
  · simp only [htotal]
  · simp only [hlanes]

/-- A block starts from lanes at the initial state, whatever they held. -/
theorem encodeBlock_alike (gr : Grant) (pb nb k : Nat) {s t : State} (h : Twins Engine.sameProgress s t) :
    RunAlike (Twins Engine.sameProgress) (encodeBlock gr pb nb k s) (encodeBlock gr pb nb k t) := by
  obtain ⟨henc, hcur, htotal, hrows⟩ := h.eng
  have started : Twins Engine.sameEncoding
      (s.setEng { s.eng with lanes := Vector.replicate 32 Config.minState })
      (t.setEng { t.eng with lanes := Vector.replicate 32 Config.minState }) :=
    h.setEng ⟨⟨henc, hcur, htotal, hrows⟩, rfl⟩
  unfold encodeBlock
  rw [htotal]
  refine (sweep_alike (fun w _ _ huv => ?_) _ started).bind fun u v huv => ?_
  · exact sweep_alike (fun g _ _ => encGroup_alike gr pb nb k w g) _ huv
  · obtain ⟨⟨henc, hcur, htotal, hrows⟩, hlanes⟩ := huv.eng
    exact .ok (huv.setEng ⟨henc, hcur, htotal, by simp only [hrows, hlanes, htotal]⟩)

/-- An encode needs of the working state the table alone. -/
theorem encodeContainer_alike (gr : Grant) (pb : Nat) {s t : State} (h : Twins Engine.sameTable s t) :
    RunAlike (Twins Engine.sameProgress) (encodeContainer gr pb s) (encodeContainer gr pb t) := by
  have started : Twins Engine.sameProgress (s.setEng { s.eng with cur := 0, total := 0, rows := [] })
      (t.setEng { t.eng with cur := 0, total := 0, rows := [] }) := h.setEng ⟨h.eng, rfl, rfl, rfl⟩
  unfold encodeContainer blocksOf
  rw [h.snap]
  refine (sweep_alike (fun k _ _ => encodeBlock_alike gr pb _ k) _ started).bind fun u v huv => ?_
  rw [huv.snap, huv.eng.total]
  exact writeContainerMeta_alike gr _ _ _ pb huv

theorem completeEncode_twins {s t : State} (h : Twins Engine.sameProgress s t) :
    Twins Engine.sameProgress (completeEncode s) (completeEncode t) := by
  unfold completeEncode blocksOf
  rw [h.snap, h.eng.total]
  exact h.complete _ _

/-! ### The lookup table -/

theorem Vector.getD_eq_of_getD_eq {α : Type} {n : Nat} {v w : Vector α n} {d : α} {i : Nat} (h : v.getD i d = w.getD i d)
    (d' : α) : v.getD i d' = w.getD i d' := by
  by_cases hi : i < n
  · simpa [Vector.getD, hi] using h
  · simp [Vector.getD, hi]

/-- The symbols' entries cover the table from `c` on, so it keeps nothing of what it held there. -/
theorem fillTable_getD_congr (ps : List U16) (sym c : Nat) {dec dec' : Vector U32 2048}
    (h : ∀ i < c, dec.getD i 0 = dec'.getD i 0) :
    ∀ i < c + probsTotal ps, (fillTable ps sym c dec).getD i 0 = (fillTable ps sym c dec').getD i 0 := by
  induction ps generalizing sym c dec dec' with
  | nil => simpa [probsTotal, fillTable] using h
  | cons p ps ih =>
    have filled : ∀ i < c + p.toNat, (fillSymbol p sym c dec).getD i 0 = (fillSymbol p sym c dec').getD i 0 := by
      intro i hi
      rw [fillSymbol_getD, fillSymbol_getD]
      split
      · rfl
      · by_cases hc : i < c
        · exact h i hc
        · have hout : ¬i < 2048 := by omega
          simp [Vector.getD, hout]
    intro i hi
    refine ih (sym + 1) (c + p.toNat) filled i ?_
    simp only [probsTotal, List.map_cons, List.sum_cons] at hi ⊢
    omega

/-- A built lookup table is the container's, up to the probabilities' sum. -/
theorem buildDecTable_twins (probs : List U16) {E : Engine → Engine → Prop} {s t : State} (h : Twins E s t) :
    Twins (Engine.sameLookup (probsTotal probs)) (buildDecTable probs s) (buildDecTable probs t) :=
  h.setEng fun i hi => fillTable_getD_congr probs 0 0 (fun _ h0 => absurd h0 (Nat.not_lt_zero _)) i (by omega)

/-- Lookups go below `2^PB` alone. -/
theorem decGroupUpdate_congr {pb : Nat} {dec dec' : Vector U32 2048} (hpb : pb ≤ 32)
    (h : ∀ i < 2 ^ pb, dec.getD i 0 = dec'.getD i 0) (x : Vec) : decGroupUpdate dec x pb = decGroupUpdate dec' x pb := by
  have gathered : gather32 dec (vand x (broadcast32 (BitVec.ofNat 32 (2 ^ pb - 1)))) =
      gather32 dec' (vand x (broadcast32 (BitVec.ofNat 32 (2 ^ pb - 1)))) := by
    refine Vector.ext fun j hj => ?_
    have below := decIndex_lt x[j] hpb
    simp only [gather32, vand, broadcast32, Vector.getElem_ofFn, Fin.getElem_fin, Vector.getElem_replicate]
    exact Vector.getD_eq_of_getD_eq (h _ below) _
  simp only [decGroupUpdate, gathered]

/-! ### The decoder -/

theorem decFeedGroup_alike (gr : Grant) (nb : Nat) (g : Fin 4) {n : Nat} {s t : State}
    (h : Twins (Engine.sameDecoding n) s t) :
    RunAlike (Twins (Engine.sameDecoding n)) (decFeedGroup gr nb g s) (decFeedGroup gr nb g t) := by
  obtain ⟨hlookup, hlanes, hcur⟩ := h.eng
  unfold decFeedGroup decPayload
  rw [h.snap, hlanes, hcur]
  simp only
  split
  · exact .ok (h.setEng ⟨fun i hi => hlookup i hi, hlanes, hcur⟩)
  · refine (coreRead_alike h ..).bind fun b _ hb => ?_
    subst hb
    exact .ok (h.setEng ⟨fun i hi => hlookup i hi, rfl, rfl⟩)

theorem decPair_alike (gr : Grant) {pb : Nat} (hpb : pb ≤ 32) (nb k w : Nat) (p : Fin 2) {s t : State}
    (h : Twins (Engine.sameDecoding (2 ^ pb)) s t) :
    RunAlike (Twins (Engine.sameDecoding (2 ^ pb))) (decPair gr pb nb k w p s) (decPair gr pb nb k w p t) := by
  obtain ⟨hlookup, hlanes, hcur⟩ := h.eng
  unfold decPair
  simp only [hlanes, State.setEng_snap, h.snap, decGroupUpdate_congr hpb hlookup]
  refine (coreWrite_alike (E := Engine.sameDecoding (2 ^ pb)) (h.setEng ?_) ..).bind fun u v huv => ?_
  · exact ⟨fun i hi => hlookup i hi, rfl, hcur⟩
  · exact sweep_alike (fun g _ _ => decFeedGroup_alike gr nb g) _ huv

theorem loadLane_alike (gr : Grant) (k n : Nat) (done : List (Fin 32)) (l : Fin 32) {s t : State}
    (h : Twins (Engine.sameLanes n done) s t) :
    RunAlike (Twins (Engine.sameLanes n (l :: done))) (loadLane gr k l s) (loadLane gr k l t) := by
  obtain ⟨hlookup, hlanes⟩ := h.eng
  unfold loadLane
  rw [h.snap]
  refine (coreRead_alike h ..).bind fun b _ hb => ?_
  subst hb
  refine .ok (h.setEng ⟨hlookup, fun j hj => ?_⟩)
  by_cases hlj : l = j
  · simp [hlj]
  · have hdone : j ∈ done := (List.mem_cons.1 hj).resolve_left (Ne.symm hlj)
    simpa [Vector.getElem_set_ne, Fin.val_ne_of_ne hlj] using hlanes j hdone

/-- A block's lanes and cursor come from the container, so of the working state it needs the lookup table alone. -/
theorem decodeBlock_alike (gr : Grant) {pb : Nat} (hpb : pb ≤ 32) (nb : Nat) (p : Nat × (U32 × U32)) {s t : State}
    (h : Twins (Engine.sameLookup (2 ^ pb)) s t) :
    RunAlike (Twins (Engine.sameLookup (2 ^ pb))) (decodeBlock gr pb nb p s) (decodeBlock gr pb nb p t) := by
  have none_yet : Twins (Engine.sameLanes (2 ^ pb) []) s t := h.mono fun _ _ he => ⟨he, fun _ hl => nomatch hl⟩
  have loaded := sweep_alike_upto (R := fun done => Twins (Engine.sameLanes (2 ^ pb) done))
    (fun done l _ _ => loadLane_alike gr p.1 (2 ^ pb) done l) (List.finRange 32) [] none_yet
  refine loaded.bind fun u v huv => ?_
  obtain ⟨hlookup, hlanes⟩ := huv.eng
  have lanes : u.eng.lanes = v.eng.lanes := Vector.ext fun l hl => hlanes ⟨l, hl⟩ (by simp)
  refine (sweep_alike (R := Twins (Engine.sameDecoding (2 ^ pb))) (fun w _ _ huv => ?_) _ (huv.setEng ?_)).mono
    fun u v huv => huv.mono fun _ _ he => he.lookup
  · exact sweep_alike (fun h _ _ => decPair_alike gr hpb nb p.1 w h) _ huv
  · exact ⟨fun i hi => hlookup i hi, lanes, rfl⟩

/-- The container's table fits its `probBits`: what the last check of R720 and its check of `PB` give. -/
structure Container.tableFits (c : Container) : Prop where
  probBits : c.probBits ≤ 32
  total : probsTotal c.probs = 2 ^ c.probBits

theorem le_of_isProbBits {pb : Nat} (h : isProbBits pb = true) : pb ≤ 32 := by
  simp only [isProbBits, decide_eq_true_eq] at h
  omega

/-- The validator reads registers and host memory alone. -/
theorem validateContainer_alike (g : Grant) {E : Engine → Engine → Prop} {s t : State} (h : Twins E s t) :
    RunAlike (fun c c' => c = c' ∧ c.tableFits) (validateContainer g s) (validateContainer g t) := by
  have words : ∀ off, readWord32 g off t = readWord32 g off s := by
    obtain ⟨e, rfl, -⟩ := h
    exact fun _ => rfl
  have probs : readProb g t = readProb g s := by
    obtain ⟨e, rfl, -⟩ := h
    rfl
  have entries : ∀ nb, readIndexEntry g nb t = readIndexEntry g nb s := by
    obtain ⟨e, rfl, -⟩ := h
    exact fun _ => rfl
  unfold validateContainer
  simp only [h.snap, words, probs, entries]
  refine RunAlike.require h _ fun _ => RunAlike.bind_same _ fun header => ?_
  refine RunAlike.require h _ fun _ => RunAlike.require h _ fun _ => RunAlike.require h _ fun _ => ?_
  refine RunAlike.require h _ fun hpb => RunAlike.require h _ fun _ => RunAlike.require h _ fun _ => ?_
  refine RunAlike.require h _ fun _ => RunAlike.bind_same _ fun ps => RunAlike.bind_same _ fun index => ?_
  refine RunAlike.require h _ fun _ => RunAlike.require h _ fun _ => RunAlike.require h _ fun htotal => ?_
  exact .ok ⟨rfl, le_of_isProbBits hpb, of_decide_eq_true htotal⟩

/-! ### The five commands -/

/-- Nothing is known of the two engines when a command starts. -/
theorem Twins.of_setEng (s : State) (e : Engine) : Twins Engine.anyTwo s (s.setEng e) := ⟨e, rfl, trivial⟩

theorem execNop_alike {s t : State} (h : Twins Engine.anyTwo s t) : sameOutcome (execNop s) (execNop t) := by
  unfold execNop
  rw [h.snap]
  exact (RunAlike.bind_same _ fun _ => .ok (h.complete .ok 0)).finish

theorem runBuildTable_alike (pb : Nat) {s t : State} (h : Twins Engine.anyTwo s t) :
    RunAlike (Twins Engine.sameTable) (runBuildTable pb s) (runBuildTable pb t) := by
  unfold runBuildTable
  simp only [h.snap]
  refine RunAlike.bind_same _ fun _ => RunAlike.require h _ fun _ => RunAlike.require h _ fun _ =>
    RunAlike.require h _ fun _ => (buildStats_alike _ pb h).bind fun u v huv => ?_
  exact (sweep_alike (fun i _ _ => storeRecord_alike _ i) _ huv).bind fun u v huv => .ok (huv.complete _ _)

theorem runEncode_alike (pb : Nat) {s t : State} (h : Twins Engine.anyTwo s t) :
    RunAlike (Twins Engine.sameProgress) (runEncode pb s) (runEncode pb t) := by
  unfold runEncode
  simp only [h.snap]
  refine RunAlike.bind_same _ fun _ => RunAlike.require h _ fun _ => RunAlike.require h _ fun _ =>
    RunAlike.require h _ fun _ => RunAlike.require h _ fun _ => (buildStats_alike _ pb h).bind fun u v huv => ?_
  exact (encodeContainer_alike _ pb huv).bind fun u v huv => .ok (completeEncode_twins huv)

theorem runEncodeT_alike (pb : Nat) {s t : State} (h : Twins Engine.anyTwo s t) :
    RunAlike (Twins Engine.sameProgress) (runEncodeT pb s) (runEncodeT pb t) := by
  unfold runEncodeT
  simp only [h.snap]
  refine RunAlike.bind_same _ fun _ => RunAlike.require h _ fun _ => RunAlike.require h _ fun _ =>
    RunAlike.require h _ fun _ => RunAlike.require h _ fun _ => (loadTable_alike _ h).bind fun u v huv => ?_
  have henc : u.eng.enc = v.eng.enc := huv.eng
  rw [henc]
  refine RunAlike.require huv _ fun _ => ?_
  exact (encodeContainer_alike _ pb huv).bind fun u v huv => .ok (completeEncode_twins huv)

theorem runDecode_alike {s t : State} (h : Twins Engine.anyTwo s t) :
    RunAlike (Twins Engine.anyTwo) (runDecode s) (runDecode t) := by
  unfold runDecode
  simp only [h.snap]
  refine RunAlike.bind_same _ fun _ => RunAlike.require h _ fun _ =>
    (validateContainer_alike _ h).bind fun c _ hc => ?_
  obtain ⟨rfl, hpb, htotal⟩ := hc
  have built := buildDecTable_twins c.probs h
  rw [htotal] at built
  exact (sweep_alike (fun p _ _ => decodeBlock_alike _ hpb c.blocks p) _ built).bind fun u v huv =>
    .ok (huv.complete _ _).anyTwo

theorem exec_alike (i : Instr) {s t : State} (h : Twins Engine.anyTwo s t) : sameOutcome (exec i s) (exec i t) := by
  cases i with
  | nop => exact execNop_alike h
  | buildTable pb => exact (runBuildTable_alike pb h).finish
  | encode pb => exact (runEncode_alike pb h).finish
  | encodeT pb => exact (runEncodeT_alike pb h).finish
  | decode => exact (runDecode_alike h).finish

/-- Settles O15: side by side, the two runs agree at each point on the working state still to be read, since every
command writes what it reads of it. -/
theorem workingStateIsInvisible : Obligations.WorkingStateIsInvisible := by
  unfold Obligations.WorkingStateIsInvisible
  exact fun i s e => exec_alike i (Twins.of_setEng s e)

end Sys2Proof.Machine
end

