-- ==== Sys2Proof/Proofs/Soundness.lean ====
section
/-! PROOF of O8 and O9. The invariant of Safety.lean, clause by clause, and that each way a step can go keeps it. -/

namespace Sys2Proof.Machine

/-! ### The invariant, clause by clause -/

theorem State.sound_iff (s : State) :
    s.sound = true ↔ s.mem.wf = true ∧ s.regs.sound = true ∧ s.snapHeld = true ∧ s.windowsChecked = true ∧
      s.peersApart = true := by
  simp only [State.sound, Bool.and_eq_true, and_assoc]

theorem Regs.sound_iff (r : Regs) :
    r.sound = true ↔ ¬(r.busy = true ∧ r.done = true) ∧ r.error.toNat ≤ 10 ∧ (r.error = 0 ∨ r.result = 0) ∧
      (r.busy = true → r.error = 0 ∧ r.result = 0) := by
  cases hb : r.busy <;> cases hd : r.done <;> simp [Regs.sound, hb, hd, and_assoc]

theorem State.peersApart_iff (s : State) :
    s.peersApart = true ↔ s.peers.any (runningGrant s).races = false ∧ peersClash s.peers = false := by
  simp only [State.peersApart, Bool.and_eq_true, Bool.not_eq_true']

/-- The clauses about host memory and the peers. -/
theorem State.memory_and_peers {s : State} (hs : s.sound = true) :
    s.mem.wf = true ∧ s.peers.any (runningGrant s).races = false ∧ peersClash s.peers = false := by
  obtain ⟨hmem, -, -, -, hapart⟩ := s.sound_iff.1 hs
  exact ⟨hmem, s.peersApart_iff.1 hapart⟩

/-- An idle core has no windows. -/
theorem runningGrant_idle {s : State} (h : s.regs.busy = false) : runningGrant s = ⟨[], []⟩ := by
  simp [runningGrant, h]

/-- Without windows there is no race. -/
theorem Grant.races_empty (p : Peer) : (⟨[], []⟩ : Grant).races p = false := by
  simp [Grant.races]

/-- An idle core's windows and snapshot are out of the question. -/
theorem State.sound_iff_of_idle {s : State} (h : s.regs.busy = false) :
    s.sound = true ↔ s.mem.wf = true ∧ s.regs.sound = true ∧ peersClash s.peers = false := by
  have noRace : s.peers.any (runningGrant s).races = false := by
    rw [runningGrant_idle h]
    exact List.any_eq_false.2 fun p _ => by simp [Grant.races_empty]
  rw [State.sound_iff, State.peersApart_iff]
  simp [State.snapHeld, State.windowsChecked, h, noRace]

/-- A busy core: no error and no count, the snapshot held, its windows checked and apart from every peer's. -/
theorem State.sound_iff_of_busy {s : State} (h : s.regs.busy = true) :
    s.sound = true ↔ s.mem.wf = true ∧ (s.regs.done = false ∧ s.regs.error = 0 ∧ s.regs.result = 0) ∧
      s.snap = s.regs.operands ∧ (runningGrant s).fault? = none ∧ s.peers.any (runningGrant s).races = false ∧
      peersClash s.peers = false := by
  have regs : s.regs.sound = true ↔ s.regs.done = false ∧ s.regs.error = 0 ∧ s.regs.result = 0 := by
    rw [Regs.sound_iff]
    constructor
    · rintro ⟨hd, -, -, hz⟩
      exact ⟨by simpa [h] using hd, hz h⟩
    · rintro ⟨hd, he, hr⟩
      simp [hd, he, hr]
  rw [State.sound_iff, State.peersApart_iff, regs]
  simp [State.snapHeld, State.windowsChecked, h]

/-! ### Peers -/

/-- No two peers clash: they are pairwise apart. -/
theorem peersClash_eq_false_iff (ps : List Peer) :
    peersClash ps = false ↔ ps.Pairwise fun p q => p.grant.races q = false := by
  induction ps with
  | nil => simp [peersClash]
  | cons p ps ih => simp [peersClash, ih]

theorem peersClash_erase {ps : List Peer} (h : peersClash ps = false) (p : Peer) : peersClash (ps.erase p) = false := by
  rw [peersClash_eq_false_iff] at h ⊢
  exact h.sublist List.erase_sublist

theorem any_erase_eq_false {ps : List Peer} {r : Peer → Bool} (h : ps.any r = false) (p : Peer) :
    (ps.erase p).any r = false :=
  List.any_eq_false.2 fun q hq => List.any_eq_false.1 h q (List.mem_of_mem_erase hq)

/-- Registers and snapshot, and with them the running command, are untouched: what is left is host memory and the peers. -/
theorem State.sound_of_same_command {s t : State} (hs : s.sound = true) (hregs : t.regs = s.regs)
    (hsnap : t.snap = s.snap) (hmem : t.mem.wf = true) (hrace : t.peers.any (runningGrant s).races = false)
    (hclash : peersClash t.peers = false) : t.sound = true := by
  have hgrant : runningGrant t = runningGrant s := by simp only [runningGrant, hregs, hsnap]
  obtain ⟨-, hr, hheld, hwin, -⟩ := s.sound_iff.1 hs
  rw [State.sound_iff, State.peersApart_iff, hgrant]
  refine ⟨hmem, by rwa [hregs], ?_, ?_, hrace, hclash⟩
  · rwa [State.snapHeld, hregs, hsnap]
  · rwa [State.windowsChecked, hregs, hgrant]

/-! ### Steps of the core -/

/-- A completed core is idle, with a code of the list and no count beside an error. -/
theorem sound_complete {s : State} {c : ErrorCode} {n : U32} (hmem : s.mem.wf = true)
    (hclash : peersClash s.peers = false) (hn : c ≠ .ok → n = 0) : (complete c n s).sound = true := by
  have status : c.word = 0 ∨ n = 0 := by
    by_cases hc : c = .ok
    · exact .inl (by rw [hc]; rfl)
    · exact .inr (hn hc)
  refine (State.sound_iff_of_idle (s := complete c n s) rfl).2 ⟨hmem, ?_, hclash⟩
  rw [Regs.sound_iff]
  exact ⟨fun h => Bool.false_ne_true h.1, c.word_le, status, fun h => absurd h Bool.false_ne_true⟩

theorem sound_of_endsIn {g : Grant} {s t : State} (hs : s.sound = true) (h : EndsIn g s t) : t.sound = true := by
  obtain ⟨hmem, -, hclash⟩ := State.memory_and_peers hs
  obtain ⟨c, n, u, rfl, hu, hn⟩ := h
  exact sound_complete (hu.wf hmem) (by rwa [hu.peers]) hn

theorem coreTurn_keeps_sound {s t : State} (hs : s.sound = true) (h : coreTurn s = .next t) : t.sound = true := by
  unfold coreTurn at h
  split at h
  · cases h
    exact hs
  · exact sound_of_endsIn hs (exec_endsIn h)
  · cases h
    exact sound_of_endsIn hs (EndsIn.error (g := ⟨[], []⟩) .illegalCommand (Confined.refl _ s))

/-! ### Register writes -/

theorem sound_issue {x : U32} {s : State} (hs : s.sound = true)
    (hwin : (grantOfWord x s.regs.operands).fault? = none)
    (hrace : s.peers.any (grantOfWord x s.regs.operands).races = false) : (issue x s).sound = true := by
  obtain ⟨hmem, -, hclash⟩ := State.memory_and_peers hs
  exact (State.sound_iff_of_busy (s := issue x s) rfl).2
    ⟨hmem, ⟨rfl, rfl, rfl⟩, rfl, hwin, hrace, hclash⟩

theorem sound_acknowledge {s : State} (hs : s.sound = true) : (acknowledge s).sound = true := by
  obtain ⟨hmem, hregs, hheld, hwin, hapart⟩ := s.sound_iff.1 hs
  refine (State.sound_iff _).2 ⟨hmem, ?_, hheld, hwin, hapart⟩
  rw [Regs.sound_iff] at hregs ⊢
  exact ⟨fun h => Bool.false_ne_true h.2, hregs.2⟩

/-- `IE` is in no clause. -/
theorem sound_setIe (s : State) (b : Bool) : (s.setRegs { s.regs with ie := b }).sound = s.sound := rfl

theorem Regs.sound_writeOperand (r : Regs) (off : BitVec 7) (v : U32) :
    (writeOperand r off v).sound = r.sound ∧ (writeOperand r off v).busy = r.busy := by
  unfold writeOperand
  split <;> exact ⟨rfl, rfl⟩

theorem sound_writeOperand {s : State} (hidle : s.regs.busy = false) (hs : s.sound = true) (off : BitVec 7) (v : U32) :
    (s.setRegs (writeOperand s.regs off v)).sound = true := by
  obtain ⟨hsound, hbusy⟩ := Regs.sound_writeOperand s.regs off v
  obtain ⟨hmem, hregs, hclash⟩ := (State.sound_iff_of_idle hidle).1 hs
  exact (State.sound_iff_of_idle (hbusy.trans hidle)).2 ⟨hmem, hsound.trans hregs, hclash⟩

/-- An abort keeps memory canonical, and the peers. -/
theorem abortRunning_keeps (s : State) :
    (s.mem.wf = true → (abortRunning s).mem.wf = true) ∧ (abortRunning s).peers = s.peers := by
  obtain ⟨m, n, h⟩ := havocWindows_eq (runningGrant s).writes s
  exact ⟨wf_havocWindows _, by rw [abortRunning, h]; rfl⟩

/-- Whatever else a reset does, a machine with reset registers is sound. -/
theorem sound_of_resetRegs {s : State} (hregs : s.regs = Regs.reset) (hmem : s.mem.wf = true)
    (hclash : peersClash s.peers = false) : s.sound = true :=
  (State.sound_iff_of_idle (by rw [hregs]; rfl)).2 ⟨hmem, by rw [hregs]; decide, hclash⟩

theorem sound_softReset {s : State} (hs : s.sound = true) : (softReset s).sound = true := by
  obtain ⟨hmem, -, hclash⟩ := State.memory_and_peers hs
  obtain ⟨hwf, hpeers⟩ := abortRunning_keeps s
  exact sound_of_resetRegs rfl (hwf hmem) ((congrArg peersClash hpeers).trans hclash)

theorem sound_powerOnReset {s : State} (hs : s.sound = true) : (powerOnReset s).sound = true := by
  obtain ⟨hmem, -, hclash⟩ := State.memory_and_peers hs
  obtain ⟨hwf, hpeers⟩ := abortRunning_keeps s
  exact sound_of_resetRegs rfl (hwf hmem) ((congrArg peersClash hpeers).trans hclash)

theorem writeRegister_keeps_sound {off : BitVec 7} {v : U32} {s t : State} (hs : s.sound = true)
    (h : (writeRegister off v s).finish = .next t) : t.sound = true := by
  unfold writeRegister writeCtrl writeStatus at h
  split at h
  · cases h
    split
    · exact sound_softReset hs
    · exact (sound_setIe s _).trans hs
  split at h
  · cases h
    split
    · exact sound_acknowledge hs
    · exact hs
  split at h
  · cases h
    exact hs
  next hbusy =>
  split at h
  · rcases issueCommand_cases v s with ⟨f, -, hi⟩ | ⟨-, -, hi⟩ | ⟨hwin, hrace, hi⟩ <;> rw [hi] at h <;> cases h
    exact sound_issue hs hwin hrace
  · cases h
    exact sound_writeOperand (Bool.eq_false_iff.2 hbusy) hs off v

/-! ### The host's other actions -/

/-- What the host got, and how many free bytes were taken, are in no clause. -/
theorem sound_setHostData (s : State) (v : U32) : (s.setHostData v).sound = s.sound := rfl
theorem sound_setDraws (s : State) (n : Nat) : (s.setDraws n).sound = s.sound := rfl
theorem sound_setInbox (s : State) (ts : List Turn) : (s.setInbox ts).sound = s.sound := rfl

theorem sound_setByte {s : State} (hs : s.sound = true) (a : Nat) (v : Byte) : (s.setByte a v).sound = true := by
  obtain ⟨m, hm⟩ := s.setByte_eq_setMem a v
  obtain ⟨hmem, hrace, hclash⟩ := State.memory_and_peers hs
  have hwf := State.wf_setByte a v hmem
  rw [hm] at hwf ⊢
  exact State.sound_of_same_command hs rfl rfl hwf hrace hclash

theorem peerIssue_keeps_sound {p : Peer} {s t : State} (hs : s.sound = true) (h : (peerIssue p s).finish = .next t) :
    t.sound = true := by
  obtain ⟨hmem, hrace, hclash⟩ := State.memory_and_peers hs
  rcases peerIssue_cases p s with ⟨-, hi⟩ | ⟨hown, hothers, hi⟩ <;> rw [hi] at h <;> cases h
  refine State.sound_of_same_command hs rfl rfl hmem ?_ ?_
  · simp only [State.setPeers_peers, List.any_cons, hown, hrace, Bool.or_self]
  · rw [State.setPeers_peers, peersClash_eq_false_iff, List.pairwise_cons]
    exact ⟨fun q hq => by rw [Peer.grant_races_comm]; exact hothers q hq, (peersClash_eq_false_iff _).1 hclash⟩

theorem sound_peerDone {s : State} (hs : s.sound = true) (p : Peer) : (peerDone p s).sound = true := by
  obtain ⟨hmem, hrace, hclash⟩ := State.memory_and_peers hs
  exact State.sound_of_same_command hs rfl rfl hmem (any_erase_eq_false hrace p) (peersClash_erase hclash p)

theorem hostLoad_keeps_sound {off : BitVec 7} {w : Width} {s t : State} (hs : s.sound = true)
    (h : (hostLoad off w s).finish = .next t) : t.sound = true := by
  unfold hostLoad at h
  split at h <;> cases h
  exact (sound_setHostData s _).trans hs

theorem hostStore_keeps_sound {off : BitVec 7} {w : Width} {v : U32} {s t : State} (hs : s.sound = true)
    (h : (hostStore off w v s).finish = .next t) : t.sound = true := by
  unfold hostStore at h
  split at h
  · exact writeRegister_keeps_sound hs h
  · cases h

theorem hostMemLoad_keeps_sound {a : U64} {s t : State} (hs : s.sound = true)
    (h : (hostMemLoad a s).finish = .next t) : t.sound = true := by
  unfold hostMemLoad at h
  split at h
  · cases h
  split at h <;> cases h
  · exact (sound_setDraws _ _).trans ((sound_setHostData s _).trans hs)
  · exact (sound_setHostData s _).trans hs

theorem hostMemStore_keeps_sound {a : U64} {v : Byte} {s t : State} (hs : s.sound = true)
    (h : (hostMemStore a v s).finish = .next t) : t.sound = true := by
  unfold hostMemStore at h
  split at h
  · cases h
  split at h <;> cases h
  exact sound_setByte hs _ v

theorem hostStep_keeps_sound {a : HostAction} {s t : State} (hs : s.sound = true) (h : hostStep a s = .next t) :
    t.sound = true := by
  cases a with
  | load off w => exact hostLoad_keeps_sound hs h
  | store off w v => exact hostStore_keeps_sound hs h
  | memLoad a => exact hostMemLoad_keeps_sound hs h
  | memStore a v => exact hostMemStore_keeps_sound hs h
  | powerOn =>
    cases h
    exact sound_powerOnReset hs
  | peerIssue p => exact peerIssue_keeps_sound hs h
  | peerDone p =>
    cases h
    exact sound_peerDone hs p

/-! ### The obligations -/

/-- Settles O8, by whose turn it is: the core's own ends as `exec_endsIn` says, and each host action keeps each clause. -/
theorem stepKeepsSound : Obligations.StepKeepsSound := by
  unfold Obligations.StepKeepsSound
  intro s t hs h
  unfold step at h
  split at h
  · exact coreTurn_keeps_sound hs h
  · next ts _ => exact coreTurn_keeps_sound ((sound_setInbox s ts).trans hs) h
  · next a ts _ => exact hostStep_keeps_sound ((sound_setInbox s ts).trans hs) h

/-- Settles O9: reset registers, an empty memory and no peer. -/
theorem resetIsSound : Obligations.ResetIsSound := by
  unfold Obligations.ResetIsSound
  exact sound_of_resetRegs rfl rfl rfl

end Sys2Proof.Machine
end

