-- ==== Sys2Proof/Proofs/Registers.lean ====
section
/-! PROOF of O48, O49, O50, O51, O53 and O57: the register block as the host sees it. -/

namespace Sys2Proof.Machine

/-! ### Reads -/

/-- A register load of 32 bits at an aligned offset gives the register's value and changes nothing else. -/
theorem hostStep_load {off : BitVec 7} (h : off.toNat % 4 = 0) (s : State) :
    hostStep (.load off .w32) s = .next (s.setHostData (readRegister s off)) := by
  simp [hostStep, hostLoad, isRegisterAccess, h]

/-- The offsets past the last register are reserved (10_state.md R101). -/
theorem readRegister_of_reserved (s : State) {off : BitVec 7} (h : 0x48 ≤ off.toNat) : readRegister s off = 0 := by
  unfold readRegister
  split
  any_goals omega
  rfl

theorem ctrlWord_toNat (s : State) : s.ctrlWord.toNat = s.regs.ie.toNat := by
  unfold State.ctrlWord
  cases s.regs.ie <;> rfl

theorem statusWord_toNat (s : State) :
    s.statusWord.toNat = s.regs.busy.toNat + 2 * s.regs.done.toNat + 4 * (s.regs.done && s.regs.ie).toNat := by
  unfold State.statusWord State.irq
  cases s.regs.busy <;> cases s.regs.done <;> cases s.regs.ie <;> rfl

/-- Settles O48: each offset is its own line of the register map. -/
theorem registerReads : Obligations.RegisterReads := by
  unfold Obligations.RegisterReads
  intro s
  refine ⟨fun off h => hostStep_load h s, rfl, rfl, ctrlWord_toNat s, statusWord_toNat s, ?_⟩
  exact ⟨rfl, rfl, rfl, rfl, rfl, rfl, rfl, rfl, rfl, rfl, rfl, rfl, rfl, rfl, fun _ h => readRegister_of_reserved s h⟩

/-- Settles O57: the state is a literal, and the 128 offsets are evaluated. -/
theorem resetRegisterValues : Obligations.ResetRegisterValues := by
  unfold Obligations.ResetRegisterValues
  refine ⟨rfl, rfl, ?_, rfl⟩
  decide

/-! ### Writes -/

/-- A write outside `CTRL`, `STATUS` and `CMD` writes an operand register, unless the core is busy (10_state.md R109). -/
theorem writeRegister_operand {off : BitVec 7} (h : off.toNat ∉ [0x08, 0x0C, 0x10]) (v : U32) (s : State) :
    writeRegister off v s = .ok (if s.regs.busy then s else s.setRegs (writeOperand s.regs off v)) := by
  simp only [List.mem_cons, List.not_mem_nil, or_false, not_or] at h
  obtain ⟨hctrl, hstatus, hcmd⟩ := h
  unfold writeRegister
  rw [if_neg hctrl, if_neg hstatus, if_neg hcmd]
  split <;> rfl

/-- No operand register stands at any other offset (10_state.md R101). -/
theorem writeOperand_of_not_operand {off : BitVec 7} (h : off.toNat ∉ [0x20, 0x24, 0x28, 0x30, 0x34, 0x38, 0x40, 0x44])
    (r : Regs) (v : U32) : writeOperand r off v = r := by
  simp only [List.mem_cons, List.not_mem_nil, or_false] at h
  unfold writeOperand
  split
  any_goals omega
  rfl

/-- Settles O49: none of these offsets is `CTRL`, `STATUS`, `CMD` or an operand register. -/
theorem readOnlyWritesIgnored : Obligations.ReadOnlyWritesIgnored := by
  unfold Obligations.ReadOnlyWritesIgnored
  intro s off v haligned hoff
  simp only [List.mem_cons, List.not_mem_nil, or_false] at hoff
  have notControl : off.toNat ∉ [0x08, 0x0C, 0x10] := by
    simp only [List.mem_cons, List.not_mem_nil, or_false]
    omega
  have notOperand : off.toNat ∉ [0x20, 0x24, 0x28, 0x30, 0x34, 0x38, 0x40, 0x44] := by
    simp only [List.mem_cons, List.not_mem_nil, or_false]
    omega
  rw [hostStep_store haligned, writeRegister_operand notControl, writeOperand_of_not_operand notOperand,
    State.setRegs_self, ite_self, Run.finish_ok]

theorem hostStep_storeOperand {s : State} (hidle : s.regs.busy = false) {off : BitVec 7} (haligned : off.toNat % 4 = 0)
    (h : off.toNat ∉ [0x08, 0x0C, 0x10]) (v : U32) :
    hostStep (.store off .w32 v) s = .next (s.setRegs (writeOperand s.regs off v)) := by
  rw [hostStep_store haligned, writeRegister_operand h, hidle]
  rfl

/-- Settles O51: an idle store is `writeOperand`, whose lines are the eight registers. -/
theorem operandWritesLatch : Obligations.OperandWritesLatch := by
  unfold Obligations.OperandWritesLatch
  intro s v hidle
  have write := fun (off : BitVec 7) haligned h => hostStep_storeOperand hidle (off := off) haligned h v
  exact ⟨write 0x20#7 rfl (by decide), write 0x24#7 rfl (by decide), write 0x28#7 rfl (by decide),
    write 0x30#7 rfl (by decide), write 0x34#7 rfl (by decide), write 0x38#7 rfl (by decide),
    write 0x40#7 rfl (by decide), write 0x44#7 rfl (by decide)⟩

/-- A write to `STATUS` clears `DONE` where bit 1 is 1 (10_state.md R105). -/
theorem writeStatus_eq (v : U32) (s : State) :
    writeStatus v s = s.setRegs { s.regs with done := s.regs.done && !v.getLsbD 1 } := by
  unfold writeStatus
  cases v.getLsbD 1 with
  | false =>
    rw [Bool.not_false, Bool.and_true]
    rfl
  | true =>
    rw [Bool.not_true, Bool.and_false]
    rfl

theorem writeCtrl_of_no_srst {v : U32} (h : v.getLsbD 1 = false) (s : State) :
    writeCtrl v s = s.setRegs { s.regs with ie := v.getLsbD 0 } := by
  rw [writeCtrl, h]
  rfl

/-- Settles O53: the two offsets are the first two branches of a register write, before the test of `BUSY`. -/
theorem ctrlAndStatusWrites : Obligations.CtrlAndStatusWrites := by
  unfold Obligations.CtrlAndStatusWrites
  intro s v
  constructor
  · intro hsrst
    have ctrl : writeRegister 0x08#7 v s = .ok (writeCtrl v s) := rfl
    rw [hostStep_store rfl, ctrl, writeCtrl_of_no_srst hsrst]
    rfl
  · have status : writeRegister 0x0C#7 v s = .ok (writeStatus v s) := rfl
    rw [hostStep_store rfl, status, writeStatus_eq]
    rfl

/-! ### Accesses that are none of the block's registers -/

/-- An address that is no byte of the block names no offset. -/
theorem blockOffset_eq_none {addr : U64} (h : ∀ off, addr ≠ registerAddress off) : blockOffset addr = none := by
  by_contra hsome
  obtain ⟨off, hoff⟩ := (isBlockByte_iff addr).1 (Option.isSome_iff_ne_none.2 hsome)
  exact h off hoff

theorem loadAt_block (off : BitVec 7) (width : Width) : loadAt (registerAddress off) width = [.load off width] := by
  rw [loadAt, blockOffset_registerAddress]

theorem storeAt_block (off : BitVec 7) (width : Width) (v : U64) :
    storeAt (registerAddress off) width v = [.store off width (v.setWidth 32)] := by
  rw [storeAt, blockOffset_registerAddress]

/-- An access that starts outside the block is its bytes. -/
theorem loadAt_memory {addr : U64} (h : ∀ off, addr ≠ registerAddress off) (width : Width) :
    loadAt addr width = (List.range width.bytes).map fun i => .memLoad (addr + BitVec.ofNat 64 i) := by
  rw [loadAt, blockOffset_eq_none h, accessBytes]
  simp

theorem storeAt_memory {addr : U64} (h : ∀ off, addr ≠ registerAddress off) (width : Width) (v : U64) :
    storeAt addr width v = (List.range width.bytes).map fun i =>
      .memStore (addr + BitVec.ofNat 64 i) (v.extractLsb' (8 * i) 8) := by
  rw [storeAt, blockOffset_eq_none h, accessBytes]
  simp

/-- Another width or an unaligned offset is no register access (10_state.md R100). -/
theorem isRegisterAccess_eq_false {off : BitVec 7} {width : Width} (h : width ≠ .w32 ∨ off.toNat % 4 ≠ 0) :
    isRegisterAccess off width = false := by
  rcases h with h | h <;> simp [isRegisterAccess, h]

theorem hostStep_memLoad_block (off : BitVec 7) (s : State) :
    hostStep (.memLoad (registerAddress off)) s = .fault .mmioAccess := by
  rw [hostStep, hostMemLoad_block ((isBlockByte_iff _).2 ⟨off, rfl⟩), Run.finish_fault]

theorem hostStep_memStore_block (off : BitVec 7) (v : Byte) (s : State) :
    hostStep (.memStore (registerAddress off) v) s = .fault .mmioAccess := by
  rw [hostStep, hostMemStore_block ((isBlockByte_iff _).2 ⟨off, rfl⟩), Run.finish_fault]

/-- Settles O50: an access that starts in the block is one register access, tested for width and alignment; any other
is its bytes, of which one in the block faults. -/
theorem mmioAccessFaults : Obligations.MmioAccessFaults := by
  unfold Obligations.MmioAccessFaults
  refine ⟨fun off width v => ⟨loadAt_block off width, storeAt_block off width v⟩, fun s off width v h => ?_,
    fun s off v => ⟨hostStep_memLoad_block off s, hostStep_memStore_block off v s⟩, fun addr width v h => ?_⟩
  · simp [hostStep, hostLoad, hostStore, isRegisterAccess_eq_false h]
  · refine ⟨loadAt_memory h width, storeAt_memory h width v, fun off k hk hin => ?_⟩
    rw [loadAt_memory h, storeAt_memory h]
    have hmem := List.mem_range.2 hk
    refine ⟨⟨_, List.mem_map_of_mem hmem, fun s => ?_⟩, ⟨_, List.mem_map_of_mem hmem, fun s => ?_⟩⟩
    · rw [hin]
      exact hostStep_memLoad_block off s
    · rw [hin]
      exact hostStep_memStore_block off _ s

end Sys2Proof.Machine
end

