-- ==== Sys2Proof/Proofs/Windows.lean ====
section
/-! PROOF of O11, O14, O43 and O58: the checks of a command's windows, what the command can do outside them, and what the
host can do to them while it runs. -/

namespace Sys2Proof.Machine

/-! ### Ranges and bytes inside the windows -/

theorem Grant.mayRead_iff (g : Grant) (a : Int) (n : Nat) :
    g.mayRead a n = true ↔ ∃ w ∈ g.reads, (w.base : Int) ≤ a ∧ a + n ≤ w.base + w.len := by
  simp only [Grant.mayRead, List.any_eq_true, Window.holds, decide_eq_true_eq]

theorem Grant.mayWrite_iff (g : Grant) (a : Int) (n : Nat) :
    g.mayWrite a n = true ↔ ∃ w ∈ g.writes, (w.base : Int) ≤ a ∧ a + n ≤ w.base + w.len := by
  simp only [Grant.mayWrite, List.any_eq_true, Window.holds, decide_eq_true_eq]

theorem Grant.writesByte_eq_false_iff (g : Grant) (a : Nat) :
    g.writesByte a = false ↔ ∀ w ∈ g.writes, a < w.base ∨ w.base + w.len ≤ a := by
  simp only [Grant.writesByte, List.any_eq_false, Window.hasByte, decide_eq_true_eq, not_and_or, not_le, not_lt]

theorem Grant.wraps_iff (g : Grant) : g.wraps = true ↔ ∃ w ∈ g.reads ++ g.writes, 2 ^ 64 < w.base + w.len := by
  simp only [Grant.wraps, List.any_eq_true, Window.wraps_iff]

theorem Grant.selfOverlaps_iff (g : Grant) :
    g.selfOverlaps = true ↔
      ∃ r ∈ g.reads, ∃ w ∈ g.writes, ∃ a, r.hasByte a = true ∧ w.hasByte a = true := by
  simp only [Grant.selfOverlaps, List.any_eq_true, Window.overlaps_iff]

/-! ### Accesses outside the windows (20_memory.md R210) -/

theorem coreRead_outside {g : Grant} {a : Int} {n : Nat} (h : g.mayRead a n = false) (kind : ReadKind) (s : State) :
    coreRead g kind a n s = .error (.fault kind.fault) := by
  rw [coreRead, h]
  rfl

theorem coreWrite_outside {g : Grant} {a : Int} {bs : List Byte} (h : g.mayWrite a bs.length = false) (s : State) :
    coreWrite g a bs s = .error (.fault .dstOverrun) := by
  rw [coreWrite, h]
  rfl

theorem coreWriteSpill_outside {g : Grant} {a : Int} {n : Nat} (h : g.mayWrite a n = false) (bs : List Byte)
    (s : State) : coreWriteSpill g a bs n s = .error (.fault .dstOverrun) := by
  rw [coreWriteSpill, h]
  rfl

/-- Settles O43: each access tests its whole range against the windows of its kind. -/
theorem accessesOutsideWindowsFault : Obligations.AccessesOutsideWindowsFault := by
  unfold Obligations.AccessesOutsideWindowsFault
  refine ⟨fun g a n s hout => ?_, fun g a bs n s => ⟨fun hout => ?_, fun hout => ?_⟩⟩
  · have unheld : g.mayRead a n = false := Bool.eq_false_iff.2 (mt (g.mayRead_iff a n).1 hout)
    exact ⟨coreRead_outside unheld .source s, coreRead_outside unheld .table s⟩
  · exact coreWrite_outside (Bool.eq_false_iff.2 (mt (g.mayWrite_iff a _).1 hout)) s
  · exact coreWriteSpill_outside (Bool.eq_false_iff.2 (mt (g.mayWrite_iff a n).1 hout)) bs s

/-- Settles O14: a command ends from a state its run reached by stores inside its write windows (`exec_endsIn`). -/
theorem commandsStayInWindows : Obligations.CommandsStayInWindows := by
  unfold Obligations.CommandsStayInWindows
  intro i s t h a hout
  obtain ⟨c, n, u, rfl, run, -⟩ := exec_endsIn h
  rw [byteAt_complete]
  exact run.bytes a ((Grant.writesByte_eq_false_iff _ a).2 hout)

/-! ### A run past its window checks faults by an access alone -/

/-- The fault of an access outside the windows (20_memory.md R210). -/
def Fault.ofAccess (f : Fault) : Prop := f = .srcOverread ∨ f = .tblOverread ∨ f = .dstOverrun

/-- `r`, a part of a command's run, faults by an access outside the windows or not at all. -/
def FaultsByAccess {α : Type} (r : Run α) : Prop := ∀ f, r = .error (.fault f) → f.ofAccess

theorem ReadKind.fault_ofAccess (kind : ReadKind) : kind.fault.ofAccess := by
  cases kind with
  | source => exact .inl rfl
  | table => exact .inr (.inl rfl)

theorem FaultsByAccess.ok {α : Type} (a : α) : FaultsByAccess (.ok a : Run α) := fun _ h => nomatch h

theorem FaultsByAccess.bind {α β : Type} {r : Run α} {f : α → Run β} (h : FaultsByAccess r)
    (k : ∀ a, FaultsByAccess (f a)) : FaultsByAccess (r >>= f) := fun e he => by
  rcases Run.bind_eq_error he with he | ⟨a, -, he⟩
  · exact h e he
  · exact k a e he

theorem FaultsByAccess.require (p : Bool) (c : ErrorCode) (s : State) : FaultsByAccess (require p c s) := fun f hf => by
  obtain ⟨-, he⟩ := require_eq_error hf
  cases he

theorem FaultsByAccess.sweep {α : Type} {f : α → State → Run State} (h : ∀ a s, FaultsByAccess (f a s)) (as : List α)
    (s : State) : FaultsByAccess (sweep f as s) := by
  induction as generalizing s with
  | nil => exact .ok s
  | cons a as ih =>
    rw [sweep_cons]
    exact (h a s).bind ih

theorem FaultsByAccess.collect {α β : Type} {f : α → Run β} (h : ∀ a, FaultsByAccess (f a)) (as : List α) :
    FaultsByAccess (collect f as) := by
  induction as with
  | nil => exact .ok []
  | cons a as ih =>
    rw [collect_cons]
    exact (h a).bind fun b => ih.bind fun bs => .ok (b :: bs)

theorem coreRead_faultsByAccess (g : Grant) (kind : ReadKind) (a : Int) (n : Nat) (s : State) :
    FaultsByAccess (coreRead g kind a n s) := by
  unfold coreRead
  split
  · exact .ok _
  · intro f hf
    cases hf
    exact kind.fault_ofAccess

theorem coreWrite_faultsByAccess (g : Grant) (a : Int) (bs : List Byte) (s : State) :
    FaultsByAccess (coreWrite g a bs s) := by
  unfold coreWrite
  split
  · exact .ok _
  · intro f hf
    cases hf
    exact .inr (.inr rfl)

theorem coreWriteSpill_faultsByAccess (g : Grant) (a : Int) (bs : List Byte) (n : Nat) (s : State) :
    FaultsByAccess (coreWriteSpill g a bs n s) := by
  unfold coreWriteSpill
  split
  · exact .ok _
  · intro f hf
    cases hf
    exact .inr (.inr rfl)

/-- A read whose bytes give the result without a further access. -/
theorem coreRead_ok_faultsByAccess {β : Type} (g : Grant) (kind : ReadKind) (a : Int) (n : Nat) (s : State)
    (v : Vector Byte n → β) : FaultsByAccess (coreRead g kind a n s >>= fun b => (.ok (v b) : Run β)) :=
  (coreRead_faultsByAccess g kind a n s).bind fun b => .ok (v b)

theorem buildStats_faultsByAccess (g : Grant) (pb : Nat) (s : State) : FaultsByAccess (buildStats g pb s) :=
  (FaultsByAccess.sweep (fun _ s => coreRead_ok_faultsByAccess g .source _ 1 s _) _ _).bind fun _ => .ok _

theorem storeTable_faultsByAccess (g : Grant) (s : State) : FaultsByAccess (storeTable g s) :=
  .sweep (fun _ s => coreWrite_faultsByAccess g _ _ s) _ s

theorem loadTable_faultsByAccess (g : Grant) (s : State) : FaultsByAccess (loadTable g s) :=
  .sweep (fun _ s => coreRead_ok_faultsByAccess g .table _ 8 s _) _ s

theorem writeBlockRow_faultsByAccess (g : Grant) (nb : Nat) (p : Nat × BlockRow) (s : State) :
    FaultsByAccess (writeBlockRow g nb p s) :=
  (FaultsByAccess.sweep (fun _ s => coreWrite_faultsByAccess g _ _ s) _ s).bind fun u =>
    (coreWrite_faultsByAccess g _ _ u).bind fun v => coreWrite_faultsByAccess g _ _ v

theorem writeIndexPad_faultsByAccess (g : Grant) (nb : Nat) (s : State) : FaultsByAccess (writeIndexPad g nb s) := by
  unfold writeIndexPad
  split
  · exact coreWrite_faultsByAccess g _ _ s
  · exact .ok s

theorem writeContainerMeta_faultsByAccess (g : Grant) (nb srcLen tc pb : Nat) (s : State) :
    FaultsByAccess (writeContainerMeta g nb srcLen tc pb s) :=
  (FaultsByAccess.sweep (fun _ s => coreWrite_faultsByAccess g _ _ s) _ s).bind fun u =>
    (FaultsByAccess.sweep (fun _ s => coreWrite_faultsByAccess g _ _ s) _ u).bind fun v =>
      (FaultsByAccess.sweep (writeBlockRow_faultsByAccess g nb) _ v).bind fun w => writeIndexPad_faultsByAccess g nb w

theorem encGroup_faultsByAccess (gr : Grant) (pb nb k w : Nat) (g : Fin 4) (s : State) :
    FaultsByAccess (encGroup gr pb nb k w g s) :=
  (coreRead_faultsByAccess gr .source _ 8 s).bind fun _ =>
    (coreWriteSpill_faultsByAccess gr _ _ 16 s).bind fun _ => .ok _

theorem encodeBlock_faultsByAccess (gr : Grant) (pb nb k : Nat) (s : State) :
    FaultsByAccess (encodeBlock gr pb nb k s) :=
  (FaultsByAccess.sweep (fun w s => .sweep (encGroup_faultsByAccess gr pb nb k w) _ s) _ _).bind fun _ => .ok _

theorem encodeContainer_faultsByAccess (gr : Grant) (pb : Nat) (s : State) :
    FaultsByAccess (encodeContainer gr pb s) :=
  (FaultsByAccess.sweep (encodeBlock_faultsByAccess gr pb _) _ _).bind fun u =>
    writeContainerMeta_faultsByAccess gr _ _ _ pb u

theorem validateContainer_faultsByAccess (g : Grant) (s : State) : FaultsByAccess (validateContainer g s) := by
  have rq := fun p c => FaultsByAccess.require p c s
  unfold validateContainer
  refine (rq _ _).bind fun _ => ?_
  refine (FaultsByAccess.collect (fun _ => coreRead_ok_faultsByAccess g _ _ 4 s _) _).bind fun _ => ?_
  refine (rq _ _).bind fun _ => (rq _ _).bind fun _ => (rq _ _).bind fun _ => (rq _ _).bind fun _ => ?_
  refine (rq _ _).bind fun _ => (rq _ _).bind fun _ => (rq _ _).bind fun _ => ?_
  refine (FaultsByAccess.collect (fun _ => coreRead_ok_faultsByAccess g _ _ 2 s _) _).bind fun _ => ?_
  refine (FaultsByAccess.collect (fun _ => coreRead_ok_faultsByAccess g _ _ 8 s _) _).bind fun _ => ?_
  exact (rq _ _).bind fun _ => (rq _ _).bind fun _ => (rq _ _).bind fun _ => .ok _

theorem decFeedGroup_faultsByAccess (gr : Grant) (nb : Nat) (g : Fin 4) (s : State) :
    FaultsByAccess (decFeedGroup gr nb g s) := by
  unfold decFeedGroup
  simp only
  split
  · exact .ok _
  · exact coreRead_ok_faultsByAccess gr .source _ 16 s _

theorem decPair_faultsByAccess (gr : Grant) (pb nb k w : Nat) (h : Fin 2) (s : State) :
    FaultsByAccess (decPair gr pb nb k w h s) :=
  (coreWrite_faultsByAccess gr _ _ _).bind fun u => .sweep (decFeedGroup_faultsByAccess gr nb) _ u

theorem decodeBlock_faultsByAccess (gr : Grant) (pb nb : Nat) (p : Nat × (U32 × U32)) (s : State) :
    FaultsByAccess (decodeBlock gr pb nb p s) :=
  (FaultsByAccess.sweep (fun _ s => coreRead_ok_faultsByAccess gr .source _ 4 s _) _ s).bind fun _ =>
    .sweep (fun w s => .sweep (decPair_faultsByAccess gr pb nb p.1 w) _ s) _ _

theorem decodeBlocks_faultsByAccess (gr : Grant) (c : Container) (s : State) :
    FaultsByAccess (decodeBlocks gr c s) :=
  .sweep (decodeBlock_faultsByAccess gr c.probBits c.blocks) _ s

/-- Every command checks its windows and only then runs, and its run faults by an access outside them alone. -/
theorem exec_eq_checkWindows_bind (i : Instr) (s : State) :
    ∃ run : Run State, exec i s = (checkWindows (grantOf i s.snap) >>= fun _ => run).finish ∧ FaultsByAccess run := by
  have rq := fun p c => FaultsByAccess.require p c s
  cases i with
  | nop => exact ⟨_, rfl, .ok _⟩
  | buildTable pb =>
    refine ⟨_, rfl, (rq _ _).bind fun _ => (rq _ _).bind fun _ => (rq _ _).bind fun _ => ?_⟩
    exact (buildStats_faultsByAccess _ pb s).bind fun u => (storeTable_faultsByAccess _ u).bind fun _ => .ok _
  | encode pb =>
    refine ⟨_, rfl, (rq _ _).bind fun _ => (rq _ _).bind fun _ => (rq _ _).bind fun _ => (rq _ _).bind fun _ => ?_⟩
    exact (buildStats_faultsByAccess _ pb s).bind fun u => (encodeContainer_faultsByAccess _ pb u).bind fun _ => .ok _
  | encodeT pb =>
    refine ⟨_, rfl, (rq _ _).bind fun _ => (rq _ _).bind fun _ => (rq _ _).bind fun _ => (rq _ _).bind fun _ => ?_⟩
    exact (loadTable_faultsByAccess _ s).bind fun u => (FaultsByAccess.require _ _ u).bind fun _ =>
      (encodeContainer_faultsByAccess _ pb u).bind fun _ => .ok _
  | decode =>
    refine ⟨_, rfl, (rq _ _).bind fun _ => (validateContainer_faultsByAccess _ s).bind fun c => ?_⟩
    exact (decodeBlocks_faultsByAccess _ c _).bind fun _ => .ok _

/-! ### The window checks (20_memory.md R207, 60_exceptions.md R930) -/

/-- The outcome `o` is the fault the windows of `g` cause, and neither window fault where they cause none. -/
structure DecidedByWindows (g : Grant) (o : Host.Outcome State Fault Refusal) : Prop where
  fault : ∀ f, g.fault? = some f → o = .fault f
  noWrap : g.fault? = none → o ≠ .fault .addressWrap
  noOverlap : g.fault? = none → o ≠ .fault .windowOverlap

theorem exec_decidedByWindows (i : Instr) (s : State) : DecidedByWindows (grantOf i s.snap) (exec i s) := by
  obtain ⟨run, hexec, access⟩ := exec_eq_checkWindows_bind i s
  rw [hexec]
  have past : ∀ f, run.finish = .fault f → f.ofAccess := fun f hf => by
    match run, hf with
    | .error (.fault f), rfl => exact access f rfl
  refine ⟨fun f hf => ?_, fun hnone => ?_, fun hnone => ?_⟩
  · rw [checkWindows, hf]
    rfl
  · rw [checkWindows_none hnone]
    exact fun hf => by simpa [Fault.ofAccess] using past _ hf
  · rw [checkWindows_none hnone]
    exact fun hf => by simpa [Fault.ofAccess] using past _ hf

theorem hostStep_issue {s : State} (hidle : s.regs.busy = false) (x : U32) :
    hostStep (.store 0x10#7 .w32 x) s = (issueCommand x s).finish := by
  have write : writeRegister 0x10#7 x s = if s.regs.busy then .ok s else issueCommand x s := rfl
  rw [hostStep_store rfl, write, hidle]
  rfl

theorem issue_decidedByWindows {s : State} (hidle : s.regs.busy = false) (x : U32) :
    DecidedByWindows (grantOfWord x s.regs.operands) (hostStep (.store 0x10#7 .w32 x) s) := by
  rw [hostStep_issue hidle]
  rcases issueCommand_cases x s with ⟨f, hf, hi⟩ | ⟨hnone, -, hi⟩ | ⟨hnone, -, hi⟩ <;> rw [hi]
  · constructor <;> simp [hf]
  · constructor <;> simp [hnone]
  · constructor <;> simp [hnone]

/-- Which of the two faults it is, read off the windows' bytes and ends: `AddressWrap` comes first. -/
theorem DecidedByWindows.by_bytes {g : Grant} {o : Host.Outcome State Fault Refusal} (h : DecidedByWindows g o) :
    let wraps := ∃ w ∈ g.reads ++ g.writes, 2 ^ 64 < w.base + w.len
    let shares := ∃ r ∈ g.reads, ∃ w ∈ g.writes, ∃ a, r.hasByte a = true ∧ w.hasByte a = true
    (wraps → o = .fault .addressWrap) ∧ (¬wraps → shares → o = .fault .windowOverlap) ∧
      (¬wraps → ¬shares → o ≠ .fault .addressWrap ∧ o ≠ .fault .windowOverlap) := by
  intro wraps shares
  refine ⟨fun hw => h.fault _ ?_, fun hw hs => h.fault _ ?_, fun hw hs => ?_⟩
  · rw [Grant.fault?, if_pos (g.wraps_iff.2 hw)]
  · rw [Grant.fault?, if_neg (mt g.wraps_iff.1 hw), if_pos (g.selfOverlaps_iff.2 hs)]
  · have hnone : g.fault? = none := by
      rw [Grant.fault?, if_neg (mt g.wraps_iff.1 hw), if_neg (mt g.selfOverlaps_iff.1 hs)]
    exact ⟨h.noWrap hnone, h.noOverlap hnone⟩

theorem grantOfWord_of_decode {x : U32} {i : Instr} (h : decodeCommand x = .ok i) (o : Operands) :
    grantOfWord x o = grantOf i o := by
  rw [grantOfWord, h]

theorem grantOfWord_of_illegal {x : U32} {e : DecodeError} (h : decodeCommand x = .error e) (o : Operands) :
    grantOfWord x o = ⟨[], []⟩ := by
  rw [grantOfWord, h]

/-- Settles O11: the run and the issue both make the checks first, and neither can end in these faults after them. -/
theorem windowChecksFault : Obligations.WindowChecksFault := by
  unfold Obligations.WindowChecksFault
  refine ⟨fun i s => (exec_decidedByWindows i s).by_bytes, fun i s x hidle hdecode => ?_⟩
  rw [← grantOfWord_of_decode hdecode]
  exact (issue_decidedByWindows hidle x).by_bytes

/-! ### Host accesses while a command runs (20_memory.md R222) -/

theorem runningGrant_busy {s : State} (h : s.regs.busy = true) : runningGrant s = grantOfWord s.regs.cmd s.snap := by
  rw [runningGrant, if_pos h]

theorem isBlockByte_eq_false {a : U64} (h : ∀ off, a ≠ registerAddress off) : isBlockByte a = false := by
  rw [isBlockByte, blockOffset_eq_none h]
  rfl

/-- A stored byte reads back, the others read as before, and registers and snapshot stay. -/
theorem setByte_effect (s : State) (a : U64) (v : Byte) :
    (s.setByte a.toNat v).byteAt a.toNat = v ∧ (s.setByte a.toNat v).regs = s.regs ∧
      (s.setByte a.toNat v).snap = s.snap ∧ ∀ b, b ≠ a.toNat → (s.setByte a.toNat v).byteAt b = s.byteAt b := by
  obtain ⟨m, hm⟩ := s.setByte_eq_setMem a.toNat v
  refine ⟨?_, by rw [hm]; rfl, by rw [hm]; rfl, fun b hb => State.byteAt_setByte_ne v hb⟩
  rw [State.byteAt_setByte _ v a.isLt, if_pos rfl]

/-- Settles O58: the grant of the statement is the running command's, and outside the block an access is one of two. -/
theorem hostAccessWhileBusy : Obligations.HostAccessWhileBusy := by
  unfold Obligations.HostAccessWhileBusy
  intro s g a v hbusy hout hlegal hillegal
  have running : runningGrant s = g := by
    rw [runningGrant_busy hbusy]
    cases hdecode : decodeCommand s.regs.cmd with
    | ok i => rw [grantOfWord_of_decode hdecode, hlegal i hdecode]
    | error e => rw [grantOfWord_of_illegal hdecode, hillegal e hdecode]
  have memory : isBlockByte a = false := isBlockByte_eq_false hout
  have store := hostMemStore_memory memory v s
  have load := hostMemLoad_memory memory s
  rw [running] at store load
  refine ⟨fun hheld => ?_, fun hfree => ⟨s.setByte a.toNat v, ?_, setByte_effect s a v⟩, fun hheld => ?_, fun hfree => ?_⟩
  · obtain ⟨-, hi⟩ := store.resolve_right fun h => by simp [hheld] at h
    rw [hostStep, hi, Run.finish_fault]
  · obtain ⟨-, hi⟩ := store.resolve_left fun h => by simp [hfree] at h
    rw [hostStep, hi, Run.finish_ok]
  · obtain ⟨-, hi⟩ := load.resolve_right fun h => by simp [hheld] at h
    rw [hostStep, hi]
    rfl
  · obtain ⟨-, hi⟩ := load.resolve_left fun h => by simp [hfree] at h
    rw [hostStep, hi]
    rfl

end Sys2Proof.Machine
end

