-- ==== Sys2Proof/Proofs/Encoding.lean ====
section
/-! PROOF of O1, O2, O3, O4 and O5: the command word through its four fields, the rows of the opcode map as conditions
on them, and what an illegal word does. -/

namespace Sys2Proof.Machine

/-! ### The fields of a word (30_encoding.md R300) -/

/-- The four fields are the whole word. -/
theorem word_eq_iff (x y : U32) :
    x = y ↔ opField x = opField y ∧ pbField x = pbField y ∧ tField x = tField y ∧
      reservedField x = reservedField y := by
  refine ⟨fun h => by rw [h]; exact ⟨rfl, rfl, rfl, rfl⟩, fun ⟨hop, hpb, ht, hres⟩ => ?_⟩
  simp only [opField, pbField, tField, reservedField, BitVec.toNat_eq, BitVec.extractLsb'_toNat,
    Nat.shiftRight_eq_div_pow] at *
  omega

theorem pbField_lt (x : U32) : pbField x < 16 := (x.extractLsb' 4 4).isLt

@[simp] theorem opField_commandWord (op pb : BitVec 4) (t : BitVec 1) : opField (commandWord op pb t) = op :=
  BitVec.extractLsb'_append_eq_right

@[simp] theorem pbField_commandWord (op pb : BitVec 4) (t : BitVec 1) :
    pbField (commandWord op pb t) = pb.toNat := by
  rw [pbField, commandWord, BitVec.extractLsb'_append_eq_of_le (by decide), BitVec.extractLsb'_append_eq_right]

@[simp] theorem tField_commandWord (op pb : BitVec 4) (t : BitVec 1) : tField (commandWord op pb t) = t := by
  rw [tField, commandWord, BitVec.extractLsb'_append_eq_of_le (by decide),
    BitVec.extractLsb'_append_eq_of_le (by decide), BitVec.extractLsb'_append_eq_right]

@[simp] theorem reservedField_commandWord (op pb : BitVec 4) (t : BitVec 1) :
    reservedField (commandWord op pb t) = 0#23 := by
  rw [reservedField, commandWord, BitVec.extractLsb'_append_eq_of_le (by decide),
    BitVec.extractLsb'_append_eq_of_le (by decide), BitVec.extractLsb'_append_eq_left]

/-! ### Masks (30_encoding.md R302) -/

@[simp] theorem opField_and (x y : U32) : opField (x &&& y) = opField x &&& opField y := BitVec.extractLsb'_and

@[simp] theorem pbField_and (x y : U32) : pbField (x &&& y) = pbField x &&& pbField y := by
  rw [pbField, BitVec.extractLsb'_and, BitVec.toNat_and]
  rfl

@[simp] theorem tField_and (x y : U32) : tField (x &&& y) = tField x &&& tField y := BitVec.extractLsb'_and

@[simp] theorem reservedField_and (x y : U32) : reservedField (x &&& y) = reservedField x &&& reservedField y :=
  BitVec.extractLsb'_and

/-- A legal word is the word of its fields. -/
theorem eq_commandWord_iff (x : U32) (op : BitVec 4) (t : BitVec 1) :
    x = commandWord op (BitVec.ofNat 4 (pbField x)) t ↔ opField x = op ∧ tField x = t ∧ reservedField x = 0#23 := by
  rw [word_eq_iff]
  simp [Nat.mod_eq_of_lt (pbField_lt x)]

/-- The mask that clears `PB`. -/
theorem and_clearPb_eq_iff (x : U32) (op : BitVec 4) (t : BitVec 1) :
    x &&& 0xFFFFFF0F#32 = commandWord op 0#4 t ↔ opField x = op ∧ tField x = t ∧ reservedField x = 0#23 := by
  have hmask : opField 0xFFFFFF0F#32 = BitVec.allOnes 4 ∧ pbField 0xFFFFFF0F#32 = 0 ∧
      tField 0xFFFFFF0F#32 = BitVec.allOnes 1 ∧ reservedField 0xFFFFFF0F#32 = BitVec.allOnes 23 := by decide
  rw [word_eq_iff]
  simp [hmask, -BitVec.reduceAllOnes]

/-- The mask that clears `PB` and `T`. -/
theorem and_clearPbT_eq_iff (x : U32) (op : BitVec 4) :
    x &&& 0xFFFFFE0F#32 = commandWord op 0#4 0#1 ↔ opField x = op ∧ reservedField x = 0#23 := by
  have hmask : opField 0xFFFFFE0F#32 = BitVec.allOnes 4 ∧ pbField 0xFFFFFE0F#32 = 0 ∧
      tField 0xFFFFFE0F#32 = 0#1 ∧ reservedField 0xFFFFFE0F#32 = BitVec.allOnes 23 := by decide
  rw [word_eq_iff]
  simp [hmask, -BitVec.reduceAllOnes]

/-- The mask that clears `T`. -/
theorem and_clearT_eq_iff (x : U32) (op : BitVec 4) :
    x &&& 0xFFFFFEFF#32 = commandWord op (BitVec.ofNat 4 (pbField x)) 0#1 ↔
      opField x = op ∧ reservedField x = 0#23 := by
  have hmask : opField 0xFFFFFEFF#32 = BitVec.allOnes 4 ∧ pbField 0xFFFFFEFF#32 = 15 ∧
      tField 0xFFFFFEFF#32 = 0#1 ∧ reservedField 0xFFFFFEFF#32 = BitVec.allOnes 23 := by decide
  have hpb : pbField x &&& 15 = pbField x := Nat.and_two_pow_sub_one_of_lt_two_pow (n := 4) (pbField_lt x)
  rw [word_eq_iff]
  simp [hmask, hpb, Nat.mod_eq_of_lt (pbField_lt x), -BitVec.reduceAllOnes]

/-! ### The rows (30_encoding.md R302) -/

@[simp] theorem rowNop_selects (x : U32) : rowNop.selects x = true ↔ opField x = 0#4 ∧ reservedField x = 0#23 :=
  decide_eq_true_iff.trans (and_clearPbT_eq_iff x 0#4)

@[simp] theorem rowBuildTable_selects (x : U32) :
    rowBuildTable.selects x = true ↔ opField x = 1#4 ∧ reservedField x = 0#23 :=
  decide_eq_true_iff.trans (and_clearPbT_eq_iff x 1#4)

@[simp] theorem rowEncode_selects (x : U32) :
    rowEncode.selects x = true ↔ opField x = 2#4 ∧ tField x = 0#1 ∧ reservedField x = 0#23 :=
  decide_eq_true_iff.trans (and_clearPb_eq_iff x 2#4 0#1)

@[simp] theorem rowEncodeT_selects (x : U32) :
    rowEncodeT.selects x = true ↔ opField x = 2#4 ∧ tField x = 1#1 ∧ reservedField x = 0#23 :=
  decide_eq_true_iff.trans (and_clearPb_eq_iff x 2#4 1#1)

@[simp] theorem rowDecode_selects (x : U32) :
    rowDecode.selects x = true ↔ opField x = 3#4 ∧ reservedField x = 0#23 :=
  decide_eq_true_iff.trans (and_clearPbT_eq_iff x 3#4)

/-- Two rows that select one word agree on the bits both test. -/
theorem bits_agree_of_selects {r r' : OpcodeRow} {x : U32} (h : r.selects x = true) (h' : r'.selects x = true) :
    r.bits &&& r'.mask = r'.bits &&& r.mask := by
  rw [OpcodeRow.selects, decide_eq_true_iff] at h h'
  rw [← h, ← h', BitVec.and_assoc, BitVec.and_assoc, BitVec.and_comm r.mask]

/-- No two rows of the map agree on the bits both test. -/
theorem rows_eq_of_bits_agree :
    ∀ r ∈ opcodeMap, ∀ r' ∈ opcodeMap, r.bits &&& r'.mask = r'.bits &&& r.mask → r = r' := by decide

/-! ### The decoder -/

/-- A command that reads `PB` has the word's (30_encoding.md R301). -/
def hasPbOf (x : U32) : Instr → Prop
  | .nop => True
  | .buildTable pb => pb = pbField x
  | .encode pb => pb = pbField x
  | .encodeT pb => pb = pbField x
  | .decode => True

/-- What a word decodes to: a command of the row it selects, with its `PB`. -/
theorem decodeCommand_eq_ok_iff (x : U32) (i : Instr) :
    decodeCommand x = .ok i ↔ (rowOf i).selects x = true ∧ hasPbOf x i := by
  constructor
  · intro h
    unfold decodeCommand at h
    split_ifs at h with hrow hrow hrow hrow hrow <;> cases h <;> exact ⟨hrow, by trivial⟩
  · rintro ⟨hrow, hpb⟩
    cases i with
    | nop => exact if_pos hrow
    | buildTable pb =>
      obtain ⟨hop, hres⟩ := (rowBuildTable_selects x).1 hrow
      simp [decodeCommand, hop, hres, hpb.symm]
    | encode pb =>
      obtain ⟨hop, ht, hres⟩ := (rowEncode_selects x).1 hrow
      simp [decodeCommand, hop, ht, hres, hpb.symm]
    | encodeT pb =>
      obtain ⟨hop, ht, hres⟩ := (rowEncodeT_selects x).1 hrow
      simp [decodeCommand, hop, ht, hres, hpb.symm]
    | decode =>
      obtain ⟨hop, hres⟩ := (rowDecode_selects x).1 hrow
      simp [decodeCommand, hop, hres]

theorem pbField_commandWord_ofNat {pb : Nat} (h : probBitsFit pb = true) (op : BitVec 4) (t : BitVec 1) :
    pb = pbField (commandWord op (BitVec.ofNat 4 pb) t) := by
  rw [pbField_commandWord, BitVec.toNat_ofNat, Nat.mod_eq_of_lt (of_decide_eq_true h)]

theorem hasPbOf_encodeCommand {i : Instr} (h : i.wellFormed = true) : hasPbOf (encodeCommand i) i := by
  cases i with
  | nop => trivial
  | buildTable pb => exact pbField_commandWord_ofNat h 1#4 0#1
  | encode pb => exact pbField_commandWord_ofNat h 2#4 0#1
  | encodeT pb => exact pbField_commandWord_ofNat h 2#4 1#1
  | decode => trivial

theorem rowOf_selects_encodeCommand (i : Instr) (h : i.wellFormed = true) :
    (rowOf i).selects (encodeCommand i) = true := by
  cases i with
  | nop => exact Laws.RowMatch.nop h
  | buildTable pb => exact Laws.RowMatch.buildTable pb h
  | encode pb => exact Laws.RowMatch.encode pb h
  | encodeT pb => exact Laws.RowMatch.encodeT pb h
  | decode => exact Laws.RowMatch.decode h

/-- Settles O1: the encoder's word selects the command's row and holds its `PB`. -/
theorem commandWordsRoundTrip : Obligations.CommandWordsRoundTrip := by
  unfold Obligations.CommandWordsRoundTrip
  intro i h
  exact (decodeCommand_eq_ok_iff _ i).2 ⟨rowOf_selects_encodeCommand i h, hasPbOf_encodeCommand h⟩

/-- Every row is the row of a command, whatever `PB` the word holds. -/
theorem exists_rowOf_eq {r : OpcodeRow} (hr : r ∈ opcodeMap) (x : U32) : ∃ i, rowOf i = r ∧ hasPbOf x i := by
  simp only [opcodeMap, List.mem_cons, List.not_mem_nil, or_false] at hr
  rcases hr with rfl | rfl | rfl | rfl | rfl
  · exact ⟨.nop, rfl, trivial⟩
  · exact ⟨.buildTable (pbField x), rfl, rfl⟩
  · exact ⟨.encode (pbField x), rfl, rfl⟩
  · exact ⟨.encodeT (pbField x), rfl, rfl⟩
  · exact ⟨.decode, rfl, trivial⟩

/-- A word that selects a row decodes to a command of that row. -/
theorem exists_decodeCommand_of_selects {r : OpcodeRow} (hr : r ∈ opcodeMap) {x : U32} (h : r.selects x = true) :
    ∃ i, decodeCommand x = .ok i ∧ rowOf i = r := by
  obtain ⟨i, rfl, hpb⟩ := exists_rowOf_eq hr x
  exact ⟨i, (decodeCommand_eq_ok_iff x i).2 ⟨h, hpb⟩, rfl⟩

/-- Settles O2: rows that select one word agree where both look, and the decoder reads the selected row. -/
theorem opcodeRowsSelect : Obligations.OpcodeRowsSelect := by
  unfold Obligations.OpcodeRowsSelect
  refine fun x => ⟨fun r hr r' hr' h h' => ?_, fun r hr h => ?_, fun i h => ?_⟩
  · exact rows_eq_of_bits_agree r hr r' hr' (bits_agree_of_selects h h')
  · exact exists_decodeCommand_of_selects hr h
  · exact ((decodeCommand_eq_ok_iff x i).1 h).1

theorem probBitsFit_pbField (x : U32) : probBitsFit (pbField x) = true := decide_eq_true (pbField_lt x)

/-- Settles O3: the masks are those of `and_clearPbT_eq_iff` and `and_clearT_eq_iff`. -/
theorem decodedWordsReencode : Obligations.DecodedWordsReencode := by
  unfold Obligations.DecodedWordsReencode
  intro x i h
  obtain ⟨hrow, hpb⟩ := (decodeCommand_eq_ok_iff x i).1 h
  cases i with
  | nop => exact ⟨rfl, ((and_clearPbT_eq_iff x 0#4).2 ((rowNop_selects x).1 hrow)).symm⟩
  | buildTable pb =>
    subst hpb
    exact ⟨probBitsFit_pbField x, ((and_clearT_eq_iff x 1#4).2 ((rowBuildTable_selects x).1 hrow)).symm⟩
  | encode pb =>
    subst hpb
    exact ⟨probBitsFit_pbField x, ((eq_commandWord_iff x 2#4 0#1).2 ((rowEncode_selects x).1 hrow)).symm⟩
  | encodeT pb =>
    subst hpb
    exact ⟨probBitsFit_pbField x, ((eq_commandWord_iff x 2#4 1#1).2 ((rowEncodeT_selects x).1 hrow)).symm⟩
  | decode => exact ⟨rfl, ((and_clearPbT_eq_iff x 3#4).2 ((rowDecode_selects x).1 hrow)).symm⟩

/-! ### Illegal words (30_encoding.md R303) -/

/-- A word whose `OP` is below 4 and whose reserved bits are 0 selects a row: `T` chooses between the two of `OP` 2. -/
theorem exists_selects_of_fields {x : U32} (hop : (opField x).toNat < 4) (hres : reservedField x = 0#23) :
    ∃ r ∈ opcodeMap, r.selects x = true := by
  have hops : opField x = 0#4 ∨ opField x = 1#4 ∨ opField x = 2#4 ∨ opField x = 3#4 := by bv_omega
  have ht : tField x = 0#1 ∨ tField x = 1#1 := BitVec.eq_zero_or_eq_one _
  rcases hops with hop | hop | hop | hop
  · exact ⟨rowNop, by decide, (rowNop_selects x).2 ⟨hop, hres⟩⟩
  · exact ⟨rowBuildTable, by decide, (rowBuildTable_selects x).2 ⟨hop, hres⟩⟩
  · rcases ht with ht | ht
    · exact ⟨rowEncode, by decide, (rowEncode_selects x).2 ⟨hop, ht, hres⟩⟩
    · exact ⟨rowEncodeT, by decide, (rowEncodeT_selects x).2 ⟨hop, ht, hres⟩⟩
  · exact ⟨rowDecode, by decide, (rowDecode_selects x).2 ⟨hop, hres⟩⟩

theorem exists_decodeCommand_of_fields {x : U32} (hop : (opField x).toNat < 4) (hres : reservedField x = 0#23) :
    ∃ i, decodeCommand x = .ok i := by
  obtain ⟨r, hr, h⟩ := exists_selects_of_fields hop hres
  obtain ⟨i, hi, -⟩ := exists_decodeCommand_of_selects hr h
  exact ⟨i, hi⟩

/-- Every row tests the whole of `OP`, for a value below 4, and all the reserved bits, for 0. -/
theorem rows_test_op_and_reserved : ∀ r ∈ opcodeMap, opField r.mask = BitVec.allOnes 4 ∧ (opField r.bits).toNat < 4 ∧
    reservedField r.mask = BitVec.allOnes 23 ∧ reservedField r.bits = 0#23 := by decide

theorem fields_of_selects {r : OpcodeRow} (hr : r ∈ opcodeMap) {x : U32} (h : r.selects x = true) :
    (opField x).toNat < 4 ∧ reservedField x = 0#23 := by
  obtain ⟨hopMask, hop, hresMask, hres⟩ := rows_test_op_and_reserved r hr
  rw [OpcodeRow.selects, decide_eq_true_iff] at h
  rw [← h, opField_and, hopMask, BitVec.and_allOnes] at hop
  rw [← h, reservedField_and, hresMask, BitVec.and_allOnes] at hres
  exact ⟨hop, hres⟩

theorem rowOf_mem (i : Instr) : rowOf i ∈ opcodeMap := by
  cases i <;> simp [rowOf, opcodeMap]

theorem exists_error_of_illegal {x : U32} (h : 4 ≤ (opField x).toNat ∨ reservedField x ≠ 0) :
    ∃ e, decodeCommand x = .error e := by
  cases hdecode : decodeCommand x with
  | error e => exact ⟨e, rfl⟩
  | ok i =>
    obtain ⟨hop, hres⟩ := fields_of_selects (rowOf_mem i) ((decodeCommand_eq_ok_iff x i).1 hdecode).1
    exact absurd h (not_or.2 ⟨Nat.not_le.2 hop, not_not.2 hres⟩)

theorem coreTurn_of_illegal {s : State} (hbusy : s.regs.busy = true)
    (h : 4 ≤ (opField s.regs.cmd).toNat ∨ reservedField s.regs.cmd ≠ 0) :
    coreTurn s = .next (raise .illegalCommand s) := by
  obtain ⟨e, he⟩ := exists_error_of_illegal h
  rw [coreTurn, fetch, if_pos hbusy, he]
  rfl

theorem step_of_no_turn {s : State} (h : s.inbox = []) : step s = coreTurn s := by
  rw [step, h]

theorem step_of_core_turn {s : State} {ts : List Turn} (h : s.inbox = .core :: ts) :
    step s = coreTurn (s.setInbox ts) := by
  rw [step, h]

/-- Settles O4: an illegal word selects no row, so the core's turn raises `IllegalCommand`. -/
theorem illegalWordsComplete : Obligations.IllegalWordsComplete := by
  unfold Obligations.IllegalWordsComplete
  refine ⟨fun s hbusy h => ⟨fun hinbox => ?_, fun ts hinbox => ?_⟩, fun x => exists_decodeCommand_of_fields⟩
  · rw [step_of_no_turn hinbox, coreTurn_of_illegal hbusy h]
    rfl
  · rw [step_of_core_turn hinbox, coreTurn_of_illegal (s := s.setInbox ts) hbusy h]
    rfl

/-- Settles O5: eight closed words, evaluated. -/
theorem manualWordsDecode : Obligations.ManualWordsDecode := by
  unfold Obligations.ManualWordsDecode
  decide

end Sys2Proof.Machine
end

