-- ==== Sys2Proof/Proofs/Commands.lean ====
section
/-! PROOF of O6, O7, O10, O12 and O16: the core's turn while busy and while idle, the issue of a word, and how a command
completes. -/

namespace Sys2Proof.Machine

/-! ### Completion (40_commands.md R404) -/

/-- A command that ends as `EndsIn` says has written the status registers alone: stores stay in host memory. -/
theorem EndsIn.regs {g : Grant} {s t : State} (h : EndsIn g s t) :
    ∃ (c : ErrorCode) (n : U32), t.regs = { s.regs with error := c.word, result := n, busy := false, done := true } := by
  obtain ⟨c, n, u, rfl, hu, -⟩ := h
  exact ⟨c, n, by rw [complete_regs, hu.regs]⟩

/-- Nor does it touch the snapshot, the turns to come, the host's data and the other instances. -/
theorem EndsIn.outside {g : Grant} {s t : State} (h : EndsIn g s t) :
    t.snap = s.snap ∧ t.inbox = s.inbox ∧ t.hostData = s.hostData ∧ t.peers = s.peers := by
  obtain ⟨c, n, u, rfl, hu, -⟩ := h
  exact ⟨hu.snap, hu.inbox, hu.hostData, hu.peers⟩

/-- Settles O12: `exec_endsIn`, whatever the command; `DONE` is then 1, so `irq` is `CTRL.IE`. -/
theorem completionWritesStatus : Obligations.CompletionWritesStatus := by
  unfold Obligations.CompletionWritesStatus
  intro i s t h
  have hend := exec_endsIn h
  obtain ⟨c, n, hregs⟩ := hend.regs
  refine ⟨?_, ?_, ?_, hend.outside⟩
  · rw [hregs]
  · rw [hregs]
    exact c.word_le
  · rw [State.irq, hregs]
    exact Bool.true_and _

/-! ### The core's turn (40_commands.md R402) -/

theorem coreTurn_of_decode {s : State} {i : Instr} (hbusy : s.regs.busy = true)
    (h : decodeCommand s.regs.cmd = .ok i) : coreTurn s = exec i s := by
  rw [coreTurn, fetch, if_pos hbusy, h]

theorem coreTurn_of_idle {s : State} (hidle : s.regs.busy = false) : coreTurn s = .next s := by
  simp [coreTurn, fetch, hidle]

theorem step_of_host_turn {s : State} {a : HostAction} {ts : List Turn} (h : s.inbox = .host a :: ts) :
    step s = hostStep a (s.setInbox ts) := by
  rw [step, h]

/-- A table word of 32 bits has no bit above the word's (30_encoding.md R304). -/
theorem tableWord_32 (w : Nat) : tableWord 32 w = BitVec.ofNat 32 w := by
  apply BitVec.eq_of_toNat_eq
  simp [tableWord]

theorem decodeTableWord_eq_some_iff (nbits w : Nat) (i : Instr) :
    decodeTableWord nbits w = some i ↔ decodeCommand (tableWord nbits w) = .ok i := by
  unfold decodeTableWord
  cases decodeCommand (tableWord nbits w) <;> simp

/-- A placed word is issued, and the next turn, the core's, runs it from the state of the issue (log entry 3). -/
theorem step_withFetchWord {nbits w : Nat} {i : Instr} (h : decodeTableWord nbits w = some i) (s : State) :
    step (s.withFetchWord nbits w) = exec i (issue (tableWord nbits w) s) := by
  have hturn : (s.withFetchWord nbits w).inbox = .core :: s.inbox := rfl
  have hissued : (s.withFetchWord nbits w).setInbox s.inbox = issue (tableWord nbits w) s := rfl
  rw [step_of_core_turn hturn, hissued]
  exact coreTurn_of_decode rfl ((decodeTableWord_eq_some_iff nbits w i).1 h)

/-- Settles O6: in each case the turn is the core's, and a busy core runs what its word decodes to. -/
theorem stepRunsIssuedCommand : Obligations.StepRunsIssuedCommand := by
  unfold Obligations.StepRunsIssuedCommand
  refine ⟨fun s i hbusy h hinbox => ?_, fun s i ts hbusy h hinbox => ?_, fun s i w h => ?_⟩
  · rw [step_of_no_turn hinbox, coreTurn_of_decode hbusy h]
  · rw [step_of_core_turn hinbox]
    exact coreTurn_of_decode (s := s.setInbox ts) hbusy h
  · rw [step_withFetchWord h, tableWord_32]

/-- Settles O7: an idle core's turn changes nothing, and a host's turn is its action. -/
theorem idleCoreWaits : Obligations.IdleCoreWaits := by
  unfold Obligations.IdleCoreWaits
  refine ⟨fun s hidle hinbox => ?_, fun s ts hidle hinbox => ?_, fun s a ts hinbox => step_of_host_turn hinbox⟩
  · rw [step_of_no_turn hinbox, coreTurn_of_idle hidle]
  · rw [step_of_core_turn hinbox]
    exact coreTurn_of_idle (s := s.setInbox ts) hidle

/-! ### Issue (40_commands.md R401) -/

/-- With windows that pass their checks and no race, an issue gives the issued state. -/
theorem issueCommand_of_checks {x : U32} {s : State} (hfault : (grantOfWord x s.regs.operands).fault? = none)
    (hrace : s.peers.any (grantOfWord x s.regs.operands).races = false) : issueCommand x s = .ok (issue x s) := by
  rcases issueCommand_cases x s with ⟨f, hf, -⟩ | ⟨-, hr, -⟩ | ⟨-, -, hi⟩
  · rw [hfault] at hf
    cases hf
  · rw [hrace] at hr
    cases hr
  · exact hi

/-- Settles O10: the store is the issue, and its checks pass. -/
theorem issueLatchesCommand : Obligations.IssueLatchesCommand := by
  unfold Obligations.IssueLatchesCommand
  intro s x hidle hfault hrace
  rw [hostStep_issue hidle, issueCommand_of_checks hfault hrace]
  rfl

/-! ### NOP (40_commands.md R410) -/

/-- `NOP` has no windows, so nothing comes before its completion. -/
theorem exec_nop (s : State) : exec .nop s = .next (complete .ok 0 s) := rfl

/-- No row selects a word with a reserved bit 1, whatever its `OP` (30_encoding.md R303). -/
theorem decodeCommand_of_reserved {x : U32} (h : reservedField x ≠ 0#23) :
    decodeCommand x = .error .reservedBits := by
  simp [decodeCommand, h]

/-- Settles O16: the row of `NOP` tests `OP` and the reserved bits alone. -/
theorem nopCompletes : Obligations.NopCompletes := by
  unfold Obligations.NopCompletes
  refine ⟨fun s => exec_nop s, fun x hop => ?_⟩
  by_cases hres : reservedField x = 0
  · rw [if_pos hres]
    exact (decodeCommand_eq_ok_iff x .nop).2 ⟨(rowNop_selects x).2 ⟨hop, hres⟩, trivial⟩
  · rw [if_neg hres]
    exact decodeCommand_of_reserved hres

end Sys2Proof.Machine
end

