-- ==== Sys2Proof/Proofs/Division.lean ====
section
/-! PROOF of O20 and O21: the division pair of a probability (41_statistics.md R461 to R464). -/

namespace Sys2Proof.Machine

/-! ### Leading zeros (00_scope.md R10) -/

/-- From the top of `0..n-1` down to the highest index that fails `p` there are `n - 1 - k` indexes. -/
theorem length_takeWhile_reverse_range {p : Nat → Bool} {n k : Nat} (hkn : k < n) (hk : p k = false)
    (above : ∀ i, k < i → i < n → p i = true) : ((List.range n).reverse.takeWhile p).length = n - 1 - k := by
  induction n with
  | zero => omega
  | succ n ih =>
    rw [List.range_succ, List.reverse_append, List.reverse_singleton, List.singleton_append, List.takeWhile_cons]
    rcases Nat.lt_or_eq_of_le (Nat.le_of_lt_succ hkn) with hlt | rfl
    · rw [if_pos (above n hlt (by omega)), List.length_cons, ih hlt fun i hki hin => above i hki (by omega)]
      omega
    · simp [hk]

/-- The leading zeros of a word stand above its highest set bit, number `log2`. -/
theorem clz_of_ne_zero {x : U32} (hx : x.toNat ≠ 0) : clz x = 31 - x.toNat.log2 := by
  have hlog : x.toNat.log2 < 32 := (Nat.log2_lt hx).2 x.isLt
  refine length_takeWhile_reverse_range hlog ?_ fun i hi _ => ?_
  · simp [BitVec.getLsbD, Nat.testBit_log2 hx]
  · simp [BitVec.getLsbD, Nat.testBit_lt_two_pow ((Nat.log2_lt hx).1 hi)]

/-! ### The pair (41_statistics.md R461, R462) -/

theorem divShift_eq_clog {q : Nat} (hq : q ≤ 2 ^ 32) : divShift q = Nat.clog 2 q := by
  rcases Nat.lt_or_ge 1 q with h1 | h1
  · have hpred : (BitVec.ofNat 32 (q - 1)).toNat = q - 1 := by
      rw [BitVec.toNat_ofNat, Nat.mod_eq_of_lt (by omega)]
    have hne : q - 1 ≠ 0 := by omega
    have hlog : (q - 1).log2 < 32 := (Nat.log2_lt hne).2 (by omega)
    have hceil : Nat.clog 2 q = (q - 1).log2 + 1 := by
      have hlow := Nat.log2_self_le hne
      have hhigh : q - 1 < 2 ^ ((q - 1).log2 + 1) := Nat.lt_log2_self
      exact Nat.le_antisymm ((Nat.clog_le_iff_le_pow Nat.one_lt_two).2 (by omega))
        ((Nat.lt_clog_iff_pow_lt Nat.one_lt_two).2 (by omega))
    rw [divShift, if_neg (by omega), clz_of_ne_zero (by omega), hpred, hceil]
    omega
  · rw [divShift, if_pos h1, Nat.clog_of_right_le_one h1]

theorem divShift_le {q n : Nat} (hn : n ≤ 32) (hq : q ≤ 2 ^ n) : divShift q ≤ n := by
  rw [divShift_eq_clog (hq.trans (Nat.pow_le_pow_right Nat.two_pos hn))]
  exact Nat.clog_le_of_le_pow hq

/-- `2^shift` is the first power of two at or above `q`. -/
theorem two_pow_divShift_bounds {q : Nat} (hpos : 1 ≤ q) (hq : q ≤ 2048) :
    q ≤ 2 ^ divShift q ∧ 2 ^ divShift q < 2 * q := by
  rw [divShift_eq_clog (by omega)]
  refine ⟨Nat.le_pow_clog Nat.one_lt_two q, ?_⟩
  rcases Nat.lt_or_ge 1 q with h1 | h1
  · have hpred := Nat.pow_pred_clog_lt_self Nat.one_lt_two h1
    have hsucc := Nat.succ_pred_eq_of_pos (Nat.clog_pos Nat.one_lt_two h1)
    rw [← hsucc, Nat.pow_succ]
    omega
  · rw [Nat.clog_of_right_le_one h1]
    omega

theorem divMagic_lt {q : Nat} (hpos : 1 ≤ q) (hq : q ≤ 2048) : divMagic q < 2 ^ 32 := by
  obtain ⟨-, hpow⟩ := two_pow_divShift_bounds hpos hq
  have hfloor : 2 ^ 32 * (2 ^ divShift q - q) / q < 2 ^ 32 - 1 := (Nat.div_lt_iff_lt_mul hpos).2 (by omega)
  rw [divMagic]
  omega

/-- Settles O20: `shift` is `ceil(log2 q)`, and the excess `2^shift - q` is below `q`. -/
theorem divisionPairRange : Obligations.DivisionPairRange := by
  unfold Obligations.DivisionPairRange
  intro q hpos hq
  exact ⟨divShift_eq_clog (by omega), divShift_le (by decide) hq, Nat.le_add_left _ _,
    Nat.le_pred_of_lt (divMagic_lt hpos hq)⟩

/-! ### The divide identity (41_statistics.md R464) -/

/-- With its implicit top bit the multiplier is `2^(32 + shift) / q`, rounded up to an excess of at most `q`. -/
theorem divMagic_mul {q : Nat} (hpos : 1 ≤ q) (hq : q ≤ 2048) :
    ∃ e, e ≤ q ∧ (2 ^ 32 + divMagic q) * q = 2 ^ 32 * 2 ^ divShift q + e := by
  obtain ⟨hle, -⟩ := two_pow_divShift_bounds hpos hq
  have hdiv := Nat.div_add_mod' (2 ^ 32 * (2 ^ divShift q - q)) q
  refine ⟨q - 2 ^ 32 * (2 ^ divShift q - q) % q, Nat.sub_le _ _, ?_⟩
  have hmod : 2 ^ 32 * (2 ^ divShift q - q) % q < q := Nat.mod_lt _ hpos
  rw [divMagic, Nat.add_mul, Nat.add_mul]
  omega

/-- Division by `q` as one multiplication and one division by a power of two `n`: the multiplier's excess `e` is
too small to reach the next quotient. -/
theorem div_eq_mul_div_of_excess {q m n e x : Nat} (hq : 0 < q) (hm : m * q = n + e) (hx : x * e < n) :
    x * m / n = x / q := by
  have hn : 0 < n := by omega
  have hprod : x * m * q = x * n + x * e := by rw [Nat.mul_assoc, hm, Nat.mul_add]
  have hfloor : x / q * q ≤ x := Nat.div_mul_le_self x q
  have hceil : x + 1 ≤ (x / q + 1) * q := Nat.lt_mul_of_div_lt (Nat.lt_succ_self _) hq
  refine Nat.div_eq_of_lt_le (Nat.le_of_mul_le_mul_right ?_ hq) (Nat.lt_of_mul_lt_mul_right (a := q) ?_)
  · calc x / q * n * q = x / q * q * n := Nat.mul_right_comm ..
      _ ≤ x * n := Nat.mul_le_mul_right n hfloor
      _ ≤ x * m * q := by omega
  · calc x * m * q < x * n + n := by omega
      _ = (x + 1) * n := (Nat.succ_mul x n).symm
      _ ≤ (x / q + 1) * q * n := Nat.mul_le_mul_right n hceil
      _ = (x / q + 1) * n * q := Nat.mul_right_comm ..

theorem toNat_mulhi32 (a b : U32) : (mulhi32 a b).toNat = a.toNat * b.toNat / 2 ^ 32 := by
  have hlt : a.toNat * b.toNat / 2 ^ 32 < 2 ^ 32 :=
    Nat.div_lt_of_lt_mul (Nat.mul_lt_mul'' a.isLt b.isLt)
  rw [mulhi32, BitVec.toNat_ofNat, Nat.mod_eq_of_lt hlt]

/-- Settles O21: the sum is `x` times the multiplier with its top bit, over `2^32`; the shift divides by `2^shift`. -/
theorem divideIdentity : Obligations.DivideIdentity := by
  unfold Obligations.DivideIdentity
  intro q x hpos hq hx
  have hmagic := divMagic_lt hpos hq
  obtain ⟨hle, -⟩ := two_pow_divShift_bounds hpos hq
  obtain ⟨e, heq, hmul⟩ := divMagic_mul hpos hq
  have hhigh : (mulhi32 x (BitVec.ofNat 32 (divMagic q))).toNat = x.toNat * divMagic q / 2 ^ 32 := by
    rw [toNat_mulhi32, BitVec.toNat_ofNat, Nat.mod_eq_of_lt hmagic]
  have hwrap : x.toNat + x.toNat * divMagic q / 2 ^ 32 < 2 ^ 32 := by
    have : x.toNat * divMagic q / 2 ^ 32 ≤ x.toNat :=
      Nat.div_le_of_le_mul ((Nat.mul_comm ..).trans_le (Nat.mul_le_mul_right _ hmagic.le))
    omega
  have hsum : x.toNat + x.toNat * divMagic q / 2 ^ 32 = x.toNat * (2 ^ 32 + divMagic q) / 2 ^ 32 := by
    rw [Nat.mul_add, Nat.mul_comm x.toNat (2 ^ 32), Nat.mul_add_div (by decide)]
  have hexcess : x.toNat * e < 2 ^ 32 * 2 ^ divShift q :=
    calc x.toNat * e ≤ x.toNat * 2 ^ divShift q := Nat.mul_le_mul_left _ (heq.trans hle)
      _ < 2 ^ 32 * 2 ^ divShift q := Nat.mul_lt_mul_of_pos_right (by omega) (Nat.two_pow_pos _)
  refine ⟨by rwa [hhigh], ?_⟩
  rw [BitVec.toNat_ushiftRight, BitVec.toNat_add, hhigh, Nat.mod_eq_of_lt hwrap, Nat.shiftRight_eq_div_pow, hsum,
    Nat.div_div_eq_div_mul, div_eq_mul_div_of_excess hpos hmul hexcess]

end Sys2Proof.Machine
end

