-- ==== Sys2Proof/Proofs/Histogram.lean ====
section
/-! PROOF of O17: the histogram of the source window (41_statistics.md R450, R451). -/

namespace Sys2Proof.Machine

/-! ### Vectors by index -/

theorem get_set {α : Type} {n : Nat} (v : Vector α n) (i : Fin n) (a : α) (j : Fin n) :
    (v.set i a).get j = if i = j then a else v.get j := by
  show (v.set i a)[j.val] = if i = j then a else v[j.val]
  simp only [Vector.getElem_set, Fin.ext_iff]

theorem ext_get {α : Type} {n : Nat} {v w : Vector α n} (h : ∀ i, v.get i = w.get i) : v = w :=
  Vector.ext fun i hi => h ⟨i, hi⟩

/-- A sum over a vector's entries in order is the sum over its indexes. -/
theorem sum_map_toList {α : Type} {n : Nat} (v : Vector α n) (f : α → Nat) :
    (v.toList.map f).sum = ∑ i, f (v.get i) := by
  have hlist : v.toList.map f = List.ofFn fun i => f (v.get i) := by
    refine List.ext_getElem (by simp) fun i h1 h2 => ?_
    simp [Vector.get]
  rw [hlist, List.sum_ofFn]

theorem histTotal_eq_sum (hist : Vector U32 256) : histTotal hist = ∑ s, (hist.get s).toNat :=
  sum_map_toList hist BitVec.toNat

/-- Each element of a list is counted at exactly one of the values `f` takes. -/
theorem sum_countP_eq_length {α : Type} {n : Nat} (f : α → Fin n) (as : List α) :
    ∑ b, as.countP (fun a => decide (f a = b)) = as.length := by
  induction as with
  | nil => simp
  | cons a as ih => simp [List.countP_cons, Finset.sum_add_distrib, ih]

/-! ### Sweeps -/

/-- A sweep with an invariant for each number of elements done. -/
theorem sweep_counted {α : Type} {f : α → State → Run State} {P : Nat → State → Prop} (as : List α)
    (step : ∀ j (hj : j < as.length) s, P j s → ∃ t, f as[j] s = .ok t ∧ P (j + 1) t) {s : State} (hs : P 0 s) :
    ∃ t, sweep f as s = .ok t ∧ P as.length t := by
  induction as generalizing P s with
  | nil => exact ⟨s, rfl, hs⟩
  | cons a as ih =>
    obtain ⟨u, hu, hP⟩ := step 0 (Nat.succ_pos _) s hs
    rw [List.getElem_cons_zero] at hu
    obtain ⟨t, ht, hQ⟩ := ih (P := fun j => P (j + 1)) (fun j hj => step (j + 1) (Nat.succ_lt_succ hj)) hP
    exact ⟨t, by rw [sweep_cons, hu, Run.ok_bind, ht], hQ⟩

/-! ### The counters (41_statistics.md R450) -/

/-- The counters once the first `n` source bytes are counted. -/
def State.countsBelow (s : State) (n : Nat) : Vector U32 256 := Vector.ofFn fun b =>
  BitVec.ofNat 32 ((List.range n).countP fun i => decide ((s.byteAt (s.srcBase + i)).toNat = b.val))

theorem State.countsBelow_zero (s : State) : s.countsBelow 0 = Vector.replicate 256 0 :=
  Vector.ext fun b hb => by simp [State.countsBelow]

theorem State.countsBelow_succ (s : State) (n : Nat) :
    s.countsBelow (n + 1) = countSymbol (s.countsBelow n) (s.byteAt (s.srcBase + n)) := by
  refine ext_get fun b => ?_
  rw [countSymbol, get_set]
  by_cases hb : symIdx (s.byteAt (s.srcBase + n)) = b
  · have hcount : (s.byteAt (s.srcBase + n)).toNat = b.val := congrArg Fin.val hb
    rw [if_pos hb, hb]
    simp [State.countsBelow, List.range_succ, hcount, BitVec.ofNat_add]
  · have hcount : (s.byteAt (s.srcBase + n)).toNat ≠ b.val := fun h => hb (Fin.ext h)
    rw [if_neg hb]
    simp [State.countsBelow, List.range_succ, hcount]

theorem State.countsBelow_srcSize (s : State) : s.countsBelow s.srcSize = s.sourceHistogram := rfl

theorem mayRead_source {g : Grant} {s : State} (hg : s.snap.srcWindow ∈ g.reads) {i : Nat} (hi : i < s.srcSize) :
    g.mayRead (s.snap.src.toNat + i : Int) 1 = true :=
  (g.mayRead_iff _ _).2 ⟨_, hg, by simp [Operands.srcWindow], by
    simp only [Operands.srcWindow, State.srcSize] at hi ⊢
    omega⟩

theorem histogramByte_eq_ok {g : Grant} {s : State} (hg : s.snap.srcWindow ∈ g.reads) {i : Nat} (hi : i < s.srcSize)
    (e : Engine) : histogramByte g i (s.setEng e) =
      .ok (s.setEng { e with hist := countSymbol e.hist (s.byteAt (s.srcBase + i)) }) := by
  rw [histogramByte, State.setEng_snap, coreRead_ok .source _ (mayRead_source hg hi), Run.ok_bind,
    State.getElem_readBytes]
  rfl

/-- The histogram of a granted source window is the source's, and it is all the run changes. -/
theorem histogram_eq_ok {g : Grant} {s : State} (hg : s.snap.srcWindow ∈ g.reads) :
    histogram g s = .ok (s.setEng { s.eng with hist := s.sourceHistogram }) := by
  obtain ⟨t, ht, rfl⟩ := sweep_counted (f := histogramByte g)
    (P := fun i t => t = s.setEng { s.eng with hist := s.countsBelow i }) (List.range s.srcSize) (fun i hi t ht => by
      have hread : i < s.srcSize := by simpa using hi
      rw [List.getElem_range, State.countsBelow_succ, ht]
      exact ⟨_, histogramByte_eq_ok hg hread _, rfl⟩) rfl
  rw [State.countsBelow_zero, List.length_range, State.countsBelow_srcSize] at ht
  exact ht

theorem State.sourceCount_le (s : State) (b : Nat) : s.sourceCount b ≤ s.srcSize :=
  List.countP_le_length.trans (List.length_range).le

/-- No counter overflows, since `srcLen` is below `2^32` (41_statistics.md R451). -/
theorem State.toNat_sourceHistogram (s : State) (b : Fin 256) :
    (s.sourceHistogram.get b).toNat = s.sourceCount b.val := by
  rw [State.sourceHistogram, get_ofFn, BitVec.toNat_ofNat]
  exact Nat.mod_eq_of_lt ((s.sourceCount_le b).trans_lt s.snap.srcLen.isLt)

theorem State.histTotal_sourceHistogram (s : State) : histTotal s.sourceHistogram = s.srcSize := by
  have hcount := sum_countP_eq_length (fun i => symIdx (s.byteAt (s.srcBase + i))) (List.range s.srcSize)
  rw [List.length_range] at hcount
  rw [histTotal_eq_sum, ← hcount]
  refine Finset.sum_congr rfl fun b _ => ?_
  rw [s.toNat_sourceHistogram, State.sourceCount]
  simp only [symIdx, Fin.ext_iff]

/-- Settles O17: the engine counts byte after byte (`countsBelow_succ`), and each byte is of one symbol. -/
theorem histogramCountsSource : Obligations.HistogramCountsSource := by
  unfold Obligations.HistogramCountsSource
  intro g s hg
  exact ⟨_, histogram_eq_ok hg, s.toNat_sourceHistogram, s.histTotal_sourceHistogram, rfl⟩

end Sys2Proof.Machine
end

