-- ==== Sys2Proof/Proofs/BuildTable.lean ====
section
/-! PROOF of O22, O23 and O24: the encoder table's records, its image in host memory, and `BUILD_TABLE`
(41_statistics.md R460, R465, R466, R480). -/

namespace Sys2Proof.Machine

/-! ### Records (41_statistics.md R465, 30_encoding.md R310) -/

theorem toNat_append_eq_add {m n : Nat} (x : BitVec m) (y : BitVec n) :
    (x ++ y).toNat = x.toNat * 2 ^ n + y.toNat := by
  rw [BitVec.toNat_append, ← Nat.shiftLeft_add_eq_or_of_lt y.isLt, Nat.shiftLeft_eq]

/-- The fields of a record stand side by side. -/
theorem toNat_encRecord (divM1 : U32) (shift : BitVec 5) (cdf pdf : BitVec 12) :
    (encRecord divM1 shift cdf pdf).toNat =
      divM1.toNat * 2 ^ 32 + shift.toNat * 2 ^ 24 + cdf.toNat * 2 ^ 12 + pdf.toNat := by
  simp only [encRecord, toNat_append_eq_add, BitVec.toNat_ofNat]
  omega

theorem encTable_get (q : Vector (BitVec 12) 256) (s : Fin 256) :
    (encTable q).get s = encEntry (q.get s) ((cumulative q).get s) := get_ofFn _ s

theorem sum_take_le_sum (q : Vector (BitVec 12) 256) (n : Nat) :
    ((q.toList.take n).map BitVec.toNat).sum ≤ (q.toList.map BitVec.toNat).sum :=
  ((List.take_sublist n q.toList).map BitVec.toNat).sum_le_sum fun _ _ => Nat.zero_le _

theorem toNat_get_le_sum (q : Vector (BitVec 12) 256) (s : Fin 256) :
    (q.get s).toNat ≤ (q.toList.map BitVec.toNat).sum := by
  rw [sum_map_toList]
  exact Finset.single_le_sum (f := fun i => (q.get i).toNat) (fun _ _ => Nat.zero_le _) (Finset.mem_univ s)

theorem toNat_cumulative {q : Vector (BitVec 12) 256} (hq : (q.toList.map BitVec.toNat).sum < 2 ^ 12) (s : Fin 256) :
    ((cumulative q).get s).toNat = ((q.toList.take s.val).map BitVec.toNat).sum := by
  rw [cumulative, get_ofFn, BitVec.toNat_ofNat, Nat.mod_eq_of_lt ((sum_take_le_sum q s.val).trans_lt hq)]

/-- Settles O22: no field of a record overflows, as its probability and the sum before it are at most 2048. -/
theorem encoderTableRecords : Obligations.EncoderTableRecords := by
  unfold Obligations.EncoderTableRecords
  intro q hq s cdf pdf
  have hpdf : pdf ≤ 2048 := (toNat_get_le_sum q s).trans hq
  have hcdf : ((cumulative q).get s).toNat = cdf := toNat_cumulative (by omega) s
  rw [encTable_get, encEntry]
  by_cases hlive : 0 < pdf
  · have hmagic : divMagic pdf < 2 ^ 32 := divMagic_lt hlive hpdf
    have hshift : divShift pdf ≤ 11 := divShift_le (by decide) hpdf
    rw [if_pos hlive, if_pos hlive, toNat_encRecord, hcdf, BitVec.toNat_ofNat, BitVec.toNat_ofNat,
      Nat.mod_eq_of_lt hmagic, Nat.mod_eq_of_lt (show divShift pdf < 2 ^ 5 by omega)]
  · rw [if_neg hlive, if_neg hlive, toNat_encRecord, hcdf]
    simp

/-! ### Numbers in host memory (20_memory.md R201) -/

theorem le64_eq_of_getElem {b : Vector Byte 8} {v : U64} (h : ∀ i (hi : i < 8), b[i] = v.extractLsb' (8 * i) 8) :
    le64 b = v := by
  rw [le64, h 0, h 1, h 2, h 3, h 4, h 5, h 6, h 7]
  have join : ∀ k n, v.extractLsb' (8 * (k + 1)) n ++ v.extractLsb' (8 * k) 8 = v.extractLsb' (8 * k) (n + 8) :=
    fun k n => BitVec.extractLsb'_append_extractLsb'_eq_extractLsb' (Nat.mul_succ 8 k)
  rw [join 6, join 5, join 4, join 3, join 2, join 1, join 0]
  exact BitVec.extractLsb'_eq_self

theorem State.word64At_congr {s t : State} {a : Nat} (h : ∀ i, i < 8 → t.byteAt (a + i) = s.byteAt (a + i)) :
    t.word64At a = s.word64At a := by
  refine congrArg le64 (Vector.ext fun i hi => ?_)
  rw [State.getElem_readBytes, State.getElem_readBytes, h i hi]

/-- A number stored as its eight bytes reads back. -/
theorem State.word64At_writeBytes (s : State) {a : Nat} (v : U64) (ha : a + 8 ≤ Config.addressSpace) :
    (s.writeBytes (leBytes 8 v) a).word64At a = v := by
  refine le64_eq_of_getElem fun i hi => ?_
  rw [State.getElem_readBytes, State.byteAt_writeBytes_in _ s (by simpa using hi) (by simpa using ha), getElem_leBytes]

/-! ### The table image (30_encoding.md R312) -/

/-- `t` is `s` with the first `n` records of its encoder table stored at `TBL`. -/
structure RecordsStored (s : State) (n : Nat) (t : State) : Prop where
  memory : ∃ m, t = s.setMem m
  stored : ∀ i : Fin 256, i.val < n → t.word64At (s.tblBase + 8 * i.val) = s.eng.enc.get i
  outside : sameOutside s.tblBase (8 * n) s t

theorem RecordsStored.zero (s : State) : RecordsStored s 0 s := ⟨⟨s.mem, rfl⟩, fun _ h => (nomatch h), fun _ _ => rfl⟩

/-- Storing the next record keeps those before it. -/
theorem RecordsStored.next {s t : State} {i : Fin 256} (h : RecordsStored s i.val t)
    (hwrap : s.tblBase + 2048 ≤ Config.addressSpace) :
    RecordsStored s (i.val + 1) (t.writeBytes (leBytes 8 (s.eng.enc.get i)) (s.tblBase + 8 * i.val)) := by
  obtain ⟨m, hm⟩ := h.memory
  obtain ⟨m', hm'⟩ := State.writeBytes_eq_setMem (leBytes 8 (s.eng.enc.get i)) (s.tblBase + 8 * i.val) t
  have elsewhere : ∀ a, a < s.tblBase + 8 * i.val ∨ s.tblBase + 8 * i.val + 8 ≤ a →
      (t.writeBytes (leBytes 8 (s.eng.enc.get i)) (s.tblBase + 8 * i.val)).byteAt a = t.byteAt a := fun a ha =>
    State.byteAt_writeBytes_out _ t (by simpa using ha)
  refine ⟨⟨m', by rw [hm', hm]; rfl⟩, fun j hj => ?_, fun a ha => ?_⟩
  · rcases Nat.lt_or_eq_of_le (Nat.le_of_lt_succ hj) with hlt | heq
    · rw [State.word64At_congr fun k hk => elsewhere _ (by omega), h.stored j hlt]
    · rw [Fin.ext heq, State.word64At_writeBytes t _ (by omega)]
  · rw [elsewhere a (by omega), h.outside a (by omega)]

theorem mayWrite_record {g : Grant} {s : State} (hg : s.snap.tblWindow ∈ g.writes) (i : Fin 256) :
    g.mayWrite (s.snap.tbl.toNat + 8 * i.val : Int) 8 = true :=
  (g.mayWrite_iff _ _).2 ⟨_, hg, by simp only [Operands.tblWindow]; omega, by
    simp only [Operands.tblWindow, Config.tableBytes]; omega⟩

theorem storeRecord_eq_ok {g : Grant} {s t : State} (hg : s.snap.tblWindow ∈ g.writes)
    (hwrap : s.tblBase + 2048 ≤ Config.addressSpace) {i : Fin 256} (h : RecordsStored s i.val t) :
    ∃ u, storeRecord g i t = .ok u ∧ RecordsStored s (i.val + 1) u := by
  obtain ⟨m, hm⟩ := h.memory
  have hsnap : t.snap = s.snap := by rw [hm, State.setMem_snap]
  have heng : t.eng = s.eng := by rw [hm, State.setMem_eng]
  refine ⟨_, ?_, h.next hwrap⟩
  rw [storeRecord, hsnap, heng]
  exact coreWrite_ok t (by simpa using mayWrite_record hg i)

/-- The whole image is stored when the table window is granted. -/
theorem storeTable_eq_ok {g : Grant} {s : State} (hg : s.snap.tblWindow ∈ g.writes)
    (hwrap : s.tblBase + 2048 ≤ Config.addressSpace) : ∃ t, storeTable g s = .ok t ∧ RecordsStored s 256 t := by
  obtain ⟨t, ht, h⟩ := sweep_counted (f := storeRecord g) (P := RecordsStored s) (List.finRange 256) (fun i hi t h => by
    have hi256 : i < 256 := by simpa using hi
    rw [List.getElem_finRange]
    exact storeRecord_eq_ok hg hwrap (i := ⟨i, hi256⟩) h) (RecordsStored.zero s)
  exact ⟨t, ht, by simpa using h⟩

/-! ### The command (41_statistics.md R480) -/

@[simp] theorem firstFailing_nil : firstFailing [] = none := rfl

theorem firstFailing_cons_eq_some_iff {p : Bool} {c e : ErrorCode} {rest : List (Bool × ErrorCode)} :
    firstFailing ((p, c) :: rest) = some e ↔ (p = false ∧ c = e) ∨ (p = true ∧ firstFailing rest = some e) := by
  cases p <;> simp [firstFailing]

theorem firstFailing_cons_eq_none_iff {p : Bool} {c : ErrorCode} {rest : List (Bool × ErrorCode)} :
    firstFailing ((p, c) :: rest) = none ↔ p = true ∧ firstFailing rest = none := by
  cases p <;> simp [firstFailing]

theorem buildTableError_eq_none_iff {pb : Nat} {s : State} :
    buildTableError pb s = none ↔
      isAligned s.snap.tbl 8 = true ∧ isFullBlocks s.snap.srcLen.toNat = true ∧ isProbBits pb = true := by
  simp only [buildTableError, firstFailing_cons_eq_none_iff, firstFailing_nil, and_true, State.srcSize]

theorem exec_buildTable_of_error {pb : Nat} {s : State} {c : ErrorCode}
    (hw : (grantOf (.buildTable pb) s.snap).fault? = none) (h : buildTableError pb s = some c) :
    exec (.buildTable pb) s = .next (complete c 0 s) := by
  simp only [exec, execBuildTable, runBuildTable, checkWindows_none hw, Run.ok_bind]
  rcases firstFailing_cons_eq_some_iff.1 h with ⟨align, rfl⟩ | ⟨align, h⟩
  · simp [align]
  rcases firstFailing_cons_eq_some_iff.1 h with ⟨blocks, rfl⟩ | ⟨blocks, h⟩
  · simp [align, (show isFullBlocks s.snap.srcLen.toNat = false from blocks)]
  rcases firstFailing_cons_eq_some_iff.1 h with ⟨bits, rfl⟩ | ⟨-, h⟩
  · simp [align, (show isFullBlocks s.snap.srcLen.toNat = true from blocks), bits]
  · cases h

/-- Settles O24: the run goes past each check that holds and ends with the code of the first that does not. -/
theorem buildTableChecksInOrder : Obligations.BuildTableChecksInOrder := by
  unfold Obligations.BuildTableChecksInOrder
  intro pb s c hw h
  exact exec_buildTable_of_error hw h

/-- Past its checks the command builds the statistics, stores the table and completes. -/
theorem exec_buildTable_of_checks {pb : Nat} {s : State} (hw : (grantOf (.buildTable pb) s.snap).fault? = none)
    (h : buildTableError pb s = none) :
    exec (.buildTable pb) s = (buildStats (grantOf (.buildTable pb) s.snap) pb s >>= fun u =>
      storeTable (grantOf (.buildTable pb) s.snap) u >>= fun t =>
        (.ok (complete .ok 2048#32 t) : Run State)).finish := by
  obtain ⟨align, blocks, bits⟩ := buildTableError_eq_none_iff.1 h
  simp only [exec, execBuildTable, runBuildTable, checkWindows_none hw, align, blocks, bits, require_true, Run.ok_bind,
    Config.tableBytes]

/-- The statistics of a granted source window leave the source's table, and change working state alone
(41_statistics.md R466). -/
theorem buildStats_eq_ok {g : Grant} {s : State} (hg : s.snap.srcWindow ∈ g.reads) (pb : Nat) :
    ∃ e, buildStats g pb s = .ok (s.setEng e) ∧ e.enc = s.sourceTable pb := by
  rw [buildStats, histogram_eq_ok hg, Run.ok_bind]
  simp only [State.setEng_eng, State.setEng_setEng]
  exact ⟨_, rfl, rfl⟩

theorem Grant.fits_of_fault?_eq_none {g : Grant} (h : g.fault? = none) {w : Window} (hw : w ∈ g.reads ++ g.writes) :
    w.base + w.len ≤ Config.addressSpace := by
  by_contra hlong
  have hwraps : g.wraps = true := g.wraps_iff.2 ⟨w, hw, Nat.lt_of_not_le hlong⟩
  simp [Grant.fault?, hwraps] at h

theorem RecordsStored.imageTable {s t : State} (h : RecordsStored s 256 t) : t.imageTable = s.eng.enc := by
  obtain ⟨m, hm⟩ := h.memory
  have htbl : t.tblBase = s.tblBase := by rw [hm]; rfl
  refine ext_get fun i => ?_
  rw [State.imageTable, get_ofFn, htbl, h.stored i i.isLt]

/-- Settles O23: the statistics touch working state alone, and the stores of the table host memory alone. -/
theorem buildTableCompletes : Obligations.BuildTableCompletes := by
  unfold Obligations.BuildTableCompletes
  intro pb s hready
  simp only [buildTableReady, Bool.and_eq_true, decide_eq_true_eq] at hready
  obtain ⟨hw, hchecks⟩ := hready
  obtain ⟨e, hstats, henc⟩ := buildStats_eq_ok (g := grantOf (.buildTable pb) s.snap) (s := s) List.mem_cons_self pb
  obtain ⟨t, hstore, h⟩ := storeTable_eq_ok (g := grantOf (.buildTable pb) s.snap) (s := s.setEng e)
    List.mem_cons_self (Grant.fits_of_fault?_eq_none (w := s.snap.tblWindow) hw (by simp [grantOf]))
  obtain ⟨m, hm⟩ := h.memory
  refine ⟨complete .ok 2048 t, ?_, ?_, ?_, ?_, ?_⟩
  · rw [exec_buildTable_of_checks hw hchecks, hstats, Run.ok_bind, hstore]
    rfl
  · subst hm
    exact ⟨rfl, rfl, rfl, rfl, rfl⟩
  · exact h.imageTable.trans henc
  · exact h.outside
  · subst hm
    rfl

end Sys2Proof.Machine
end

