-- ==== Sys2Proof/Proofs/Quantizer.lean ====
section
/-! PROOF of O18 and O19: the quantizer's order, its passes as the loops of the rules, and what they keep
(41_statistics.md R452 to R458). -/

namespace Sys2Proof.Machine

/-! ### The sum of the probabilities -/

theorem probTotal_eq_sum (q : Vector Nat 256) : probTotal q = ∑ s, q.get s := by
  simpa [probTotal] using sum_map_toList q id

theorem get_le_probTotal (q : Vector Nat 256) (s : Fin 256) : q.get s ≤ probTotal q := by
  rw [probTotal_eq_sum]
  exact Finset.single_le_sum (f := q.get) (fun _ _ => Nat.zero_le _) (Finset.mem_univ s)

theorem probTotal_set (q : Vector Nat 256) (s : Fin 256) (v : Nat) :
    probTotal (q.set s v) + q.get s = probTotal q + v := by
  have hrest : ∑ t ∈ Finset.univ.erase s, (q.set s v).get t = ∑ t ∈ Finset.univ.erase s, q.get t :=
    Finset.sum_congr rfl fun t ht => by rw [get_set, if_neg (Finset.ne_of_mem_erase ht).symm]
  have hs : (q.set s v).get s = v := by rw [get_set, if_pos rfl]
  rw [probTotal_eq_sum, probTotal_eq_sum, ← Finset.add_sum_erase _ _ (Finset.mem_univ s), hrest, hs,
    ← Finset.add_sum_erase _ q.get (Finset.mem_univ s)]
  omega

/-- Above 256 in all, some probability is above 1. -/
theorem exists_one_lt_of_probTotal {q : Vector Nat 256} (h : 256 < probTotal q) : ∃ s, 1 < q.get s := by
  by_contra hnone
  have hle : ∑ s, q.get s ≤ ∑ _s : Fin 256, 1 := Finset.sum_le_sum fun s _ => Nat.le_of_not_lt fun hs => hnone ⟨s, hs⟩
  have hcard : ∑ _s : Fin 256, 1 = 256 := by simp
  rw [← probTotal_eq_sum, hcard] at hle
  omega

/-! ### The order (41_statistics.md R454) -/

theorem pairBefore_trans {a b c : Nat × Fin 256} (hab : pairBefore a b = true) (hbc : pairBefore b c = true) :
    pairBefore a c = true := by
  simp only [pairBefore, decide_eq_true_eq, Fin.lt_def] at *
  omega

/-- Of two pairs with different symbols one comes before the other. -/
theorem pairBefore_of_not {a b : Nat × Fin 256} (hne : a.2 ≠ b.2) (h : ¬pairBefore a b = true) :
    pairBefore b a = true := by
  simp only [pairBefore, decide_eq_true_eq, Fin.lt_def, ne_eq, Fin.ext_iff] at *
  omega

theorem insertPair_perm (p : Nat × Fin 256) (xs : List (Nat × Fin 256)) : (insertPair p xs).Perm (p :: xs) := by
  induction xs with
  | nil => exact .refl _
  | cons x xs ih =>
    rw [insertPair]
    split
    · exact .refl _
    · exact (ih.cons x).trans (.swap p x xs)

theorem insertPair_sorted {p : Nat × Fin 256} {xs : List (Nat × Fin 256)} (hp : ∀ x ∈ xs, p.2 ≠ x.2)
    (h : xs.Pairwise fun a b => pairBefore a b = true) :
    (insertPair p xs).Pairwise fun a b => pairBefore a b = true := by
  induction xs with
  | nil => exact List.pairwise_singleton _ _
  | cons x xs ih =>
    obtain ⟨hx, hxs⟩ := List.pairwise_cons.1 h
    rw [insertPair]
    split
    · next hpx =>
      refine List.pairwise_cons.2 ⟨fun y hy => ?_, h⟩
      rcases List.mem_cons.1 hy with rfl | hy
      · exact hpx
      · exact pairBefore_trans hpx (hx y hy)
    · next hpx =>
      refine List.pairwise_cons.2 ⟨fun y hy => ?_, ih (fun y hy => hp y (List.mem_cons_of_mem _ hy)) hxs⟩
      rcases List.mem_cons.1 ((insertPair_perm p xs).mem_iff.1 hy) with rfl | hy
      · exact pairBefore_of_not (hp x List.mem_cons_self) hpx
      · exact hx y hy

/-- Inserting the pairs of listed symbols one by one lists just them. -/
theorem foldr_insertPair_perm (q : Vector Nat 256) (ss : List (Fin 256)) :
    (ss.foldr (fun s xs => insertPair (q.get s, s) xs) []).Perm (ss.map fun s => (q.get s, s)) := by
  induction ss with
  | nil => exact .refl _
  | cons s ss ih => exact (insertPair_perm _ _).trans (ih.cons _)

theorem foldr_insertPair_sorted (q : Vector Nat 256) {ss : List (Fin 256)} (h : ss.Nodup) :
    (ss.foldr (fun s xs => insertPair (q.get s, s) xs) []).Pairwise fun a b => pairBefore a b = true := by
  induction ss with
  | nil => exact List.Pairwise.nil
  | cons s ss ih =>
    obtain ⟨hs, hss⟩ := List.nodup_cons.1 h
    refine insertPair_sorted (fun x hx => ?_) (ih hss)
    obtain ⟨t, ht, rfl⟩ := List.mem_map.1 ((foldr_insertPair_perm q ss).mem_iff.1 hx)
    exact fun heq : s = t => hs (heq ▸ ht)

theorem sortedOrder_perm (q : Vector Nat 256) :
    (sortedOrder q).Perm ((List.finRange 256).map fun s => (q.get s, s)) := foldr_insertPair_perm q _

theorem sortedOrder_sorted (q : Vector Nat 256) : (sortedOrder q).Pairwise fun a b => pairBefore a b = true :=
  foldr_insertPair_sorted q (List.nodup_finRange 256)

/-- The live symbols of the order (41_statistics.md R455). -/
def liveOrder (q : Vector Nat 256) : List (Fin 256) :=
  ((sortedOrder q).filter fun p => decide (0 < p.1)).map Prod.snd

/-- The order from its tail (41_statistics.md R456). -/
def tailOrder (q : Vector Nat 256) : List (Fin 256) := (sortedOrder q).reverse.map Prod.snd

theorem mem_sortedOrder {q : Vector Nat 256} {p : Nat × Fin 256} : p ∈ sortedOrder q ↔ p.1 = q.get p.2 := by
  rw [(sortedOrder_perm q).mem_iff, List.mem_map]
  constructor
  · rintro ⟨s, -, rfl⟩
    rfl
  · intro h
    exact ⟨p.2, List.mem_finRange _, Prod.ext h.symm rfl⟩

theorem mem_liveOrder {q : Vector Nat 256} {s : Fin 256} : s ∈ liveOrder q ↔ 0 < q.get s := by
  simp [liveOrder, mem_sortedOrder]

theorem mem_tailOrder (q : Vector Nat 256) (s : Fin 256) : s ∈ tailOrder q := by
  simp [tailOrder, mem_sortedOrder]

theorem length_tailOrder (q : Vector Nat 256) : (tailOrder q).length = 256 := by
  simp [tailOrder, (sortedOrder_perm q).length_eq]

/-! ### The deficit (41_statistics.md R455) -/

/-- A pass moves units from the deficit to the probabilities. -/
theorem deficitPass_total (live : List (Fin 256)) (d : Nat) (q : Vector Nat 256) :
    probTotal (deficitPass live d q).2 + (deficitPass live d q).1 = probTotal q + d := by
  induction live generalizing d q with
  | nil => rfl
  | cons s rest ih =>
    cases d with
    | zero => rfl
    | succ d =>
      have hset := probTotal_set q s (q.get s + 1)
      rw [deficitPass, ih]
      omega

theorem deficitPass_fst_le (live : List (Fin 256)) (d : Nat) (q : Vector Nat 256) : (deficitPass live d q).1 ≤ d := by
  induction live generalizing d q with
  | nil => exact Nat.le_refl d
  | cons s rest ih =>
    cases d with
    | zero => exact Nat.le_refl 0
    | succ d => exact (ih d _).trans (Nat.le_succ d)

theorem deficitPass_fst_lt {live : List (Fin 256)} (hlive : live ≠ []) {d : Nat} (hd : d ≠ 0) (q : Vector Nat 256) :
    (deficitPass live d q).1 < d := by
  obtain ⟨s, rest, rfl⟩ := List.exists_cons_of_ne_nil hlive
  obtain ⟨d, rfl⟩ := Nat.exists_eq_succ_of_ne_zero hd
  exact Nat.lt_succ_of_le (deficitPass_fst_le rest d _)

/-- Adding to live symbols makes none live. -/
theorem deficitPass_live {live : List (Fin 256)} {d : Nat} {q : Vector Nat 256} (hlive : ∀ s ∈ live, 0 < q.get s)
    (t : Fin 256) : 0 < (deficitPass live d q).2.get t ↔ 0 < q.get t := by
  induction live generalizing d q with
  | nil => rfl
  | cons s rest ih =>
    cases d with
    | zero => rfl
    | succ d =>
      have hset : ∀ u, 0 < (q.set s (q.get s + 1)).get u ↔ 0 < q.get u := fun u => by
        rw [get_set]
        split
        · next hu => simpa [hu] using hlive s List.mem_cons_self
        · rfl
      rw [deficitPass, ih fun u hu => (hset u).2 (hlive u (List.mem_cons_of_mem _ hu))]
      exact hset t

theorem deficitFix_succ {live : List (Fin 256)} {d : Nat} (hd : d ≠ 0) (n : Nat) (q : Vector Nat 256) :
    deficitFix live (n + 1) d q = deficitFix live n (deficitPass live d q).1 (deficitPass live d q).2 := by
  rw [deficitFix, if_neg hd]

theorem deficitFix_zero (live : List (Fin 256)) (n : Nat) (q : Vector Nat 256) : deficitFix live n 0 q = q := by
  cases n <;> rfl

/-- As many passes as the deficit has units bring the sum up by it. -/
theorem deficitFix_total {live : List (Fin 256)} (hlive : live ≠ []) {n d : Nat} (hd : d ≤ n) (q : Vector Nat 256) :
    probTotal (deficitFix live n d q) = probTotal q + d := by
  induction n generalizing d q with
  | zero => rw [Nat.le_zero.1 hd, deficitFix_zero, Nat.add_zero]
  | succ n ih =>
    by_cases hzero : d = 0
    · rw [hzero, deficitFix_zero, Nat.add_zero]
    · have hlt := deficitPass_fst_lt hlive hzero q
      rw [deficitFix_succ hzero, ih (by omega), deficitPass_total]

theorem deficitFix_live {live : List (Fin 256)} (n d : Nat) {q : Vector Nat 256} (hlive : ∀ s ∈ live, 0 < q.get s)
    (t : Fin 256) : 0 < (deficitFix live n d q).get t ↔ 0 < q.get t := by
  induction n generalizing d q with
  | zero => rfl
  | succ n ih =>
    by_cases hzero : d = 0
    · rw [hzero, deficitFix_zero]
    · rw [deficitFix_succ hzero, ih _ fun s hs => (deficitPass_live hlive s).2 (hlive s hs)]
      exact deficitPass_live hlive t

theorem deficitLoop_visit {live : List (Fin 256)} {i : Nat} {s : Fin 256} (hs : live.getD (i % live.length) 0 = s)
    (d : Nat) (q : Vector Nat 256) :
    deficitLoop live (d + 1) i q = deficitLoop live d (i + 1) (q.set s (q.get s + 1)) := by
  subst hs
  rfl

/-- The loop's visits repeat with the length of the list. -/
theorem deficitLoop_add_length (live : List (Fin 256)) (d i : Nat) (q : Vector Nat 256) :
    deficitLoop live d (i + live.length) q = deficitLoop live d i q := by
  induction d generalizing i q with
  | zero => rfl
  | succ d ih =>
    simp only [deficitLoop, Nat.add_mod_right]
    rw [Nat.add_right_comm, ih]

/-- The loop from the first symbol of `rest` on is a pass over `rest`, then the loop from the head. -/
theorem deficitLoop_eq_pass (pre rest : List (Fin 256)) (d : Nat) (q : Vector Nat 256) :
    deficitLoop (pre ++ rest) d pre.length q =
      deficitLoop (pre ++ rest) (deficitPass rest d q).1 0 (deficitPass rest d q).2 := by
  induction rest generalizing pre d q with
  | nil =>
    have hcycle := deficitLoop_add_length (pre ++ []) d 0 q
    rw [List.append_nil, Nat.zero_add] at hcycle
    rw [List.append_nil]
    exact hcycle
  | cons s rest ih =>
    cases d with
    | zero => rfl
    | succ d =>
      have hlt : pre.length < (pre ++ s :: rest).length := by simp
      have hvisit : (pre ++ s :: rest).getD (pre.length % (pre ++ s :: rest).length) 0 = s := by
        rw [Nat.mod_eq_of_lt hlt]
        simp
      have hih := ih (pre ++ [s]) d (q.set s (q.get s + 1))
      rw [List.append_assoc, List.singleton_append, List.length_append, List.length_singleton] at hih
      rw [deficitLoop_visit hvisit]
      exact hih

/-- The passes are the loop (log entry 15). -/
theorem deficitFix_eq_loop {live : List (Fin 256)} (hlive : live ≠ []) {n d : Nat} (hd : d ≤ n) (q : Vector Nat 256) :
    deficitFix live n d q = deficitLoop live d 0 q := by
  induction n generalizing d q with
  | zero => rw [Nat.le_zero.1 hd, deficitFix_zero, deficitLoop]
  | succ n ih =>
    by_cases hzero : d = 0
    · rw [hzero, deficitFix_zero, deficitLoop]
    · have hlt := deficitPass_fst_lt hlive hzero q
      rw [deficitFix_succ hzero, ih (by omega)]
      exact (deficitLoop_eq_pass [] live d q).symm

/-! ### The surplus (41_statistics.md R456, R458) -/

theorem surplusPass_zero (rev : List (Fin 256)) (q : Vector Nat 256) : surplusPass rev 0 q = (0, q) := by
  cases rev <;> rfl

theorem surplusPass_take {s : Fin 256} {q : Vector Nat 256} (hs : 1 < q.get s) (rest : List (Fin 256)) (d : Nat) :
    surplusPass (s :: rest) (d + 1) q = surplusPass rest d (q.set s (q.get s - 1)) := by
  rw [surplusPass, if_pos hs]

theorem surplusPass_skip {s : Fin 256} {q : Vector Nat 256} (hs : ¬1 < q.get s) (rest : List (Fin 256)) (d : Nat) :
    surplusPass (s :: rest) (d + 1) q = surplusPass rest (d + 1) q := by
  rw [surplusPass, if_neg hs]

/-- A pass takes from the probabilities what it takes off the surplus. -/
theorem surplusPass_total (rev : List (Fin 256)) (d : Nat) (q : Vector Nat 256) :
    probTotal (surplusPass rev d q).2 + d = probTotal q + (surplusPass rev d q).1 := by
  induction rev generalizing d q with
  | nil => rfl
  | cons s rest ih =>
    cases d with
    | zero => rfl
    | succ d =>
      by_cases hs : 1 < q.get s
      · have hset := probTotal_set q s (q.get s - 1)
        have hrest := ih d (q.set s (q.get s - 1))
        rw [surplusPass_take hs]
        omega
      · rw [surplusPass_skip hs, ih]

theorem surplusPass_fst_le (rev : List (Fin 256)) (d : Nat) (q : Vector Nat 256) : (surplusPass rev d q).1 ≤ d := by
  induction rev generalizing d q with
  | nil => exact Nat.le_refl d
  | cons s rest ih =>
    cases d with
    | zero => exact Nat.le_refl 0
    | succ d =>
      by_cases hs : 1 < q.get s
      · rw [surplusPass_take hs]
        exact (ih d _).trans (Nat.le_succ d)
      · rw [surplusPass_skip hs]
        exact ih (d + 1) q

/-- A pass over a symbol above 1 takes at least one unit. -/
theorem surplusPass_fst_lt {rev : List (Fin 256)} {d : Nat} (hd : d ≠ 0) {q : Vector Nat 256} {t : Fin 256}
    (ht : t ∈ rev) (hq : 1 < q.get t) : (surplusPass rev d q).1 < d := by
  obtain ⟨d, rfl⟩ := Nat.exists_eq_succ_of_ne_zero hd
  induction rev with
  | nil => cases ht
  | cons s rest ih =>
    by_cases hs : 1 < q.get s
    · rw [surplusPass_take hs]
      exact Nat.lt_succ_of_le (surplusPass_fst_le rest d _)
    · have hrest : t ∈ rest := (List.mem_cons.1 ht).resolve_left fun hts => hs (hts ▸ hq)
      rw [surplusPass_skip hs]
      exact ih hrest

/-- Taking from symbols above 1 keeps live symbols live and dead ones dead. -/
theorem surplusPass_live (rev : List (Fin 256)) (d : Nat) (q : Vector Nat 256) (t : Fin 256) :
    0 < (surplusPass rev d q).2.get t ↔ 0 < q.get t := by
  induction rev generalizing d q with
  | nil => rfl
  | cons s rest ih =>
    cases d with
    | zero => rfl
    | succ d =>
      by_cases hs : 1 < q.get s
      · rw [surplusPass_take hs, ih, get_set]
        split
        · next hst =>
          subst hst
          omega
        · rfl
      · rw [surplusPass_skip hs, ih]

theorem surplusFix_succ {rev : List (Fin 256)} {d : Nat} (hd : d ≠ 0) (n : Nat) (q : Vector Nat 256) :
    surplusFix rev (n + 1) d q = surplusFix rev n (surplusPass rev d q).1 (surplusPass rev d q).2 := by
  rw [surplusFix, if_neg hd]

theorem surplusFix_zero (rev : List (Fin 256)) (n : Nat) (q : Vector Nat 256) : surplusFix rev n 0 q = q := by
  cases n <;> rfl

theorem surplusFix_live (rev : List (Fin 256)) (n d : Nat) (q : Vector Nat 256) (t : Fin 256) :
    0 < (surplusFix rev n d q).get t ↔ 0 < q.get t := by
  induction n generalizing d q with
  | zero => rfl
  | succ n ih =>
    by_cases hzero : d = 0
    · rw [hzero, surplusFix_zero]
    · rw [surplusFix_succ hzero, ih, surplusPass_live]

/-- A surplus over 256 or more leaves a symbol above 1, so a pass over all symbols makes progress. -/
theorem surplusPass_progress {rev : List (Fin 256)} (hrev : ∀ s, s ∈ rev) {m d : Nat} (hm : 256 ≤ m) (hd : d ≠ 0)
    {q : Vector Nat 256} (hq : probTotal q = m + d) :
    (surplusPass rev d q).1 < d ∧ probTotal (surplusPass rev d q).2 = m + (surplusPass rev d q).1 := by
  obtain ⟨t, ht⟩ := exists_one_lt_of_probTotal (q := q) (by omega)
  have htotal := surplusPass_total rev d q
  exact ⟨surplusPass_fst_lt hd (hrev t) ht, by omega⟩

/-- As many passes as the surplus has units take it off. -/
theorem surplusFix_total {rev : List (Fin 256)} (hrev : ∀ s, s ∈ rev) {m n d : Nat} (hm : 256 ≤ m) (hd : d ≤ n)
    {q : Vector Nat 256} (hq : probTotal q = m + d) : probTotal (surplusFix rev n d q) = m := by
  induction n generalizing d q with
  | zero => rwa [Nat.le_zero.1 hd] at hq
  | succ n ih =>
    by_cases hzero : d = 0
    · rw [hzero, surplusFix_zero, hq, hzero, Nat.add_zero]
    · obtain ⟨hlt, htotal⟩ := surplusPass_progress hrev hm hzero hq
      rw [surplusFix_succ hzero]
      exact ih (by omega) htotal

/-- One pass more changes nothing. -/
theorem surplusFix_extra_pass {rev : List (Fin 256)} (hrev : ∀ s, s ∈ rev) {m n d : Nat} (hm : 256 ≤ m) (hd : d ≤ n)
    {q : Vector Nat 256} (hq : probTotal q = m + d) : surplusFix rev (n + 1) d q = surplusFix rev n d q := by
  induction n generalizing d q with
  | zero => rw [Nat.le_zero.1 hd, surplusFix_zero, surplusFix_zero]
  | succ n ih =>
    by_cases hzero : d = 0
    · rw [hzero, surplusFix_zero, surplusFix_zero]
    · obtain ⟨hlt, htotal⟩ := surplusPass_progress hrev hm hzero hq
      rw [surplusFix_succ hzero, surplusFix_succ hzero]
      exact ih (by omega) htotal

theorem surplusLoop_zero (rev : List (Fin 256)) (n i : Nat) (q : Vector Nat 256) : surplusLoop rev n i 0 q = q := by
  cases n <;> rfl

theorem surplusLoop_take {rev : List (Fin 256)} {i : Nat} {s : Fin 256} {q : Vector Nat 256}
    (hvisit : rev.getD (i % 256) 0 = s) (hs : 1 < q.get s) (n d : Nat) :
    surplusLoop rev (n + 1) i (d + 1) q = surplusLoop rev n (i + 1) d (q.set s (q.get s - 1)) := by
  subst hvisit
  exact if_pos hs

theorem surplusLoop_skip {rev : List (Fin 256)} {i : Nat} {s : Fin 256} {q : Vector Nat 256}
    (hvisit : rev.getD (i % 256) 0 = s) (hs : ¬1 < q.get s) (n d : Nat) :
    surplusLoop rev (n + 1) i (d + 1) q = surplusLoop rev n (i + 1) (d + 1) q := by
  subst hvisit
  exact if_neg hs

/-- The loop's visits repeat after 256. -/
theorem surplusLoop_add_256 (rev : List (Fin 256)) (n i d : Nat) (q : Vector Nat 256) :
    surplusLoop rev n (i + 256) d q = surplusLoop rev n i d q := by
  induction n generalizing i d q with
  | zero => rfl
  | succ n ih => simp only [surplusLoop, Nat.add_mod_right, Nat.add_right_comm i 256 1, ih]

/-- The loop from the first symbol of `rest` on is a pass over `rest`, then the loop from the tail of the order. -/
theorem surplusLoop_eq_pass {pre rest : List (Fin 256)} (hlen : pre.length + rest.length = 256) (n d : Nat)
    (q : Vector Nat 256) : surplusLoop (pre ++ rest) (n + rest.length) pre.length d q =
      surplusLoop (pre ++ rest) n 0 (surplusPass rest d q).1 (surplusPass rest d q).2 := by
  induction rest generalizing pre d q with
  | nil =>
    have hcycle := surplusLoop_add_256 (pre ++ []) n 0 d q
    rw [Nat.zero_add] at hcycle
    rw [show pre.length = 256 from hlen]
    exact hcycle
  | cons s rest ih =>
    cases d with
    | zero => rw [surplusPass_zero, surplusLoop_zero, surplusLoop_zero]
    | succ d =>
      have hpre : pre.length < 256 := by simp only [List.length_cons] at hlen; omega
      have hvisit : (pre ++ s :: rest).getD (pre.length % 256) 0 = s := by
        rw [Nat.mod_eq_of_lt hpre]
        simp
      have hih : ∀ d q, surplusLoop (pre ++ s :: rest) (n + rest.length) (pre.length + 1) d q =
          surplusLoop (pre ++ s :: rest) n 0 (surplusPass rest d q).1 (surplusPass rest d q).2 := fun d q => by
        have hrest : (pre ++ [s]).length + rest.length = 256 := by
          simp only [List.length_append, List.length_cons, List.length_nil] at hlen ⊢
          omega
        have hpass := ih hrest d q
        rwa [List.append_assoc, List.singleton_append, List.length_append, List.length_singleton] at hpass
      rw [List.length_cons, ← Nat.add_assoc]
      by_cases hs : 1 < q.get s
      · rw [surplusPass_take hs, surplusLoop_take hvisit hs, hih]
      · rw [surplusPass_skip hs, surplusLoop_skip hvisit hs, hih]

/-- Passes over all 256 symbols are the loop, 256 visits a pass (log entry 15). -/
theorem surplusFix_eq_loop {rev : List (Fin 256)} (hlen : rev.length = 256) (n d : Nat) (q : Vector Nat 256) :
    surplusFix rev n d q = surplusLoop rev (256 * n) 0 d q := by
  induction n generalizing d q with
  | zero => rfl
  | succ n ih =>
    by_cases hzero : d = 0
    · rw [hzero, surplusFix_zero, surplusLoop_zero]
    · have hpass := surplusLoop_eq_pass (pre := []) (by simpa using hlen) (256 * n) d q
      rw [hlen] at hpass
      rw [surplusFix_succ hzero, ih, Nat.mul_succ]
      exact hpass.symm

/-! ### The sum made `M` (41_statistics.md R454 to R456) -/

theorem correctSum_of_deficit {m : Nat} {q : Vector Nat 256} (h : probTotal q < m) :
    correctSum m q = deficitFix (liveOrder q) (m - probTotal q) (m - probTotal q) q := if_pos h

theorem correctSum_of_surplus {m : Nat} {q : Vector Nat 256} (h : ¬probTotal q < m) :
    correctSum m q = surplusFix (tailOrder q) (probTotal q - m) (probTotal q - m) q := if_neg h

theorem liveOrder_ne_nil {q : Vector Nat 256} {s : Fin 256} (hs : 0 < q.get s) : liveOrder q ≠ [] :=
  List.ne_nil_of_mem (mem_liveOrder.2 hs)

/-- With a live symbol to give to, and units above 1 to take, the sum comes out exactly. -/
theorem correctSum_total {m : Nat} {q : Vector Nat 256} (hm : 256 ≤ m) {s : Fin 256} (hs : 0 < q.get s) :
    probTotal (correctSum m q) = m := by
  by_cases h : probTotal q < m
  · rw [correctSum_of_deficit h, deficitFix_total (liveOrder_ne_nil hs) (Nat.le_refl _)]
    omega
  · rw [correctSum_of_surplus h]
    exact surplusFix_total (mem_tailOrder q) hm (Nat.le_refl _) (by omega)

theorem correctSum_live (m : Nat) (q : Vector Nat 256) (t : Fin 256) : 0 < (correctSum m q).get t ↔ 0 < q.get t := by
  by_cases h : probTotal q < m
  · rw [correctSum_of_deficit h]
    exact deficitFix_live _ _ (fun s hs => mem_liveOrder.1 hs) t
  · rw [correctSum_of_surplus h]
    exact surplusFix_live _ _ _ q t

/-- The model's passes are the loops of the rules, within the visits of R458. -/
theorem correctSum_eq_loops {m : Nat} {q : Vector Nat 256} (hm : 256 ≤ m) {s : Fin 256} (hs : 0 < q.get s) :
    correctSum m q =
      if probTotal q < m then deficitLoop (liveOrder q) (m - probTotal q) 0 q
      else surplusLoop (tailOrder q) (256 * (probTotal q - m + 1)) 0 (probTotal q - m) q := by
  by_cases h : probTotal q < m
  · rw [if_pos h, correctSum_of_deficit h, deficitFix_eq_loop (liveOrder_ne_nil hs) (Nat.le_refl _)]
  · rw [if_neg h, correctSum_of_surplus h, ← surplusFix_eq_loop (length_tailOrder q),
      surplusFix_extra_pass (mem_tailOrder q) hm (Nat.le_refl _) (by omega)]

/-! ### Rounding (41_statistics.md R452, R453) -/

theorem liftLive_roundProbs (hist : Vector U32 256) (pb : Nat) :
    liftLive hist (roundProbs hist pb) = roundedLive hist pb := by
  refine ext_get fun s => ?_
  rw [liftLive, roundedLive, get_ofFn, get_ofFn]
  simp only [roundProbs, Fin.getElem_fin, Vector.getElem_ofFn]
  rfl

/-- After rounding and lifting just the live symbols have a probability. -/
theorem roundedLive_pos_iff (hist : Vector U32 256) (pb : Nat) (s : Fin 256) :
    0 < (roundedLive hist pb).get s ↔ 0 < (hist.get s).toNat := by
  rw [roundedLive, get_ofFn]
  rcases Nat.eq_zero_or_pos (hist.get s).toNat with hdead | hlive
  · simp [hdead]
  · simp only [hlive, true_and, iff_true]
    split
    · exact Nat.one_pos
    · next hq => exact Nat.pos_of_ne_zero hq

/-! ### The quantizer -/

theorem quantizeExact_eq (hist : Vector U32 256) (pb : Nat) :
    quantizeExact hist pb = correctSum (2 ^ pb) (roundedLive hist pb) := by
  rw [quantizeExact, liftLive_roundProbs]

theorem two_pow_probBits {pb : Nat} (h : isProbBits pb = true) : 512 ≤ 2 ^ pb ∧ 2 ^ pb ≤ 2048 := by
  rw [isProbBits, decide_eq_true_eq] at h
  rcases h with rfl | rfl | rfl <;> decide

theorem exists_live_of_histTotal {hist : Vector U32 256} (h : 0 < histTotal hist) : ∃ s, 0 < (hist.get s).toNat := by
  rw [histTotal_eq_sum, Finset.sum_pos_iff] at h
  obtain ⟨s, -, hs⟩ := h
  exact ⟨s, hs⟩

theorem probTotal_quantizeExact {hist : Vector U32 256} {pb : Nat} (hpb : isProbBits pb = true)
    (hT : 0 < histTotal hist) : probTotal (quantizeExact hist pb) = 2 ^ pb := by
  obtain ⟨s, hs⟩ := exists_live_of_histTotal hT
  obtain ⟨hlow, -⟩ := two_pow_probBits hpb
  rw [quantizeExact_eq]
  exact correctSum_total (by omega) ((roundedLive_pos_iff hist pb s).2 hs)

theorem quantizeExact_pos_iff (hist : Vector U32 256) (pb : Nat) (s : Fin 256) :
    0 < (quantizeExact hist pb).get s ↔ 0 < (hist.get s).toNat := by
  rw [quantizeExact_eq, correctSum_live, roundedLive_pos_iff]

theorem quantizeExact_le {hist : Vector U32 256} {pb : Nat} (hpb : isProbBits pb = true) (hT : 0 < histTotal hist)
    (s : Fin 256) : (quantizeExact hist pb).get s ≤ 2 ^ pb :=
  (get_le_probTotal _ s).trans_eq (probTotal_quantizeExact hpb hT)

/-- Twelve bits hold the exact probabilities. -/
theorem toNat_quantize {hist : Vector U32 256} {pb : Nat} (hpb : isProbBits pb = true) (hT : 0 < histTotal hist)
    (s : Fin 256) : ((quantize hist pb).get s).toNat = (quantizeExact hist pb).get s := by
  have hle := quantizeExact_le hpb hT s
  obtain ⟨-, hhigh⟩ := two_pow_probBits hpb
  rw [quantize, get_ofFn, BitVec.toNat_ofNat]
  exact Nat.mod_eq_of_lt (hle.trans_lt (by omega))

/-- Settles O18: the fix-ups reach the sum, which bounds each value, and keep the live and the dead. -/
theorem quantizedProbsSum : Obligations.QuantizedProbsSum := by
  unfold Obligations.QuantizedProbsSum
  intro hist pb hpb hT
  refine ⟨?_, fun s => ?_⟩
  · rw [sum_map_toList, ← probTotal_quantizeExact hpb hT, probTotal_eq_sum]
    exact Finset.sum_congr rfl fun s _ => toNat_quantize hpb hT s
  · have hlive := quantizeExact_pos_iff hist pb s
    rw [toNat_quantize hpb hT]
    exact ⟨hlive.2, by omega, quantizeExact_le hpb hT s⟩

/-- Settles O19: the order is the model's own, and its passes are the loops (`correctSum_eq_loops`). -/
theorem quantizerFollowsLoops : Obligations.QuantizerFollowsLoops := by
  unfold Obligations.QuantizerFollowsLoops
  intro hist pb hpb hT q
  obtain ⟨s, hs⟩ := exists_live_of_histTotal hT
  obtain ⟨hlow, -⟩ := two_pow_probBits hpb
  have hexact : (quantize hist pb).map BitVec.toNat = quantizeExact hist pb :=
    Vector.ext fun i hi => (Vector.getElem_map ..).trans (toNat_quantize hpb hT ⟨i, hi⟩)
  refine ⟨sortedOrder q, sortedOrder_perm q, (sortedOrder_sorted q).imp of_decide_eq_true, ?_⟩
  rw [hexact, quantizeExact_eq]
  exact correctSum_eq_loops (by omega) ((roundedLive_pos_iff hist pb s).2 hs)

end Sys2Proof.Machine
end

