-- ==== Sys2Proof/Proofs/EncodeChecks.lean ====
section
/-! PROOF of O25 and O26: the checks of `ENCODE` and `ENCODE.T` in their order, and the load of a table image
(42_encoder.md R530, R531). -/

namespace Sys2Proof.Machine

/-! ### Checks in order (40_commands.md R403) -/

/-- One check of a list: where it is the first to fail the run ends with its code, else the list goes on. -/
theorem require_bind_of_firstFailing {β : Type} {s : State} {p : Bool} {c e : ErrorCode}
    {rest : List (Bool × ErrorCode)} {f : Unit → Run β} {Q : Run β → Prop} (h : firstFailing ((p, c) :: rest) = some e)
    (stop : Q (.error (.ended (complete e 0 s)))) (next : firstFailing rest = some e → Q (f ())) :
    Q (require p c s >>= f) := by
  rcases firstFailing_cons_eq_some_iff.1 h with ⟨rfl, rfl⟩ | ⟨rfl, h⟩
  · exact stop
  · exact next h

theorem encodeError_eq_none_iff {pb : Nat} {s : State} :
    encodeError pb s = none ↔ isAligned s.snap.dst 32 = true ∧ isFullBlocks s.snap.srcLen.toNat = true ∧
      isEncodeCapacity s.snap.srcLen.toNat s.snap.dstCap.toNat = true ∧ isProbBits pb = true := by
  simp only [encodeError, firstFailing_cons_eq_none_iff, firstFailing_nil, and_true, State.srcSize, State.dstSize]

/-- `ENCODE.T` makes the checks of `ENCODE`, the alignment of its table and the sum of the image. -/
theorem encodeTError_eq_none_iff {pb : Nat} {s : State} :
    encodeTError pb s = none ↔ encodeError pb s = none ∧ isAligned s.snap.tbl 8 = true ∧
      tablePdfTotal s.imageTable = 2 ^ pb := by
  simp only [encodeTError, encodeError, firstFailing_cons_eq_none_iff, firstFailing_nil, and_true, Bool.and_eq_true,
    decide_eq_true_eq]
  exact ⟨fun ⟨⟨dst, tbl⟩, blocks, capacity, bits, total⟩ => ⟨⟨dst, blocks, capacity, bits⟩, tbl, total⟩,
    fun ⟨⟨dst, blocks, capacity, bits⟩, tbl, total⟩ => ⟨⟨dst, tbl⟩, blocks, capacity, bits, total⟩⟩

theorem exec_encode_of_error {pb : Nat} {s : State} {c : ErrorCode}
    (hw : (grantOf (.encode pb) s.snap).fault? = none) (h : encodeError pb s = some c) :
    exec (.encode pb) s = .next (complete c 0 s) := by
  have hrun : runEncode pb s = .error (.ended (complete c 0 s)) := by
    rw [runEncode, checkWindows_none hw, Run.ok_bind]
    refine require_bind_of_firstFailing (Q := (· = _)) h rfl fun h => ?_
    refine require_bind_of_firstFailing (Q := (· = _)) h rfl fun h => ?_
    refine require_bind_of_firstFailing (Q := (· = _)) h rfl fun h => ?_
    exact require_bind_of_firstFailing (Q := (· = _)) h rfl fun h => nomatch h
  exact congrArg Run.finish hrun

/-- Settles O25: the run goes past each check that holds and ends with the code of the first that does not. -/
theorem encodeChecksInOrder : Obligations.EncodeChecksInOrder := by
  unfold Obligations.EncodeChecksInOrder
  intro pb s c hw h
  exact exec_encode_of_error hw h

/-- Past its checks `ENCODE` builds the statistics, which leave the source's table in working state, and encodes. -/
theorem exec_encode_of_checks {pb : Nat} {s : State} (hw : (grantOf (.encode pb) s.snap).fault? = none)
    (h : encodeError pb s = none) :
    ∃ e, e.enc = s.sourceTable pb ∧ exec (.encode pb) s =
      (encodeContainer (grantOf (.encode pb) s.snap) pb (s.setEng e) >>= fun t =>
        (.ok (completeEncode t) : Run State)).finish := by
  obtain ⟨align, blocks, capacity, bits⟩ := encodeError_eq_none_iff.1 h
  obtain ⟨e, hstats, henc⟩ := buildStats_eq_ok (g := grantOf (.encode pb) s.snap) (s := s) List.mem_cons_self pb
  refine ⟨e, henc, ?_⟩
  simp only [exec, execEncode, runEncode, checkWindows_none hw, align, blocks, capacity, bits, require_true,
    Run.ok_bind, hstats]

/-! ### The table image (30_encoding.md R312) -/

theorem mayRead_record {g : Grant} {s : State} (hg : s.snap.tblWindow ∈ g.reads) (i : Fin 256) :
    g.mayRead (s.snap.tbl.toNat + 8 * i.val : Int) 8 = true :=
  (g.mayRead_iff _ _).2 ⟨_, hg, by simp only [Operands.tblWindow]; omega, by
    simp only [Operands.tblWindow, Config.tableBytes]; omega⟩

theorem loadRecord_eq_ok {g : Grant} {s : State} (hg : s.snap.tblWindow ∈ g.reads) (i : Fin 256) (e : Engine) :
    loadRecord g i (s.setEng e) = .ok (s.setEng { e with enc := e.enc.set i (s.imageTable.get i) }) := by
  rw [loadRecord, State.setEng_snap, coreRead_ok .table _ (mayRead_record hg i), Run.ok_bind, State.imageTable,
    get_ofFn]
  rfl

/-- The load of a granted image leaves it in `ENC`, and changes working state alone. -/
theorem loadTable_eq_ok {g : Grant} {s : State} (hg : s.snap.tblWindow ∈ g.reads) :
    ∃ e, loadTable g s = .ok (s.setEng e) ∧ e.enc = s.imageTable := by
  obtain ⟨t, ht, e, rfl, he⟩ := sweep_counted (f := loadRecord g) (s := s)
    (P := fun n t => ∃ e, t = s.setEng e ∧ ∀ i : Fin 256, i.val < n → e.enc.get i = s.imageTable.get i)
    (List.finRange 256) (fun n _ t ⟨e, ht, he⟩ => by
      rw [List.getElem_finRange, ht]
      refine ⟨_, loadRecord_eq_ok hg _ e, _, rfl, fun i hi => ?_⟩
      rw [get_set]
      split
      · next h => rw [h]
      · next h => exact he i (Nat.lt_of_le_of_ne (Nat.le_of_lt_succ hi) fun hn => h (Fin.ext hn.symm)))
    ⟨s.eng, rfl, fun _ h => nomatch h⟩
  exact ⟨e, ht, ext_get fun i => he i (by simp)⟩

/-- The checks of `ENCODE.T` before its load, then the load, which leaves the image in working state, then the rest. -/
theorem runEncodeT_of_windows {pb : Nat} {s : State} (hw : (grantOf (.encodeT pb) s.snap).fault? = none) :
    ∃ e, e.enc = s.imageTable ∧ runEncodeT pb s = (do
      require (isAligned s.snap.dst 32 && isAligned s.snap.tbl 8) .misaligned s
      require (isFullBlocks s.snap.srcLen.toNat) .partialBlock s
      require (isEncodeCapacity s.snap.srcLen.toNat s.snap.dstCap.toNat) .dstCapacityTooSmall s
      require (isProbBits pb) .unsupportedProbBits s
      require (decide (tablePdfTotal s.imageTable = 2 ^ pb)) .badTable (s.setEng e)
      let t ← encodeContainer (grantOf (.encodeT pb) s.snap) pb (s.setEng e)
      .ok (completeEncode t)) := by
  obtain ⟨e, hload, henc⟩ := loadTable_eq_ok (g := grantOf (.encodeT pb) s.snap) (s := s) (by simp [grantOf])
  refine ⟨e, henc, ?_⟩
  simp only [runEncodeT, checkWindows_none hw, Run.ok_bind, hload, State.setEng_eng, henc]

/-- The run ends with the code `c`, and nothing but working state has changed. -/
def EndsInError (c : ErrorCode) (s : State) (r : Run State) : Prop :=
  ∃ e, r = .error (.ended (complete c 0 (s.setEng e)))

theorem exec_encodeT_of_error {pb : Nat} {s : State} {c : ErrorCode}
    (hw : (grantOf (.encodeT pb) s.snap).fault? = none) (h : encodeTError pb s = some c) :
    ∃ e, exec (.encodeT pb) s = .next (complete c 0 (s.setEng e)) := by
  obtain ⟨e, -, hrun⟩ := runEncodeT_of_windows hw
  have hend : EndsInError c s (runEncodeT pb s) := by
    rw [hrun]
    refine require_bind_of_firstFailing (Q := EndsInError c s) h ⟨s.eng, rfl⟩ fun h => ?_
    refine require_bind_of_firstFailing (Q := EndsInError c s) h ⟨s.eng, rfl⟩ fun h => ?_
    refine require_bind_of_firstFailing (Q := EndsInError c s) h ⟨s.eng, rfl⟩ fun h => ?_
    refine require_bind_of_firstFailing (Q := EndsInError c s) h ⟨s.eng, rfl⟩ fun h => ?_
    exact require_bind_of_firstFailing (Q := EndsInError c s) h ⟨e, rfl⟩ fun h => nomatch h
  exact hend.imp fun _ => congrArg Run.finish

/-- Settles O26: as for `ENCODE`; the last check comes after the load of the image into working state. -/
theorem encodeTChecksInOrder : Obligations.EncodeTChecksInOrder := by
  unfold Obligations.EncodeTChecksInOrder
  intro pb s c hw h
  exact exec_encodeT_of_error hw h

/-- Past its checks `ENCODE.T` encodes with the image in working state. -/
theorem exec_encodeT_of_checks {pb : Nat} {s : State} (hw : (grantOf (.encodeT pb) s.snap).fault? = none)
    (h : encodeTError pb s = none) :
    ∃ e, e.enc = s.imageTable ∧ exec (.encodeT pb) s =
      (encodeContainer (grantOf (.encodeT pb) s.snap) pb (s.setEng e) >>= fun t =>
        (.ok (completeEncode t) : Run State)).finish := by
  obtain ⟨hencode, tbl, total⟩ := encodeTError_eq_none_iff.1 h
  obtain ⟨dst, blocks, capacity, bits⟩ := encodeError_eq_none_iff.1 hencode
  obtain ⟨e, henc, hrun⟩ := runEncodeT_of_windows hw
  refine ⟨e, henc, ?_⟩
  simp only [exec, execEncodeT, hrun, dst, tbl, blocks, capacity, bits, total, Bool.and_self, decide_true, require_true,
    Run.ok_bind]

end Sys2Proof.Machine
end

