-- ==== Sys2Proof/Proofs/EncodeStep.lean ====
section
/-! PROOF of O27, O28 and O29: the group step as the scalar step on every lane, its packed words, and the range of the
states (42_encoder.md R511 to R517). -/

namespace Sys2Proof.Machine

/-! ### Fields of a record (30_encoding.md R310) -/

/-- A field of the low half of a record, shifted down and masked (42_encoder.md R517). -/
theorem lowHalf_field (e : U64) {a n : Nat} (h : a + n ≤ 32) :
    (e.extractLsb' 0 32 >>> a) &&& BitVec.ofNat 32 (2 ^ n - 1) = (e.extractLsb' a n).setWidth 32 := by
  apply BitVec.eq_of_getLsbD_eq
  intro i hi
  have hmask : (BitVec.ofNat 32 (2 ^ n - 1)).getLsbD i = decide (i < n) := by
    rw [BitVec.getLsbD_ofNat, Nat.testBit_two_pow_sub_one]
    simp [hi]
  rw [BitVec.getLsbD_and, BitVec.getLsbD_ushiftRight, BitVec.getLsbD_extractLsb', BitVec.getLsbD_setWidth,
    BitVec.getLsbD_extractLsb', hmask]
  by_cases hn : i < n
  · have : a + i < 32 := by omega
    simp [hn, hi, this]
  · simp [hn]

theorem lowHalf_pdf (e : U64) : e.extractLsb' 0 32 &&& 0xFFF#32 = encPdf e :=
  (congrArg (· &&& 0xFFF#32) (BitVec.ushiftRight_zero _).symm).trans (lowHalf_field e (a := 0) (n := 12) (by decide))

theorem lowHalf_cdf (e : U64) : (e.extractLsb' 0 32 >>> 12) &&& 0xFFF#32 = encCdf e :=
  lowHalf_field e (a := 12) (n := 12) (by decide)

theorem lowHalf_shift (e : U64) : (e.extractLsb' 0 32 >>> 24) &&& 0x1F#32 = encShift e :=
  lowHalf_field e (a := 24) (n := 5) (by decide)

theorem encShift_lt (e : U64) : (encShift e).toNat < 32 := by
  rw [encShift, BitVec.toNat_setWidth_of_le (by decide)]
  exact (e.extractLsb' 24 5).isLt

/-! ### The group step on a lane (42_encoder.md R517) -/

theorem getD_symIdx (enc : Vector U64 256) (b : Byte) (d : U64) :
    enc.getD (b.setWidth 32).toNat d = enc.get (symIdx b) := by
  have hb : (b.setWidth 32).toNat = b.toNat := BitVec.toNat_setWidth_of_le (by decide)
  have hlt : b.toNat < 256 := b.isLt
  rw [hb]
  simp [Vector.getD, hlt, symIdx, Vector.get]

theorem gather64_fst_get (enc : Vector U64 256) (sym : Vector Byte 8) (j : Fin 8) :
    (gather64 enc (cvtU8 sym)).1.get j = (enc.get (symIdx (sym.get j))).extractLsb' 0 32 := by
  rw [gather64, get_ofFn, ← getD_symIdx enc (sym.get j), ← cvtU8_get]
  rfl

theorem gather64_snd_get (enc : Vector U64 256) (sym : Vector Byte 8) (j : Fin 8) :
    (gather64 enc (cvtU8 sym)).2.get j = encDivM1 (enc.get (symIdx (sym.get j))) := by
  rw [gather64, get_ofFn, ← getD_symIdx enc (sym.get j), ← cvtU8_get]
  rfl

theorem keepLanes_get_msb {lo : Vec} {e : U64} {j : Fin 8} (hlo : lo.get j = e.extractLsb' 0 32) (x : Vec) (pb : Nat) :
    ((keepLanes lo x pb).get j).msb = decide (x.get j < emitThreshold e pb) := by
  have hthr : (vshl (vand lo (broadcast32 0xFFF#32)) (Config.stateBits - pb)).get j = emitThreshold e pb := by
    rw [vshl_get, vand_get, broadcast32_get, hlo, lowHalf_pdf, emitThreshold]
  rw [keepLanes, vcmpGt_get, hthr]
  by_cases h : x.get j < emitThreshold e pb
  · rw [if_pos h, decide_eq_true h]
    rfl
  · rw [if_neg h, decide_eq_false h]
    rfl

theorem emitMaskOf_getLsbD {lo : Vec} {e : U64} {j : Fin 8} (hlo : lo.get j = e.extractLsb' 0 32) (x : Vec) (pb : Nat) :
    (emitMaskOf lo x pb).getLsbD j.val = (encStep (x.get j) e pb).emitted := by
  have hones : ∀ j : Fin 8, (0xFF#8).getLsbD j.val = true := by decide
  rw [emitMaskOf, BitVec.getLsbD_xor, vmask_getLsbD, keepLanes_get_msb hlo, hones, Bool.true_xor, encStep,
    ← decide_not]
  simp only [BitVec.not_lt]

theorem groupUpdate_get {lo hi : Vec} {e : U64} {j : Fin 8} (hlo : lo.get j = e.extractLsb' 0 32)
    (hhi : hi.get j = encDivM1 e) (x : Vec) (pb : Nat) :
    (groupUpdate lo hi x pb).get j = (encStep (x.get j) e pb).state := by
  have hx : (blendv (vshr x 16) x (keepLanes lo x pb)).get j = afterEmit (x.get j) e pb := by
    rw [blendv_get, keepLanes_get_msb hlo, vshr_get, afterEmit]
    by_cases h : emitThreshold e pb ≤ x.get j <;> simp [h, BitVec.not_le.1]
  simp only [groupUpdate, vadd_get, vsub_get, vshl_get, vmullo_get, vmulhi_get, vand_get, vshr_get, vshrv_get,
    broadcast32_get, hx, hlo, hhi, lowHalf_pdf, lowHalf_cdf, lowHalf_shift, if_pos (encShift_lt e)]
  rfl

/-! ### Packed words (45_simd.md R830) -/

/-- Of the indexes below `n` that satisfy `p`, in order, `j` stands where as many of them are below it. -/
theorem getElem?_filter_range {p : Nat → Bool} {n j : Nat} (hjn : j < n) (hj : p j = true) :
    ((List.range n).filter p)[(List.range j).countP p]? = some j := by
  obtain ⟨m, rfl⟩ : ∃ m, n = j + (m + 1) := ⟨n - j - 1, by omega⟩
  rw [List.range_add, List.filter_append, List.countP_eq_length_filter, List.getElem?_append_right (Nat.le_refl _)]
  simp [List.range_succ_eq_map, hj]

theorem length_setBits (m : BitVec 8) : (setBits m).length = popcount m := List.countP_eq_length_filter.symm

theorem setBits_lt {m : BitVec 8} {l : Nat} (h : l ∈ setBits m) : l < 8 := by
  simpa using (List.mem_filter.1 h).1

theorem writePermute_get {m : BitVec 8} {i : Fin 8} (hi : i.val < (setBits m).length) :
    ((writePermute m).get i).toNat = (setBits m)[i.val] := by
  have hlt := setBits_lt (List.getElem_mem hi)
  rw [writePermute, get_ofFn, List.getElem?_eq_getElem hi]
  exact Nat.mod_eq_of_lt (by omega)

/-- The low elements of the packed half-vector are the emitting lanes' words in ascending lane order. -/
theorem emittedWords_take (lo x : Vec) (pb : Nat) :
    (emittedWords lo x pb).toList.take (popcount (emitMaskOf lo x pb)) =
      (setBits (emitMaskOf lo x pb)).map fun l => (x.get (Fin.ofNat 8 l)).setWidth 16 := by
  refine List.ext_getElem ?_ fun i h1 h2 => ?_
  · simp [length_setBits, popcount_le]
  · have hi : i < (setBits (emitMaskOf lo x pb)).length := by simpa using h2
    have hi8 : i < 8 := hi.trans_le ((length_setBits _).trans_le (popcount_le _))
    have hget : (emittedWords lo x pb)[i] = (emittedWords lo x pb).get ⟨i, hi8⟩ := rfl
    rw [List.getElem_take, Vector.getElem_toList, hget, emittedWords, pack32to16_get, permute8x32_get,
      writePermute_get hi, List.getElem_map]

/-- Settles O27: each lane by itself (`groupUpdate_get`, `emitMaskOf_getLsbD`), and the emitting lanes packed
(`emittedWords_take`). -/
theorem groupStepIsScalar : Obligations.GroupStepIsScalar := by
  unfold Obligations.GroupStepIsScalar
  intro enc sym x pb j t em r
  have hlo := gather64_fst_get enc sym j
  have hemit : em.getLsbD j.val = r.emitted := emitMaskOf_getLsbD hlo x pb
  refine ⟨groupUpdate_get hlo (gather64_snd_get enc sym j) x pb, hemit, fun hr => ?_⟩
  have hat : (setBits em)[rank em j.val]? = some j.val := getElem?_filter_range j.isLt (hemit.trans hr)
  have hlt : rank em j.val < popcount em := by
    rw [← length_setBits]
    exact (List.getElem?_eq_some_iff.1 hat).1
  have hword := congrArg (·[rank em j.val]?) (emittedWords_take t.1 x pb)
  rw [List.getElem?_take_of_lt hlt, List.getElem?_map, hat] at hword
  rw [Vector.getElem?_toList] at hword
  simpa [BitVec.setWidth_eq_extractLsb', r, encStep] using hword

/-! ### The fields of a live symbol's record (41_statistics.md R465) -/

theorem toNat_encPdf (e : U64) : (encPdf e).toNat = e.toNat % 2 ^ 12 := by
  rw [encPdf, BitVec.toNat_setWidth_of_le (by decide), BitVec.extractLsb'_toNat, Nat.shiftRight_zero]

theorem toNat_encCdf (e : U64) : (encCdf e).toNat = e.toNat / 2 ^ 12 % 2 ^ 12 := by
  rw [encCdf, BitVec.toNat_setWidth_of_le (by decide), BitVec.extractLsb'_toNat, Nat.shiftRight_eq_div_pow]

theorem toNat_encShift (e : U64) : (encShift e).toNat = e.toNat / 2 ^ 24 % 2 ^ 5 := by
  rw [encShift, BitVec.toNat_setWidth_of_le (by decide), BitVec.extractLsb'_toNat, Nat.shiftRight_eq_div_pow]

theorem toNat_encDivM1 (e : U64) : (encDivM1 e).toNat = e.toNat / 2 ^ 32 % 2 ^ 32 := by
  rw [encDivM1, BitVec.extractLsb'_toNat, Nat.shiftRight_eq_div_pow]

/-- The record of a live symbol of a table that sums to at most 2048: its fields read back. -/
structure LiveRecord (p c : Nat) (e : U64) : Prop where
  pos : 1 ≤ p
  pdf : (encPdf e).toNat = p
  cdf : (encCdf e).toNat = c
  shift : (encShift e).toNat = divShift p
  divM1 : encDivM1 e = BitVec.ofNat 32 (divMagic p)

theorem toNat_encPdf_encTable {q : Vector (BitVec 12) 256} (hq : (q.toList.map BitVec.toNat).sum ≤ 2048) (s : Fin 256) :
    (encPdf ((encTable q).get s)).toNat = (q.get s).toNat := by
  have hrec := encoderTableRecords q hq s
  have hpdf : (q.get s).toNat < 2 ^ 12 := (q.get s).isLt
  rw [toNat_encPdf, hrec]
  split <;> omega

theorem liveRecord {q : Vector (BitVec 12) 256} (hq : (q.toList.map BitVec.toNat).sum ≤ 2048) {s : Fin 256}
    (hs : 0 < (q.get s).toNat) :
    LiveRecord (q.get s).toNat ((q.toList.take s.val).map BitVec.toNat).sum ((encTable q).get s) := by
  have hrec := encoderTableRecords q hq s
  have hpdf : (q.get s).toNat ≤ 2048 := (toNat_get_le_sum q s).trans hq
  have hcdf : ((q.toList.take s.val).map BitVec.toNat).sum ≤ 2048 := (sum_take_le_sum q s.val).trans hq
  have hmagic : divMagic (q.get s).toNat < 2 ^ 32 := divMagic_lt hs hpdf
  have hshift : divShift (q.get s).toNat ≤ 11 := divShift_le (by decide) hpdf
  simp only [if_pos hs] at hrec
  refine ⟨hs, toNat_encPdf_encTable hq s, ?_, ?_, BitVec.eq_of_toNat_eq ?_⟩
  · rw [toNat_encCdf, hrec]
    omega
  · rw [toNat_encShift, hrec]
    omega
  · rw [toNat_encDivM1, hrec, BitVec.toNat_ofNat]
    omega

/-- A symbol's probability fits above the sum of those before it. -/
theorem sum_take_add_le_sum (q : Vector (BitVec 12) 256) (s : Fin 256) :
    ((q.toList.take s.val).map BitVec.toNat).sum + (q.get s).toNat ≤ (q.toList.map BitVec.toNat).sum := by
  have hs : s.val < q.toList.length := by simp
  have hnext := sum_take_le_sum q (s.val + 1)
  rw [List.take_succ_eq_append_getElem hs, List.map_append, List.sum_append] at hnext
  simpa [Vector.get] using hnext

/-! ### One emit and the range of the states (42_encoder.md R511 to R515) -/

theorem mul_two_pow_le {p pb : Nat} (hpb : isProbBits pb = true) (hp : p ≤ 2 ^ pb) : p * 2 ^ (31 - pb) ≤ 2 ^ 31 := by
  rw [isProbBits, decide_eq_true_eq] at hpb
  calc p * 2 ^ (31 - pb) ≤ 2 ^ pb * 2 ^ (31 - pb) := Nat.mul_le_mul_right _ hp
    _ = 2 ^ 31 := by rw [← Nat.pow_add, Nat.add_sub_cancel' (by omega)]

/-- The threshold is exact, for a probability at most `2^PB`. -/
theorem toNat_emitThreshold {p c : Nat} {e : U64} (h : LiveRecord p c e) {pb : Nat} (hpb : isProbBits pb = true)
    (hp : p ≤ 2 ^ pb) : (emitThreshold e pb).toNat = p * 2 ^ (31 - pb) := by
  have hle := mul_two_pow_le hpb hp
  rw [emitThreshold, BitVec.toNat_shiftLeft, h.pdf, Nat.shiftLeft_eq, Config.stateBits]
  exact Nat.mod_eq_of_lt (by omega)

/-- The state after the emit lies between the threshold's `2^16`-th part and the threshold. -/
theorem afterEmit_bounds {p c : Nat} {e : U64} (h : LiveRecord p c e) {pb : Nat} (hpb : isProbBits pb = true)
    (hp : p ≤ 2 ^ pb) {x : U32} (hlow : Config.minState ≤ x) (hhigh : x.toNat < 2 ^ 31) :
    p * 2 ^ (15 - pb) ≤ (afterEmit x e pb).toNat ∧ (afterEmit x e pb).toNat < p * 2 ^ (31 - pb) := by
  have hthr := toNat_emitThreshold h hpb hp
  have hpos := h.pos
  have hL : 32768 ≤ x.toNat := hlow
  rw [isProbBits, decide_eq_true_eq] at hpb
  rw [afterEmit]
  by_cases hx : emitThreshold e pb ≤ x
  · have hge : p * 2 ^ (31 - pb) ≤ x.toNat := hthr ▸ hx
    rw [if_pos hx, BitVec.toNat_ushiftRight, Nat.shiftRight_eq_div_pow]
    rcases hpb with rfl | rfl | rfl <;> norm_num at hge hp ⊢ <;> omega
  · have hlt : x.toNat < p * 2 ^ (31 - pb) := hthr ▸ BitVec.not_le.1 hx
    rw [if_neg hx]
    rcases hpb with rfl | rfl | rfl <;> norm_num at hlt hp ⊢ <;> omega

theorem toNat_encDiv {p c : Nat} {e : U64} (h : LiveRecord p c e) (hp : p ≤ 2048) {x : U32} (hx : x.toNat < 2 ^ 31) :
    (encDiv x e).toNat = x.toNat / p := by
  rw [encDiv, h.divM1, h.shift, (divideIdentity p x h.pos hp hx).2]

/-- The update is exact where its value is a 32-bit number. -/
theorem toNat_encUpdate {p c : Nat} {e : U64} (h : LiveRecord p c e) (hp : p ≤ 2048) {x : U32} (hx : x.toNat < 2 ^ 31)
    {pb : Nat} (hfit : x.toNat / p * 2 ^ pb + c + x.toNat % p < 2 ^ 32) :
    (encUpdate x e pb).toNat = x.toNat / p * 2 ^ pb + c + x.toNat % p := by
  have hdiv := toNat_encDiv h hp hx
  have hmod := Nat.div_add_mod' x.toNat p
  have hprod : (encDiv x e * encPdf e).toNat = x.toNat / p * p := by
    rw [BitVec.toNat_mul, hdiv, h.pdf, Nat.mod_eq_of_lt (by omega)]
  have hrem : (x - encDiv x e * encPdf e).toNat = x.toNat % p := by
    rw [BitVec.toNat_sub_of_le (BitVec.le_def.2 (by omega)), hprod]
    omega
  rw [encUpdate, BitVec.toNat_add, BitVec.toNat_add, BitVec.toNat_shiftLeft, hdiv, h.cdf, hrem, Nat.shiftLeft_eq]
  omega

/-- The range of the update: its quotient counts whole multiples of `m`, its remainder stays in the symbol's share. -/
theorem update_bounds {p c m a x : Nat} (hp : 0 < p) (hc : c + p ≤ m) (hlow : p * a ≤ x)
    (hhigh : x < p * (2 ^ 16 * a)) :
    a * m ≤ x / p * m + c + x % p ∧ x / p * m + c + x % p < 2 ^ 16 * (a * m) := by
  have hmod : x % p < p := Nat.mod_lt x hp
  have hge : a * m ≤ x / p * m := Nat.mul_le_mul_right m ((Nat.le_div_iff_mul_le hp).2 (by rwa [Nat.mul_comm]))
  have hlt : (x / p + 1) * m ≤ 2 ^ 16 * a * m := Nat.mul_le_mul_right m (Nat.div_lt_of_lt_mul hhigh)
  rw [Nat.succ_mul, Nat.mul_assoc] at hlt
  omega

/-- A step of a live symbol keeps the state in `[L, 2^31)`. -/
theorem encStep_keeps_range {p c : Nat} {e : U64} (h : LiveRecord p c e) {pb : Nat} (hpb : isProbBits pb = true)
    (hc : c + p ≤ 2 ^ pb) {x : U32} (hlow : Config.minState ≤ x) (hhigh : x.toNat < 2 ^ 31) :
    Config.minState ≤ (encStep x e pb).state ∧ (encStep x e pb).state.toNat < 2 ^ 31 := by
  obtain ⟨-, hM⟩ := two_pow_probBits hpb
  obtain ⟨hge, hlt⟩ := afterEmit_bounds h hpb (by omega) hlow hhigh
  have hsplit : 2 ^ (31 - pb) = 2 ^ 16 * 2 ^ (15 - pb) ∧ 2 ^ (15 - pb) * 2 ^ pb = 2 ^ 15 := by
    rw [isProbBits, decide_eq_true_eq] at hpb
    rcases hpb with rfl | rfl | rfl <;> decide
  have hx : (afterEmit x e pb).toNat < 2 ^ 31 := hlt.trans_le (mul_two_pow_le hpb (by omega))
  rw [hsplit.1] at hlt
  obtain ⟨hlow', hhigh'⟩ := update_bounds h.pos hc hge hlt
  rw [hsplit.2] at hlow' hhigh'
  have hval := toNat_encUpdate h (by omega) hx (pb := pb) (by omega)
  rw [encStep, BitVec.le_def]
  exact ⟨by rw [hval]; exact hlow', by rw [hval]; exact hhigh'⟩

/-- Settles O28: the threshold is exact and at least `2^20`, and a state shifted by 16 is below `2^15`. -/
theorem oneEmitSuffices : Obligations.OneEmitSuffices := by
  unfold Obligations.OneEmitSuffices
  intro q pb s x hpb hsum hs hlow hhigh e
  obtain ⟨-, hM⟩ := two_pow_probBits hpb
  have hrec : LiveRecord _ _ e := liveRecord (by omega) hs
  have hthr := toNat_emitThreshold hrec hpb ((toNat_get_le_sum q s).trans_eq hsum)
  have hpow : 2 ^ 20 ≤ 2 ^ (31 - pb) ∧ 2 ^ pb * 2 ^ (31 - pb) = 2 ^ 31 := by
    rw [isProbBits, decide_eq_true_eq] at hpb
    rcases hpb with rfl | rfl | rfl <;> decide
  have hge : 2 ^ 20 ≤ (emitThreshold e pb).toNat := by
    rw [hthr]
    exact hpow.1.trans (Nat.le_mul_of_pos_left _ hs)
  have hshift : (x >>> 16).toNat < 2 ^ 15 := by
    rw [BitVec.toNat_ushiftRight, Nat.shiftRight_eq_div_pow]
    omega
  refine ⟨hthr, hge, fun _ => ⟨hshift, ?_⟩, fun hall => ?_⟩
  · rw [BitVec.lt_def]
    omega
  · refine decide_eq_false (BitVec.not_le.2 ?_)
    rw [BitVec.lt_def, hthr, hall, hpow.2]
    exact hhigh

/-- Settles O29: a step of a live symbol keeps the range (`encStep_keeps_range`). -/
theorem statesStayInRange : Obligations.StatesStayInRange := by
  unfold Obligations.StatesStayInRange
  intro q pb syms x hpb hsum hlive hlow hhigh
  obtain ⟨-, hM⟩ := two_pow_probBits hpb
  induction syms generalizing x with
  | nil => exact ⟨hlow, hhigh⟩
  | cons s syms ih =>
    obtain ⟨hlow', hhigh'⟩ := encStep_keeps_range (liveRecord (by omega) (hlive s List.mem_cons_self)) hpb
      ((sum_take_add_le_sum q s).trans_eq hsum) hlow hhigh
    exact ih _ (fun t ht => hlive t (List.mem_cons_of_mem s ht)) hlow' hhigh'

end Sys2Proof.Machine
end

