-- ==== Sys2Proof/Proofs/EncodeSweep.lean ====
section
/-! PROOF for O30 to O34: the scalar sweep over a block, eight bytes at a time, as the group step makes it
(42_encoder.md R500, R502, R516, R517). -/

namespace Sys2Proof.Machine

/-! ### The sweep byte by byte -/

theorem scalarEncodeBlock_take_succ (enc : Vector U64 256) (pb : Nat) {block : List Byte} {n : Nat}
    (hn : n < block.length) : scalarEncodeBlock enc pb (block.take (n + 1)) =
      scalarEncodeStep enc pb (scalarEncodeBlock enc pb (block.take n)) (n, block[n]) := by
  have hlen : (block.take n).length = n := List.length_take_of_le hn.le
  have hlen' : (block.take (n + 1)).length = n + 1 := List.length_take_of_le hn
  rw [scalarEncodeBlock, scalarEncodeBlock, hlen, hlen', List.take_succ_eq_append_getElem hn, List.range_succ,
    List.zip_append (by simp [hlen]), List.foldl_append]
  rfl

theorem scalarEncodeStep_eq (enc : Vector U64 256) (pb : Nat) (acc : Vector U32 32 × List U16) {i : Nat} {l : Fin 32}
    (hl : Fin.ofNat 32 i = l) (b : Byte) : scalarEncodeStep enc pb acc (i, b) =
      (acc.1.set l (encStep (acc.1.get l) (enc.get (symIdx b)) pb).state,
        if (encStep (acc.1.get l) (enc.get (symIdx b)) pb).emitted then
          acc.2 ++ [(encStep (acc.1.get l) (enc.get (symIdx b)) pb).word] else acc.2) := by
  subst hl
  rfl

/-- The words of a longer sweep are at least as many. -/
theorem length_scalarEncodeWords_take_mono (enc : Vector U64 256) (pb : Nat) (block : List Byte) :
    Monotone fun n => (scalarEncodeWords enc pb (block.take n)).length := by
  refine monotone_nat_of_le_succ fun n => ?_
  by_cases hn : n < block.length
  · simp only [scalarEncodeWords, scalarEncodeBlock_take_succ enc pb hn, scalarEncodeStep]
    split <;> simp
  · rw [List.take_of_length_le (by omega), List.take_of_length_le (by omega)]

/-! ### The sweep group by group -/

/-- The lanes once the first `j` lanes of group `g` have their new states `x`. -/
def groupLanes (lanes : Vector U32 32) (g : Fin 4) (x : Vec) (j : Nat) : Vector U32 32 :=
  Vector.ofFn fun l => if l.val / 8 = g.val ∧ l.val % 8 < j then x.get ⟨l.val % 8, by omega⟩ else lanes.get l

theorem groupLanes_get (lanes : Vector U32 32) (g : Fin 4) (x : Vec) (j : Nat) (l : Fin 32) :
    (groupLanes lanes g x j).get l =
      if l.val / 8 = g.val ∧ l.val % 8 < j then x.get ⟨l.val % 8, by omega⟩ else lanes.get l := get_ofFn _ l

theorem groupLanes_zero (lanes : Vector U32 32) (g : Fin 4) (x : Vec) : groupLanes lanes g x 0 = lanes :=
  ext_get fun l => by simp [groupLanes_get]

theorem groupLanes_eight (lanes : Vector U32 32) (g : Fin 4) (x : Vec) :
    groupLanes lanes g x 8 = setLaneGroup lanes g x :=
  ext_get fun l => by simp [groupLanes_get, setLaneGroup_get, Nat.mod_lt]

/-- Core lane `8g + j`, lane `j` of group `g`. -/
def coreLane (g : Fin 4) (j : Fin 8) : Fin 32 := ⟨8 * g.val + j.val, by omega⟩

theorem groupLanes_succ (lanes : Vector U32 32) (g : Fin 4) (x : Vec) (j : Fin 8) :
    groupLanes lanes g x (j.val + 1) = (groupLanes lanes g x j.val).set (coreLane g j) (x.get j) := by
  refine ext_get fun l => ?_
  rw [get_set, groupLanes_get, groupLanes_get]
  by_cases hl : coreLane g j = l
  · subst hl
    have h1 : (8 * g.val + j.val) / 8 = g.val := by omega
    have h2 : (8 * g.val + j.val) % 8 = j.val := by omega
    simp [coreLane, h1, h2]
  · have hne : 8 * g.val + j.val ≠ l.val := fun h => hl (Fin.ext h)
    have hiff : (l.val / 8 = g.val ∧ l.val % 8 < j.val + 1) ↔ (l.val / 8 = g.val ∧ l.val % 8 < j.val) := by omega
    simp only [hiff, if_neg hl]

/-- What the group step computes: the new states, the emit mask and the words of the emitting lanes in ascending
order. -/
structure GroupResult where
  states : Vec
  mask : BitVec 8
  words : List U16

/-- The group step on the symbols `sym` from the states `x` (42_encoder.md R517). -/
def groupResult (enc : Vector U64 256) (pb : Nat) (sym : Vector Byte 8) (x : Vec) : GroupResult where
  states := groupUpdate (gather64 enc (cvtU8 sym)).1 (gather64 enc (cvtU8 sym)).2 x pb
  mask := emitMaskOf (gather64 enc (cvtU8 sym)).1 x pb
  words := (setBits (emitMaskOf (gather64 enc (cvtU8 sym)).1 x pb)).map fun l => (x.get (Fin.ofNat 8 l)).setWidth 16

/-- The words of the first `j` lanes. -/
def laneWords (m : BitVec 8) (x : Vec) (j : Nat) : List U16 :=
  ((List.range j).filter fun l => m.getLsbD l).map fun l => (x.get (Fin.ofNat 8 l)).setWidth 16

theorem laneWords_succ (m : BitVec 8) (x : Vec) (j : Fin 8) : laneWords m x (j.val + 1) =
    if m.getLsbD j.val then laneWords m x j.val ++ [(x.get j).setWidth 16] else laneWords m x j.val := by
  rw [laneWords, List.range_succ, List.filter_append, List.map_append]
  by_cases h : m.getLsbD j.val = true
  · rw [if_pos h, List.filter_cons_of_pos h, List.map_cons, Fin.ofNat_val_eq_self]
    rfl
  · rw [if_neg h, List.filter_cons_of_neg h]
    exact List.append_nil _

/-- The sweep's next `j` bytes, all of one group, are the first `j` lanes of the group step. -/
theorem scalarEncodeBlock_take_lanes (enc : Vector U64 256) (pb : Nat) {block : List Byte} {w : Nat} {g : Fin 4}
    {sym : Vector Byte 8} (hlen : 32 * w + 8 * g.val + 8 ≤ block.length)
    (hsym : ∀ j : Fin 8, block[32 * w + 8 * g.val + j.val] = sym.get j) {j : Nat} (hj : j ≤ 8) :
    let p := scalarEncodeBlock enc pb (block.take (32 * w + 8 * g.val))
    let r := groupResult enc pb sym (laneGroup p.1 g)
    scalarEncodeBlock enc pb (block.take (32 * w + 8 * g.val + j)) =
      (groupLanes p.1 g r.states j, p.2 ++ laneWords r.mask (laneGroup p.1 g) j) := by
  intro p r
  induction j with
  | zero => simp [groupLanes_zero, laneWords, p]
  | succ j ih =>
    let i : Fin 8 := ⟨j, hj⟩
    have hlane : Fin.ofNat 32 (32 * w + 8 * g.val + j) = coreLane g i :=
      Fin.ext (by simp only [Fin.ofNat, coreLane, i]; omega)
    have hx : (groupLanes p.1 g r.states j).get (coreLane g i) = (laneGroup p.1 g).get i := by
      have h2 : (8 * g.val + j) % 8 = j := by omega
      rw [groupLanes_get, laneGroup_get]
      simp [coreLane, i, h2]
    have hlo := gather64_fst_get enc sym i
    have hstate : r.states.get i = _ := groupUpdate_get hlo (gather64_snd_get enc sym i) (laneGroup p.1 g) pb
    have hemit : r.mask.getLsbD i.val = _ := emitMaskOf_getLsbD hlo (laneGroup p.1 g) pb
    rw [← Nat.add_assoc, scalarEncodeBlock_take_succ enc pb (by omega), ih (by omega),
      scalarEncodeStep_eq enc pb _ hlane, hx, hsym i, ← hstate, ← hemit, groupLanes_succ _ _ _ i, laneWords_succ _ _ i]
    by_cases h : r.mask.getLsbD i.val = true
    · rw [if_pos h, if_pos h, ← List.append_assoc, encStep, BitVec.setWidth_eq_extractLsb' (by decide)]
    · rw [if_neg h, if_neg h]

/-- Eight bytes of the sweep are one group step (42_encoder.md R517). -/
theorem scalarEncodeBlock_take_group (enc : Vector U64 256) (pb : Nat) {block : List Byte} {w : Nat} {g : Fin 4}
    {sym : Vector Byte 8} (hlen : 32 * w + 8 * g.val + 8 ≤ block.length)
    (hsym : ∀ j : Fin 8, block[32 * w + 8 * g.val + j.val] = sym.get j) :
    let p := scalarEncodeBlock enc pb (block.take (32 * w + 8 * g.val))
    let r := groupResult enc pb sym (laneGroup p.1 g)
    scalarEncodeBlock enc pb (block.take (32 * w + 8 * g.val + 8)) =
      (setLaneGroup p.1 g r.states, p.2 ++ r.words) := by
  intro p r
  rw [scalarEncodeBlock_take_lanes enc pb hlen hsym (Nat.le_refl 8), groupLanes_eight]
  rfl

theorem groupResult_length_words (enc : Vector U64 256) (pb : Nat) (sym : Vector Byte 8) (x : Vec) :
    (groupResult enc pb sym x).words.length = popcount (groupResult enc pb sym x).mask :=
  (List.length_map ..).trans (length_setBits _)

theorem take_flatMap_leBytes (n : Nat) (ws : List U16) :
    (ws.flatMap (leBytes 2)).take (2 * n) = (ws.take n).flatMap (leBytes 2) := by
  induction ws generalizing n with
  | nil => simp
  | cons v ws ih =>
    cases n with
    | zero => rfl
    | succ n =>
      rw [List.flatMap_cons, List.take_succ_cons, List.flatMap_cons, ← ih n, List.take_append, length_leBytes,
        List.take_of_length_le (by rw [length_leBytes]; omega), Nat.mul_succ, Nat.add_sub_cancel]

/-- The bytes the group step stores are those of its words (42_encoder.md R518). -/
theorem halfBytes_emittedWords_take (enc : Vector U64 256) (pb : Nat) (sym : Vector Byte 8) (x : Vec) :
    (halfBytes (emittedWords (gather64 enc (cvtU8 sym)).1 x pb)).take
      (2 * popcount (emitMaskOf (gather64 enc (cvtU8 sym)).1 x pb)) =
      (groupResult enc pb sym x).words.flatMap (leBytes 2) := by
  rw [halfBytes, take_flatMap_leBytes, emittedWords_take]
  rfl

end Sys2Proof.Machine
end

