-- ==== Sys2Proof/Proofs/EncodeStores.lean ====
section
/-! PROOF for O30 to O34: numbers and arrays of numbers in host memory, the store of a group's words, and runs that
either fit the destination window or overrun it (20_memory.md R201, R210, 42_encoder.md R518). -/

namespace Sys2Proof.Machine

/-! ### Numbers in host memory (20_memory.md R201) -/

/-- The `n` bytes at `a` are those of the number `v`, least significant first. -/
def State.holdsNum {w : Nat} (s : State) (a n : Nat) (v : BitVec w) : Prop :=
  ∀ i, i < n → s.byteAt (a + i) = v.extractLsb' (8 * i) 8

theorem extractLsb'_append_next {w : Nat} (v : BitVec w) (k n : Nat) :
    v.extractLsb' (8 * (k + 1)) n ++ v.extractLsb' (8 * k) 8 = v.extractLsb' (8 * k) (n + 8) :=
  BitVec.extractLsb'_append_extractLsb'_eq_extractLsb' (Nat.mul_succ 8 k)

theorem State.holdsNum.word16At {s : State} {a : Nat} {v : U16} (h : s.holdsNum a 2 v) : s.word16At a = v := by
  rw [State.word16At, le16, State.getElem_readBytes, State.getElem_readBytes, h 0 (by decide), h 1 (by decide),
    extractLsb'_append_next v 0]
  exact BitVec.extractLsb'_eq_self

theorem State.holdsNum.word32At {s : State} {a : Nat} {v : U32} (h : s.holdsNum a 4 v) : s.word32At a = v := by
  simp only [State.word32At, le32, State.getElem_readBytes]
  rw [h 0 (by decide), h 1 (by decide), h 2 (by decide), h 3 (by decide), extractLsb'_append_next v 2,
    extractLsb'_append_next v 1, extractLsb'_append_next v 0]
  exact BitVec.extractLsb'_eq_self

theorem State.holdsNum.word64At {s : State} {a : Nat} {v : U64} (h : s.holdsNum a 8 v) : s.word64At a = v :=
  le64_eq_of_getElem fun i hi => (State.getElem_readBytes ..).trans (h i hi)

theorem State.holdsNum.congr {w : Nat} {s t : State} {a n : Nat} {v : BitVec w} (h : s.holdsNum a n v)
    (hbytes : ∀ i, i < n → t.byteAt (a + i) = s.byteAt (a + i)) : t.holdsNum a n v :=
  fun i hi => (hbytes i hi).trans (h i hi)

/-- A number outside the bytes that changed is still there. -/
theorem State.holdsNum.of_sameOutside {w : Nat} {s t : State} {a n base len : Nat} {v : BitVec w}
    (h : s.holdsNum a n v) (hsame : sameOutside base len s t) (hout : a + n ≤ base ∨ base + len ≤ a) :
    t.holdsNum a n v :=
  h.congr fun i hi => hsame (a + i) (by omega)

theorem State.holdsNum_writeBytes {w : Nat} (s : State) {a n : Nat} (v : BitVec w) (ha : a + n ≤ Config.addressSpace) :
    (s.writeBytes (leBytes n v) a).holdsNum a n v := fun i hi => by
  rw [State.byteAt_writeBytes_in _ s (by simpa using hi) (by simpa using ha), getElem_leBytes]

theorem sameOutside.trans {base len : Nat} {s t u : State} (h : sameOutside base len s t)
    (k : sameOutside base len t u) : sameOutside base len s u := fun a ha => (k a ha).trans (h a ha)

theorem sameOutside.mono {base len base' len' : Nat} {s t : State} (h : sameOutside base len s t)
    (hbase : base' ≤ base) (hlen : base + len ≤ base' + len') : sameOutside base' len' s t :=
  fun a ha => h a (by omega)

theorem sameOutside_writeBytes (s : State) (bs : List Byte) (a : Nat) : sameOutside a bs.length s (s.writeBytes bs a) :=
  fun _ hb => State.byteAt_writeBytes_out bs s hb

/-! ### Arrays of numbers -/

/-- `t` is `s` with the first `count` numbers of `v`, `n` bytes each, stored from `base` on. -/
structure ArrayStored {w : Nat} (s : State) (base n count : Nat) (v : Nat → BitVec w) (t : State) : Prop where
  memory : ∃ m, t = s.setMem m
  stored : ∀ i, i < count → t.holdsNum (base + n * i) n (v i)
  outside : sameOutside base (n * count) s t

theorem ArrayStored.zero {w : Nat} (s : State) (base n : Nat) (v : Nat → BitVec w) : ArrayStored s base n 0 v s :=
  ⟨⟨s.mem, rfl⟩, fun _ h => (nomatch h), fun _ _ => rfl⟩

/-- Storing the next number keeps those before it. -/
theorem ArrayStored.next {w : Nat} {s t : State} {base n count : Nat} {v : Nat → BitVec w}
    (h : ArrayStored s base n count v t) (hwrap : base + n * (count + 1) ≤ Config.addressSpace) :
    ArrayStored s base n (count + 1) v (t.writeBytes (leBytes n (v count)) (base + n * count)) := by
  rw [Nat.mul_succ] at hwrap
  have hout := sameOutside_writeBytes t (leBytes n (v count)) (base + n * count)
  rw [length_leBytes] at hout
  obtain ⟨m, hm⟩ := h.memory
  obtain ⟨m', hm'⟩ := State.writeBytes_eq_setMem (leBytes n (v count)) (base + n * count) t
  refine ⟨⟨m', by rw [hm', hm]; rfl⟩, fun i hi => ?_,
    (h.outside.mono (Nat.le_refl _) ?_).trans (hout.mono (Nat.le_add_right _ _) ?_)⟩
  · rcases Nat.lt_or_eq_of_le (Nat.le_of_lt_succ hi) with hlt | rfl
    · have : n * (i + 1) ≤ n * count := Nat.mul_le_mul_left n hlt
      rw [Nat.mul_succ] at this
      exact (h.stored i hlt).of_sameOutside hout (by omega)
    · exact State.holdsNum_writeBytes t _ (by omega)
  all_goals rw [Nat.mul_succ]; omega

/-- A sweep of stores of consecutive numbers inside a write window. -/
theorem sweep_array {α : Type} {w : Nat} {g : Grant} {win : Window} {f : α → State → Run State} {as : List α}
    {s : State} {base n : Nat} {v : Nat → BitVec w} (hwin : win ∈ g.writes) (hwrap : win.base + win.len ≤ Config.addressSpace)
    (hlow : win.base ≤ base) (hhigh : base + n * as.length ≤ win.base + win.len)
    (hf : ∀ i (hi : i < as.length) m, f as[i] (s.setMem m) =
      coreWrite g ((base + n * i : Nat) : Int) (leBytes n (v i)) (s.setMem m)) :
    ∃ t, sweep f as s = .ok t ∧ ArrayStored s base n as.length v t := by
  refine sweep_counted (P := fun i => ArrayStored s base n i v) as (fun i hi t h => ?_) (ArrayStored.zero s base n v)
  have hle : n * (i + 1) ≤ n * as.length := Nat.mul_le_mul_left n hi
  rw [Nat.mul_succ] at hle
  obtain ⟨m, rfl⟩ := h.memory
  refine ⟨_, ?_, h.next (by rw [Nat.mul_succ]; omega)⟩
  rw [hf i hi m]
  exact coreWrite_ok _ ((g.mayWrite_iff _ _).2 ⟨win, hwin, by omega, by rw [length_leBytes]; omega⟩)

/-- One number stored inside a write window. -/
theorem coreWrite_num {w : Nat} {g : Grant} {win : Window} {s : State} {a : Int} {base n : Nat} (v : BitVec w)
    (ha : a = (base : Int)) (hwin : win ∈ g.writes) (hwrap : win.base + win.len ≤ Config.addressSpace)
    (hlow : win.base ≤ base) (hhigh : base + n ≤ win.base + win.len) :
    ∃ t, coreWrite g a (leBytes n v) s = .ok t ∧ ArrayStored s base n 1 (fun _ => v) t := by
  subst ha
  refine ⟨_, coreWrite_ok s ((g.mayWrite_iff _ _).2 ⟨win, hwin, by omega, by rw [length_leBytes]; omega⟩), ?_⟩
  exact (ArrayStored.zero s base n fun _ => v).next (by omega)

/-! ### The store of a group's words (42_encoder.md R518) -/

theorem getElem_flatMap_leBytes {ws : List U16} {i : Nat} (hi : i < ws.length) {j : Nat} (hj : j < 2)
    (h : 2 * i + j < (ws.flatMap (leBytes 2)).length) :
    (ws.flatMap (leBytes 2))[2 * i + j] = ws[i].extractLsb' (8 * j) 8 := by
  induction ws generalizing i with
  | nil => cases hi
  | cons v ws ih =>
    cases i with
    | zero =>
      simp only [List.flatMap_cons, Nat.mul_zero, Nat.zero_add, List.getElem_cons_zero]
      rw [List.getElem_append_left (by simpa using hj), getElem_leBytes]
    | succ i =>
      simp only [List.flatMap_cons, List.getElem_cons_succ]
      rw [List.getElem_append_right (by simp; omega)]
      simp only [length_leBytes, show 2 * (i + 1) + j - 2 = 2 * i + j by omega]
      exact ih (by simpa using hi) _

@[simp] theorem length_flatMap_leBytes (ws : List U16) : (ws.flatMap (leBytes 2)).length = 2 * ws.length := by
  simp [List.length_flatMap, Nat.mul_comm]

/-- A group's words stand at the cursor, and only the 16 bytes there change. -/
theorem spill_stored (t : State) {a : Nat} {ws : List U16} (hlen : ws.length ≤ 8) (ha : a + 16 ≤ Config.addressSpace) :
    let u := (t.writeBytes (ws.flatMap (leBytes 2)) a).havoc (16 - 2 * ws.length) (a + 2 * ws.length)
    (∀ i (hi : i < ws.length), u.holdsNum (a + 2 * i) 2 ws[i]) ∧ sameOutside a 16 t u := by
  refine ⟨fun i hi j hj => ?_, fun b hb => ?_⟩
  · rw [State.byteAt_havoc_out _ _ (by omega), Nat.add_assoc,
      State.byteAt_writeBytes_in _ t (by simp; omega) (by simp; omega), getElem_flatMap_leBytes hi hj]
  · rw [State.byteAt_havoc_out _ _ (by omega), State.byteAt_writeBytes_out _ t (by simp; omega)]

/-! ### Runs that store: they fit, or they overrun the destination (20_memory.md R210) -/

/-- If its stores fit, the run reaches a state with `P`; if not, it is `fault DstOverrun`. -/
structure Stores (fits : Prop) (P : State → Prop) (r : Run State) : Prop where
  ok : fits → ∃ t, r = .ok t ∧ P t
  overrun : ¬fits → r = .error (.fault .dstOverrun)

theorem Stores.of_ok {P : State → Prop} {r : Run State} (h : ∃ t, r = .ok t ∧ P t) : Stores True P r :=
  ⟨fun _ => h, fun h => absurd trivial h⟩

theorem Stores.congr {F G : Prop} {P : State → Prop} {r : Run State} (h : Stores F P r) (hFG : F ↔ G) : Stores G P r :=
  ⟨fun hG => h.ok (hFG.2 hG), fun hG => h.overrun (mt hFG.1 hG)⟩

theorem Stores.bind {F G : Prop} {P Q : State → Prop} {r : Run State} {f : State → Run State} (h : Stores F P r)
    (k : ∀ t, P t → Stores G Q (f t)) : Stores (F ∧ G) Q (r >>= f) := by
  by_cases hF : F
  · obtain ⟨t, rfl, ht⟩ := h.ok hF
    exact (k t ht).congr (by simp [hF])
  · rw [h.overrun hF]
    exact ⟨fun hFG => absurd hFG.1 hF, fun _ => rfl⟩

/-- A part after the stores that always succeeds. -/
theorem Stores.bind_ok {F : Prop} {P Q : State → Prop} {r : Run State} {f : State → Run State} (h : Stores F P r)
    (k : ∀ t, P t → ∃ u, f t = .ok u ∧ Q u) : Stores F Q (r >>= f) :=
  (h.bind fun t ht => .of_ok (k t ht)).congr (and_iff_left trivial)

/-- A sweep fits when each of its steps does. -/
theorem Stores.sweep {α : Type} {f : α → State → Run State} {F : Nat → Prop} {P : Nat → State → Prop} {as : List α}
    (step : ∀ j (hj : j < as.length) t, P j t → Stores (F j) (P (j + 1)) (f as[j] t)) {s : State} (hs : P 0 s) :
    Stores (∀ j, j < as.length → F j) (P as.length) (sweep f as s) := by
  induction as generalizing P F s with
  | nil => exact ⟨fun _ => ⟨s, rfl, hs⟩, fun h => absurd (fun _ hj => nomatch hj) h⟩
  | cons a as ih =>
    rw [sweep_cons]
    refine ((step 0 (Nat.succ_pos _) s hs).bind fun t ht => ih (F := fun j => F (j + 1)) (P := fun j => P (j + 1))
      (fun j hj => step (j + 1) (Nat.succ_lt_succ hj)) ht).congr ?_
    exact ⟨fun ⟨h0, hsucc⟩ j hj => match j with
      | 0 => h0
      | j + 1 => hsucc j (Nat.lt_of_succ_lt_succ hj),
      fun h => ⟨h 0 (Nat.succ_pos _), fun j hj => h (j + 1) (Nat.succ_lt_succ hj)⟩⟩

end Sys2Proof.Machine
end

