-- ==== Sys2Proof/Proofs/EncodePayload.lean ====
section
/-! PROOF for O30 to O34: the encoder engine follows the scalar sweep of Safety.lean, group by group, warp by warp and
block by block, and where it overruns the destination window (42_encoder.md R517 to R519). -/

namespace Sys2Proof.Machine

/-! ### The sweep over the source (42_encoder.md R500, R516, R519) -/

section
variable (s : State) (enc : Vector U64 256) (pb : Nat)

/-- The scalar sweep over the first `n` bytes of block `k`: states and words. -/
def State.blockSweep (k n : Nat) : Vector U32 32 × List U16 := scalarEncodeBlock enc pb ((s.sourceBlock k).take n)

/-- The words of the blocks before `k`. -/
def State.wordsBefore (k : Nat) : List U16 := (List.range k).flatMap (s.blockWords enc pb)

/-- The words of the source up to byte `n` of block `k`. -/
def State.wordsUpTo (k n : Nat) : List U16 := s.wordsBefore enc pb k ++ (s.blockSweep enc pb k n).2

/-- What the encoder keeps of the blocks before `k` (42_encoder.md R532). -/
def State.rowsBefore (k : Nat) : List BlockRow := (List.range k).map fun i =>
  ⟨(scalarEncodeBlock enc pb (s.sourceBlock i)).1, (s.blockWords enc pb i).length, (s.wordsBefore enc pb i).length⟩

/-- The 16-byte store at cursor `c` lies in the destination window. -/
def State.storeFits (c : Nat) : Prop := payloadOffset (blocksOf s) + 2 * c + 16 ≤ s.dstSize

/-- The stores of block `k` lie in the destination window. -/
def State.blockFits (k : Nat) : Prop :=
  ∀ w, w < 128 → ∀ g, g < 4 → s.storeFits (s.wordsUpTo enc pb k (32 * w + 8 * g)).length

theorem State.blockSweep_zero (k : Nat) : s.blockSweep enc pb k 0 = (Vector.replicate 32 Config.minState, []) := by
  rw [State.blockSweep, List.take_zero]
  rfl

theorem State.blockSweep_4096 (k : Nat) : s.blockSweep enc pb k 4096 = scalarEncodeBlock enc pb (s.sourceBlock k) := by
  rw [State.blockSweep, List.take_of_length_le (s.length_sourceBlock k).le]

theorem State.wordsUpTo_zero (k : Nat) : s.wordsUpTo enc pb k 0 = s.wordsBefore enc pb k := List.append_nil _

theorem State.wordsBefore_succ (k : Nat) :
    s.wordsBefore enc pb (k + 1) = s.wordsBefore enc pb k ++ s.blockWords enc pb k := by
  simp [State.wordsBefore, List.range_succ]

theorem State.wordsUpTo_4096 (k : Nat) : s.wordsUpTo enc pb k 4096 = s.wordsBefore enc pb (k + 1) := by
  rw [State.wordsUpTo, s.blockSweep_4096, s.wordsBefore_succ, State.blockWords, scalarEncodeWords]

theorem State.length_wordsBefore (k : Nat) :
    (s.wordsBefore enc pb k).length = ((List.range k).map fun i => (s.blockWords enc pb i).length).sum := by
  rw [State.wordsBefore, List.length_flatMap]

theorem State.payloadWords_eq : s.payloadWords enc pb = (s.wordsBefore enc pb (blocksOf s)).length :=
  (s.length_wordsBefore enc pb _).symm

theorem State.lastStoreCursor_eq :
    s.lastStoreCursor enc pb = (s.wordsUpTo enc pb (blocksOf s - 1) 4088).length := by
  rw [State.wordsUpTo, List.length_append, s.length_wordsBefore, State.lastStoreCursor, State.blockSweep,
    scalarEncodeWords]

theorem State.length_wordsBefore_mono : Monotone fun k => (s.wordsBefore enc pb k).length := by
  refine monotone_nat_of_le_succ fun k => ?_
  simp [s.wordsBefore_succ]

theorem State.length_wordsUpTo_mono (k : Nat) : Monotone fun n => (s.wordsUpTo enc pb k n).length := fun m n h => by
  simp only [State.wordsUpTo, List.length_append]
  exact Nat.add_le_add_left (length_scalarEncodeWords_take_mono enc pb _ h) _

/-- No cursor of the sweep's groups is above the last group's. -/
theorem State.length_wordsUpTo_le_last {k n : Nat} (hk : k < blocksOf s) (hn : n ≤ 4088) :
    (s.wordsUpTo enc pb k n).length ≤ s.lastStoreCursor enc pb := by
  rw [s.lastStoreCursor_eq]
  rcases Nat.lt_or_eq_of_le (Nat.le_pred_of_lt hk) with hlt | heq
  · calc (s.wordsUpTo enc pb k n).length
        ≤ (s.wordsUpTo enc pb k 4096).length := s.length_wordsUpTo_mono enc pb k (by omega)
      _ = (s.wordsBefore enc pb (k + 1)).length := by rw [s.wordsUpTo_4096]
      _ ≤ (s.wordsBefore enc pb (blocksOf s - 1)).length := s.length_wordsBefore_mono enc pb hlt
      _ ≤ (s.wordsUpTo enc pb (blocksOf s - 1) 4088).length := by simp [State.wordsUpTo]
  · rw [heq]
    exact s.length_wordsUpTo_mono enc pb _ hn

/-- Every store fits exactly when the last one does (42_encoder.md R518). -/
theorem State.blocksFit_iff (hnb : 1 ≤ blocksOf s) :
    (∀ k, k < blocksOf s → s.blockFits enc pb k) ↔ encodeFits pb enc s = true := by
  rw [encodeFits, decide_eq_true_eq]
  constructor
  · intro h
    have hlast := h (blocksOf s - 1) (by omega) 127 (by decide) 3 (by decide)
    rwa [State.storeFits, ← s.lastStoreCursor_eq] at hlast
  · intro h k hk w hw g hg
    have hle := s.length_wordsUpTo_le_last enc pb (n := 32 * w + 8 * g) hk (by omega)
    rw [State.storeFits]
    omega

end

/-! ### Windows of an encode -/

/-- The windows of an encode: they pass their checks, the source is readable, the destination alone writable
(20_memory.md R206, R207). -/
structure EncodeWindows (gr : Grant) (s : State) : Prop where
  source : s.snap.srcWindow ∈ gr.reads
  writes : gr.writes = [s.snap.dstWindow]
  pass : gr.fault? = none

variable {gr : Grant} {s : State}

theorem EncodeWindows.dst_mem (hw : EncodeWindows gr s) : s.snap.dstWindow ∈ gr.writes := by
  rw [hw.writes]
  exact List.mem_cons_self

theorem EncodeWindows.dst_end (hw : EncodeWindows gr s) : s.dstBase + s.dstSize ≤ Config.addressSpace :=
  Grant.fits_of_fault?_eq_none hw.pass (w := s.snap.dstWindow) (List.mem_append_right _ hw.dst_mem)

theorem EncodeWindows.mayWrite_iff (hw : EncodeWindows gr s) (a n : Nat) :
    gr.mayWrite (a : Int) n = true ↔ s.dstBase ≤ a ∧ a + n ≤ s.dstBase + s.dstSize := by
  rw [gr.mayWrite_iff, hw.writes]
  simp only [List.mem_singleton, exists_eq_left, Operands.dstWindow, State.dstBase, State.dstSize]
  omega

theorem EncodeWindows.mayRead (hw : EncodeWindows gr s) {i n : Nat} (h : i + n ≤ s.srcSize) :
    gr.mayRead ((s.srcBase + i : Nat) : Int) n = true := by
  refine (gr.mayRead_iff _ _).2 ⟨_, hw.source, ?_⟩
  simp only [Operands.srcWindow, State.srcBase, State.srcSize] at h ⊢
  omega

/-- A run inside the windows leaves the source as it was. -/
theorem EncodeWindows.source_kept (hw : EncodeWindows gr s) {t : State} (h : Confined gr s t) {i : Nat}
    (hi : i < s.srcSize) : t.byteAt (s.srcBase + i) = s.byteAt (s.srcBase + i) := by
  obtain ⟨-, apart⟩ := gr.fault?_eq_none_iff.1 hw.pass
  refine h.bytes _ (Bool.eq_false_iff.2 fun hwrite => ?_)
  obtain ⟨w, hmem, hin⟩ := List.any_eq_true.1 hwrite
  exact apart _ hw.source w hmem _ ⟨decide_eq_true ⟨Nat.le_add_right _ _, Nat.add_lt_add_left hi _⟩, hin⟩

/-! ### The engine along the sweep -/

/-- The run reached `t` from `s` with these words in the payload, and nothing else changed but the 16 bytes after
them. -/
structure PayloadHeld (gr : Grant) (s : State) (words : List U16) (t : State) : Prop where
  confined : Confined gr s t
  payload : ∀ j (hj : j < words.length), t.holdsNum (encPayload s (blocksOf s) + 2 * j) 2 words[j]
  outside : sameOutside (encPayload s (blocksOf s)) (2 * words.length + 16) s t

/-- The run reached `t` from `s`: the payload holds these words, and the engine has their count, these rows and these
lanes. -/
structure Encoding (gr : Grant) (s : State) (enc : Vector U64 256) (rows : List BlockRow) (lanes : Vector U32 32)
    (words : List U16) (t : State) : Prop extends PayloadHeld gr s words t where
  enc : t.eng.enc = enc
  rows : t.eng.rows = rows
  lanes : t.eng.lanes = lanes
  cur : t.eng.cur = words.length
  total : t.eng.total = words.length

/-- The engine where the scalar sweep stands after byte `n` of block `k`. -/
def EncodingAt (gr : Grant) (s : State) (enc : Vector U64 256) (pb k n : Nat) : State → Prop :=
  Encoding gr s enc (s.rowsBefore enc pb k) (s.blockSweep enc pb k n).1 (s.wordsUpTo enc pb k n)

/-- The engine between blocks, its lanes at any states. -/
def EncodingBefore (gr : Grant) (s : State) (enc : Vector U64 256) (pb k : Nat) (t : State) : Prop :=
  ∃ lanes, Encoding gr s enc (s.rowsBefore enc pb k) lanes (s.wordsBefore enc pb k) t

theorem PayloadHeld.setEng {words : List U16} {t : State} (h : PayloadHeld gr s words t) (e : Engine) :
    PayloadHeld gr s words (t.setEng e) := ⟨h.confined.then_setEng e, h.payload, h.outside⟩

/-- The sweep's next eight source bytes. -/
def State.groupBytes (s : State) (k w : Nat) (g : Fin 4) : Vector Byte 8 :=
  s.readBytes (s.srcBase + (4096 * k + 32 * w + 8 * g.val)) 8

theorem State.groupBytes_get (s : State) {k w : Nat} (hw : w < 128) (g : Fin 4) (j : Fin 8) :
    (s.sourceBlock k)[32 * w + 8 * g.val + j.val]'(by rw [s.length_sourceBlock]; omega) =
      (s.groupBytes k w g).get j := by
  have hget : (s.groupBytes k w g).get j = s.byteAt (s.srcBase + (4096 * k + 32 * w + 8 * g.val) + j.val) :=
    State.getElem_readBytes ..
  rw [hget]
  simp only [State.sourceBlock, Vector.getElem_toList, State.getElem_readBytes, Config.blockBytes]
  congr 1
  omega

/-- A group's load gives the source's bytes. -/
theorem coreRead_group (hw : EncodeWindows gr s) {t : State} (h : Confined gr s t) {k w : Nat}
    (hk : k < blocksOf s) (hwarp : w < 128) (g : Fin 4) :
    coreRead gr .source (t.snap.src.toNat + (Config.blockBytes * k + Config.lanes * w + 8 * g.val)) 8 t =
      .ok (s.groupBytes k w g) := by
  have hsize : 4096 * blocksOf s ≤ s.srcSize := Nat.mul_div_le s.snap.srcLen.toNat 4096
  have hin : 4096 * k + 32 * w + 8 * g.val + 8 ≤ s.srcSize := by omega
  have haddr : (t.snap.src.toNat + (Config.blockBytes * k + Config.lanes * w + 8 * g.val) : Int) =
      ((s.srcBase + (4096 * k + 32 * w + 8 * g.val) : Nat) : Int) := by
    rw [h.snap]
    simp only [Config.blockBytes, Config.lanes, State.srcBase]
    omega
  rw [haddr, coreRead_ok .source t (hw.mayRead hin), Int.toNat_natCast]
  congr 1
  refine Vector.ext fun i hi => ?_
  rw [State.groupBytes, State.getElem_readBytes, State.getElem_readBytes, Nat.add_assoc]
  exact hw.source_kept h (by omega)

/-- A group's store fits where the destination window holds its 16 bytes; its words then follow those before. -/
theorem coreWriteSpill_stores (hw : EncodeWindows gr s) {words ws : List U16} {t : State} (h : PayloadHeld gr s words t)
    (hcur : t.eng.cur = words.length) (hlen : ws.length ≤ 8) :
    Stores (s.storeFits words.length) (fun u => PayloadHeld gr s (words ++ ws) u ∧ u.eng = t.eng)
      (coreWriteSpill gr (encPayload t (blocksOf s) + 2 * t.eng.cur) (ws.flatMap (leBytes 2)) 16 t) := by
  have haddr : (encPayload t (blocksOf s) + 2 * t.eng.cur : Int) =
      ((encPayload s (blocksOf s) + 2 * words.length : Nat) : Int) := by
    rw [encPayload, encPayload, h.confined.snap, hcur]
    omega
  have hP : encPayload s (blocksOf s) = s.dstBase + payloadOffset (blocksOf s) := rfl
  have hmay := hw.mayWrite_iff (encPayload s (blocksOf s) + 2 * words.length) 16
  have hend := hw.dst_end
  rw [haddr]
  refine ⟨fun hfits => ?_, fun hfits => ?_⟩
  · rw [State.storeFits] at hfits
    have hwrite := coreWriteSpill_ok (ws.flatMap (leBytes 2)) t (hmay.2 (by omega))
    obtain ⟨hstored, hout⟩ := spill_stored t (a := encPayload s (blocksOf s) + 2 * words.length) hlen (by omega)
    rw [Int.toNat_natCast, length_flatMap_leBytes] at hwrite
    refine ⟨_, hwrite, ⟨h.confined.trans (coreWriteSpill_confined (by simp; omega) hwrite), fun j hj => ?_, ?_⟩, ?_⟩
    · rw [List.length_append] at hj
      by_cases hold : j < words.length
      · rw [List.getElem_append_left hold]
        exact (h.payload j hold).of_sameOutside hout (by omega)
      · rw [List.getElem_append_right (by omega)]
        have hnew := hstored (j - words.length) (by omega)
        rwa [show encPayload s (blocksOf s) + 2 * words.length + 2 * (j - words.length) =
          encPayload s (blocksOf s) + 2 * j by omega] at hnew
    · rw [List.length_append]
      exact (h.outside.mono (Nat.le_refl _) (by omega)).trans (hout.mono (Nat.le_add_right _ _) (by omega))
    · obtain ⟨m, hm⟩ := State.writeBytes_eq_setMem (ws.flatMap (leBytes 2))
        (encPayload s (blocksOf s) + 2 * words.length) t
      obtain ⟨m', hm'⟩ := State.havoc_eq (16 - 2 * ws.length)
        (encPayload s (blocksOf s) + 2 * words.length + 2 * ws.length) (t.setMem m)
      rw [hm, hm']
      rfl
  · exact coreWriteSpill_outside (Bool.eq_false_iff.2 fun hm => hfits (by
      have := hmay.1 hm
      rw [State.storeFits]
      omega)) _ t

/-- The working state after a group step with this emit mask and these new states. -/
def Engine.afterGroup (e : Engine) (k w : Nat) (g : Fin 4) (em : BitVec 8) (x : Vec) : Engine :=
  { e.setEmit g em with
    lanes := setLaneGroup e.lanes g x
    block := k, warp := w, group := g
    cur := e.cur + popcount em
    total := e.total + popcount em }

section
variable (e : Engine) (k w : Nat) (g : Fin 4) (em : BitVec 8) (x : Vec)

@[simp] theorem Engine.afterGroup_enc : (e.afterGroup k w g em x).enc = e.enc := by
  simp only [Engine.afterGroup, Engine.setEmit]
@[simp] theorem Engine.afterGroup_rows : (e.afterGroup k w g em x).rows = e.rows := by
  simp only [Engine.afterGroup, Engine.setEmit]
@[simp] theorem Engine.afterGroup_lanes : (e.afterGroup k w g em x).lanes = setLaneGroup e.lanes g x := by
  simp only [Engine.afterGroup]
@[simp] theorem Engine.afterGroup_cur : (e.afterGroup k w g em x).cur = e.cur + popcount em := by
  simp only [Engine.afterGroup]
@[simp] theorem Engine.afterGroup_total : (e.afterGroup k w g em x).total = e.total + popcount em := by
  simp only [Engine.afterGroup]

end

/-- A group step from the bytes it reads: the store of its words, then the new working state. -/
theorem encGroup_of_read {enc : Vector U64 256} {lanes : Vector U32 32} {pb nb k w : Nat} {g : Fin 4} {t : State}
    {sym : Vector Byte 8} (henc : t.eng.enc = enc) (hlanes : t.eng.lanes = lanes)
    (hread : coreRead gr .source (t.snap.src.toNat + (Config.blockBytes * k + Config.lanes * w + 8 * g.val)) 8 t =
      .ok sym) :
    encGroup gr pb nb k w g t =
      (coreWriteSpill gr (encPayload t nb + 2 * t.eng.cur)
        ((groupResult enc pb sym (laneGroup lanes g)).words.flatMap (leBytes 2)) 16 t >>= fun u =>
          .ok (u.setEng (u.eng.afterGroup k w g (groupResult enc pb sym (laneGroup lanes g)).mask
            (groupResult enc pb sym (laneGroup lanes g)).states))) := by
  subst henc hlanes
  rw [encGroup, hread, Run.ok_bind, ← halfBytes_emittedWords_take]
  rfl

/-- The working state after a group step holds the words so far. -/
theorem Encoding.afterGroup {enc : Vector U64 256} {rows : List BlockRow} {lanes : Vector U32 32} {words ws : List U16}
    {t u : State} (h : Encoding gr s enc rows lanes words t) (hu : PayloadHeld gr s (words ++ ws) u)
    (heng : u.eng = t.eng) {em : BitVec 8} (hcount : ws.length = popcount em) (k w : Nat) (g : Fin 4) (x : Vec) :
    Encoding gr s enc rows (setLaneGroup lanes g x) (words ++ ws) (u.setEng (u.eng.afterGroup k w g em x)) := by
  obtain ⟨-, henc, hrows, hlanes, hcur, htotal⟩ := h
  refine ⟨hu.setEng _, ?_, ?_, ?_, ?_, ?_⟩
  · rw [State.setEng_eng, Engine.afterGroup_enc, heng, henc]
  · rw [State.setEng_eng, Engine.afterGroup_rows, heng, hrows]
  · rw [State.setEng_eng, Engine.afterGroup_lanes, heng, hlanes]
  · rw [State.setEng_eng, Engine.afterGroup_cur, heng, hcur, List.length_append, hcount, Nat.cast_add]
  · rw [State.setEng_eng, Engine.afterGroup_total, heng, htotal, List.length_append, hcount]

/-- A group step of the engine: the group's new states, and its words after those before (42_encoder.md R517). -/
theorem encGroup_stores (hw : EncodeWindows gr s) {enc : Vector U64 256} (pb : Nat) {k w : Nat} (hk : k < blocksOf s)
    (hwarp : w < 128) (g : Fin 4) {rows : List BlockRow} {lanes : Vector U32 32} {words : List U16} {t : State}
    (h : Encoding gr s enc rows lanes words t) :
    Stores (s.storeFits words.length)
      (Encoding gr s enc rows
        (setLaneGroup lanes g (groupResult enc pb (s.groupBytes k w g) (laneGroup lanes g)).states)
        (words ++ (groupResult enc pb (s.groupBytes k w g) (laneGroup lanes g)).words))
      (encGroup gr pb (blocksOf s) k w g t) := by
  have hcount := groupResult_length_words enc pb (s.groupBytes k w g) (laneGroup lanes g)
  rw [encGroup_of_read h.enc h.lanes (coreRead_group hw h.confined hk hwarp g)]
  exact (coreWriteSpill_stores hw h.toPayloadHeld h.cur (hcount.trans_le (popcount_le _))).bind_ok fun u ⟨hu, heng⟩ =>
    ⟨_, rfl, h.afterGroup hu heng hcount k w g _⟩

/-- That is eight bytes of the scalar sweep. -/
theorem encGroup_follows_sweep (hw : EncodeWindows gr s) {enc : Vector U64 256} {pb k w : Nat} (hk : k < blocksOf s)
    (hwarp : w < 128) (g : Fin 4) {t : State} (h : EncodingAt gr s enc pb k (32 * w + 8 * g.val) t) :
    Stores (s.storeFits (s.wordsUpTo enc pb k (32 * w + 8 * g.val)).length)
      (EncodingAt gr s enc pb k (32 * w + 8 * (g.val + 1))) (encGroup gr pb (blocksOf s) k w g t) := by
  have hnext : s.blockSweep enc pb k (32 * w + 8 * g.val + 8) = _ :=
    scalarEncodeBlock_take_group enc pb (block := s.sourceBlock k) (w := w) (g := g) (sym := s.groupBytes k w g)
    (by rw [s.length_sourceBlock]; omega) (s.groupBytes_get hwarp g)
  have hstep := encGroup_stores hw pb hk hwarp g h
  rw [EncodingAt, Nat.mul_succ, ← Nat.add_assoc]
  simp only [State.wordsUpTo, hnext, ← List.append_assoc] at hstep ⊢
  exact hstep

/-- A warp is 32 bytes, its groups in ascending order (42_encoder.md R502). -/
theorem encWarp_stores (hw : EncodeWindows gr s) {enc : Vector U64 256} {pb k w : Nat} (hk : k < blocksOf s)
    (hwarp : w < 128) {t : State} (h : EncodingAt gr s enc pb k (32 * w) t) :
    Stores (∀ g, g < 4 → s.storeFits (s.wordsUpTo enc pb k (32 * w + 8 * g)).length)
      (EncodingAt gr s enc pb k (32 * (w + 1))) (encWarp gr pb (blocksOf s) k w t) := by
  have hgroups : ([0, 1, 2, 3] : List (Fin 4)) = List.finRange 4 := by decide
  rw [encWarp, hgroups]
  have hall := Stores.sweep (f := encGroup gr pb (blocksOf s) k w) (as := List.finRange 4)
    (F := fun g => s.storeFits (s.wordsUpTo enc pb k (32 * w + 8 * g)).length)
    (P := fun g => EncodingAt gr s enc pb k (32 * w + 8 * g)) (fun g hg t ht => by
      rw [List.getElem_finRange]
      exact encGroup_follows_sweep hw hk hwarp (Fin.cast List.length_finRange ⟨g, hg⟩) ht) h
  simpa [Nat.mul_succ] using hall

/-- A block is its 4096 bytes from lanes at `L`; its row is kept (42_encoder.md R519, R532). -/
theorem encodeBlock_stores (hw : EncodeWindows gr s) {enc : Vector U64 256} {pb k : Nat} (hk : k < blocksOf s)
    {t : State} (h : EncodingBefore gr s enc pb k t) :
    Stores (s.blockFits enc pb k) (EncodingBefore gr s enc pb (k + 1)) (encodeBlock gr pb (blocksOf s) k t) := by
  obtain ⟨lanes, hheld, henc, hrows, hlanes, hcur, htotal⟩ := h
  have hstart : EncodingAt gr s enc pb k (32 * 0)
      (t.setEng { t.eng with lanes := Vector.replicate 32 Config.minState }) := by
    rw [EncodingAt, Nat.mul_zero, s.wordsUpTo_zero, s.blockSweep_zero]
    exact ⟨hheld.setEng _, henc, hrows, rfl, hcur, htotal⟩
  have hwarps := Stores.sweep (f := encWarp gr pb (blocksOf s) k) (as := List.range Config.warps)
    (P := fun w => EncodingAt gr s enc pb k (32 * w)) (fun w hj t ht => by
      rw [List.getElem_range]
      exact encWarp_stores hw hk (by simpa [Config.warps] using hj) ht) hstart
  rw [List.length_range] at hwarps
  unfold encodeBlock
  refine hwarps.bind_ok fun u hu => ⟨_, rfl, ?_⟩
  rw [EncodingAt, show 32 * Config.warps = 4096 from rfl, s.wordsUpTo_4096, s.blockSweep_4096] at hu
  obtain ⟨hheld, henc, hrows, hlanes, hcur, htotal'⟩ := hu
  refine ⟨_, hheld.setEng _, henc, ?_, hlanes, hcur, htotal'⟩
  rw [State.setEng_eng, hrows, hlanes, htotal', htotal, s.wordsBefore_succ, List.length_append, Nat.add_sub_cancel_left]
  simp [State.rowsBefore, List.range_succ]

/-- All blocks of the source in ascending order (42_encoder.md R532). -/
theorem encodeBlocks_stores (hw : EncodeWindows gr s) {enc : Vector U64 256} (pb : Nat) {e : Engine}
    (henc : e.enc = enc) :
    Stores (∀ k, k < blocksOf s → s.blockFits enc pb k) (EncodingBefore gr s enc pb (blocksOf s))
      (sweep (encodeBlock gr pb (blocksOf s)) (List.range (blocksOf s))
        (s.setEng { e with cur := 0, total := 0, rows := [] })) := by
  have hstart : EncodingBefore gr s enc pb 0 (s.setEng { e with cur := 0, total := 0, rows := [] }) :=
    ⟨_, ⟨Confined.setEng gr s _, fun _ hj => (nomatch hj), fun _ _ => rfl⟩, henc, rfl, rfl, rfl, rfl⟩
  have hall := Stores.sweep (f := encodeBlock gr pb (blocksOf s)) (as := List.range (blocksOf s))
    (P := fun k => EncodingBefore gr s enc pb k) (fun k hj t ht => by
      rw [List.getElem_range]
      exact encodeBlock_stores hw (by simpa using hj) ht) hstart
  rwa [List.length_range] at hall

end Sys2Proof.Machine
end

