-- ==== Sys2Proof/Proofs/EncodeMetadata.lean ====
section
/-! PROOF for O30 to O34: the container's metadata as the writer stores it (44_container.md R700, R701, R710). -/

namespace Sys2Proof.Machine

/-! ### Stores at an offset of the destination -/

theorem EncodeWindows.of_snap {gr : Grant} {s t : State} (hw : EncodeWindows gr s) (h : t.snap = s.snap) :
    EncodeWindows gr t := by
  obtain ⟨source, writes, pass⟩ := hw
  exact ⟨h ▸ source, h ▸ writes, pass⟩

section
variable {gr : Grant} {s : State} {w : Nat}

/-- A sweep of stores of consecutive numbers from `DST + off` on. -/
theorem EncodeWindows.sweep_array (hw : EncodeWindows gr s) {α : Type} {f : α → State → Run State} {as : List α}
    (off n : Nat) (v : Nat → BitVec w) (hfit : off + n * as.length ≤ s.dstSize)
    (hf : ∀ i (hi : i < as.length) m, f as[i] (s.setMem m) =
      coreWrite gr ((s.dstBase + off + n * i : Nat) : Int) (leBytes n (v i)) (s.setMem m)) :
    ∃ t, sweep f as s = .ok t ∧ ArrayStored s (s.dstBase + off) n as.length v t :=
  Machine.sweep_array hw.dst_mem hw.dst_end (Nat.le_add_right _ _) (by
    show s.dstBase + off + n * as.length ≤ s.dstBase + s.dstSize
    omega) hf

/-- A number stored at `DST + off`. -/
theorem EncodeWindows.store_num (hw : EncodeWindows gr s) {a : Int} {off : Nat} (n : Nat) (v : BitVec w)
    (ha : a = ((s.dstBase + off : Nat) : Int)) (hfit : off + n ≤ s.dstSize) :
    ∃ t, coreWrite gr a (leBytes n v) s = .ok t ∧ (∃ m, t = s.setMem m) ∧ t.holdsNum (s.dstBase + off) n v ∧
      sameOutside (s.dstBase + off) n s t := by
  obtain ⟨t, ht, hmem, hstored, hout⟩ := coreWrite_num (g := gr) (win := s.snap.dstWindow) (s := s) v ha hw.dst_mem
    hw.dst_end (Nat.le_add_right _ _) (by
      show s.dstBase + off + n ≤ s.dstBase + s.dstSize
      omega)
  exact ⟨t, ht, hmem, hstored 0 (by decide), by rwa [Nat.mul_one] at hout⟩

/-! ### Header and probabilities -/

/-- The header words of a container (44_container.md R710). -/
def headerWords (nb srcLen tc pb : Nat) : List U32 :=
  [magicAndVersion, BitVec.ofNat 32 nb, BitVec.ofNat 32 srcLen, BitVec.ofNat 32 tc, optionsWord pb, 0, 0, 0]

theorem writeHeader_eq_ok (hw : EncodeWindows gr s) (nb srcLen tc pb : Nat) (hfit : 32 ≤ s.dstSize) :
    ∃ t, writeHeader gr nb srcLen tc pb s = .ok t ∧
      ArrayStored s (s.dstBase + 0) 4 8 (fun i => (headerWords nb srcLen tc pb).getD i 0) t := by
  refine hw.sweep_array 0 4 _ hfit fun i hi m => ?_
  have hi8 : i < 8 := hi
  interval_cases i <;> rfl

theorem getElem_finRange_eq_ofNat {n : Nat} [NeZero n] {i : Nat} (hi : i < (List.finRange n).length) :
    (List.finRange n)[i] = Fin.ofNat n i := by
  rw [List.getElem_finRange]
  exact Fin.ext (Nat.mod_eq_of_lt (by simpa using hi)).symm

theorem writeProbs_eq_ok (hw : EncodeWindows gr s) (hfit : 544 ≤ s.dstSize) :
    ∃ t, writeProbs gr s = .ok t ∧ ArrayStored s (s.dstBase + 32) 2 256
      (fun i => (encPdf (s.eng.enc.get (Fin.ofNat 256 i))).setWidth 16) t := by
  have h := hw.sweep_array (as := List.finRange 256) (f := fun (i : Fin 256) s =>
    coreWrite gr (s.snap.dst.toNat + probsOffset i.val) (leBytes 2 ((encPdf (s.eng.enc.get i)).setWidth 16 : U16)) s)
    32 2 (fun i => (encPdf (s.eng.enc.get (Fin.ofNat 256 i))).setWidth 16) (by simpa using hfit) fun i hi m => by
      have hi256 : i < 256 := by simpa using hi
      have haddr : (s.snap.dst.toNat + probsOffset (Fin.ofNat 256 i).val : Int) =
          ((s.dstBase + 32 + 2 * i : Nat) : Int) := by
        simp only [probsOffset, State.dstBase, Fin.ofNat, Nat.mod_eq_of_lt hi256]
        omega
      rw [getElem_finRange_eq_ofNat hi, ← haddr]
      rfl
  rwa [List.length_finRange] at h

/-! ### A block's row -/

/-- Block `k`'s states and index entry at `s`'s `DST` are those of the row (44_container.md R701). -/
structure RowHeld (s : State) (nb k : Nat) (row : BlockRow) (t : State) : Prop where
  states : ∀ l : Fin 32, t.holdsNum (s.dstBase + stateOffset k l.val) 4 (row.states.get l)
  index : t.holdsNum (s.dstBase + (indexOffset nb + 8 * k)) 4
    (indexWord (BitVec.ofNat 16 Config.blockBytes) (BitVec.ofNat 16 row.words))
  start : t.holdsNum (s.dstBase + (indexOffset nb + 8 * k + 4)) 4 (BitVec.ofNat 32 row.startOffset)

/-- `t` reads as `s` but for states and index entries of the blocks from `k` to `k + n`. -/
def sameOutsideRows (s : State) (nb k n : Nat) (t : State) : Prop :=
  ∀ a, (a < s.dstBase + stateOffset k 0 ∨ s.dstBase + stateOffset (k + n) 0 ≤ a) →
    (a < s.dstBase + (indexOffset nb + 8 * k) ∨ s.dstBase + (indexOffset nb + 8 * (k + n)) ≤ a) →
    t.byteAt a = s.byteAt a

theorem writeBlockRow_eq_ok (hw : EncodeWindows gr s) {nb k : Nat} (hk : k < nb) (row : BlockRow)
    (hfit : payloadOffset nb ≤ s.dstSize) :
    ∃ t, writeBlockRow gr nb (k, row) s = .ok t ∧ (∃ m, t = s.setMem m) ∧ RowHeld s nb k row t ∧
      sameOutsideRows s nb k 1 t := by
  rw [payloadOffset] at hfit
  have hstates := hw.sweep_array (as := List.finRange 32) (f := fun (l : Fin 32) s' =>
    coreWrite gr (s.snap.dst.toNat + stateOffset k l.val) (leBytes 4 (row.states.get l)) s') (544 + 128 * k) 4
    (fun l => row.states.get (Fin.ofNat 32 l)) (by rw [List.length_finRange]; omega) fun l hl m => by
      have hl32 : l < 32 := by simpa using hl
      have haddr : (s.snap.dst.toNat + stateOffset k (Fin.ofNat 32 l).val : Int) =
          ((s.dstBase + (544 + 128 * k) + 4 * l : Nat) : Int) := by
        simp only [stateOffset, State.dstBase, Fin.ofNat, Nat.mod_eq_of_lt hl32]
        omega
      rw [getElem_finRange_eq_ofNat hl, ← haddr]
  obtain ⟨u, hu, ⟨m, rfl⟩, hustored, huout⟩ := hstates
  obtain ⟨v, hv, ⟨m', rfl⟩, hvstored, hvout⟩ := (hw.of_snap (t := s.setMem m) rfl).store_num
    (a := s.snap.dst.toNat + (indexOffset nb + 8 * k)) (off := indexOffset nb + 8 * k) 4
    (indexWord (BitVec.ofNat 16 Config.blockBytes) (BitVec.ofNat 16 row.words)) (by rfl)
    (by simp only [indexOffset, State.dstSize, State.setMem_snap] at hfit ⊢; omega)
  obtain ⟨t, ht, ⟨m'', rfl⟩, htstored, htout⟩ := (hw.of_snap (t := (s.setMem m).setMem m') rfl).store_num
    (a := s.snap.dst.toNat + (indexOffset nb + 8 * k + 4)) (off := indexOffset nb + 8 * k + 4) 4
    (BitVec.ofNat 32 row.startOffset) (by rfl)
    (by simp only [indexOffset, State.dstSize, State.setMem_snap] at hfit ⊢; omega)
  have hbase : ∀ m, (s.setMem m).dstBase = s.dstBase := fun _ => rfl
  simp only [State.setMem_setMem, hbase] at hvstored hvout ht htstored htout
  rw [List.length_finRange] at huout hustored
  refine ⟨s.setMem m'', ?_, ⟨m'', rfl⟩, ⟨fun l => ?_, ?_, htstored⟩, fun a h1 h2 => ?_⟩
  · rw [writeBlockRow, hu, Run.ok_bind]
    simp only
    rw [hv]
    exact ht
  · have hl := hustored l.val l.isLt
    rw [Fin.ofNat_val_eq_self] at hl
    rw [stateOffset, ← Nat.add_assoc]
    exact (hl.of_sameOutside hvout (by simp only [indexOffset]; omega)).of_sameOutside htout
      (by simp only [indexOffset]; omega)
  · exact hvstored.of_sameOutside htout (by omega)
  · simp only [stateOffset] at h1
    rw [htout a (by omega), hvout a (by omega), huout a (by omega)]

/-! ### All rows, and the pad -/

/-- `t` is `s` with the first `n` of these rows written. -/
structure RowsStored (s : State) (nb : Nat) (rows : List BlockRow) (n : Nat) (t : State) : Prop where
  memory : ∃ m, t = s.setMem m
  held : ∀ k (hk : k < rows.length), k < n → RowHeld s nb k rows[k] t
  outside : sameOutsideRows s nb 0 n t

/-- A row is kept where neither its states nor its index entry change. -/
theorem RowHeld.congr {nb k : Nat} {row : BlockRow} {t u : State} (h : RowHeld s nb k row t)
    (hstates : ∀ i, i < 128 → u.byteAt (s.dstBase + stateOffset k 0 + i) = t.byteAt (s.dstBase + stateOffset k 0 + i))
    (hindex : ∀ i, i < 8 → u.byteAt (s.dstBase + (indexOffset nb + 8 * k) + i) =
      t.byteAt (s.dstBase + (indexOffset nb + 8 * k) + i)) : RowHeld s nb k row u := by
  refine ⟨fun l => (h.states l).congr fun i hi => ?_, h.index.congr fun i hi => hindex i (by omega),
    h.start.congr fun i hi => ?_⟩
  · have := hstates (4 * l.val + i) (by omega)
    simpa only [stateOffset, Nat.mul_zero, Nat.add_zero, Nat.add_assoc] using this
  · have := hindex (4 + i) (by omega)
    simpa only [Nat.add_assoc] using this

/-- The next row keeps those before it. -/
theorem RowsStored.next {nb n : Nat} {rows : List BlockRow} {t u : State} (h : RowsStored s nb rows n t) (hn : n < nb)
    (hmem : ∃ m, u = t.setMem m) (hrow : ∀ hn : n < rows.length, RowHeld t nb n rows[n] u)
    (hout : sameOutsideRows t nb n 1 u) : RowsStored s nb rows (n + 1) u := by
  obtain ⟨m, rfl⟩ := h.memory
  obtain ⟨m', rfl⟩ := hmem
  have hbase : (s.setMem m).dstBase = s.dstBase := rfl
  simp only [sameOutsideRows, stateOffset, indexOffset, hbase] at hout
  refine ⟨⟨m', rfl⟩, fun k hk hkn => ?_, fun a h1 h2 => ?_⟩
  · rcases Nat.lt_or_eq_of_le (Nat.le_of_lt_succ hkn) with hlt | rfl
    · refine (h.held k hk hlt).congr (fun i hi => ?_) fun i hi => ?_
      · exact hout _ (by simp only [stateOffset]; omega) (by simp only [stateOffset]; omega)
      · exact hout _ (by simp only [indexOffset]; omega) (by simp only [indexOffset]; omega)
    · obtain ⟨states, index, start⟩ := hrow hk
      exact ⟨states, index, start⟩
  · simp only [stateOffset, indexOffset] at h1 h2
    rw [hout a (by omega) (by omega)]
    exact h.outside a (by simp only [stateOffset]; omega) (by simp only [indexOffset]; omega)

theorem writeBlockRows_eq_ok (hw : EncodeWindows gr s) {nb : Nat} {rows : List BlockRow} (hrows : rows.length = nb)
    (hfit : payloadOffset nb ≤ s.dstSize) :
    ∃ t, sweep (writeBlockRow gr nb) ((List.range rows.length).zip rows) s = .ok t ∧ RowsStored s nb rows nb t := by
  have hlen : ((List.range rows.length).zip rows).length = nb := by simp [hrows]
  obtain ⟨t, ht, h⟩ := sweep_counted (f := writeBlockRow gr nb) (P := fun n t => RowsStored s nb rows n t)
    ((List.range rows.length).zip rows) (fun n hn t h => by
      have hn' : n < rows.length := by simpa using hn
      obtain ⟨m, rfl⟩ := h.memory
      obtain ⟨u, hu, hmem, hrow, hout⟩ := writeBlockRow_eq_ok (hw.of_snap (t := s.setMem m) rfl) (hrows ▸ hn') rows[n]
        hfit
      rw [List.getElem_zip, List.getElem_range]
      exact ⟨u, hu, h.next (hrows ▸ hn') hmem (fun _ => hrow) hout⟩)
    ⟨⟨s.mem, rfl⟩, fun _ _ h => (nomatch h), fun _ _ _ => rfl⟩
  exact ⟨t, ht, hlen ▸ h⟩

theorem writeIndexPad_eq_ok (hw : EncodeWindows gr s) {nb : Nat} (hfit : payloadOffset nb ≤ s.dstSize) :
    ∃ t, writeIndexPad gr nb s = .ok t ∧ (∃ m, t = s.setMem m) ∧
      (nb % 2 = 1 → t.holdsNum (s.dstBase + (indexOffset nb + 8 * nb)) 8 (0 : U64)) ∧
      sameOutside (s.dstBase + (indexOffset nb + 8 * nb)) (8 * (nb % 2)) s t := by
  rw [payloadOffset] at hfit
  by_cases hodd : nb % 2 = 1
  · obtain ⟨t, ht, hmem, hstored, hout⟩ := hw.store_num (a := s.snap.dst.toNat + (indexOffset nb + 8 * nb))
      (off := indexOffset nb + 8 * nb) 8 (0 : U64) (by rfl) (by simp only [indexOffset]; omega)
    exact ⟨t, by rw [writeIndexPad, if_pos hodd, ht], hmem, fun _ => hstored, by rwa [hodd]⟩
  · exact ⟨s, by rw [writeIndexPad, if_neg hodd], ⟨s.mem, rfl⟩, fun h => absurd h hodd, fun _ _ => rfl⟩

/-! ### The whole metadata -/

/-- `t` is `s` with the container's metadata at `DST`, from `s`'s table and rows (44_container.md R710). -/
structure MetaStored (s : State) (nb srcLen tc pb : Nat) (t : State) : Prop where
  memory : ∃ m, t = s.setMem m
  header : ∀ i, i < 8 → t.holdsNum (s.dstBase + 4 * i) 4 ((headerWords nb srcLen tc pb).getD i 0)
  probs : ∀ i : Fin 256, t.holdsNum (s.dstBase + probsOffset i.val) 2 ((encPdf (s.eng.enc.get i)).setWidth 16 : U16)
  rows : ∀ k (hk : k < s.eng.rows.length), RowHeld s nb k s.eng.rows[k] t
  pad : nb % 2 = 1 → t.holdsNum (s.dstBase + (indexOffset nb + 8 * nb)) 8 (0 : U64)
  outside : sameOutside s.dstBase (payloadOffset nb) s t

theorem writeContainerMeta_eq_ok (hw : EncodeWindows gr s) {nb : Nat} (srcLen tc pb : Nat)
    (hrows : s.eng.rows.length = nb) (hfit : payloadOffset nb ≤ s.dstSize) :
    ∃ t, writeContainerMeta gr nb srcLen tc pb s = .ok t ∧ MetaStored s nb srcLen tc pb t := by
  have hsize : 544 + 136 * nb + 8 * (nb % 2) = payloadOffset nb := by
    rw [payloadOffset]
    omega
  obtain ⟨t1, h1, ⟨m1, rfl⟩, stored1, out1⟩ := writeHeader_eq_ok hw nb srcLen tc pb (by omega)
  obtain ⟨t2, h2, ⟨m2, rfl⟩, stored2, out2⟩ := writeProbs_eq_ok (hw.of_snap (t := s.setMem m1) rfl)
    (by show 544 ≤ s.dstSize; omega)
  obtain ⟨t3, h3, ⟨m3, rfl⟩, held3, out3⟩ := writeBlockRows_eq_ok (hw.of_snap (t := s.setMem m2) rfl) hrows hfit
  obtain ⟨t4, h4, ⟨m4, rfl⟩, stored4, out4⟩ := writeIndexPad_eq_ok (hw.of_snap (t := s.setMem m3) rfl) hfit
  have hbase : ∀ m, (s.setMem m).dstBase = s.dstBase := fun _ => rfl
  simp only [State.setMem_setMem, State.setMem_eng, hbase, Nat.add_zero]
    at h2 h3 h4 stored1 stored2 out1 out2 stored4 out4
  have out3' : sameOutside (s.dstBase + 544) (136 * nb) (s.setMem m2) (s.setMem m3) := fun a ha =>
    out3 a (by simp only [stateOffset, hbase]; omega) (by simp only [indexOffset, hbase]; omega)
  refine ⟨s.setMem m4, ?_, ⟨m4, rfl⟩, fun i hi => ?_, fun i => ?_, fun k hk => ?_, stored4, ?_⟩
  · rw [writeContainerMeta, h1, Run.ok_bind, h2, Run.ok_bind, State.setMem_eng, h3, Run.ok_bind, h4]
  · have h := (stored1 i hi).of_sameOutside out2 (by omega)
    exact (h.of_sameOutside out3' (by omega)).of_sameOutside out4 (by simp only [indexOffset]; omega)
  · have h := stored2 i.val i.isLt
    rw [Fin.ofNat_val_eq_self, Nat.add_assoc] at h
    exact (h.of_sameOutside out3' (by omega)).of_sameOutside out4 (by simp only [indexOffset]; omega)
  · obtain ⟨states, index, start⟩ := held3 k hk (hrows ▸ hk)
    have hk' : k < nb := hrows ▸ hk
    refine RowHeld.congr (t := s.setMem m3) ⟨states, index, start⟩ (fun i hi => ?_) fun i hi => ?_
    · exact out4 _ (by simp only [stateOffset, indexOffset]; omega)
    · exact out4 _ (by simp only [indexOffset]; omega)
  · have h12 := (out1.mono (Nat.le_refl _) (by omega)).trans (out2.mono (base' := s.dstBase) (len' := payloadOffset nb)
      (Nat.le_add_right _ _) (by omega))
    exact (h12.trans (out3'.mono (Nat.le_add_right _ _) (by omega))).trans (out4.mono (Nat.le_add_right _ _)
      (by simp only [indexOffset]; omega))

end

end Sys2Proof.Machine
end

