-- ==== Sys2Proof/Proofs/EncodeCommands.lean ====
section
/-! PROOF of O30, O31, O32 and O33: how `ENCODE` and `ENCODE.T` end, and what the container then holds
(42_encoder.md R518, R519, R530 to R532, 44_container.md R700, R710). -/

namespace Sys2Proof.Machine

/-! ### The container in host memory -/

/-- The kernel would run the sweep to see this of a row of `State.blockRow`, so it is said of any states. -/
theorem BlockRow.states_mk (x : Vector U32 32) (n o : Nat) : (BlockRow.mk x n o).states = x := rfl

/-- The row of block `k` by the scalar rules (42_encoder.md R516, R519, R532). -/
def State.blockRow (s : State) (enc : Vector U64 256) (pb k : Nat) : BlockRow :=
  ⟨(scalarEncodeBlock enc pb (s.sourceBlock k)).1, (s.blockWords enc pb k).length, (s.wordsBefore enc pb k).length⟩

section
variable (s : State) (enc : Vector U64 256) (pb k : Nat)

theorem State.blockRow_states : (s.blockRow enc pb k).states = (scalarEncodeBlock enc pb (s.sourceBlock k)).1 := by
  rw [State.blockRow, BlockRow.states_mk]
theorem State.blockRow_words : (s.blockRow enc pb k).words = (s.blockWords enc pb k).length := by rw [State.blockRow]
theorem State.blockRow_startOffset : (s.blockRow enc pb k).startOffset = (s.wordsBefore enc pb k).length := by
  rw [State.blockRow]

end

/-- `t` holds at `s`'s `DST` the container of `s`'s source under the table `enc` (44_container.md R700). -/
structure ContainerHeld (pb : Nat) (enc : Vector U64 256) (s t : State) : Prop where
  header : ∀ i, i < 8 → t.holdsNum (s.dstBase + 4 * i) 4
    ((headerWords (blocksOf s) s.srcSize (s.payloadWords enc pb) pb).getD i 0)
  probs : ∀ i : Fin 256, t.holdsNum (s.dstBase + probsOffset i.val) 2 ((encPdf (enc.get i)).setWidth 16 : U16)
  rows : ∀ k, k < blocksOf s → RowHeld s (blocksOf s) k (s.blockRow enc pb k) t
  pad : blocksOf s % 2 = 1 → t.holdsNum (s.dstBase + (indexOffset (blocksOf s) + 8 * blocksOf s)) 8 (0 : U64)
  payload : ∀ j (hj : j < (s.wordsBefore enc pb (blocksOf s)).length),
    t.holdsNum (s.dstBase + payloadOffset (blocksOf s) + 2 * j) 2 (s.wordsBefore enc pb (blocksOf s))[j]

/-- The run reached `t` from `s` with the container written, and nothing changed beyond the 16 bytes after it. -/
structure ContainerStored (gr : Grant) (pb : Nat) (enc : Vector U64 256) (s t : State) : Prop where
  confined : Confined gr s t
  total : t.eng.total = s.payloadWords enc pb
  held : ContainerHeld pb enc s t
  outside : sameOutside s.dstBase (payloadOffset (blocksOf s) + 2 * s.payloadWords enc pb + 16) s t

theorem State.getElem_rowsBefore (s : State) (enc : Vector U64 256) (pb : Nat) {n k : Nat}
    (hk : k < (s.rowsBefore enc pb n).length) : (s.rowsBefore enc pb n)[k] = s.blockRow enc pb k := by
  simp [State.rowsBefore, State.blockRow]

variable {gr : Grant} {s : State} {enc : Vector U64 256} {pb : Nat}

/-- The metadata written after the payload completes the container. -/
theorem ContainerStored.of_meta {u t : State} (h : EncodingBefore gr s enc pb (blocksOf s) u) (hconf : Confined gr u t)
    (hmeta : MetaStored u (blocksOf s) s.srcSize u.eng.total pb t) : ContainerStored gr pb enc s t := by
  obtain ⟨lanes, ⟨confined, payload, outside⟩, henc, hrows, -, -, htotal⟩ := h
  obtain ⟨⟨m, hm⟩, header, probs, rows, pad, metaOutside⟩ := hmeta
  have hbase : u.dstBase = s.dstBase := congrArg (·.dst.toNat) confined.snap
  have hP : encPayload s (blocksOf s) = s.dstBase + payloadOffset (blocksOf s) := rfl
  have hlen : (s.rowsBefore enc pb (blocksOf s)).length = blocksOf s := by simp [State.rowsBefore]
  rw [← s.payloadWords_eq] at htotal outside
  rw [hbase] at header probs pad metaOutside
  refine ⟨confined.trans hconf, by rw [hm, State.setMem_eng, htotal], ⟨by rwa [htotal] at header,
    by rwa [henc] at probs, fun k hk => ?_, pad, fun j hj => ?_⟩, ?_⟩
  · obtain ⟨states, index, start⟩ := rows k (by rw [hrows, hlen]; exact hk)
    simp only [hrows, s.getElem_rowsBefore, hbase] at states index start
    exact ⟨states, index, start⟩
  · exact (payload j hj).of_sameOutside metaOutside (by omega)
  · exact (outside.mono (by omega) (by omega)).trans (metaOutside.mono (Nat.le_refl _) (by omega))

/-- The encode of a source of whole blocks: the container, or an overrun where the sweep's last store does not fit. -/
theorem encodeContainer_stores (hw : EncodeWindows gr s) (hnb : 1 ≤ blocksOf s)
    (hfit : payloadOffset (blocksOf s) ≤ s.dstSize) {e : Engine} (henc : e.enc = enc) :
    Stores (encodeFits pb enc s = true) (ContainerStored gr pb enc s) (encodeContainer gr pb (s.setEng e)) := by
  have hblocks := (encodeBlocks_stores hw pb henc).congr (s.blocksFit_iff enc pb hnb)
  have hall := hblocks.bind_ok (Q := ContainerStored gr pb enc s)
    (f := fun u => writeContainerMeta gr (blocksOf s) u.snap.srcLen.toNat u.eng.total pb u) fun u hu => by
      obtain ⟨lanes, hu'⟩ := hu
      have hsnap := hu'.confined.snap
      have hrows : u.eng.rows.length = blocksOf s := by rw [hu'.rows]; simp [State.rowsBefore]
      obtain ⟨t, ht, hmeta⟩ := writeContainerMeta_eq_ok (hw.of_snap hsnap) u.snap.srcLen.toNat u.eng.total pb hrows
        (by rw [State.dstSize, hsnap]; exact hfit)
      refine ⟨t, ht, ContainerStored.of_meta ⟨lanes, hu'⟩ (writeContainerMeta_confined ht) ?_⟩
      rwa [hsnap] at hmeta
  exact hall

/-! ### The two commands -/

/-- How an encode command ended in `t`. -/
structure EncodeDone (pb : Nat) (enc : Vector U64 256) (s t : State) : Prop where
  completed : completedWith (payloadOffset (blocksOf s) + 2 * s.payloadWords enc pb) s t
  held : ContainerHeld pb enc s t
  outside : sameOutside s.dstBase (payloadOffset (blocksOf s) + 2 * s.payloadWords enc pb + 16) s t

/-- How an encode command ends: with its container if the stores fit, else in `fault DstOverrun`. -/
structure EncodeEnds (pb : Nat) (enc : Vector U64 256) (s : State) (o : Host.Outcome State Fault Refusal) : Prop where
  done : encodeFits pb enc s = true → ∃ t, o = .next t ∧ EncodeDone pb enc s t
  overrun : ¬encodeFits pb enc s = true → o = .fault .dstOverrun

theorem ContainerStored.completeEncode {t : State} (h : ContainerStored gr pb enc s t) :
    EncodeDone pb enc s (completeEncode t) := by
  obtain ⟨confined, total, held, outside⟩ := h
  have hblocks : blocksOf t = blocksOf s := congrArg (·.srcLen.toNat / Config.blockBytes) confined.snap
  refine ⟨⟨?_, confined.snap, confined.inbox, confined.hostData, confined.peers⟩, ?_, outside⟩
  · rw [Machine.completeEncode, complete_regs, confined.regs, total, hblocks]
    rfl
  · obtain ⟨header, probs, rows, pad, payload⟩ := held
    exact ⟨header, probs, fun k hk => ⟨(rows k hk).states, (rows k hk).index, (rows k hk).start⟩, pad, payload⟩

/-- The source of an encode whose checks pass is at least one block, and its metadata fits (40_commands.md R421,
R422). -/
theorem blocks_of_encodeError {pb : Nat} {s : State} (h : encodeError pb s = none) :
    1 ≤ blocksOf s ∧ s.srcSize = 4096 * blocksOf s ∧ payloadOffset (blocksOf s) ≤ s.dstSize ∧ isProbBits pb = true := by
  obtain ⟨-, hblocks, hcap, hpb⟩ := encodeError_eq_none_iff.1 h
  simp only [isFullBlocks, isEncodeCapacity, decide_eq_true_eq] at hblocks hcap
  rw [Config.blockBytes] at hblocks
  simp only [blocksOf, payloadOffset, State.srcSize, State.dstSize, Config.blockBytes]
  exact ⟨by omega, by omega, by omega, hpb⟩

theorem encode_ends (hw : EncodeWindows gr s) (h : encodeError pb s = none) {e : Engine} (henc : e.enc = enc) :
    EncodeEnds pb enc s
      (encodeContainer gr pb (s.setEng e) >>= fun t => (.ok (completeEncode t) : Run State)).finish := by
  obtain ⟨hnb, -, hfit, -⟩ := blocks_of_encodeError h
  have hrun := (encodeContainer_stores (pb := pb) hw hnb hfit henc).bind_ok
    (f := fun t => .ok (completeEncode t)) fun t ht => ⟨_, rfl, ht.completeEncode⟩
  refine ⟨fun hfits => ?_, fun hfits => by rw [hrun.overrun hfits]; rfl⟩
  obtain ⟨t, ht, hdone⟩ := hrun.ok hfits
  exact ⟨t, by rw [ht]; rfl, hdone⟩

theorem exec_encode_ends {pb : Nat} {s : State} (hw : (grantOf (.encode pb) s.snap).fault? = none)
    (h : encodeError pb s = none) : EncodeEnds pb (s.sourceTable pb) s (exec (.encode pb) s) := by
  obtain ⟨e, henc, hexec⟩ := exec_encode_of_checks hw h
  rw [hexec]
  exact encode_ends ⟨List.mem_cons_self, rfl, hw⟩ h henc

theorem exec_encodeT_ends {pb : Nat} {s : State} (hw : (grantOf (.encodeT pb) s.snap).fault? = none)
    (h : encodeTError pb s = none) : EncodeEnds pb s.imageTable s (exec (.encodeT pb) s) := by
  obtain ⟨e, henc, hexec⟩ := exec_encodeT_of_checks hw h
  rw [hexec]
  exact encode_ends ⟨List.mem_cons_self, rfl, hw⟩ (encodeTError_eq_none_iff.1 h).1 henc

theorem exec_encode_done {pb : Nat} {s : State} (h : encodeReady pb s = true) :
    encodeError pb s = none ∧ ∃ t, exec (.encode pb) s = .next t ∧ EncodeDone pb (s.sourceTable pb) s t := by
  simp only [encodeReady, Bool.and_eq_true, decide_eq_true_eq] at h
  obtain ⟨⟨hw, hchecks⟩, hfits⟩ := h
  exact ⟨hchecks, (exec_encode_ends hw hchecks).done hfits⟩

theorem exec_encodeT_done {pb : Nat} {s : State} (h : encodeTReady pb s = true) :
    encodeError pb s = none ∧ ∃ t, exec (.encodeT pb) s = .next t ∧ EncodeDone pb s.imageTable s t := by
  simp only [encodeTReady, Bool.and_eq_true, decide_eq_true_eq] at h
  obtain ⟨⟨hw, hchecks⟩, hfits⟩ := h
  exact ⟨(encodeTError_eq_none_iff.1 hchecks).1, (exec_encodeT_ends hw hchecks).done hfits⟩

/-! ### Overruns -/

/-- A command that ends so overruns exactly where its last store does not fit, and never with the capacity of
70_reset_and_hazards.md R1014. -/
theorem EncodeEnds.overruns_iff {o : Host.Outcome State Fault Refusal} (h : EncodeEnds pb enc s o)
    (hchecks : encodeError pb s = none) : (o = .fault .dstOverrun ↔ encodeFits pb enc s = false) ∧
      (amplyCapable s = true → o ≠ .fault .dstOverrun) := by
  have hnot : encodeFits pb enc s = true → o ≠ .fault .dstOverrun := fun hfits => by
    obtain ⟨t, rfl, -⟩ := h.done hfits
    exact nofun
  refine ⟨⟨fun ho => Bool.eq_false_iff.2 fun hfits => hnot hfits ho,
      fun hfits => h.overrun (Bool.eq_false_iff.1 hfits)⟩,
    fun hample => hnot (encodeFits_of_amplyCapable pb enc (blocks_of_encodeError hchecks).1 hample)⟩

/-- Settles O32: the stores of a run fit exactly when the last one does (`State.blocksFit_iff`). -/
theorem encodeOverrunsExactly : Obligations.EncodeOverrunsExactly := by
  unfold Obligations.EncodeOverrunsExactly
  exact fun pb s => ⟨fun hw h => (exec_encode_ends hw h).overruns_iff h,
    fun hw h => (exec_encodeT_ends hw h).overruns_iff (encodeTError_eq_none_iff.1 h).1⟩

/-! ### Metadata -/

theorem indexCompressed_indexWord (u c : U16) : indexCompressed (indexWord u c) = c.toNat := by
  rw [indexCompressed, indexWord, BitVec.extractLsb'_toNat, toNat_append_eq_add, Nat.shiftRight_zero,
    Nat.mul_add_mod_self_right, Nat.mod_eq_of_lt c.isLt]

theorem indexUncompressed_indexWord (u c : U16) : indexUncompressed (indexWord u c) = u.toNat := by
  have hu := u.isLt
  have hc := c.isLt
  rw [indexUncompressed, indexWord, BitVec.extractLsb'_toNat, toNat_append_eq_add, Nat.shiftRight_eq_div_pow]
  omega

theorem headerWords_eq {nb srcLen tc pb : Nat} (h : isProbBits pb = true) : headerWords nb srcLen tc pb =
    [0xD00D0001#32, BitVec.ofNat 32 nb, BitVec.ofNat 32 srcLen, BitVec.ofNat 32 tc, BitVec.ofNat 32 pb, 0, 0, 0] := by
  have hoptions : optionsWord pb = BitVec.ofNat 32 pb := by
    rw [isProbBits, decide_eq_true_eq] at h
    rcases h with rfl | rfl | rfl <;> decide
  have hmagic : magicAndVersion = 0xD00D0001#32 := by decide
  rw [headerWords, hoptions, hmagic]

theorem State.payloadWords_eq_add (s : State) (enc : Vector U64 256) (pb : Nat) {k : Nat} (hk : k + 1 = blocksOf s) :
    s.payloadWords enc pb = (s.wordsBefore enc pb k).length + (s.blockWords enc pb k).length := by
  rw [s.payloadWords_eq, ← hk, s.wordsBefore_succ, List.length_append]

/-- The words of fewer blocks come first. -/
theorem State.wordsBefore_isPrefix (s : State) (enc : Vector U64 256) (pb : Nat) {m n : Nat} (h : m ≤ n) :
    s.wordsBefore enc pb m <+: s.wordsBefore enc pb n := by
  obtain ⟨d, rfl⟩ := Nat.exists_eq_add_of_le h
  rw [State.wordsBefore, State.wordsBefore, List.range_add, List.flatMap_append]
  exact List.prefix_append _ _

/-- The words before a block are fewer than `2^32`. -/
theorem State.length_wordsBefore_lt (s : State) (enc : Vector U64 256) (pb : Nat) {k : Nat} (hk : k ≤ blocksOf s) :
    (s.wordsBefore enc pb k).length < 2 ^ 32 :=
  calc (s.wordsBefore enc pb k).length
      ≤ (s.wordsBefore enc pb (blocksOf s)).length := s.length_wordsBefore_mono enc pb hk
    _ = s.payloadWords enc pb := (s.payloadWords_eq enc pb).symm
    _ ≤ s.srcSize := s.payloadWords_le enc pb
    _ < 2 ^ 32 := s.snap.srcLen.isLt

section
variable {t : State} (h : ContainerHeld pb enc s t)
include h

theorem ContainerHeld.indexWord0 {k : Nat} (hk : k < blocksOf s) : writtenIndexWord0 s t k =
    indexWord (BitVec.ofNat 16 Config.blockBytes) (BitVec.ofNat 16 (s.blockWords enc pb k).length) := by
  rw [writtenIndexWord0, (h.rows k hk).index.word32At, State.blockRow_words]

theorem ContainerHeld.indexCompressed {k : Nat} (hk : k < blocksOf s) :
    indexCompressed (writtenIndexWord0 s t k) = (s.blockWords enc pb k).length := by
  have hle := s.length_blockWords_le enc pb k
  rw [h.indexWord0 hk, indexCompressed_indexWord, BitVec.toNat_ofNat, Nat.mod_eq_of_lt (by omega)]

theorem ContainerHeld.indexUncompressed {k : Nat} (hk : k < blocksOf s) :
    indexUncompressed (writtenIndexWord0 s t k) = 4096 := by
  rw [h.indexWord0 hk, indexUncompressed_indexWord]
  rfl

theorem ContainerHeld.start {k : Nat} (hk : k < blocksOf s) : writtenStart s t k = (s.wordsBefore enc pb k).length := by
  have hlt := s.length_wordsBefore_lt enc pb hk.le
  rw [writtenStart, (h.rows k hk).start.word32At, State.blockRow_startOffset, BitVec.toNat_ofNat]
  exact Nat.mod_eq_of_lt hlt

theorem ContainerHeld.headerList (hpb : isProbBits pb = true) :
    ((List.range 8).map fun j => t.word32At (s.dstBase + 4 * j)) =
      [0xD00D0001#32, BitVec.ofNat 32 (blocksOf s), s.snap.srcLen, BitVec.ofNat 32 (s.payloadWords enc pb),
        BitVec.ofNat 32 pb, 0, 0, 0] := by
  have hread : ((List.range 8).map fun j => t.word32At (s.dstBase + 4 * j)) =
      (List.range 8).map fun j => (headerWords (blocksOf s) s.srcSize (s.payloadWords enc pb) pb).getD j 0 :=
    List.map_congr_left fun j hj => (h.header j (List.mem_range.1 hj)).word32At
  have hlen : BitVec.ofNat 32 s.srcSize = s.snap.srcLen := BitVec.ofNat_toNat ..
  rw [hread, headerWords_eq hpb, hlen]
  rfl

/-- A held container has the metadata of its words (44_container.md R710). -/
theorem ContainerHeld.metaWritten (hpb : isProbBits pb = true) (hnb : 1 ≤ blocksOf s) :
    containerMetaWritten pb enc (s.payloadWords enc pb) s t := by
  refine ⟨h.headerList hpb, fun i => ?_, fun k hk => ⟨h.indexUncompressed hk, ?_⟩, h.start hnb, fun k hk => ?_,
    fun k hk => ?_, fun hodd => (h.pad hodd).word64At⟩
  · rw [(h.probs i).word16At]
    refine BitVec.eq_of_toNat_eq ?_
    have hpdf := toNat_encPdf (enc.get i)
    rw [BitVec.toNat_setWidth, BitVec.toNat_setWidth]
    omega
  · rw [h.indexCompressed hk]
    exact s.length_blockWords_le enc pb k
  · rw [h.start hk, h.start (by omega), h.indexCompressed (by omega), s.wordsBefore_succ, List.length_append]
  · rw [h.start (by omega), h.indexCompressed (by omega)]
    exact s.payloadWords_eq_add enc pb hk

/-- A held container has the states and the payload of the scalar rules (42_encoder.md R516, R519). -/
theorem ContainerHeld.blocks : containerBlocksWritten pb enc s t := by
  intro k hk words
  refine ⟨fun l => by rw [((h.rows k hk).states l).word32At, State.blockRow_states], h.indexCompressed hk,
    fun j hj => ?_⟩
  have hin : (s.wordsBefore enc pb k).length + j < (s.wordsBefore enc pb (blocksOf s)).length := by
    have := s.length_wordsBefore_mono enc pb (show k + 1 ≤ blocksOf s from hk)
    simp only [s.wordsBefore_succ, List.length_append] at this
    exact Nat.lt_of_lt_of_le (Nat.add_lt_add_left hj _) this
  have hword : (s.wordsBefore enc pb (blocksOf s))[(s.wordsBefore enc pb k).length + j] = words[j] := by
    obtain ⟨rest, hrest⟩ := s.wordsBefore_isPrefix enc pb (show k + 1 ≤ blocksOf s from hk)
    simp only [← hrest, s.wordsBefore_succ]
    rw [List.getElem_append_left (by rw [List.length_append]; exact Nat.add_lt_add_left hj _),
      List.getElem_append_right (Nat.le_add_right _ _)]
    simp only [Nat.add_sub_cancel_left]
    rfl
  rw [h.start hk, ← Nat.add_assoc, ← hword]
  exact (h.payload _ hin).word16At

end

/-! ### The statements -/

/-- Settles O30: the container is held, and its metadata is that of the sweep's words. -/
theorem encodeCompletes : Obligations.EncodeCompletes := by
  unfold Obligations.EncodeCompletes
  intro pb s h tc
  obtain ⟨hchecks, t, ht, hcompleted, hheld, hout⟩ := exec_encode_done h
  obtain ⟨hnb, -, -, hpb⟩ := blocks_of_encodeError hchecks
  exact ⟨t, ht, s.payloadWords_le _ pb, hcompleted, hheld.metaWritten hpb hnb, hout⟩

/-- Settles O31: as for `ENCODE`, with the image in place of the source's table. -/
theorem encodeTCompletes : Obligations.EncodeTCompletes := by
  unfold Obligations.EncodeTCompletes
  intro pb s h tc
  obtain ⟨hchecks, t, ht, hcompleted, hheld, hout⟩ := exec_encodeT_done h
  obtain ⟨hnb, -, -, hpb⟩ := blocks_of_encodeError hchecks
  exact ⟨t, ht, s.payloadWords_le _ pb, hcompleted, hheld.metaWritten hpb hnb, hout⟩

/-- Settles O33: the engine follows the scalar sweep (`encGroup_follows_sweep`), and its rows and words are stored. -/
theorem encodeWritesScalarBlocks : Obligations.EncodeWritesScalarBlocks := by
  unfold Obligations.EncodeWritesScalarBlocks
  refine fun pb s => ⟨fun h => ?_, fun h => ?_⟩
  · obtain ⟨-, t, ht, hdone⟩ := exec_encode_done h
    exact ⟨t, ht, hdone.held.blocks⟩
  · obtain ⟨-, t, ht, hdone⟩ := exec_encodeT_done h
    exact ⟨t, ht, hdone.held.blocks⟩

end Sys2Proof.Machine
end

