-- ==== Sys2Proof/Proofs/EncodeTable.lean ====
section
/-! PROOF of O34 and O35: `ENCODE.T` after `BUILD_TABLE`, with the same `PB` and with another (42_encoder.md R531,
70_reset_and_hazards.md R1016, 90_conflicts.md C13). -/

namespace Sys2Proof.Machine

/-! ### The table of a source (41_statistics.md R457, R466) -/

/-- The `pdf` fields of a source's table sum to `2^PB`. -/
theorem tablePdfTotal_sourceTable {pb : Nat} {s : State} (hpb : isProbBits pb = true) (hsize : 0 < s.srcSize) :
    tablePdfTotal (s.sourceTable pb) = 2 ^ pb := by
  obtain ⟨-, hM⟩ := two_pow_probBits hpb
  obtain ⟨hsum, -⟩ := quantizedProbsSum s.sourceHistogram pb hpb (s.histTotal_sourceHistogram.symm ▸ hsize)
  rw [tablePdfTotal, sum_map_toList, ← hsum, sum_map_toList]
  exact Finset.sum_congr rfl fun i _ => toNat_encPdf_encTable (by omega) i

/-! ### Two states with one source -/

/-- The two states have the same operands and the same source bytes. -/
structure SameSource (s u : State) : Prop where
  snap : u.snap = s.snap
  bytes : ∀ i, i < s.srcSize → u.byteAt (s.srcBase + i) = s.byteAt (s.srcBase + i)

section
variable {s u : State} (h : SameSource s u)
include h

theorem SameSource.blocksOf : blocksOf u = blocksOf s := by rw [Machine.blocksOf, h.snap, Machine.blocksOf]
theorem SameSource.srcBase : u.srcBase = s.srcBase := by rw [State.srcBase, h.snap, State.srcBase]
theorem SameSource.srcSize : u.srcSize = s.srcSize := by rw [State.srcSize, h.snap, State.srcSize]
theorem SameSource.dstBase : u.dstBase = s.dstBase := by rw [State.dstBase, h.snap, State.dstBase]
theorem SameSource.dstSize : u.dstSize = s.dstSize := by rw [State.dstSize, h.snap, State.dstSize]

theorem SameSource.encodeError (pb : Nat) : encodeError pb u = encodeError pb s := by
  rw [Machine.encodeError, h.snap, h.srcSize, h.dstSize, Machine.encodeError]

theorem SameSource.sourceBlock {k : Nat} (hk : k < Machine.blocksOf s) : u.sourceBlock k = s.sourceBlock k := by
  have hsize : 4096 * Machine.blocksOf s ≤ s.srcSize := Nat.mul_div_le s.snap.srcLen.toNat 4096
  rw [State.sourceBlock, State.sourceBlock, h.srcBase]
  refine congrArg Vector.toList (Vector.ext fun i hi => ?_)
  simp only [State.getElem_readBytes, Config.blockBytes, Nat.add_assoc] at hi ⊢
  exact h.bytes _ (by omega)

variable (enc : Vector U64 256) (pb : Nat)

theorem SameSource.blockWords {k : Nat} (hk : k < Machine.blocksOf s) :
    u.blockWords enc pb k = s.blockWords enc pb k := by
  rw [State.blockWords, h.sourceBlock hk, State.blockWords]

theorem SameSource.wordsBefore {k : Nat} (hk : k ≤ Machine.blocksOf s) :
    u.wordsBefore enc pb k = s.wordsBefore enc pb k := by
  induction k with
  | zero => rw [State.wordsBefore, State.wordsBefore, List.range_zero, List.flatMap_nil, List.flatMap_nil]
  | succ k ih => rw [u.wordsBefore_succ, s.wordsBefore_succ, ih (by omega), h.blockWords enc pb hk]

theorem SameSource.payloadWords : u.payloadWords enc pb = s.payloadWords enc pb := by
  rw [u.payloadWords_eq, s.payloadWords_eq, h.blocksOf, h.wordsBefore enc pb (Nat.le_refl _)]

theorem SameSource.blockRow {k : Nat} (hk : k < Machine.blocksOf s) : u.blockRow enc pb k = s.blockRow enc pb k := by
  rw [State.blockRow, h.sourceBlock hk, h.blockWords enc pb hk, h.wordsBefore enc pb hk.le, State.blockRow]

theorem SameSource.encodeFits (hnb : 1 ≤ Machine.blocksOf s) : encodeFits pb enc u = encodeFits pb enc s := by
  rw [Machine.encodeFits, Machine.encodeFits, u.lastStoreCursor_eq, s.lastStoreCursor_eq, h.blocksOf, h.dstSize,
    State.wordsUpTo, State.wordsUpTo, h.wordsBefore enc pb (Nat.sub_le _ 1), State.blockSweep,
    h.sourceBlock (Nat.sub_lt hnb Nat.one_pos), State.blockSweep]

/-- The container of one is that of the other. -/
theorem SameSource.containerHeld {v : State} (hv : ContainerHeld pb enc u v) : ContainerHeld pb enc s v := by
  obtain ⟨header, probs, rows, pad, payload⟩ := hv
  rw [h.dstBase, h.blocksOf] at payload pad
  rw [h.dstBase, h.blocksOf, h.srcSize, h.payloadWords] at header
  rw [h.dstBase] at probs
  refine ⟨header, probs, fun k hk => ?_, pad, fun j hj => ?_⟩
  · obtain ⟨states, index, start⟩ := rows k (h.blocksOf ▸ hk)
    rw [h.blockRow enc pb hk, h.dstBase] at states
    rw [h.blockRow enc pb hk, h.dstBase, h.blocksOf] at index start
    exact ⟨states, index, start⟩
  · simp only [h.wordsBefore enc pb (Nat.le_refl _)] at payload
    exact payload j hj

end

/-! ### The container's bytes -/

/-- Two states with one number at one place have the same bytes there. -/
theorem State.holdsNum.byteAt_eq {w : Nat} {t v : State} {a n b : Nat} {x : BitVec w} (ht : t.holdsNum a n x)
    (hv : v.holdsNum a n x) (hlow : a ≤ b) (hhigh : b < a + n) : v.byteAt b = t.byteAt b := by
  obtain ⟨i, rfl⟩ := Nat.exists_eq_add_of_le hlow
  rw [ht i (by omega), hv i (by omega)]

theorem RowHeld.byteAt_eq {s t v : State} {nb k : Nat} {row : BlockRow} (ht : RowHeld s nb k row t)
    (hv : RowHeld s nb k row v) {b : Nat}
    (hb : (s.dstBase + stateOffset k 0 ≤ b ∧ b < s.dstBase + stateOffset (k + 1) 0) ∨
      (s.dstBase + (indexOffset nb + 8 * k) ≤ b ∧ b < s.dstBase + (indexOffset nb + 8 * k + 8))) :
    v.byteAt b = t.byteAt b := by
  rcases hb with ⟨hlow, hhigh⟩ | ⟨hlow, hhigh⟩
  · simp only [stateOffset] at hlow hhigh
    have hl : (b - (s.dstBase + (544 + 128 * k))) / 4 < 32 := by omega
    exact (ht.states ⟨_, hl⟩).byteAt_eq (hv.states ⟨_, hl⟩) (by simp only [stateOffset]; omega)
      (by simp only [stateOffset]; omega)
  · by_cases hindex : b < s.dstBase + (indexOffset nb + 8 * k) + 4
    · exact ht.index.byteAt_eq hv.index hlow hindex
    · exact ht.start.byteAt_eq hv.start (by omega) (by omega)

/-- A container determines its bytes, header to payload (44_container.md R700, R701). -/
theorem ContainerHeld.byteAt_eq {pb : Nat} {enc : Vector U64 256} {s t v : State} (ht : ContainerHeld pb enc s t)
    (hv : ContainerHeld pb enc s v) {b : Nat} (hlow : s.dstBase ≤ b)
    (hhigh : b < s.dstBase + (payloadOffset (blocksOf s) + 2 * s.payloadWords enc pb)) : v.byteAt b = t.byteAt b := by
  obtain ⟨o, rfl⟩ := Nat.exists_eq_add_of_le hlow
  have hsize : payloadOffset (blocksOf s) = 544 + 136 * blocksOf s + 8 * (blocksOf s % 2) := by
    rw [payloadOffset]
    omega
  rw [s.payloadWords_eq] at hhigh
  by_cases hheader : o < 32
  · exact (ht.header (o / 4) (by omega)).byteAt_eq (hv.header (o / 4) (by omega)) (by omega) (by omega)
  by_cases hprobs : o < 544
  · have hi : (o - 32) / 2 < 256 := by omega
    exact (ht.probs ⟨_, hi⟩).byteAt_eq (hv.probs ⟨_, hi⟩) (by simp only [probsOffset]; omega)
      (by simp only [probsOffset]; omega)
  by_cases hstates : o < 544 + 128 * blocksOf s
  · have hk : (o - 544) / 128 < blocksOf s := by omega
    exact (ht.rows _ hk).byteAt_eq (hv.rows _ hk) (.inl (by simp only [stateOffset]; omega))
  by_cases hindex : o < 544 + 136 * blocksOf s
  · have hk : (o - (544 + 128 * blocksOf s)) / 8 < blocksOf s := by omega
    exact (ht.rows _ hk).byteAt_eq (hv.rows _ hk) (.inr (by simp only [indexOffset]; omega))
  by_cases hpad : o < payloadOffset (blocksOf s)
  · have hodd : blocksOf s % 2 = 1 := by omega
    exact (ht.pad hodd).byteAt_eq (hv.pad hodd) (by simp only [indexOffset]; omega)
      (by simp only [indexOffset]; omega)
  · have hj : (o - payloadOffset (blocksOf s)) / 2 < (s.wordsBefore enc pb (blocksOf s)).length := by omega
    exact (ht.payload _ hj).byteAt_eq (hv.payload _ hj) (by omega) (by omega)

/-! ### The count -/

/-- The last eight bytes of a sweep add at most eight words. -/
theorem length_scalarEncodeWords_take_add_le (enc : Vector U64 256) (pb : Nat) (block : List Byte) (n m : Nat) :
    (scalarEncodeWords enc pb (block.take (n + m))).length ≤ (scalarEncodeWords enc pb (block.take n)).length + m := by
  induction m with
  | zero => exact Nat.le_refl _
  | succ m ih =>
    by_cases hn : n + m < block.length
    · simp only [scalarEncodeWords, ← Nat.add_assoc, scalarEncodeBlock_take_succ enc pb hn, scalarEncodeStep] at ih ⊢
      split
      · rw [List.length_append, List.length_singleton]
        omega
      · omega
    · rw [List.take_of_length_le (by omega)]
      rw [List.take_of_length_le (by omega)] at ih
      omega

/-- A container whose stores fit lies in the destination window. -/
theorem containerLength_le_of_encodeFits {pb : Nat} {enc : Vector U64 256} {s : State} (hnb : 1 ≤ blocksOf s)
    (h : encodeFits pb enc s = true) : payloadOffset (blocksOf s) + 2 * s.payloadWords enc pb ≤ s.dstSize := by
  have hlast := length_scalarEncodeWords_take_add_le enc pb (s.sourceBlock (blocksOf s - 1)) 4088 8
  rw [encodeFits, decide_eq_true_eq, State.lastStoreCursor, ← s.length_wordsBefore] at h
  rw [List.take_of_length_le (s.length_sourceBlock _).le] at hlast
  rw [s.payloadWords_eq_add enc pb (Nat.sub_add_cancel hnb), State.blockWords]
  omega

/-! ### `ENCODE.T` after `BUILD_TABLE` -/

/-- What `BUILD_TABLE` leaves for an encode of the same source: the operands, the source and the source's table at
`TBL`. -/
theorem exec_buildTable_leaves {pb : Nat} {s : State} (h : buildTableReady pb s = true) :
    ∃ u, exec (.buildTable pb) s = .next u ∧ SameSource s u ∧ u.imageTable = s.sourceTable pb ∧
      sameOutside s.tblBase 2048 s u := by
  obtain ⟨u, hu, ⟨-, hsnap, -⟩, himage, hout, -⟩ := buildTableCompletes pb s h
  simp only [buildTableReady, Bool.and_eq_true, decide_eq_true_eq] at h
  obtain ⟨-, apart⟩ := (Grant.fault?_eq_none_iff _).1 h.1
  refine ⟨u, hu, ⟨hsnap, fun i hi => hout _ ?_⟩, himage, hout⟩
  by_contra hin
  refine apart s.snap.srcWindow List.mem_cons_self s.snap.tblWindow List.mem_cons_self (s.srcBase + i)
    ⟨decide_eq_true ⟨Nat.le_add_right _ _, Nat.add_lt_add_left hi _⟩, decide_eq_true ?_⟩
  simp only [Operands.tblWindow, Config.tableBytes, State.tblBase] at hin ⊢
  omega

/-- Settles O34: the image is the source's table (`exec_buildTable_leaves`), the source is as before, and a container
determines its bytes (`ContainerHeld.byteAt_eq`). -/
theorem encodeTMatchesEncode : Obligations.EncodeTMatchesEncode := by
  unfold Obligations.EncodeTMatchesEncode
  intro pb s hbuild hencode hw
  obtain ⟨hchecks, t, ht, hdone⟩ := exec_encode_done hencode
  obtain ⟨u, hu, hsame, himage, hout⟩ := exec_buildTable_leaves hbuild
  obtain ⟨hnb, hsize, -, hpb⟩ := blocks_of_encodeError hchecks
  simp only [encodeReady, buildTableReady, Bool.and_eq_true, decide_eq_true_eq] at hencode hbuild
  obtain ⟨-, hfits⟩ := hencode
  obtain ⟨align, -, -⟩ := buildTableError_eq_none_iff.1 hbuild.2
  have hcheckT : encodeTError pb u = none := encodeTError_eq_none_iff.2
    ⟨(hsame.encodeError pb).trans hchecks, hsame.snap ▸ align, himage ▸ tablePdfTotal_sourceTable hpb (by omega)⟩
  obtain ⟨v, hv, hdoneT⟩ := (exec_encodeT_ends (hsame.snap ▸ hw) hcheckT).done
    (by rw [himage, hsame.encodeFits _ pb hnb, hfits])
  have hlen := containerLength_le_of_encodeFits hnb hfits
  obtain ⟨⟨hregs, -⟩, hheld, houtT⟩ := hdone
  obtain ⟨⟨hregsT, -⟩, hheldT, houtTT⟩ := hdoneT
  rw [himage, hsame.payloadWords, hsame.blocksOf] at hregsT houtTT
  rw [himage] at hheldT
  rw [hsame.dstBase] at houtTT
  have hresult : t.regs.result.toNat = payloadOffset (blocksOf s) + 2 * s.payloadWords (s.sourceTable pb) pb := by
    rw [hregs]
    exact Nat.mod_eq_of_lt (hlen.trans_lt s.snap.dstCap.isLt)
  refine ⟨t, u, v, ht, hu, hv, by rw [hregsT], by rw [hregsT, hregs], fun a htbl hspill => ?_⟩
  rw [hresult] at hspill
  by_cases hin : s.dstBase ≤ a ∧ a < s.dstBase + (payloadOffset (blocksOf s) + 2 * s.payloadWords (s.sourceTable pb) pb)
  · exact hheld.byteAt_eq (hsame.containerHeld _ pb hheldT) hin.1 hin.2
  · rw [houtTT a (by omega), houtT a (by omega), hout a htbl]

/-- Past every other check of `ENCODE.T` a wrong sum is `BadTable`. -/
theorem encodeTError_of_total {pb : Nat} {s : State} (h : encodeError pb s = none)
    (htbl : isAligned s.snap.tbl 8 = true) (htotal : tablePdfTotal s.imageTable ≠ 2 ^ pb) :
    encodeTError pb s = some .badTable := by
  obtain ⟨hdst, hblocks, hcapacity, hbits⟩ := encodeError_eq_none_iff.1 h
  simp only [encodeTError, firstFailing_cons_eq_some_iff, hdst, htbl, State.srcSize, State.dstSize, hblocks, hcapacity,
    hbits, decide_eq_false htotal, Bool.and_self, and_true, or_true, true_or]

/-- Settles O35: the image sums to `2^PB'`, so of the checks of `ENCODE.T` the last alone fails. -/
theorem foreignTableCaught : Obligations.ForeignTableCaught := by
  unfold Obligations.ForeignTableCaught
  intro pb pb' s hbuild hchecks hne hw
  obtain ⟨u, hu, hsame, himage, -⟩ := exec_buildTable_leaves hbuild
  obtain ⟨hnb, hsize, -, -⟩ := blocks_of_encodeError hchecks
  simp only [buildTableReady, Bool.and_eq_true, decide_eq_true_eq] at hbuild
  obtain ⟨align, -, hpb'⟩ := buildTableError_eq_none_iff.1 hbuild.2
  have htotal : tablePdfTotal u.imageTable = 2 ^ pb' := himage ▸ tablePdfTotal_sourceTable hpb' (by omega)
  have hbad : encodeTError pb u = some .badTable := encodeTError_of_total ((hsame.encodeError pb).trans hchecks)
    (hsame.snap ▸ align) (htotal ▸ fun h => hne (Nat.pow_right_injective (Nat.le_refl 2) h.symm))
  obtain ⟨e, hv⟩ := exec_encodeT_of_error (hsame.snap ▸ hw) hbad
  exact ⟨u, _, hu, hv, rfl, rfl, rfl⟩

end Sys2Proof.Machine
end

