-- ==== Sys2Proof/Proofs/DecoderTable.lean ====
section
/-! PROOF of O37: what the lookup table holds, and that each entry belongs to one symbol and slot (43_decoder.md R601,
R602). -/

namespace Sys2Proof.Machine

/-! ### Sums of probabilities -/

@[simp] theorem probsTotal_nil : probsTotal [] = 0 := rfl

@[simp] theorem probsTotal_cons (p : U16) (ps : List U16) : probsTotal (p :: ps) = p.toNat + probsTotal ps := by
  simp [probsTotal]

/-- A symbol's probability fits above the sum of those before it. -/
theorem probsTotal_take_add_le {ps : List U16} {s : Nat} {p : U16} (h : ps[s]? = some p) :
    probsTotal (ps.take s) + p.toNat ≤ probsTotal ps := by
  induction ps generalizing s with
  | nil => simp at h
  | cons q ps ih =>
    cases s with
    | zero => simp_all
    | succ s =>
      have := ih (s := s) (by simpa using h)
      simp only [List.take_succ_cons, probsTotal_cons]
      omega

/-! ### The entries (43_decoder.md R601) -/

/-- Entries before the first symbol's are left as they are. -/
theorem fillTable_getD_of_lt (ps : List U16) (sym : Nat) {c i : Nat} (dec : Vector U32 2048) (h : i < c) :
    (fillTable ps sym c dec).getD i 0 = dec.getD i 0 := by
  induction ps generalizing sym c dec with
  | nil => rfl
  | cons p ps ih => rw [fillTable, ih _ _ (by omega), fillSymbol_getD, if_neg (by omega)]

/-- Symbol `s` of the list, `sym + s` of the table, has slot `j` at entry `cdf_s + j`. -/
theorem fillTable_getD {ps : List U16} {s j : Nat} {p : U16} (hs : ps[s]? = some p) (hj : j < p.toNat) {sym c : Nat}
    (hfit : c + probsTotal ps ≤ 2048) (dec : Vector U32 2048) :
    (fillTable ps sym c dec).getD (c + probsTotal (ps.take s) + j) 0 =
      decRecord (BitVec.ofNat 12 j) (BitVec.ofNat 12 p.toNat) (BitVec.ofNat 8 (sym + s)) := by
  induction ps generalizing s sym c dec with
  | nil => simp at hs
  | cons q ps ih =>
    rw [probsTotal_cons] at hfit
    cases s with
    | zero =>
      obtain rfl : q = p := by simpa using hs
      rw [fillTable, List.take_zero, probsTotal_nil, fillTable_getD_of_lt _ _ _ (by omega), fillSymbol_getD,
        if_pos (by omega), show c + 0 + j - c = j by omega, Nat.add_zero]
    | succ s =>
      rw [fillTable, List.take_succ_cons, probsTotal_cons, show c + (q.toNat + probsTotal (ps.take s)) + j =
        c + q.toNat + probsTotal (ps.take s) + j by omega, ih (by simpa using hs) (by omega),
        show sym + 1 + s = sym + (s + 1) by omega]

/-! ### The fields of an entry (30_encoding.md R311) -/

theorem toNat_decSymbol (e : U32) : (decSymbol e).toNat = e.toNat % 2 ^ 8 := by
  rw [decSymbol, BitVec.extractLsb'_toNat, Nat.shiftRight_zero]

theorem toNat_decPdf (e : U32) : (decPdf e).toNat = e.toNat / 2 ^ 8 % 2 ^ 12 := by
  rw [decPdf, BitVec.toNat_setWidth_of_le (by decide), BitVec.extractLsb'_toNat, Nat.shiftRight_eq_div_pow]

theorem toNat_decSlot (e : U32) : (decSlot e).toNat = e.toNat / 2 ^ 20 % 2 ^ 12 := by
  rw [decSlot, BitVec.toNat_setWidth_of_le (by decide), BitVec.extractLsb'_toNat, Nat.shiftRight_eq_div_pow]

/-- The entry `e` is that of the symbol `s` with probability `p`, at slot `j`. -/
structure LookupEntry (s p j : Nat) (e : U32) : Prop where
  symbol : (decSymbol e).toNat = s
  pdf : (decPdf e).toNat = p
  slot : (decSlot e).toNat = j

/-- The fields of a record read back. -/
theorem lookupEntry_decRecord {s p j : Nat} (hs : s < 2 ^ 8) (hp : p < 2 ^ 12) (hj : j < 2 ^ 12) :
    LookupEntry s p j (decRecord (BitVec.ofNat 12 j) (BitVec.ofNat 12 p) (BitVec.ofNat 8 s)) := by
  have hval : (decRecord (BitVec.ofNat 12 j) (BitVec.ofNat 12 p) (BitVec.ofNat 8 s)).toNat =
      (j * 2 ^ 12 + p) * 2 ^ 8 + s := by
    simp only [decRecord, toNat_append_eq_add, BitVec.toNat_ofNat, Nat.mod_eq_of_lt hs, Nat.mod_eq_of_lt hp,
      Nat.mod_eq_of_lt hj]
  constructor
  · rw [toNat_decSymbol, hval]
    omega
  · rw [toNat_decPdf, hval]
    omega
  · rw [toNat_decSlot, hval]
    omega

/-- Slot `j` of symbol `s` in the table of at most 256 probabilities that sum to at most 2048. -/
theorem lookupEntry_fillTable {ps : List U16} (hlen : ps.length ≤ 256) (hfit : probsTotal ps ≤ 2048) {s j : Nat}
    {p : U16} (hs : ps[s]? = some p) (hj : j < p.toNat) (dec : Vector U32 2048) :
    LookupEntry s p.toNat j ((fillTable ps 0 0 dec).getD (probsTotal (ps.take s) + j) 0) := by
  have hsym : s < ps.length := (List.getElem?_eq_some_iff.1 hs).1
  have hp := probsTotal_take_add_le hs
  have hentry := fillTable_getD hs hj (sym := 0) (c := 0) (by omega) dec
  rw [Nat.zero_add, Nat.zero_add] at hentry
  rw [hentry]
  exact lookupEntry_decRecord (by omega) (by omega) (by omega)

/-! ### One symbol and slot for each entry (43_decoder.md R602) -/

/-- Entry `i` is slot `sj.2` of symbol `sj.1`. -/
def IsSlotAt (ps : List U16) (i : Nat) (sj : Nat × Nat) : Prop :=
  ∃ p, ps[sj.1]? = some p ∧ sj.2 < p.toNat ∧ i = probsTotal (ps.take sj.1) + sj.2

theorem isSlotAt_cons_zero {p : U16} {ps : List U16} {i j : Nat} :
    IsSlotAt (p :: ps) i (0, j) ↔ j < p.toNat ∧ i = j := by
  simp [IsSlotAt]

theorem isSlotAt_cons_succ {p : U16} {ps : List U16} {i s j : Nat} :
    IsSlotAt (p :: ps) i (s + 1, j) ↔ p.toNat ≤ i ∧ IsSlotAt ps (i - p.toNat) (s, j) := by
  simp only [IsSlotAt, List.getElem?_cons_succ, List.take_succ_cons, probsTotal_cons]
  constructor
  · rintro ⟨q, hq, hj, rfl⟩
    exact ⟨by omega, q, hq, hj, by omega⟩
  · rintro ⟨hle, q, hq, hj, hi⟩
    exact ⟨q, hq, hj, by omega⟩

theorem existsUnique_isSlotAt {ps : List U16} {i : Nat} (hi : i < probsTotal ps) : ∃! sj, IsSlotAt ps i sj := by
  induction ps generalizing i with
  | nil => simp at hi
  | cons p ps ih =>
    rw [probsTotal_cons] at hi
    rcases Nat.lt_or_ge i p.toNat with hlt | hge
    · refine ⟨(0, i), isSlotAt_cons_zero.2 ⟨hlt, rfl⟩, fun ⟨s, j⟩ h => ?_⟩
      cases s with
      | zero => rw [(isSlotAt_cons_zero.1 h).2]
      | succ s => exact absurd (isSlotAt_cons_succ.1 h).1 (by omega)
    · obtain ⟨⟨s, j⟩, hsj, unique⟩ := ih (i := i - p.toNat) (by omega)
      refine ⟨(s + 1, j), isSlotAt_cons_succ.2 ⟨hge, hsj⟩, fun ⟨s', j'⟩ h => ?_⟩
      cases s' with
      | zero =>
        have := isSlotAt_cons_zero.1 h
        omega
      | succ s' =>
        obtain ⟨rfl, rfl⟩ := Prod.mk.inj (unique (s', j') (isSlotAt_cons_succ.1 h).2)
        rfl

/-- Settles O37: a symbol's entries stand where `fillTable_getD` says, and those of two symbols do not meet. -/
theorem decoderTableComplete : Obligations.DecoderTableComplete := by
  unfold Obligations.DecoderTableComplete
  intro probs pb dec hpb hlen htotal
  obtain ⟨-, hM⟩ := two_pow_probBits hpb
  refine ⟨fun s j p hs hj => ?_, fun i hi => existsUnique_isSlotAt (by omega)⟩
  obtain ⟨symbol, pdf, slot⟩ := lookupEntry_fillTable hlen.le (by omega) hs hj dec
  exact ⟨symbol, pdf, slot⟩

end Sys2Proof.Machine
end

