-- ==== Sys2Proof/Proofs/DecodeStep.lean ====
section
/-! PROOF of O38 and O39: the vector decode step as the scalar step on every lane, and that a lane's decode step
inverts its encode step (43_decoder.md R612 to R615, R618). -/

namespace Sys2Proof.Machine

/-! ### The lookup on a lane (43_decoder.md R612) -/

/-- A word shifted down and masked, as a number. -/
theorem toNat_ushiftRight_and_mask (e : U32) (a : Nat) {n : Nat} (hn : n ≤ 32) :
    (e >>> a &&& BitVec.ofNat 32 (2 ^ n - 1)).toNat = e.toNat / 2 ^ a % 2 ^ n := by
  have hmask : 2 ^ n - 1 < 2 ^ 32 := Nat.sub_one_lt_of_le (Nat.two_pow_pos n) (Nat.pow_le_pow_right Nat.two_pos hn)
  rw [BitVec.toNat_and, BitVec.toNat_ofNat, Nat.mod_eq_of_lt hmask, Nat.and_two_pow_sub_one_eq_mod,
    BitVec.toNat_ushiftRight, Nat.shiftRight_eq_div_pow]

theorem masked_symbol (e : U32) : (e &&& 0xFF#32).toNat = (decSymbol e).toNat := by
  have := toNat_ushiftRight_and_mask e 0 (n := 8) (by decide)
  rw [BitVec.ushiftRight_zero] at this
  rw [toNat_decSymbol, ← Nat.div_one e.toNat]
  exact this

theorem shifted_pdf (e : U32) : e >>> 8 &&& 0xFFF#32 = decPdf e := BitVec.eq_of_toNat_eq <| by
  rw [toNat_decPdf]
  exact toNat_ushiftRight_and_mask e 8 (n := 12) (by decide)

theorem shifted_slot (e : U32) : e >>> 20 = decSlot e := BitVec.eq_of_toNat_eq <| by
  have := e.isLt
  rw [toNat_decSlot, BitVec.toNat_ushiftRight, Nat.shiftRight_eq_div_pow]
  omega

/-- The lookup index is the state modulo `2^PB`. -/
theorem toNat_decIndex (x : U32) {pb : Nat} (h : pb ≤ 32) : (decIndex x pb).toNat = x.toNat % 2 ^ pb := by
  have := toNat_ushiftRight_and_mask x 0 h
  rw [BitVec.ushiftRight_zero, Nat.pow_zero, Nat.div_one] at this
  exact this

/-- A lane gathers the entry at its own index, which lies in the table RAM. -/
theorem gather32_decIndex_get (dec : Vector U32 2048) (x : Vec) {pb : Nat} (hpb : isProbBits pb = true) (j : Fin 8) :
    (gather32 dec (vand x (broadcast32 (BitVec.ofNat 32 (2 ^ pb - 1))))).get j =
      dec.getD (decIndex (x.get j) pb).toNat 0 := by
  have hindex : (vand x (broadcast32 (BitVec.ofNat 32 (2 ^ pb - 1)))).get j = decIndex (x.get j) pb := by
    rw [vand_get, broadcast32_get, decIndex]
  have hlt := decIndex_lt (x.get j) (le_of_isProbBits hpb)
  obtain ⟨-, hM⟩ := two_pow_probBits hpb
  have hram : (decIndex (x.get j) pb).toNat < 2048 := by omega
  rw [gather32, get_ofFn]
  change dec.getD ((vand x _).get j).toNat (Config.decOutside ((vand x _).get j).toNat) = _
  rw [hindex]
  simp [Vector.getD, hram]

theorem decGroupUpdate_fst_get (dec : Vector U32 2048) (x : Vec) {pb : Nat} (hpb : isProbBits pb = true) (j : Fin 8) :
    ((decGroupUpdate dec x pb).1.get j).toNat = (decSymbol (dec.getD (decIndex (x.get j) pb).toNat 0)).toNat := by
  rw [decGroupUpdate, vand_get, broadcast32_get, gather32_decIndex_get dec x hpb, masked_symbol]

theorem decGroupUpdate_snd_get (dec : Vector U32 2048) (x : Vec) {pb : Nat} (hpb : isProbBits pb = true) (j : Fin 8) :
    (decGroupUpdate dec x pb).2.get j = decUpdate (x.get j) (dec.getD (decIndex (x.get j) pb).toNat 0) pb := by
  simp only [decGroupUpdate, vadd_get, vmullo_get, vand_get, vshr_get, broadcast32_get]
  rw [gather32_decIndex_get dec x hpb, shifted_pdf, shifted_slot]
  rfl

/-! ### The feed on a lane (43_decoder.md R613 to R615, 45_simd.md R831) -/

theorem needLanes_get_msb (x : Vec) (j : Fin 8) :
    ((needLanes x).get j).msb = decide (x.get j < Config.minState) := by
  rw [needLanes, vcmpGt_get, broadcast32_get]
  by_cases h : x.get j < Config.minState
  · rw [if_pos h, decide_eq_true h]
    rfl
  · rw [if_neg h, decide_eq_false h]
    rfl

theorem needMask_getLsbD (x : Vec) (j : Fin 8) :
    (vmask (needLanes x)).getLsbD j.val = decide (x.get j < Config.minState) := by
  rw [vmask_getLsbD, needLanes_get_msb]

/-- A set lane's rank is below the number of set lanes. -/
theorem rank_lt_popcount {m : BitVec 8} {j : Nat} (hj : j < 8) (hset : m.getLsbD j = true) : rank m j < popcount m := by
  rw [← length_setBits]
  exact (List.getElem?_eq_some_iff.1 (getElem?_filter_range hj hset)).1

/-- A set lane's entry of the read permutation. -/
theorem readPermute_get {m : BitVec 8} {j : Fin 8} (hset : m.getLsbD j.val = true) :
    ((readPermute m).get j).toNat = 8 - popcount m + rank m j.val := by
  have hrank := rank_lt_popcount j.isLt hset
  have hcount := popcount_le m
  rw [readPermute, get_ofFn, if_pos hset, BitVec.toNat_ofNat]
  omega

theorem feedUpdate_get (x : Vec) (words : Half) (j : Fin 8) :
    (feedUpdate x words).get j = decFeed (x.get j)
      (words.toList.getD (8 - popcount (vmask (needLanes x)) + rank (vmask (needLanes x)) j.val) 0) := by
  rw [feedUpdate, blendv_get, needLanes_get_msb, decFeed]
  by_cases hneed : x.get j < Config.minState
  · have hset : (vmask (needLanes x)).getLsbD j.val = true := by rw [needMask_getLsbD, decide_eq_true hneed]
    have hrank := rank_lt_popcount j.isLt hset
    have hcount := popcount_le (vmask (needLanes x))
    have hlt : 8 - popcount (vmask (needLanes x)) + rank (vmask (needLanes x)) j.val < 8 := by omega
    rw [if_pos (decide_eq_true hneed), if_pos hneed, vor_get, vshl_get, permute8x32_get, cvtU16_get,
      readPermute_get hset]
    congr 2
    simp [Vector.get, List.getD, hlt, Nat.mod_eq_of_lt hlt]
  · rw [if_neg (by simpa using hneed), if_neg hneed]

/-- Settles O38: each lane by itself, lookup (`decGroupUpdate_snd_get`) and feed (`feedUpdate_get`). -/
theorem decodeStepIsScalar : Obligations.DecodeStepIsScalar := by
  unfold Obligations.DecodeStepIsScalar
  refine ⟨fun dec x pb j hpb => ⟨decGroupUpdate_fst_get dec x hpb j, decGroupUpdate_snd_get dec x hpb j⟩,
    fun x words j => ⟨?_, feedUpdate_get x words j⟩⟩
  rw [needMask_getLsbD, decide_eq_true_iff]

/-! ### Decode after encode (43_decoder.md R618) -/

/-- A lane's encode step is exact: the state after the emit, divided by the probability. -/
theorem toNat_encStep_state {p c : Nat} {e : U64} (h : LiveRecord p c e) {pb : Nat} (hpb : isProbBits pb = true)
    (hc : c + p ≤ 2 ^ pb) {x : U32} (hlow : Config.minState ≤ x) (hhigh : x.toNat < 2 ^ 31) :
    (encStep x e pb).state.toNat =
      (afterEmit x e pb).toNat / p * 2 ^ pb + (c + (afterEmit x e pb).toNat % p) := by
  obtain ⟨-, hM⟩ := two_pow_probBits hpb
  have hmod : (afterEmit x e pb).toNat % p < p := Nat.mod_lt _ h.pos
  have hlt : (afterEmit x e pb).toNat < p * 2 ^ (31 - pb) := (afterEmit_bounds h hpb (by omega) hlow hhigh).2
  have hquot : ((afterEmit x e pb).toNat / p + 1) * 2 ^ pb ≤ 2 ^ (31 - pb) * 2 ^ pb :=
    Nat.mul_le_mul_right _ (Nat.div_lt_of_lt_mul hlt)
  rw [Nat.succ_mul, Nat.mul_comm (2 ^ (31 - pb))] at hquot
  have hfit := hquot.trans (mul_two_pow_le hpb (Nat.le_refl _))
  rw [encStep, toNat_encUpdate h (by omega) (hlt.trans_le (mul_two_pow_le hpb (by omega))) (by omega), Nat.add_assoc]

/-- The decode update with an entry of the same symbol puts quotient and slot together again. -/
theorem decUpdate_of_entry {s p j pb y : Nat} {x e : U32} (h : LookupEntry s p j e)
    (hx : x.toNat / 2 ^ pb = y / p) (hj : j = y % p) (hy : y < 2 ^ 32) : (decUpdate x e pb).toNat = y := by
  rw [decUpdate, BitVec.toNat_add, BitVec.toNat_mul, BitVec.toNat_ushiftRight, Nat.shiftRight_eq_div_pow, h.pdf, h.slot,
    hx, hj, Nat.mod_add_mod, Nat.div_add_mod, Nat.mod_eq_of_lt hy]

/-- A word was emitted exactly when the state after the emit is below `L`. -/
theorem emitted_iff_afterEmit_lt {x : U32} (hlow : Config.minState ≤ x) (hhigh : x.toNat < 2 ^ 31) (e : U64)
    (pb : Nat) : (encStep x e pb).emitted = true ↔ afterEmit x e pb < Config.minState := by
  rw [encStep, decide_eq_true_iff, afterEmit]
  by_cases hx : emitThreshold e pb ≤ x
  · have hL : Config.minState.toNat = 2 ^ 15 := rfl
    rw [if_pos hx, BitVec.lt_def, BitVec.toNat_ushiftRight, Nat.shiftRight_eq_div_pow]
    exact ⟨fun _ => by omega, fun _ => hx⟩
  · rw [if_neg hx]
    exact ⟨fun h => absurd h hx, fun h => absurd h (BitVec.not_lt.2 hlow)⟩

/-- The low half of a word under its high half. -/
theorem shiftLeft_or_low (x : U32) : x >>> 16 <<< 16 ||| (x.extractLsb' 0 16).setWidth 32 = x := by
  refine BitVec.eq_of_getLsbD_eq fun i hi => ?_
  by_cases h : i < 16
  · simp [h, hi]
  · simp [h, hi, show 16 + (i - 16) = i by omega]

/-- The emitted word, fed back, restores the state. -/
theorem decFeed_afterEmit {x : U32} (hlow : Config.minState ≤ x) (hhigh : x.toNat < 2 ^ 31) (e : U64) (pb : Nat) :
    decFeed (afterEmit x e pb) (encStep x e pb).word = x := by
  have hemit := emitted_iff_afterEmit_lt hlow hhigh e pb
  rw [encStep, decide_eq_true_iff] at hemit
  by_cases hx : emitThreshold e pb ≤ x
  · rw [decFeed, if_pos (hemit.1 hx), afterEmit, if_pos hx, encStep, shiftLeft_or_low]
  · rw [decFeed, if_neg (mt hemit.2 hx), afterEmit, if_neg hx]

/-- The probabilities of a table as the container stores them. -/
theorem getElem?_storedProbs (q : Vector (BitVec 12) 256) (s : Fin 256) :
    (q.toList.map fun p => (p.setWidth 16 : U16))[s.val]? = some ((q.get s).setWidth 16) := by
  simp [Vector.get]

theorem probsTotal_storedProbs (ps : List (BitVec 12)) :
    probsTotal (ps.map fun p => p.setWidth 16) = (ps.map BitVec.toNat).sum := by
  rw [probsTotal, List.map_map]
  exact congrArg List.sum (List.map_congr_left fun p _ => BitVec.toNat_setWidth_of_le (by decide))

/-- Slot `j` of symbol `s` in the lookup table of the probabilities `q`. -/
theorem lookupEntry_storedProbs {q : Vector (BitVec 12) 256} (hq : (q.toList.map BitVec.toNat).sum ≤ 2048) {s : Fin 256}
    {j : Nat} (hj : j < (q.get s).toNat) (dec : Vector U32 2048) :
    LookupEntry s (q.get s).toNat j ((fillTable (q.toList.map fun p => p.setWidth 16) 0 0 dec).getD
      (((q.toList.take s.val).map BitVec.toNat).sum + j) 0) := by
  have hp : ((q.get s).setWidth 16 : U16).toNat = (q.get s).toNat := BitVec.toNat_setWidth_of_le (by decide)
  have hentry := lookupEntry_fillTable (by simp) (by rwa [probsTotal_storedProbs]) (getElem?_storedProbs q s) (hp ▸ hj)
    dec
  rwa [hp, ← List.map_take, probsTotal_storedProbs] at hentry

/-- Settles O39: the encoded state is quotient, symbol and slot side by side (`toNat_encStep_state`), the lookup finds
symbol and slot, and update and feed give the two states back. -/
theorem laneInversion : Obligations.LaneInversion := by
  unfold Obligations.LaneInversion
  intro q pb s x dec hpb hsum hs hlow hhigh e r table d
  obtain ⟨-, hM⟩ := two_pow_probBits hpb
  have hrec : LiveRecord _ _ e := liveRecord (by omega) hs
  have hshare := (sum_take_add_le_sum q s).trans_eq hsum
  have hmod : (afterEmit x e pb).toNat % (q.get s).toNat < (q.get s).toNat := Nat.mod_lt _ hs
  have hslot : ((q.toList.take s.val).map BitVec.toNat).sum + (afterEmit x e pb).toNat % (q.get s).toNat < 2 ^ pb := by
    omega
  have hstate : r.state.toNat = _ := toNat_encStep_state hrec hpb hshare hlow hhigh
  have hindex : (decIndex r.state pb).toNat = ((q.toList.take s.val).map BitVec.toNat).sum +
      (afterEmit x e pb).toNat % (q.get s).toNat := by
    rw [toNat_decIndex _ (le_of_isProbBits hpb), hstate, Nat.mul_add_mod_self_right, Nat.mod_eq_of_lt hslot]
  have hentry : LookupEntry s (q.get s).toNat ((afterEmit x e pb).toNat % (q.get s).toNat) d := by
    simp only [d, hindex]
    exact lookupEntry_storedProbs (by omega) hmod dec
  have hquot : r.state.toNat / 2 ^ pb = (afterEmit x e pb).toNat / (q.get s).toNat := by
    rw [hstate, Nat.mul_comm, Nat.mul_add_div (by omega), Nat.div_eq_of_lt hslot, Nat.add_zero]
  exact ⟨hentry.symbol, BitVec.eq_of_toNat_eq (decUpdate_of_entry hentry hquot rfl (BitVec.isLt _)),
    emitted_iff_afterEmit_lt hlow hhigh e pb, decFeed_afterEmit hlow hhigh e pb⟩

end Sys2Proof.Machine
end

