-- ==== Sys2Proof/Proofs/DecodeChecks.lean ====
section
/-! PROOF of O36: what `DECODE` reads of its container, and its checks in their order (43_decoder.md R630,
44_container.md R720). -/

namespace Sys2Proof.Machine

/-! ### Checks in order (40_commands.md R403) -/

/-- Checks of which the first to fail has the code `e`: the command ends with it, or goes on with `v` if none fails. -/
def ofError {α : Type} (e : Option ErrorCode) (s : State) (v : α) : Run α :=
  match e with
  | none => .ok v
  | some c => .error (.ended (complete c 0 s))

@[simp] theorem ofError_none {α : Type} (s : State) (v : α) : ofError none s v = .ok v := rfl

@[simp] theorem ofError_some {α : Type} (c : ErrorCode) (s : State) (v : α) :
    ofError (some c) s v = .error (.ended (complete c 0 s)) := rfl

/-- One check of a list, and the rest, which is reached only past it. -/
theorem require_bind_eq_ofError {α : Type} {s : State} {p : Bool} {c : ErrorCode} {rest : List (Bool × ErrorCode)}
    {f : Unit → Run α} {v : α} (next : p = true → f () = ofError (firstFailing rest) s v) :
    (require p c s >>= f) = ofError (firstFailing ((p, c) :: rest)) s v := by
  cases p with
  | true => exact next rfl
  | false => rfl

/-! ### Reads of the source window -/

/-- A read inside a granted source window. -/
theorem coreRead_source {g : Grant} {s : State} (hg : s.snap.srcWindow ∈ g.reads) {a : Int} {i n : Nat}
    (ha : a = ((s.srcBase + i : Nat) : Int)) (h : i + n ≤ s.srcSize) :
    coreRead g .source a n s = .ok (s.readBytes (s.srcBase + i) n) := by
  subst ha
  refine coreRead_ok .source s ((g.mayRead_iff _ _).2 ⟨_, hg, ?_⟩)
  simp only [Operands.srcWindow, State.srcBase, State.srcSize] at h ⊢
  omega

theorem readWord32_eq_ok {g : Grant} {s : State} (hg : s.snap.srcWindow ∈ g.reads) {off : Nat}
    (h : off + 4 ≤ s.srcSize) : readWord32 g off s = .ok (s.word32At (s.srcBase + off)) := by
  rw [readWord32, coreRead_source (a := s.snap.src.toNat + off) hg (Nat.cast_add ..).symm h]
  rfl

theorem readProb_eq_ok {g : Grant} {s : State} (hg : s.snap.srcWindow ∈ g.reads) {i : Nat}
    (h : probsOffset i + 2 ≤ s.srcSize) : readProb g s i = .ok (s.word16At (s.srcBase + probsOffset i)) := by
  rw [readProb, coreRead_source (a := s.snap.src.toNat + probsOffset i) hg (Nat.cast_add ..).symm h]
  rfl

theorem toNat_le32 (b : Vector Byte 4) :
    (le32 b).toNat = ((b[3].toNat * 2 ^ 8 + b[2].toNat) * 2 ^ 8 + b[1].toNat) * 2 ^ 8 + b[0].toNat := by
  rw [le32, toNat_append_eq_add, toNat_append_eq_add, toNat_append_eq_add]

/-- The two halves of a 64-bit number are the 32-bit numbers in its place (20_memory.md R201). -/
theorem State.toNat_word64At (s : State) (a : Nat) :
    (s.word64At a).toNat = (s.word32At (a + 4)).toNat * 2 ^ 32 + (s.word32At a).toNat := by
  simp only [State.word64At, State.word32At, toNat_le32, State.getElem_readBytes]
  rw [le64, toNat_append_eq_add, toNat_append_eq_add, toNat_append_eq_add, toNat_append_eq_add, toNat_append_eq_add,
    toNat_append_eq_add, toNat_append_eq_add]
  simp only [State.getElem_readBytes, Nat.add_assoc, Nat.reduceAdd]
  omega

theorem State.word64At_low (s : State) (a : Nat) : (s.word64At a).extractLsb' 0 32 = s.word32At a := by
  have := (s.word32At a).isLt
  refine BitVec.eq_of_toNat_eq ?_
  rw [BitVec.extractLsb'_toNat, Nat.shiftRight_zero, s.toNat_word64At]
  omega

theorem State.word64At_high (s : State) (a : Nat) : (s.word64At a).extractLsb' 32 32 = s.word32At (a + 4) := by
  have := (s.word32At a).isLt
  have := (s.word32At (a + 4)).isLt
  refine BitVec.eq_of_toNat_eq ?_
  rw [BitVec.extractLsb'_toNat, Nat.shiftRight_eq_div_pow, s.toNat_word64At]
  omega

/-- Index entry `k` of the container at `SRC` (44_container.md R701). -/
def State.indexEntry (s : State) (k : Nat) : U32 × U32 :=
  (s.indexWord0 k, s.word32At (s.srcBase + (indexOffset s.containerBlocks + 8 * k + 4)))

theorem readIndexEntry_eq_ok {g : Grant} {s : State} (hg : s.snap.srcWindow ∈ g.reads) {k : Nat}
    (h : indexOffset s.containerBlocks + 8 * k + 8 ≤ s.srcSize) :
    readIndexEntry g s.containerBlocks s k = .ok (s.indexEntry k) := by
  rw [readIndexEntry, coreRead_source hg (i := indexOffset s.containerBlocks + 8 * k) (by simp [State.srcBase]) h,
    State.indexEntry, State.indexWord0, ← s.word64At_low, ← Nat.add_assoc s.srcBase _ 4, ← s.word64At_high]
  rfl

/-- The container at `SRC`, as read off host memory. -/
def State.container (s : State) : Container :=
  ⟨s.containerBlocks, s.containerProbBits, s.headerWord 2, s.containerProbs,
    (List.range s.containerBlocks).map s.indexEntry⟩

theorem State.container_probs (s : State) : s.container.probs = s.containerProbs := rfl

theorem State.container_totalUncompressed (s : State) : s.container.totalUncompressed = s.headerWord 2 := rfl

/-! ### The checks of `DECODE` (43_decoder.md R630) -/

theorem containerProbTotal_eq (s : State) : s.containerProbTotal = probsTotal s.containerProbs := by
  rw [State.containerProbTotal, State.containerProbs, probsTotal, List.map_map]
  rfl

/-- What stands before the payload: the index ends where the payload starts, or 8 bytes before. -/
theorem index_le_payloadOffset {nb k : Nat} (hk : k < nb) : indexOffset nb + 8 * k + 8 ≤ payloadOffset nb := by
  simp only [indexOffset, payloadOffset]
  omega

/-- The alignment of `SRC` and the validator make the checks of `decodeError`, and give the container. -/
theorem validateContainer_eq {g : Grant} {s : State} (hg : s.snap.srcWindow ∈ g.reads) :
    (require (isAligned s.snap.src 32) .misaligned s >>= fun _ => validateContainer g s) =
      ofError (decodeError s) s s.container := by
  unfold decodeError validateContainer
  refine require_bind_eq_ofError fun _ => require_bind_eq_ofError fun hheader => ?_
  have header : collect (fun j => readWord32 g (4 * j) s) (List.range 8) = .ok ((List.range 8).map s.headerWord) :=
    collect_eq_ok fun j hj => readWord32_eq_ok hg (by
      have := List.mem_range.1 hj
      have : 32 ≤ s.srcSize := of_decide_eq_true hheader
      omega)
  rw [header, Run.ok_bind]
  refine require_bind_eq_ofError fun _ => require_bind_eq_ofError fun _ => require_bind_eq_ofError fun hprobs => ?_
  refine require_bind_eq_ofError fun _ => require_bind_eq_ofError fun _ => require_bind_eq_ofError fun _ => ?_
  refine require_bind_eq_ofError fun hpayload => ?_
  have probs : collect (readProb g s) (List.range 256) = .ok s.containerProbs :=
    collect_eq_ok fun i hi => readProb_eq_ok hg (by
      have := List.mem_range.1 hi
      have : 544 ≤ s.srcSize := of_decide_eq_true hprobs
      rw [probsOffset]
      omega)
  have index : collect (readIndexEntry g s.containerBlocks s) (List.range s.containerBlocks) =
      .ok ((List.range s.containerBlocks).map s.indexEntry) :=
    collect_eq_ok fun k hk => readIndexEntry_eq_ok hg (by
      have := index_le_payloadOffset (List.mem_range.1 hk)
      have : payloadOffset s.containerBlocks + 2 * (s.headerWord 3).toNat ≤ s.srcSize := of_decide_eq_true hpayload
      omega)
  -- the validator takes the number of blocks out of the list of header words
  have index' : collect (readIndexEntry g (((List.range 8).map s.headerWord).getD 1 0).toNat s)
    (List.range (((List.range 8).map s.headerWord).getD 1 0).toNat) = _ := index
  rw [probs, Run.ok_bind, index', Run.ok_bind, List.all_map, List.all_map]
  refine require_bind_eq_ofError fun _ => require_bind_eq_ofError fun _ => ?_
  rw [containerProbTotal_eq]
  exact require_bind_eq_ofError fun _ => rfl

/-- Past its windows `DECODE` makes its checks, then builds the table and decodes the blocks. -/
theorem exec_decode_eq {s : State} (hw : (grantOf .decode s.snap).fault? = none) :
    exec .decode s = (ofError (decodeError s) s s.container >>= fun c =>
      decodeBlocks (grantOf .decode s.snap) c (buildDecTable c.probs s) >>= fun t =>
        (.ok (complete .ok c.totalUncompressed t) : Run State)).finish := by
  rw [← validateContainer_eq (g := grantOf .decode s.snap) List.mem_cons_self, bind_assoc, exec, execDecode, runDecode,
    checkWindows_none hw]
  rfl

theorem exec_decode_of_error {s : State} {c : ErrorCode} (hw : (grantOf .decode s.snap).fault? = none)
    (h : decodeError s = some c) : exec .decode s = .next (complete c 0 s) := by
  rw [exec_decode_eq hw, h, ofError_some]
  rfl

/-- Settles O36: the run's checks are those of `decodeError` (`validateContainer_eq`). -/
theorem decodeChecksInOrder : Obligations.DecodeChecksInOrder := by
  unfold Obligations.DecodeChecksInOrder
  intro s c hw h
  exact exec_decode_of_error hw h

end Sys2Proof.Machine
end

