-- ==== Sys2Proof/Proofs/DecodeSweep.lean ====
section
/-! PROOF for O40 and O41: the scalar sweep of a block pair by pair, as the engine makes it, and a group's feed as the
feed of its vector (43_decoder.md R612 to R615). -/

namespace Sys2Proof.Machine

/-! ### A group's feed (43_decoder.md R613 to R615) -/

theorem needsBelow_congr {lanes lanes' : Vector U32 32} {g : Fin 4}
    (h : ∀ l : Fin 32, l.val / 8 = g.val → lanes.get l = lanes'.get l) {j : Nat} (hj : j ≤ 8) :
    needsBelow lanes g j = needsBelow lanes' g j := by
  refine List.countP_congr fun i hi => ?_
  have hi8 : i < 8 := (List.mem_range.1 hi).trans_le hj
  have hlane : 8 * g.val + i < 32 := by omega
  have := h ⟨8 * g.val + i, hlane⟩ (by simp only; omega)
  simp only [Vector.get, Fin.val_cast] at this
  simp [Vector.getD, hlane, this]

/-- The lanes of a group that need a word, counted in its mask. -/
theorem rank_needMask (lanes : Vector U32 32) (g : Fin 4) {j : Nat} (hj : j ≤ 8) :
    rank (vmask (needLanes (laneGroup lanes g))) j = needsBelow lanes g j := by
  refine List.countP_congr fun i hi => ?_
  have hi8 : i < 8 := (List.mem_range.1 hi).trans_le hj
  have hlane : 8 * g.val + i < 32 := by omega
  have hmask := needMask_getLsbD (laneGroup lanes g) ⟨i, hi8⟩
  rw [laneGroup_get] at hmask
  rw [hmask]
  simp [Vector.get, Vector.getD, hlane]

theorem popcount_needMask (lanes : Vector U32 32) (g : Fin 4) :
    popcount (vmask (needLanes (laneGroup lanes g))) = needsBelow lanes g 8 := rank_needMask lanes g (Nat.le_refl 8)

section
variable (word : Int → U16) (d : ScalarDecode) (g : Fin 4)

theorem scalarFeedGroup_get (l : Fin 32) : (scalarFeedGroup word d g).lanes.get l =
    if l.val / 8 = g.val then
      decFeed (d.lanes.get l) (word (d.cur - needsBelow d.lanes g 8 + needsBelow d.lanes g (l.val % 8)))
    else d.lanes.get l := get_ofFn _ l

theorem scalarFeedGroup_cur : (scalarFeedGroup word d g).cur = d.cur - needsBelow d.lanes g 8 := by
  rw [scalarFeedGroup]

theorem scalarFeedGroup_bytes : (scalarFeedGroup word d g).bytes = d.bytes := by rw [scalarFeedGroup]

theorem scalarFeedGroup_loads : (scalarFeedGroup word d g).loads =
    if needsBelow d.lanes g 8 = 0 then d.loads else d.cur :: d.loads := by rw [scalarFeedGroup]

end

/-- A group that needs no word keeps its lanes. -/
theorem scalarFeedGroup_lanes_of_fed (word : Int → U16) {d : ScalarDecode} {g : Fin 4}
    (h : needsBelow d.lanes g 8 = 0) : (scalarFeedGroup word d g).lanes = d.lanes := by
  refine ext_get fun l => ?_
  rw [scalarFeedGroup_get]
  split
  · next hl => exact if_neg fun hneed => by have := needsBelow_lt hneed hl; omega
  · rfl

/-- The feed of a group is that of its vector with the eight words that end at the cursor. -/
theorem scalarFeedGroup_lanes {word : Int → U16} {d : ScalarDecode} {words : Half}
    (hwords : ∀ j : Fin 8, words.get j = word (d.cur - 8 + j.val)) (g : Fin 4) :
    (scalarFeedGroup word d g).lanes = setLaneGroup d.lanes g (feedUpdate (laneGroup d.lanes g) words) := by
  refine ext_get fun l => ?_
  rw [scalarFeedGroup_get, setLaneGroup_get]
  split
  · next hl =>
    have hlane : (laneGroup d.lanes g).get ⟨l.val % 8, by omega⟩ = d.lanes.get l := by
      rw [laneGroup_get]
      congr 1
      exact Fin.ext (by simp only; omega)
    rw [feedUpdate_get, hlane, popcount_needMask, rank_needMask _ _ (show l.val % 8 ≤ 8 by omega)]
    by_cases hneed : d.lanes.get l < Config.minState
    · have hrank := needsBelow_lt hneed hl
      have hcount : needsBelow d.lanes g 8 ≤ 8 := popcount_needMask d.lanes g ▸ popcount_le _
      have hindex : 8 - needsBelow d.lanes g 8 + needsBelow d.lanes g (l.val % 8) < 8 := by omega
      have hword := hwords ⟨_, hindex⟩
      rw [show (d.cur - 8 + ((8 - needsBelow d.lanes g 8 + needsBelow d.lanes g (l.val % 8) : Nat) : Int)) =
        d.cur - needsBelow d.lanes g 8 + needsBelow d.lanes g (l.val % 8) by omega] at hword
      rw [← hword]
      simp [Vector.get, List.getD, hindex]
    · rw [decFeed, decFeed, if_neg hneed, if_neg hneed]
  · rfl

/-! ### A warp as two pairs (43_decoder.md R614, R615) -/

/-- Core lane `16h + i`, lane `i` of pair `h`. -/
def pairLane (h : Fin 2) (i : Fin 16) : Fin 32 := ⟨16 * h.val + i.val, by omega⟩

section
variable (entry : Nat → U32) (word : Int → U16) (pb : Nat)

/-- What the scalar rules look up for a lane in the state `x` (43_decoder.md R612). -/
def scalarLookup (x : U32) : U32 := entry (decIndex x pb).toNat

/-- Lookup, output and update of the lanes of pair `h` (43_decoder.md R612). -/
def scalarUpdatePair (h : Fin 2) (d : ScalarDecode) : ScalarDecode :=
  { d with
    lanes := Vector.ofFn fun l =>
      if l.val / 16 = h.val then decUpdate (d.lanes.get l) (scalarLookup entry pb (d.lanes.get l)) pb else d.lanes.get l
    bytes := (List.ofFn fun i => decSymbol (scalarLookup entry pb (d.lanes.get (pairLane h i)))) ++ d.bytes }

/-- One pair: its lanes' lookup, output and update, then the feeds of its groups. -/
def scalarDecodePair (h : Fin 2) (d : ScalarDecode) : ScalarDecode :=
  scalarFeedGroup word (scalarFeedGroup word (scalarUpdatePair entry pb h d) (highGroup h)) (lowGroup h)

variable (d : ScalarDecode)

theorem scalarUpdatePair_get (h : Fin 2) (l : Fin 32) : (scalarUpdatePair entry pb h d).lanes.get l =
    if l.val / 16 = h.val then decUpdate (d.lanes.get l) (scalarLookup entry pb (d.lanes.get l)) pb
    else d.lanes.get l := get_ofFn _ l

theorem scalarUpdatePair_cur (h : Fin 2) : (scalarUpdatePair entry pb h d).cur = d.cur := by rw [scalarUpdatePair]

theorem scalarUpdatePair_loads (h : Fin 2) : (scalarUpdatePair entry pb h d).loads = d.loads := by
  rw [scalarUpdatePair]

theorem scalarUpdatePair_bytes (h : Fin 2) : (scalarUpdatePair entry pb h d).bytes =
    (List.ofFn fun i => decSymbol (scalarLookup entry pb (d.lanes.get (pairLane h i)))) ++ d.bytes := by
  rw [scalarUpdatePair]

end

theorem ScalarDecode.ext_fields {d d' : ScalarDecode} (hlanes : ∀ l, d.lanes.get l = d'.lanes.get l)
    (hcur : d.cur = d'.cur) (hloads : d.loads = d'.loads) (hbytes : d.bytes = d'.bytes) : d = d' := by
  obtain ⟨lanes, cur, loads, bytes⟩ := d
  obtain ⟨lanes', cur', loads', bytes'⟩ := d'
  obtain rfl : lanes = lanes' := ext_get hlanes
  subst hcur hloads hbytes
  rfl

/-- The feed of a group of one pair and the update of the other pair do not meet. -/
theorem scalarUpdatePair_scalarFeedGroup (entry : Nat → U32) (word : Int → U16) (pb : Nat) (d : ScalarDecode)
    {h : Fin 2} {g : Fin 4} (hg : g.val / 2 ≠ h.val) : scalarUpdatePair entry pb h (scalarFeedGroup word d g) =
      scalarFeedGroup word (scalarUpdatePair entry pb h d) g := by
  have outside : ∀ l : Fin 32, l.val / 8 = g.val → (scalarUpdatePair entry pb h d).lanes.get l = d.lanes.get l :=
    fun l hl => by rw [scalarUpdatePair_get, if_neg (by omega)]
  have hneeds : ∀ j, j ≤ 8 → needsBelow (scalarUpdatePair entry pb h d).lanes g j = needsBelow d.lanes g j :=
    fun j hj => needsBelow_congr outside hj
  have apart : ∀ i, (scalarFeedGroup word d g).lanes.get (pairLane h i) = d.lanes.get (pairLane h i) := fun i => by
    rw [scalarFeedGroup_get, if_neg (by simp only [pairLane]; omega)]
  refine ScalarDecode.ext_fields (fun l => ?_) ?_ ?_ ?_
  · rw [scalarUpdatePair_get, scalarFeedGroup_get, scalarFeedGroup_get, scalarUpdatePair_cur]
    by_cases hl : l.val / 8 = g.val
    · have hpair : ¬l.val / 16 = h.val := by omega
      rw [if_neg hpair, if_pos hl, if_pos hl, outside l hl, hneeds 8 (Nat.le_refl 8), hneeds _ (by omega)]
    · rw [if_neg hl, if_neg hl, scalarUpdatePair_get]
  · rw [scalarUpdatePair_cur, scalarFeedGroup_cur, scalarFeedGroup_cur, scalarUpdatePair_cur, hneeds 8 (Nat.le_refl 8)]
  · rw [scalarUpdatePair_loads, scalarFeedGroup_loads, scalarFeedGroup_loads, scalarUpdatePair_loads,
      scalarUpdatePair_cur, hneeds 8 (Nat.le_refl 8)]
  · rw [scalarUpdatePair_bytes, scalarFeedGroup_bytes, scalarFeedGroup_bytes, scalarUpdatePair_bytes]
    simp only [apart]

/-- The updates of the two pairs are those of all lanes. -/
theorem scalarUpdatePair_both (entry : Nat → U32) (pb : Nat) (d : ScalarDecode) :
    scalarUpdatePair entry pb 0 (scalarUpdatePair entry pb 1 d) =
      { d with
        lanes := Vector.ofFn fun l => decUpdate (d.lanes.get l) (scalarLookup entry pb (d.lanes.get l)) pb
        bytes := (List.ofFn fun l => decSymbol (scalarLookup entry pb (d.lanes.get l))) ++ d.bytes } := by
  have apart : ∀ i, (scalarUpdatePair entry pb 1 d).lanes.get (pairLane 0 i) = d.lanes.get (pairLane 0 i) := fun i => by
    rw [scalarUpdatePair_get, if_neg (by simp only [pairLane]; omega)]
  refine ScalarDecode.ext_fields (fun l => ?_) ?_ ?_ ?_
  · simp only [scalarUpdatePair_get, get_ofFn]
    by_cases hl : l.val / 16 = 0
    · simp [hl]
    · have hl1 : l.val / 16 = 1 := by omega
      simp [hl1]
  · rw [scalarUpdatePair_cur, scalarUpdatePair_cur]
  · rw [scalarUpdatePair_loads, scalarUpdatePair_loads]
  · rw [scalarUpdatePair_bytes, scalarUpdatePair_bytes, ← List.append_assoc]
    simp only [apart]
    exact congrArg (· ++ d.bytes) (List.ofFn_add (m := 16) (n := 16)
      (f := fun l => decSymbol (scalarLookup entry pb (d.lanes.get l)))).symm

/-- A warp is pair 1, then pair 0. -/
theorem scalarDecodeWarp_eq_pairs (entry : Nat → U32) (word : Int → U16) (pb : Nat) (d : ScalarDecode) :
    scalarDecodeWarp entry word pb d =
      scalarDecodePair entry word pb 0 (scalarDecodePair entry word pb 1 d) := by
  rw [scalarDecodePair, scalarDecodePair, scalarUpdatePair_scalarFeedGroup _ _ _ _ (by decide),
    scalarUpdatePair_scalarFeedGroup _ _ _ _ (by decide), scalarUpdatePair_both]
  rfl

/-! ### The updates of a pair's two vectors (43_decoder.md R612, R615) -/

section
variable {dec : Vector U32 2048} {entry : Nat → U32} {pb : Nat} (hpb : isProbBits pb = true)
  (hdec : ∀ i, i < 2 ^ pb → dec.getD i 0 = entry i)
include hpb hdec

theorem getD_eq_scalarLookup (x : U32) : dec.getD (decIndex x pb).toNat 0 = scalarLookup entry pb x :=
  hdec _ (decIndex_lt x (le_of_isProbBits hpb))

theorem setLaneGroup_pair (d : ScalarDecode) (h : Fin 2) :
    setLaneGroup
      (setLaneGroup d.lanes (lowGroup h) (decGroupUpdate dec (laneGroup d.lanes (lowGroup h)) pb).2)
      (highGroup h) (decGroupUpdate dec (laneGroup d.lanes (highGroup h)) pb).2 =
    (scalarUpdatePair entry pb h d).lanes := by
  have lane : ∀ (g : Fin 4) (l : Fin 32), l.val / 8 = g.val →
      (decGroupUpdate dec (laneGroup d.lanes g) pb).2.get ⟨l.val % 8, by omega⟩ =
        decUpdate (d.lanes.get l) (scalarLookup entry pb (d.lanes.get l)) pb := fun g l hl => by
    have hlane : (⟨8 * g.val + l.val % 8, by omega⟩ : Fin 32) = l := Fin.ext (by simp only; omega)
    rw [decGroupUpdate_snd_get _ _ hpb, laneGroup_get, hlane, getD_eq_scalarLookup hpb hdec]
  refine ext_get fun l => ?_
  rw [setLaneGroup_get, setLaneGroup_get, scalarUpdatePair_get]
  by_cases hhigh : l.val / 8 = (highGroup h).val
  · rw [if_pos hhigh, lane _ l hhigh, if_pos (by simp only [highGroup] at hhigh; omega)]
  · rw [if_neg hhigh]
    by_cases hlow : l.val / 8 = (lowGroup h).val
    · rw [if_pos hlow, lane _ l hlow, if_pos (by simp only [lowGroup] at hlow; omega)]
    · rw [if_neg hlow, if_neg (by simp only [lowGroup, highGroup] at hlow hhigh; omega)]

theorem pack_pair (d : ScalarDecode) (h : Fin 2) :
    (pack16to8 (pack32to16x2 (decGroupUpdate dec (laneGroup d.lanes (lowGroup h)) pb).1
      (decGroupUpdate dec (laneGroup d.lanes (highGroup h)) pb).1)).toList =
    List.ofFn fun i => decSymbol (scalarLookup entry pb (d.lanes.get (pairLane h i))) := by
  have lane : ∀ (g : Fin 4) (j : Fin 8),
      (((decGroupUpdate dec (laneGroup d.lanes g) pb).1.get j).setWidth 16).setWidth 8 =
        decSymbol (scalarLookup entry pb (d.lanes.get ⟨8 * g.val + j.val, by omega⟩)) := fun g j => by
    have hsym := decGroupUpdate_fst_get dec (laneGroup d.lanes g) hpb j
    have hlt := (decSymbol (dec.getD (decIndex ((laneGroup d.lanes g).get j) pb).toNat 0)).isLt
    rw [laneGroup_get, getD_eq_scalarLookup hpb hdec] at hsym hlt
    refine BitVec.eq_of_toNat_eq ?_
    rw [BitVec.toNat_setWidth, BitVec.toNat_setWidth, hsym]
    omega
  refine List.ext_getElem (by simp) fun i h1 h2 => ?_
  have hi : i < 16 := by simpa using h2
  simp only [Vector.getElem_toList, pack16to8, pack32to16x2, Vector.getElem_ofFn, Fin.getElem_fin, List.getElem_ofFn]
  by_cases hlow : i < 8
  · rw [dif_pos hlow]
    refine (lane (lowGroup h) ⟨i, hlow⟩).trans ?_
    congr 4
    simp only [lowGroup]
    omega
  · rw [dif_neg hlow]
    refine (lane (highGroup h) ⟨i - 8, by omega⟩).trans ?_
    congr 4
    simp only [highGroup]
    omega

end

end Sys2Proof.Machine
end

