-- ==== Sys2Proof/Proofs/DecodeBlocks.lean ====
section
/-! PROOF for O40 and O41: the decoder engine follows the scalar sweep of Safety.lean, group by group, pair by pair and
block by block, and where it reads below its source window (43_decoder.md R610 to R620). -/

namespace Sys2Proof.Machine

/-! ### Runs that load: from the source, or below it (20_memory.md R210) -/

/-- If its loads hold, the run reaches a state with `P`; if not, it is `fault SrcOverread` (`Stores` for a run that
stores). Loads are counted from the start of a block on, as the scalar sweep records them. -/
structure Loads (held : Prop) (P : State → Prop) (r : Run State) : Prop where
  ok : held → ∃ t, r = .ok t ∧ P t
  overread : ¬held → r = .error (.fault .srcOverread)

theorem Loads.of_ok {held : Prop} {P : State → Prop} {t : State} (hheld : held) (ht : P t) : Loads held P (.ok t) :=
  ⟨fun _ => ⟨t, rfl, ht⟩, fun h => absurd hheld h⟩

theorem Loads.congr {F G : Prop} {P : State → Prop} {r : Run State} (h : Loads F P r) (hFG : F ↔ G) : Loads G P r :=
  ⟨fun hG => h.ok (hFG.2 hG), fun hG => h.overread (mt hFG.1 hG)⟩

/-- The loads of a run are those of its first part and more. -/
theorem Loads.bind {F G : Prop} {P Q : State → Prop} {r : Run State} {f : State → Run State} (h : Loads F P r)
    (hGF : G → F) (k : F → ∀ t, P t → Loads G Q (f t)) : Loads G Q (r >>= f) := by
  by_cases hF : F
  · obtain ⟨t, rfl, ht⟩ := h.ok hF
    exact k hF t ht
  · rw [h.overread hF]
    exact ⟨fun hG => absurd (hGF hG) hF, fun _ => rfl⟩

/-- A sweep, with the loads and the invariant for each number of elements done. -/
theorem Loads.sweep {α : Type} {f : α → State → Run State} {F : Nat → Prop} {P : Nat → State → Prop} {as : List α}
    (hF : ∀ j, F (j + 1) → F j)
    (step : ∀ j (hj : j < as.length) t, F j → P j t → Loads (F (j + 1)) (P (j + 1)) (f as[j] t)) {s : State} (h0 : F 0)
    (hs : P 0 s) : Loads (F as.length) (P as.length) (sweep f as s) := by
  induction as generalizing F P s with
  | nil => exact .of_ok h0 hs
  | cons a as ih =>
    rw [sweep_cons]
    have first : F (as.length + 1) ≤ F 1 := antitone_nat_of_succ_le (f := F) hF (Nat.le_add_left 1 _)
    refine (step 0 (Nat.succ_pos _) s h0 hs).bind first fun h1 t ht => ?_
    exact ih (F := fun j => F (j + 1)) (P := fun j => P (j + 1)) (fun j => hF (j + 1))
      (fun j hj => step (j + 1) (Nat.succ_lt_succ hj)) h1 ht

/-! ### The container (44_container.md R700, R720) -/

/-- The windows and checks of `DECODE` pass: what they say of the container at `SRC`. -/
structure DecodePasses (s : State) : Prop where
  windows : (grantOf .decode s.snap).fault? = none
  probBits : isProbBits s.containerProbBits = true
  size : (s.headerWord 2).toNat = 4096 * s.containerBlocks
  capacity : 4096 * s.containerBlocks ≤ s.dstSize
  payload : payloadOffset s.containerBlocks + 2 * (s.headerWord 3).toNat ≤ s.srcSize
  cursors : ∀ k, k < s.containerBlocks → s.startCursor k ≤ (s.headerWord 3).toNat
  total : probsTotal s.containerProbs = 2 ^ s.containerProbBits

theorem decodePasses_of_decodeError {s : State} (hw : (grantOf .decode s.snap).fault? = none)
    (h : decodeError s = none) : DecodePasses s := by
  simp only [decodeError, firstFailing_cons_eq_none_iff, firstFailing_nil, and_true, decide_eq_true_eq,
    List.all_eq_true, List.mem_range] at h
  obtain ⟨-, -, -, -, -, probBits, capacity, size, payload, -, cursors, total⟩ := h
  exact ⟨hw, probBits, size, size.symm.trans_le capacity, payload, cursors, containerProbTotal_eq s ▸ total⟩

/-- Of the table built for the container, what it held before does not show below `2^PB`. -/
theorem DecodePasses.lookup {s : State} (hs : DecodePasses s) (dec : Vector U32 2048) {i : Nat}
    (hi : i < 2 ^ s.containerProbBits) : (fillTable s.containerProbs 0 0 dec).getD i 0 = s.containerEntry i :=
  fillTable_getD_congr s.containerProbs 0 0 (fun _ h => absurd h (Nat.not_lt_zero _)) i (by rw [hs.total]; omega)

/-! ### The engine between blocks -/

/-- `t` holds block `k` of `s`'s container, decoded by the scalar rules, at `s`'s `DST`. -/
def BlockHeld (s : State) (k : Nat) (t : State) : Prop :=
  ∀ i, i < 4096 → (s.decodedBlock k).bytes[i]? = some (t.byteAt (s.dstBase + (4096 * k + i)))

/-- The run reached `t` from `s`: the blocks before `k` are stored, nothing outside the blocks' bytes and the working
state has changed, and the lookup table is the container's. -/
structure DecodedBefore (s : State) (k : Nat) (t : State) : Prop where
  state : ∃ m e, t = (s.setMem m).setEng e
  outside : sameOutside s.dstBase (4096 * s.containerBlocks) s t
  blocks : ∀ j, j < k → BlockHeld s j t
  lookup : ∀ i, i < 2 ^ s.containerProbBits → t.eng.dec.getD i 0 = s.containerEntry i

variable {s t : State} {k n : Nat}

theorem DecodedBefore.snap (h : DecodedBefore s k t) : t.snap = s.snap := by
  obtain ⟨m, e, rfl⟩ := h.state
  rfl

theorem DecodedBefore.setEng (h : DecodedBefore s k t) {e : Engine} (he : e.dec = t.eng.dec) :
    DecodedBefore s k (t.setEng e) := by
  obtain ⟨m, e', rfl⟩ := h.state
  exact ⟨⟨m, e, rfl⟩, h.outside, h.blocks, fun i hi => by rw [State.setEng_eng, he]; exact h.lookup i hi⟩

/-- Bytes stored in block `k` or a later one leave the blocks before. -/
theorem DecodedBefore.writeBytes (h : DecodedBefore s k t) {bs : List Byte} (hlow : 4096 * k ≤ n)
    (hhigh : n + bs.length ≤ 4096 * s.containerBlocks) : DecodedBefore s k (t.writeBytes bs (s.dstBase + n)) := by
  have hout := sameOutside_writeBytes t bs (s.dstBase + n)
  have heng : (t.writeBytes bs (s.dstBase + n)).eng = t.eng := by
    obtain ⟨m', hm'⟩ := State.writeBytes_eq_setMem bs (s.dstBase + n) t
    rw [hm', State.setMem_eng]
  refine ⟨?_, h.outside.trans (hout.mono (Nat.le_add_right _ _) (by omega)), fun j hj i hi => ?_,
    fun i hi => by rw [heng]; exact h.lookup i hi⟩
  · obtain ⟨m, e, rfl⟩ := h.state
    obtain ⟨m', hm'⟩ := State.writeBytes_eq_setMem bs (s.dstBase + n) ((s.setMem m).setEng e)
    exact ⟨m', e, hm'⟩
  · rw [hout _ (by omega)]
    exact h.blocks j hj i hi

/-- The stores so far have left the source as it was. -/
theorem DecodedBefore.source_kept (h : DecodedBefore s k t) (hs : DecodePasses s) {i : Nat} (hi : i < s.srcSize) :
    t.byteAt (s.srcBase + i) = s.byteAt (s.srcBase + i) := by
  obtain ⟨-, apart⟩ := (Grant.fault?_eq_none_iff _).1 hs.windows
  refine h.outside _ ?_
  by_contra hin
  have hcapacity := hs.capacity
  refine apart s.snap.srcWindow List.mem_cons_self s.snap.dstWindow List.mem_cons_self (s.srcBase + i)
    ⟨decide_eq_true ⟨Nat.le_add_right _ _, Nat.add_lt_add_left hi _⟩, decide_eq_true ?_⟩
  simp only [Operands.dstWindow, State.dstBase, State.dstSize] at hin hcapacity ⊢
  omega

/-- A load from the source gives the bytes it held at the start. -/
theorem DecodedBefore.reads_source (h : DecodedBefore s k t) (hs : DecodePasses s) {a : Int} {i : Nat}
    (ha : a = ((s.srcBase + i : Nat) : Int)) (hin : i + n ≤ s.srcSize) :
    coreRead (grantOf .decode s.snap) .source a n t = .ok (s.readBytes (s.srcBase + i) n) := by
  have hbase : t.srcBase = s.srcBase := congrArg (·.src.toNat) h.snap
  have hsize : t.srcSize = s.srcSize := congrArg (·.srcLen.toNat) h.snap
  rw [coreRead_source (s := t) (i := i) (by rw [h.snap]; exact List.mem_cons_self) (by rw [hbase, ha])
    (by rw [hsize]; exact hin), hbase]
  congr 1
  refine Vector.ext fun j hj => ?_
  rw [State.getElem_readBytes, State.getElem_readBytes, Nat.add_assoc]
  exact h.source_kept hs (by omega)

/-! ### The engine in a block -/

/-- The payload load of the eight words that end at cursor `c` does not start below `SRC` (43_decoder.md R616). -/
def State.loadHeld (s : State) (c : Int) : Prop := 0 ≤ (payloadOffset s.containerBlocks : Int) + 2 * (c - 8)

/-- No load made so far starts below `SRC`. -/
def State.loadsHeldIn (s : State) (d : ScalarDecode) : Prop := ∀ c ∈ d.loads, s.loadHeld c

/-- `t` holds these last bytes of block `k`, from byte `n` of the block on. -/
structure TailHeld (s : State) (k n : Nat) (bytes : List Byte) (t : State) : Prop where
  length : n + bytes.length = 4096
  bytes : ∀ i (hi : i < bytes.length), t.byteAt (s.dstBase + (4096 * k + n) + i) = bytes[i]

/-- Sixteen bytes stored before those held. -/
theorem TailHeld.writeBytes {bytes bs : List Byte} (h : TailHeld s k (n + 16) bytes t) (hbs : bs.length = 16)
    (hwrap : s.dstBase + 4096 * (k + 1) ≤ Config.addressSpace) :
    TailHeld s k n (bs ++ bytes) (t.writeBytes bs (s.dstBase + (4096 * k + n))) := by
  obtain ⟨hlength, hbytes⟩ := h
  refine ⟨by rw [List.length_append]; omega, fun i hi => ?_⟩
  by_cases hnew : i < bs.length
  · rw [State.byteAt_writeBytes_in bs t hnew (by omega), List.getElem_append_left hnew]
  · rw [List.length_append] at hi
    rw [State.byteAt_writeBytes_out bs t (by omega), List.getElem_append_right (by omega), ← hbytes _ (by omega)]
    congr 1
    omega

/-- The engine where the scalar sweep of block `k` stands at `d`, with the block's bytes from `n` on. -/
structure Decoding (s : State) (k n : Nat) (d : ScalarDecode) (t : State) : Prop extends DecodedBefore s k t where
  lanes : t.eng.lanes = d.lanes
  cur : t.eng.cur = d.cur
  below : d.cur ≤ (s.headerWord 3).toNat
  tail : TailHeld s k n d.bytes t

/-- The eight words of a load that holds. -/
theorem halves_payload {c : Int} {i : Nat}
    (hi : (i : Int) = payloadOffset s.containerBlocks + 2 * (c - 8)) (j : Fin 8) :
    (halves (s.readBytes (s.srcBase + i) 16)).get j = s.payloadWord (c - 8 + j.val) := by
  have haddr : ((s.srcBase + payloadOffset s.containerBlocks : Nat) + 2 * (c - 8 + j.val) : Int).toNat =
      s.srcBase + i + 2 * j.val := by omega
  rw [halves, get_ofFn, State.payloadWord, haddr, State.word16At, le16]
  simp only [State.getElem_readBytes, Nat.add_zero, Nat.add_assoc]

/-- The load of the words that end at a cursor inside the payload: it gives them, or starts below `SRC`. -/
theorem DecodedBefore.reads_payload (h : DecodedBefore s k t) (hs : DecodePasses s) {c : Int}
    (hc : c ≤ (s.headerWord 3).toNat) :
    (s.loadHeld c → ∃ b, coreRead (grantOf .decode s.snap) .source (decPayload t s.containerBlocks + 2 * (c - 8)) 16 t =
      .ok b ∧ ∀ j : Fin 8, (halves b).get j = s.payloadWord (c - 8 + j.val)) ∧
    (¬s.loadHeld c → coreRead (grantOf .decode s.snap) .source (decPayload t s.containerBlocks + 2 * (c - 8)) 16 t =
      .error (.fault .srcOverread)) := by
  have haddr : (decPayload t s.containerBlocks : Int) = s.srcBase + payloadOffset s.containerBlocks := by
    rw [decPayload, h.snap, Nat.cast_add]
    rfl
  have hpayload := hs.payload
  rw [haddr]
  refine ⟨fun hheld => ?_, fun hlow => coreRead_outside (Bool.eq_false_iff.2 fun hmay => hlow ?_) .source t⟩
  · have hpos : 0 ≤ (payloadOffset s.containerBlocks : Int) + 2 * (c - 8) := hheld
    obtain ⟨i, hi⟩ := Int.eq_ofNat_of_zero_le hpos
    exact ⟨_, h.reads_source hs (i := i) (by omega) (by omega), halves_payload hi.symm⟩
  · obtain ⟨w, hmem, hstart, -⟩ := (Grant.mayRead_iff _ _ _).1 hmay
    obtain rfl : w = s.snap.srcWindow := List.mem_singleton.1 hmem
    simp only [Operands.srcWindow] at hstart
    rw [State.loadHeld]
    rw [State.srcBase] at hstart
    omega

/-- The engine after a step that leaves host memory. -/
theorem Decoding.setEng {d d' : ScalarDecode} (h : Decoding s k n d t) {e : Engine} (hdec : e.dec = t.eng.dec)
    (hlanes : e.lanes = d'.lanes) (hcur : e.cur = d'.cur) (hle : d'.cur ≤ d.cur) (hbytes : d'.bytes = d.bytes) :
    Decoding s k n d' (t.setEng e) :=
  ⟨h.toDecodedBefore.setEng hdec, hlanes, hcur, hle.trans h.below, hbytes ▸ ⟨h.tail.length, h.tail.bytes⟩⟩

/-- A group's feed of the engine (43_decoder.md R615). -/
theorem decFeedGroup_loads (hs : DecodePasses s) (g : Fin 4) {d : ScalarDecode} (hheld : s.loadsHeldIn d)
    (h : Decoding s k n d t) :
    Loads (s.loadsHeldIn (scalarFeedGroup s.payloadWord d g)) (Decoding s k n (scalarFeedGroup s.payloadWord d g))
      (decFeedGroup (grantOf .decode s.snap) s.containerBlocks g t) := by
  have hle := scalarFeedGroup_cur_le s.payloadWord d g
  have hcur := scalarFeedGroup_cur s.payloadWord d g
  have hloads := scalarFeedGroup_loads s.payloadWord d g
  have hbytes := scalarFeedGroup_bytes s.payloadWord d g
  unfold decFeedGroup
  simp only [h.lanes, h.cur, popcount_needMask]
  by_cases hneeds : needsBelow d.lanes g 8 = 0
  · rw [if_pos hneeds]
    rw [if_pos hneeds] at hloads
    refine .of_ok (by rwa [State.loadsHeldIn, hloads]) (h.setEng rfl ?_ ?_ hle hbytes)
    · rw [scalarFeedGroup_lanes_of_fed _ hneeds]
      exact h.lanes
    · rw [hcur, hneeds, Nat.cast_zero, Int.sub_zero]
      exact h.cur
  · rw [if_neg hneeds]
    rw [if_neg hneeds] at hloads
    have hiff : s.loadHeld d.cur ↔ s.loadsHeldIn (scalarFeedGroup s.payloadWord d g) := by
      rw [State.loadsHeldIn, hloads, List.forall_mem_cons]
      exact (and_iff_left hheld).symm
    obtain ⟨hread, hover⟩ := h.reads_payload hs h.below
    refine Loads.congr ⟨fun hload => ?_, fun hload => by rw [hover hload]; rfl⟩ hiff
    obtain ⟨b, hb, hwords⟩ := hread hload
    rw [hb]
    exact ⟨_, rfl, h.setEng rfl (scalarFeedGroup_lanes hwords g).symm hcur.symm hle hbytes⟩

/-- The engine after a store of the sixteen bytes before those held. -/
theorem Decoding.store {d d' : ScalarDecode} {bs : List Byte} (hs : DecodePasses s) (hk : k < s.containerBlocks)
    (h : Decoding s k (n + 16) d t) {e : Engine} (hdec : e.dec = t.eng.dec) (hlanes : e.lanes = d'.lanes)
    (hcur : e.cur = d.cur) (hsame : d'.cur = d.cur) (hbs : bs.length = 16) (hbytes : d'.bytes = bs ++ d.bytes) :
    ∃ u, coreWrite (grantOf .decode s.snap) ((s.dstBase + (4096 * k + n) : Nat) : Int) bs (t.setEng e) = .ok u ∧
      Decoding s k n d' u := by
  have hcapacity := hs.capacity
  have hlength := h.tail.length
  have hend : s.dstBase + s.dstSize ≤ Config.addressSpace :=
    Grant.fits_of_fault?_eq_none hs.windows (w := s.snap.dstWindow) (by simp [grantOf])
  have hmay : (grantOf .decode s.snap).mayWrite ((s.dstBase + (4096 * k + n) : Nat) : Int) bs.length = true := by
    refine (Grant.mayWrite_iff _ _ _).2 ⟨s.snap.dstWindow, List.mem_cons_self, ?_⟩
    simp only [Operands.dstWindow, State.dstBase, State.dstSize] at hcapacity ⊢
    omega
  have heng : ((t.setEng e).writeBytes bs (s.dstBase + (4096 * k + n))).eng = e := by
    obtain ⟨m, hm⟩ := State.writeBytes_eq_setMem bs (s.dstBase + (4096 * k + n)) (t.setEng e)
    rw [hm, State.setMem_eng, State.setEng_eng]
  refine ⟨_, coreWrite_ok _ hmay, ?_⟩
  rw [Int.toNat_natCast]
  have hheld : TailHeld s k (n + 16) d.bytes (t.setEng e) := ⟨hlength, h.tail.bytes⟩
  refine ⟨(h.toDecodedBefore.setEng hdec).writeBytes (Nat.le_add_right _ _) (by omega), by rw [heng, hlanes],
    by rw [heng, hcur, hsame], hsame ▸ h.below, ?_⟩
  rw [hbytes]
  exact hheld.writeBytes hbs (by omega)

end Sys2Proof.Machine
end

