-- ==== Sys2Proof/Proofs/DecodeCommand.lean ====
section
/-! PROOF of O40 and O41: a block of the engine from its stored states, all blocks, and how `DECODE` ends
(43_decoder.md R610, R614 to R617, R620, R630). -/

namespace Sys2Proof.Machine

variable {s t : State} {k n : Nat}

/-! ### Pairs and warps (43_decoder.md R614, R615) -/

/-- Loads once made stay recorded. -/
theorem State.loadsHeldIn_of_feed {word : Int → U16} {d : ScalarDecode} {g : Fin 4}
    (h : s.loadsHeldIn (scalarFeedGroup word d g)) : s.loadsHeldIn d :=
  fun c hc => h c (mem_loads_scalarFeedGroup word g hc)

theorem State.loadsHeldIn_of_pair {entry : Nat → U32} {word : Int → U16} {pb : Nat} {h : Fin 2} {d : ScalarDecode}
    (hheld : s.loadsHeldIn (scalarDecodePair entry word pb h d)) : s.loadsHeldIn d := by
  have := State.loadsHeldIn_of_feed (State.loadsHeldIn_of_feed hheld)
  rwa [State.loadsHeldIn, scalarUpdatePair_loads] at this

/-- Where pair `h` of warp `w` stands in its block. -/
def pairOffset (w : Nat) (h : Fin 2) : Nat := 32 * w + 16 * h.val

/-- A pair step of the engine: the pair's symbols, then its feeds (43_decoder.md R615, R617). -/
theorem decPair_loads (hs : DecodePasses s) (hk : k < s.containerBlocks) (w : Nat) (h : Fin 2) {d : ScalarDecode}
    (hheld : s.loadsHeldIn d) (hd : Decoding s k (pairOffset w h + 16) d t) :
    Loads (s.loadsHeldIn (scalarDecodePair s.containerEntry s.payloadWord s.containerProbBits h d))
      (Decoding s k (pairOffset w h) (scalarDecodePair s.containerEntry s.payloadWord s.containerProbBits h d))
      (decPair (grantOf .decode s.snap) s.containerProbBits s.containerBlocks k w h t) := by
  have haddr : (s.snap.dst.toNat + (Config.blockBytes * k + Config.lanes * w + 16 * h.val) : Int) =
      ((s.dstBase + (4096 * k + pairOffset w h) : Nat) : Int) := by
    simp only [Config.blockBytes, Config.lanes, State.dstBase, pairOffset]
    omega
  have hupdate := scalarUpdatePair_loads s.containerEntry s.containerProbBits d h
  unfold decPair
  simp only [State.setEng_snap, hd.snap, hd.lanes, haddr, pack_pair hs.probBits hd.lookup d h,
    setLaneGroup_pair hs.probBits hd.lookup d h]
  obtain ⟨u, hu, hdec⟩ := hd.store hs hk
    (e := { t.eng with
      lanes := (scalarUpdatePair s.containerEntry s.containerProbBits h d).lanes
      block := k, warp := w, group := highGroup h })
    rfl rfl hd.cur (scalarUpdatePair_cur ..) List.length_ofFn (scalarUpdatePair_bytes ..)
  rw [hu, Run.ok_bind, sweep_cons]
  refine (decFeedGroup_loads hs (highGroup h) (by rwa [State.loadsHeldIn, hupdate]) hdec).bind
    State.loadsHeldIn_of_feed fun hheld v hv => ?_
  rw [sweep_cons]
  exact (decFeedGroup_loads hs (lowGroup h) hheld hv).bind id fun hheld v hv => .of_ok hheld hv

/-- A warp of the engine: pair 1, then pair 0 (43_decoder.md R614). -/
theorem decWarp_loads (hs : DecodePasses s) (hk : k < s.containerBlocks) (w : Nat) {d : ScalarDecode}
    (hheld : s.loadsHeldIn d) (hd : Decoding s k (32 * (w + 1)) d t) :
    Loads (s.loadsHeldIn (scalarDecodeWarp s.containerEntry s.payloadWord s.containerProbBits d))
      (Decoding s k (32 * w) (scalarDecodeWarp s.containerEntry s.payloadWord s.containerProbBits d))
      (decWarp (grantOf .decode s.snap) s.containerProbBits s.containerBlocks k w t) := by
  rw [scalarDecodeWarp_eq_pairs, decWarp, sweep_cons]
  refine (decPair_loads hs hk w 1 hheld hd).bind State.loadsHeldIn_of_pair fun hheld u hu => ?_
  rw [sweep_cons]
  exact (decPair_loads hs hk w 0 hheld hu).bind id fun hheld v hv => .of_ok hheld hv

theorem State.loadsHeldIn_of_warps {entry : Nat → U32} {word : Int → U16} {pb : Nat} {d : ScalarDecode}
    (h : s.loadsHeldIn (scalarDecodeWarps entry word pb n d)) : s.loadsHeldIn d :=
  fun c hc => h c (mem_loads_scalarDecodeWarps entry word pb n hc)

/-- The last `n` warps of a block, downwards. -/
theorem decWarps_loads (hs : DecodePasses s) (hk : k < s.containerBlocks) {d : ScalarDecode} (hheld : s.loadsHeldIn d)
    (hd : Decoding s k (32 * n) d t) :
    Loads (s.loadsHeldIn (scalarDecodeWarps s.containerEntry s.payloadWord s.containerProbBits n d))
      (Decoding s k 0 (scalarDecodeWarps s.containerEntry s.payloadWord s.containerProbBits n d))
      (sweep (decWarp (grantOf .decode s.snap) s.containerProbBits s.containerBlocks k) (List.range n).reverse t) := by
  induction n generalizing d t with
  | zero => exact .of_ok hheld hd
  | succ n ih =>
    rw [List.range_succ, List.reverse_append, List.reverse_singleton, List.singleton_append, sweep_cons,
      scalarDecodeWarps]
    exact (decWarp_loads hs hk n hheld hd).bind State.loadsHeldIn_of_warps fun hheld u hu => ih hheld hu

/-! ### Blocks (43_decoder.md R610, R611, R620) -/

theorem loadLane_eq_ok (hs : DecodePasses s) (hk : k < s.containerBlocks) (ht : DecodedBefore s k t) (l : Fin 32) :
    loadLane (grantOf .decode s.snap) k l t =
      .ok (t.setEng { t.eng with lanes := t.eng.lanes.set l ((s.storedStates k).get l) }) := by
  have hpayload := hs.payload
  have hin : stateOffset k l.val + 4 ≤ s.srcSize := by
    simp only [stateOffset, payloadOffset] at hpayload ⊢
    omega
  rw [loadLane, ht.reads_source hs (by rw [ht.snap, Nat.cast_add]; rfl) hin, Run.ok_bind, State.storedStates, get_ofFn]
  rfl

/-- The load of the stored states changes working state alone. -/
theorem loadLanes_eq_ok (hs : DecodePasses s) (hk : k < s.containerBlocks) (ht : DecodedBefore s k t) :
    ∃ u, sweep (loadLane (grantOf .decode s.snap) k) (List.finRange 32) t = .ok u ∧ DecodedBefore s k u ∧
      u.eng.lanes = s.storedStates k := by
  obtain ⟨u, hu, hbefore, hlanes⟩ := sweep_counted (f := loadLane (grantOf .decode s.snap) k) (s := t)
    (P := fun n u => DecodedBefore s k u ∧ ∀ l : Fin 32, l.val < n → u.eng.lanes.get l = (s.storedStates k).get l)
    (List.finRange 32) (fun n _ u ⟨hbefore, hlanes⟩ => by
      rw [List.getElem_finRange]
      refine ⟨_, loadLane_eq_ok hs hk hbefore _, hbefore.setEng rfl, fun l hl => ?_⟩
      rw [State.setEng_eng, get_set]
      split
      · next h => rw [h]
      · next h => exact hlanes l (Nat.lt_of_le_of_ne (Nat.le_of_lt_succ hl) fun hn => h (Fin.ext hn.symm)))
    ⟨ht, fun _ h => nomatch h⟩
  exact ⟨u, hu, hbefore, ext_get fun l => hlanes l (by simp)⟩

/-- The block that is decoded to its first byte joins those before. -/
theorem Decoding.next (h : Decoding s k 0 (s.decodedBlock k) t) : DecodedBefore s (k + 1) t := by
  obtain ⟨⟨hstate, hout, hblocks, hlookup⟩, -, -, -, hlength, hbytes⟩ := h
  refine ⟨hstate, hout, fun j hj => ?_, hlookup⟩
  rcases Nat.lt_or_eq_of_le (Nat.le_of_lt_succ hj) with hlt | rfl
  · exact hblocks j hlt
  · intro i hi
    have hin : i < (s.decodedBlock j).bytes.length := by omega
    rw [List.getElem?_eq_getElem hin, ← hbytes i hin, Nat.add_zero, Nat.add_assoc]

/-- A block of the engine: its stored states, its starting cursor, its warps (43_decoder.md R620). -/
theorem decodeBlock_loads (hs : DecodePasses s) (hk : k < s.containerBlocks) (ht : DecodedBefore s k t) :
    Loads (s.loadsHeldIn (s.decodedBlock k)) (DecodedBefore s (k + 1))
      (decodeBlock (grantOf .decode s.snap) s.containerProbBits s.containerBlocks (k, s.indexEntry k) t) := by
  obtain ⟨u, hu, hbefore, hlanes⟩ := loadLanes_eq_ok hs hk ht
  have hstart : Decoding s k (32 * Config.warps) ⟨s.storedStates k, s.startCursor k, [], []⟩
      (u.setEng { u.eng with
        block := k, cur := ((s.indexEntry k).2.toNat : Int) + indexCompressed (s.indexEntry k).1 }) :=
    ⟨hbefore.setEng rfl, hlanes, by rw [State.setEng_eng, State.startCursor, Nat.cast_add]; rfl,
      Int.ofNat_le.2 (hs.cursors k hk), rfl, fun _ hi => nomatch hi⟩
  have hwarps := decWarps_loads hs hk (n := Config.warps)
    (d := ⟨s.storedStates k, s.startCursor k, [], []⟩) (List.forall_mem_nil _) hstart
  rw [decodeBlock, hu, Run.ok_bind]
  rw [State.decodedBlock, scalarDecodeBlock]
  exact ⟨fun hheld => (hwarps.ok hheld).imp fun v ⟨hv, hdone⟩ => ⟨hv, Decoding.next hdone⟩, hwarps.overread⟩

/-- The loads of the blocks before `k` hold. -/
def State.loadsHeldBefore (s : State) (k : Nat) : Prop := ∀ j, j < k → s.loadsHeldIn (s.decodedBlock j)

theorem State.loadsHeldBefore_succ_iff (s : State) (k : Nat) :
    s.loadsHeldBefore (k + 1) ↔ s.loadsHeldBefore k ∧ s.loadsHeldIn (s.decodedBlock k) := Nat.forall_lt_succ_right

theorem loadsHeld_iff (s : State) : loadsHeld s = true ↔ s.loadsHeldBefore s.containerBlocks := by
  simp only [loadsHeld, List.all_eq_true, List.mem_range, decide_eq_true_eq]
  rfl

theorem buildDecTable_dec (probs : List U16) (s : State) :
    (buildDecTable probs s).eng.dec = fillTable probs 0 0 s.eng.dec := by rw [buildDecTable, State.setEng_eng]

/-- All blocks of the container in ascending order (43_decoder.md R630). -/
theorem decodeBlocks_loads (hs : DecodePasses s) :
    Loads (loadsHeld s = true) (DecodedBefore s s.containerBlocks)
      (decodeBlocks (grantOf .decode s.snap) s.container (buildDecTable s.containerProbs s)) := by
  have hstart : DecodedBefore s 0 (buildDecTable s.containerProbs s) :=
    ⟨⟨s.mem, _, rfl⟩, fun _ _ => rfl, fun _ h => (nomatch h), fun i hi => by
      rw [buildDecTable_dec]
      exact hs.lookup s.eng.dec hi⟩
  have hlen : ((List.range s.container.index.length).zip s.container.index).length = s.containerBlocks := by
    simp [State.container]
  have hall := Loads.sweep (f := decodeBlock (grantOf .decode s.snap) s.containerProbBits s.containerBlocks)
    (as := (List.range s.container.index.length).zip s.container.index) (F := s.loadsHeldBefore)
    (P := fun k => DecodedBefore s k) (fun k h => ((s.loadsHeldBefore_succ_iff k).1 h).1) (fun k hk u hheld hu => by
      rw [hlen] at hk
      simp only [List.getElem_zip, List.getElem_range, State.container, List.getElem_map]
      exact (decodeBlock_loads hs hk hu).congr ((s.loadsHeldBefore_succ_iff k).trans (and_iff_right hheld)).symm)
    (fun _ h => nomatch h) hstart
  rw [hlen] at hall
  exact hall.congr (loadsHeld_iff s).symm

/-! ### The command (43_decoder.md R630) -/

/-- How `DECODE` ended in `t`. -/
structure DecodeDone (s t : State) : Prop where
  completed : completedWith (s.headerWord 2).toNat s t
  blocks : ∀ k, k < s.containerBlocks → BlockHeld s k t
  outside : sameOutside s.dstBase (4096 * s.containerBlocks) s t
  draws : t.draws = s.draws

theorem DecodedBefore.complete (h : DecodedBefore s s.containerBlocks t) :
    DecodeDone s (complete .ok (s.headerWord 2) t) := by
  obtain ⟨⟨m, e, rfl⟩, hout, hblocks, -⟩ := h
  refine ⟨⟨?_, rfl, rfl, rfl, rfl⟩, hblocks, hout, rfl⟩
  rw [BitVec.ofNat_toNat, BitVec.setWidth_eq]
  rfl

/-- How `DECODE` ends: with its blocks if the loads hold, else in `fault SrcOverread`. -/
structure DecodeEnds (s : State) (o : Host.Outcome State Fault Refusal) : Prop where
  done : loadsHeld s = true → ∃ t, o = .next t ∧ DecodeDone s t
  overread : ¬loadsHeld s = true → o = .fault .srcOverread

theorem exec_decode_ends (hw : (grantOf .decode s.snap).fault? = none) (h : decodeError s = none) :
    DecodeEnds s (exec .decode s) := by
  have hrun := decodeBlocks_loads (decodePasses_of_decodeError hw h)
  rw [exec_decode_eq hw, h, ofError_none, Run.ok_bind, State.container_probs, State.container_totalUncompressed]
  refine ⟨fun hheld => ?_, fun hlow => by rw [hrun.overread hlow]; rfl⟩
  obtain ⟨t, ht, hdone⟩ := hrun.ok hheld
  exact ⟨complete .ok (s.headerWord 2) t, by rw [ht]; rfl, hdone.complete⟩

/-- Settles O40: the engine follows the scalar sweep (`decPair_loads`), and its blocks are stored. -/
theorem decodeCompletes : Obligations.DecodeCompletes := by
  unfold Obligations.DecodeCompletes
  intro s h
  simp only [decodeReady, Bool.and_eq_true, decide_eq_true_eq] at h
  obtain ⟨⟨hw, hchecks⟩, hheld⟩ := h
  obtain ⟨t, ht, hcompleted, hblocks, hout, hdraws⟩ := (exec_decode_ends hw hchecks).done hheld
  exact ⟨t, ht, hcompleted, hblocks, hout, hdraws⟩

/-- Settles O41: past its checks `DECODE` ends in its blocks or in this fault, as the sweep's loads say. -/
theorem decodeOverreadsExactly : Obligations.DecodeOverreadsExactly := by
  unfold Obligations.DecodeOverreadsExactly
  intro s hw hchecks
  obtain ⟨done, overread⟩ := exec_decode_ends hw hchecks
  refine ⟨fun hfault => Bool.eq_false_iff.2 fun hheld => ?_, fun hlow => overread (Bool.eq_false_iff.1 hlow)⟩
  obtain ⟨t, ht, -⟩ := done hheld
  rw [ht] at hfault
  cases hfault

end Sys2Proof.Machine
end

