-- ==== Sys2Proof/Proofs/BlockRoundTrip.lean ====
section
/-! PROOF for O42: the scalar decode of a block undoes its scalar encode, warp by warp and group by group
(43_decoder.md R614, R618). -/

namespace Sys2Proof.Machine

/-! ### A warp of the encoder's sweep (42_encoder.md R500, R502) -/

section
variable (enc : Vector U64 256) (pb : Nat) (block : List Byte) (w : Nat)

/-- The states of the lanes before warp `w`. -/
def warpLanes : Vector U32 32 := (scalarEncodeBlock enc pb (block.take (32 * w))).1

/-- What lane `l` encodes in warp `w`: byte `32w + l` of the block. -/
def laneByte (l : Fin 32) : Byte := block.getD (32 * w + l.val) 0

/-- The record of the symbol that lane `l` encodes in warp `w`. -/
def laneRecord (l : Fin 32) : U64 := enc.get (symIdx (laneByte block w l))

/-- The encode step of lane `l` in warp `w`. -/
def laneStep (l : Fin 32) : EncResult := encStep ((warpLanes enc pb block w).get l) (laneRecord enc block w l) pb

/-- The state of lane `l` after its emit in warp `w`. -/
def laneAfterEmit (l : Fin 32) : U32 := afterEmit ((warpLanes enc pb block w).get l) (laneRecord enc block w l) pb

/-- The number of words of the first `n` bytes of a block. -/
def wordCount (n : Nat) : Nat := (scalarEncodeWords enc pb (block.take n)).length

variable {block w}

theorem getElem_eq_laneByte {l : Fin 32} (h : 32 * w + l.val < block.length) :
    block[32 * w + l.val] = laneByte block w l := by
  rw [laneByte, List.getD_eq_getElem _ _ h]

/-- The first `n` lanes of a warp have made their steps, the others stand as before the warp. -/
theorem scalarEncodeBlock_take_get {n : Nat} (hn : n ≤ 32) (hlen : 32 * w + n ≤ block.length) (l : Fin 32) :
    (scalarEncodeBlock enc pb (block.take (32 * w + n))).1.get l =
      if l.val < n then (laneStep enc pb block w l).state else (warpLanes enc pb block w).get l := by
  induction n with
  | zero => rw [if_neg (Nat.not_lt_zero _), Nat.add_zero, warpLanes]
  | succ n ih =>
    let i : Fin 32 := ⟨n, hn⟩
    have hlane : Fin.ofNat 32 (32 * w + n) = i := Fin.ext (by simp only [Fin.ofNat, i]; omega)
    rw [← Nat.add_assoc, scalarEncodeBlock_take_succ enc pb (by omega), scalarEncodeStep_eq enc pb _ hlane, get_set]
    by_cases hl : i = l
    · subst hl
      have hold := ih (by omega) (by omega)
      rw [if_neg (Nat.lt_irrefl n)] at hold
      rw [if_pos rfl, if_pos (Nat.lt_succ_self n), hold, getElem_eq_laneByte (l := i) (by simp only [i]; omega),
        laneStep, laneRecord]
    · have hne : n ≠ l.val := fun h => hl (Fin.ext h)
      rw [if_neg hl, ih (by omega) (by omega)]
      simp only [show l.val < n + 1 ↔ l.val < n by omega]

/-- A lane that emits adds its word. -/
theorem scalarEncodeWords_take_lane {l : Fin 32} (hlen : 32 * w + l.val < block.length) :
    scalarEncodeWords enc pb (block.take (32 * w + l.val + 1)) =
      if (laneStep enc pb block w l).emitted then
        scalarEncodeWords enc pb (block.take (32 * w + l.val)) ++ [(laneStep enc pb block w l).word]
      else scalarEncodeWords enc pb (block.take (32 * w + l.val)) := by
  have hlane : Fin.ofNat 32 (32 * w + l.val) = l := Fin.ext (by simp only [Fin.ofNat]; omega)
  have hold := scalarEncodeBlock_take_get enc pb (n := l.val) (by omega) hlen.le l
  rw [if_neg (Nat.lt_irrefl _)] at hold
  rw [scalarEncodeWords, scalarEncodeBlock_take_succ enc pb hlen, scalarEncodeStep_eq enc pb _ hlane, hold,
    getElem_eq_laneByte hlen]
  rfl

theorem scalarEncodeWords_take_isPrefix_succ (block : List Byte) (n : Nat) :
    scalarEncodeWords enc pb (block.take n) <+: scalarEncodeWords enc pb (block.take (n + 1)) := by
  by_cases hlt : n < block.length
  · rw [scalarEncodeWords, scalarEncodeWords, scalarEncodeBlock_take_succ enc pb hlt, scalarEncodeStep]
    split
    · exact List.prefix_append _ _
    · exact List.prefix_rfl
  · rw [List.take_of_length_le (Nat.le_of_not_lt hlt), List.take_of_length_le (by omega)]

/-- The words of the first bytes of a block come first. -/
theorem scalarEncodeWords_isPrefix {block : List Byte} {n : Nat} (hn : n ≤ block.length) :
    scalarEncodeWords enc pb (block.take n) <+: scalarEncodeWords enc pb block := by
  have := Nat.le_induction (m := n)
    (P := fun m _ => scalarEncodeWords enc pb (block.take n) <+: scalarEncodeWords enc pb (block.take m))
    List.prefix_rfl (fun m _ h => h.trans (scalarEncodeWords_take_isPrefix_succ enc pb block m)) _ hn
  rwa [List.take_length] at this

/-- The word of an emitting lane stands in the block's payload after those of the bytes before. -/
theorem scalarEncodeWords_getElem? {l : Fin 32} (hlen : 32 * w + l.val < block.length)
    (hemit : (laneStep enc pb block w l).emitted = true) :
    (scalarEncodeWords enc pb block)[wordCount enc pb block (32 * w + l.val)]? =
      some (laneStep enc pb block w l).word := by
  have hprefix := scalarEncodeWords_isPrefix enc pb (show 32 * w + l.val + 1 ≤ block.length from hlen)
  rw [scalarEncodeWords_take_lane enc pb hlen, if_pos hemit] at hprefix
  obtain ⟨rest, hrest⟩ := hprefix
  rw [← hrest, List.append_assoc, wordCount, List.getElem?_append_right (Nat.le_refl _), Nat.sub_self]
  rfl

theorem wordCount_lane {l : Fin 32} (hlen : 32 * w + l.val < block.length) :
    wordCount enc pb block (32 * w + (l.val + 1)) = wordCount enc pb block (32 * w + l.val) +
      if (laneStep enc pb block w l).emitted then 1 else 0 := by
  rw [wordCount, ← Nat.add_assoc, scalarEncodeWords_take_lane enc pb hlen]
  split
  · exact List.length_append
  · rfl

theorem warpLanes_succ_get (hlen : 32 * (w + 1) ≤ block.length) (l : Fin 32) :
    (warpLanes enc pb block (w + 1)).get l = (laneStep enc pb block w l).state := by
  have := scalarEncodeBlock_take_get enc pb (Nat.le_refl 32) hlen l
  rwa [if_pos l.isLt] at this

/-- The bytes of a warp come before those of the warps after it. -/
theorem ofFn_laneByte_append_drop (hlen : 32 * (w + 1) ≤ block.length) :
    List.ofFn (laneByte block w) ++ block.drop (32 * (w + 1)) = block.drop (32 * w) := by
  have hwarp : List.ofFn (laneByte block w) = (block.drop (32 * w)).take 32 := by
    refine List.ext_getElem (by rw [List.length_ofFn, List.length_take, List.length_drop]; omega) fun i hi _ => ?_
    have hi32 : i < 32 := hi.trans_eq List.length_ofFn
    have hlane : 32 * w + i < block.length := by omega
    rw [List.getElem_ofFn, List.getElem_take, List.getElem_drop]
    exact (getElem_eq_laneByte (l := ⟨i, hi32⟩) hlane).symm
  rw [hwarp, Nat.mul_succ, ← List.drop_drop, List.take_append_drop]

end

/-! ### The decoder's sweep, back through the warps (43_decoder.md R614) -/

/-- A lane's decode undoes its encode of `b`, with the record `e`, from the state `x` (43_decoder.md R618): it finds the
byte, the update gives the state after the emit, and the feed the state before. -/
structure LaneUndone (entry : Nat → U32) (pb : Nat) (b : Byte) (e : U64) (x : U32) : Prop where
  symbol : decSymbol (scalarLookup entry pb (encStep x e pb).state) = b
  update : decUpdate (encStep x e pb).state (scalarLookup entry pb (encStep x e pb).state) pb = afterEmit x e pb
  emitted : (encStep x e pb).emitted = true ↔ afterEmit x e pb < Config.minState
  feed : decFeed (afterEmit x e pb) (encStep x e pb).word = x

/-- The decode of a block has fed the lanes of warp `w` from lane `n` on: these stand as before the warp, the others as
after their emit, and the cursor, from `start` on, after the words of the bytes before lane `n`. -/
structure FedFrom (enc : Vector U64 256) (pb : Nat) (block : List Byte) (start w n : Nat) (d : ScalarDecode) :
    Prop where
  lanes : ∀ l : Fin 32, d.lanes.get l =
    if n ≤ l.val then (warpLanes enc pb block w).get l else laneAfterEmit enc pb block w l
  cur : d.cur = (start + wordCount enc pb block (32 * w + n) : Nat)
  loads : ∀ c ∈ d.loads, (start : Int) ≤ c

/-- The decode of a block stands before warp `w`: its lanes as the encode had them there, the bytes from there on
decoded. -/
structure UndoneTo (enc : Vector U64 256) (pb : Nat) (block : List Byte) (start w : Nat) (d : ScalarDecode) : Prop where
  lanes : d.lanes = warpLanes enc pb block w
  cur : d.cur = (start + wordCount enc pb block (32 * w) : Nat)
  loads : ∀ c ∈ d.loads, (start : Int) ≤ c
  bytes : d.bytes = block.drop (32 * w)

section
variable {enc : Vector U64 256} {pb : Nat} {block : List Byte} {start w : Nat} {d : ScalarDecode}
  {entry : Nat → U32} {word : Int → U16}
  (undone : ∀ w l, 32 * w + l.val < block.length →
    LaneUndone entry pb (laneByte block w l) (laneRecord enc block w l) ((warpLanes enc pb block w).get l))
  (payload : ∀ (j : Nat) (v : U16), (scalarEncodeWords enc pb block)[j]? = some v → word (start + j : Nat) = v)
include undone

/-- The needing lanes of a group are those that emitted. -/
theorem FedFrom.wordCount_eq_add {g : Fin 4} (h : FedFrom enc pb block start w (8 * g.val + 8) d)
    (hlen : 32 * (w + 1) ≤ block.length) {j : Nat} (hj : j ≤ 8) :
    wordCount enc pb block (32 * w + (8 * g.val + j)) =
      wordCount enc pb block (32 * w + 8 * g.val) + needsBelow d.lanes g j := by
  induction j with
  | zero => rfl
  | succ j ih =>
    let l : Fin 32 := ⟨8 * g.val + j, by omega⟩
    have hl : 32 * w + l.val < block.length := by simp only [l]; omega
    have hlane : d.lanes.getD (8 * g.val + j) 0 = laneAfterEmit enc pb block w l := by
      have := h.lanes l
      rw [if_neg (by simp only [l]; omega)] at this
      rw [← this]
      simp [Vector.getD, Vector.get, l.isLt, l]
    have hemit : (laneStep enc pb block w l).emitted = true ↔ laneAfterEmit enc pb block w l < Config.minState :=
      (undone w l hl).emitted
    have hstep := wordCount_lane enc pb hl
    simp only [hemit] at hstep
    rw [needsBelow_succ, hlane, ← Nat.add_assoc _ (needsBelow _ _ _), ← ih (by omega)]
    exact hstep

include payload

/-- A lane in place of its emit is fed the word it emitted. -/
theorem decFeed_laneAfterEmit {l : Fin 32} (hl : 32 * w + l.val < block.length) :
    decFeed (laneAfterEmit enc pb block w l)
      (word (start + wordCount enc pb block (32 * w + l.val) : Nat)) = (warpLanes enc pb block w).get l := by
  have hundo := undone w l hl
  refine Eq.trans ?_ hundo.feed
  by_cases hneed : laneAfterEmit enc pb block w l < Config.minState
  · rw [payload _ _ (scalarEncodeWords_getElem? enc pb hl (hundo.emitted.2 hneed))]
    rfl
  · rw [decFeed, if_neg hneed]
    exact (if_neg hneed).symm

/-- The feed of a group gives its lanes the words they emitted. -/
theorem FedFrom.feedGroup {g : Fin 4} (h : FedFrom enc pb block start w (8 * g.val + 8) d)
    (hlen : 32 * (w + 1) ≤ block.length) : FedFrom enc pb block start w (8 * g.val) (scalarFeedGroup word d g) := by
  have hcount := fun j => h.wordCount_eq_add undone hlen (j := j)
  have hcur : d.cur - needsBelow d.lanes g 8 =
      (start + wordCount enc pb block (32 * w + 8 * g.val) : Nat) := by
    rw [h.cur, hcount 8 (Nat.le_refl 8)]
    omega
  refine ⟨fun l => ?_, (scalarFeedGroup_cur ..).trans hcur, ?_⟩
  · rw [scalarFeedGroup_get, h.lanes l]
    by_cases hg : l.val / 8 = g.val
    · have hbefore := hcount (l.val % 8) (by omega)
      rw [show 8 * g.val + l.val % 8 = l.val by omega] at hbefore
      rw [if_pos hg, if_neg (by omega), if_pos (by omega), hcur, ← Nat.cast_add, Nat.add_assoc, ← hbefore]
      exact decFeed_laneAfterEmit undone payload (by omega)
    · rw [if_neg hg]
      simp only [show 8 * g.val + 8 ≤ l.val ↔ 8 * g.val ≤ l.val by omega]
  · rw [scalarFeedGroup_loads]
    split
    · exact h.loads
    · refine List.forall_mem_cons.2 ⟨?_, h.loads⟩
      rw [h.cur]
      omega

/-- A warp of the decode undoes a warp of the encode (43_decoder.md R618). -/
theorem UndoneTo.warp (h : UndoneTo enc pb block start (w + 1) d) (hlen : 32 * (w + 1) ≤ block.length) :
    UndoneTo enc pb block start w (scalarDecodeWarp entry word pb d) := by
  obtain ⟨hlanes, hcur, hloads, hbytes⟩ := h
  have hstate : ∀ l, d.lanes.get l = (laneStep enc pb block w l).state := fun l => by
    rw [hlanes, warpLanes_succ_get enc pb hlen]
  have hundo := fun l : Fin 32 => undone w l (show 32 * w + l.val < block.length by omega)
  have hupdated : FedFrom enc pb block start w 32 { d with
      lanes := Vector.ofFn fun l => decUpdate (d.lanes.get l) (scalarLookup entry pb (d.lanes.get l)) pb
      bytes := (List.ofFn fun l => decSymbol (scalarLookup entry pb (d.lanes.get l))) ++ d.bytes } := by
    refine ⟨fun l => ?_, hcur, hloads⟩
    rw [if_neg (by omega), get_ofFn, hstate]
    exact (hundo l).update
  have hfed := (((hupdated.feedGroup (g := 3) undone payload hlen).feedGroup (g := 2) undone payload hlen).feedGroup
    (g := 1) undone payload hlen).feedGroup (g := 0) undone payload hlen
  refine ⟨ext_get fun l => hfed.lanes l, hfed.cur, hfed.loads, ?_⟩
  rw [← ofFn_laneByte_append_drop hlen, ← hbytes, ← funext fun l => (hundo l).symbol]
  simp only [scalarDecodeWarp, List.foldl_cons, List.foldl_nil, scalarFeedGroup_bytes, hstate]
  rfl

theorem UndoneTo.warps {n : Nat} (h : UndoneTo enc pb block start n d) (hlen : 32 * n ≤ block.length) :
    UndoneTo enc pb block start 0 (scalarDecodeWarps entry word pb n d) := by
  induction n generalizing d with
  | zero => exact h
  | succ n ih =>
    rw [scalarDecodeWarps]
    exact ih (h.warp undone payload hlen) (by omega)

end

/-! ### A block under its source's table (43_decoder.md R618) -/

/-- The entries of the lookup table of the probabilities `q`. -/
def lookupOf (q : Vector (BitVec 12) 256) (i : Nat) : U32 :=
  (fillTable (q.toList.map fun p => p.setWidth 16) 0 0 (Vector.replicate 2048 0)).getD i 0

section
variable {q : Vector (BitVec 12) 256} {pb : Nat} {block : List Byte} (hpb : isProbBits pb = true)
  (hsum : (q.toList.map BitVec.toNat).sum = 2 ^ pb) (hlive : ∀ b ∈ block, 0 < (q.get (symIdx b)).toNat)
include hpb hsum hlive

/-- The states of the sweep stay in `[L, 2^31)` (42_encoder.md R515). -/
theorem scalarEncodeBlock_keeps_range (n : Nat) (l : Fin 32) :
    Config.minState ≤ (scalarEncodeBlock (encTable q) pb (block.take n)).1.get l ∧
      ((scalarEncodeBlock (encTable q) pb (block.take n)).1.get l).toNat < 2 ^ 31 := by
  obtain ⟨-, hM⟩ := two_pow_probBits hpb
  induction n generalizing l with
  | zero =>
    have hinit : (scalarEncodeBlock (encTable q) pb (block.take 0)).1.get l = Config.minState := by
      simp [scalarEncodeBlock, Vector.get]
    rw [hinit]
    decide
  | succ n ih =>
    by_cases hlt : n < block.length
    · rw [scalarEncodeBlock_take_succ _ pb hlt, scalarEncodeStep_eq _ pb _ rfl, get_set]
      split
      · exact encStep_keeps_range (liveRecord (by omega) (hlive _ (List.getElem_mem hlt))) hpb
          ((sum_take_add_le_sum q _).trans_eq hsum) (ih _).1 (ih _).2
      · exact ih l
    · have hall : block.take (n + 1) = block.take n := by
        rw [List.take_of_length_le (Nat.le_of_not_lt hlt), List.take_of_length_le (by omega)]
      rw [hall]
      exact ih l

/-- Every lane's decode undoes its encode (`laneInversion`). -/
theorem laneUndone_of_live {w : Nat} {l : Fin 32} (hl : 32 * w + l.val < block.length) :
    LaneUndone (lookupOf q) pb (laneByte block w l) (laneRecord (encTable q) block w l)
      ((warpLanes (encTable q) pb block w).get l) := by
  have hmem : laneByte block w l ∈ block := getElem_eq_laneByte hl ▸ List.getElem_mem hl
  obtain ⟨hlow, hhigh⟩ := scalarEncodeBlock_keeps_range hpb hsum hlive (32 * w) l
  obtain ⟨hsymbol, hupdate, hemit, hfeed⟩ := laneInversion q pb (symIdx (laneByte block w l)) _
    (Vector.replicate 2048 0) hpb hsum (hlive _ hmem) hlow hhigh
  exact ⟨BitVec.eq_of_toNat_eq hsymbol, hupdate, hemit, hfeed⟩

/-- The decode of a block, from its final states and the end of its words, gives its bytes, and loads only words that end
at or above the start of its own. -/
theorem scalarDecodeBlock_undoes_encode {start : Nat} {word : Int → U16} (hlen : block.length = 4096)
    (payload : ∀ (j : Nat) (v : U16), (scalarEncodeWords (encTable q) pb block)[j]? = some v →
      word (start + j : Nat) = v) :
    UndoneTo (encTable q) pb block start 0 (scalarDecodeBlock (lookupOf q) word pb
      (scalarEncodeBlock (encTable q) pb block).1
      (start + (scalarEncodeWords (encTable q) pb block).length : Nat)) := by
  have hall : block.take (32 * 128) = block := List.take_of_length_le hlen.le
  have hend : UndoneTo (encTable q) pb block start 128 ⟨(scalarEncodeBlock (encTable q) pb block).1,
      (start + (scalarEncodeWords (encTable q) pb block).length : Nat), [], []⟩ :=
    ⟨by rw [warpLanes, hall], by rw [wordCount, hall], fun _ h => (nomatch h),
      (List.drop_of_length_le hlen.le).symm⟩
  exact hend.warps (fun _ _ hl => laneUndone_of_live hpb hsum hlive hl) payload hlen.ge

end

end Sys2Proof.Machine
end

