-- ==== Sys2Proof/Proofs/ContainerRoundTrip.lean ====
section
/-! PROOF of O42 and O60: `DECODE` finds the container an encode wrote as it was written, passes its checks, and turns
its blocks back into the source (44_container.md R702, R720, R722, 43_decoder.md R618, R630). -/

namespace Sys2Proof.Machine

/-! ### Geometry (44_container.md R702) -/

/-- Settles O60: every part of the offset is a multiple of 16, and the index takes 8 bytes of the 16 for two blocks. -/
theorem payloadOffsetGeometry : Obligations.PayloadOffsetGeometry := by
  unfold Obligations.PayloadOffsetGeometry
  refine ⟨fun nb => ?_, rfl⟩
  simp only [indexOffset, payloadOffset]
  omega

/-! ### The source's table (41_statistics.md R457) -/

/-- Every byte of the source is a live symbol of the source's table. -/
theorem quantize_pos_of_source {pb : Nat} {s : State} (hpb : isProbBits pb = true) {i : Nat} (hi : i < s.srcSize) :
    0 < ((quantize s.sourceHistogram pb).get (symIdx (s.byteAt (s.srcBase + i)))).toNat := by
  obtain ⟨-, hlive⟩ := quantizedProbsSum s.sourceHistogram pb hpb (by rw [s.histTotal_sourceHistogram]; omega)
  refine (hlive _).1 ?_
  rw [s.toNat_sourceHistogram, State.sourceCount, List.countP_pos_iff]
  exact ⟨i, List.mem_range.2 hi, decide_eq_true rfl⟩

theorem getElem_sourceBlock (s : State) (k : Nat) {i : Nat} (hi : i < (s.sourceBlock k).length) :
    (s.sourceBlock k)[i] = s.byteAt (s.srcBase + (4096 * k + i)) := by
  simp only [State.sourceBlock, Vector.getElem_toList, State.getElem_readBytes, Config.blockBytes, Nat.add_assoc]

theorem quantize_pos_of_mem_sourceBlock {pb k : Nat} {s : State} (hpb : isProbBits pb = true) (hk : k < blocksOf s)
    {b : Byte} (hb : b ∈ s.sourceBlock k) : 0 < ((quantize s.sourceHistogram pb).get (symIdx b)).toNat := by
  have hsize : 4096 * blocksOf s ≤ s.srcSize := Nat.mul_div_le s.snap.srcLen.toNat 4096
  obtain ⟨i, hi, rfl⟩ := List.getElem_of_mem hb
  rw [getElem_sourceBlock]
  rw [s.length_sourceBlock] at hi
  exact quantize_pos_of_source hpb (by omega)

/-! ### A container at `SRC` -/

/-- A container lies in its bytes: a state that agrees on them holds it too. -/
theorem ContainerHeld.congr {pb : Nat} {enc : Vector U64 256} {s t v : State} (h : ContainerHeld pb enc s t)
    (hbytes : ∀ a, s.dstBase ≤ a → a < s.dstBase + (payloadOffset (blocksOf s) + 2 * s.payloadWords enc pb) →
      v.byteAt a = t.byteAt a) : ContainerHeld pb enc s v := by
  have part : ∀ {w : Nat} {x : BitVec w} {o n : Nat},
      o + n ≤ payloadOffset (blocksOf s) + 2 * s.payloadWords enc pb → t.holdsNum (s.dstBase + o) n x →
      v.holdsNum (s.dstBase + o) n x := fun hin hnum => hnum.congr fun i hi => hbytes _ (by omega) (by omega)
  obtain ⟨header, probs, rows, pad, payload⟩ := h
  refine ⟨fun i hi => part ?_ (header i hi), fun i => part ?_ (probs i), fun k hk => ?_,
    fun hodd => part ?_ (pad hodd), fun j hj => ?_⟩
  · rw [payloadOffset]
    omega
  · rw [payloadOffset, probsOffset]
    omega
  · obtain ⟨states, index, start⟩ := rows k hk
    have hindex := index_le_payloadOffset hk
    refine ⟨fun l => part ?_ (states l), part (by omega) index, part (by omega) start⟩
    rw [payloadOffset, stateOffset]
    omega
  · rw [payloadOffset, indexOffset]
    omega
  · have := payload j hj
    rw [Nat.add_assoc] at this ⊢
    refine part ?_ this
    rw [s.payloadWords_eq]
    omega

/-- `DECODE` is to run at `u` on the container of `s`'s source under the table `enc`, with `srcLen` at least its length
and a capacity of at least the source's size. -/
structure DecodeInput (pb : Nat) (enc : Vector U64 256) (s u : State) : Prop where
  checks : encodeError pb s = none
  held : ContainerHeld pb enc s u
  src : u.snap.src = s.snap.dst
  size : payloadOffset (blocksOf s) + 2 * s.payloadWords enc pb ≤ u.srcSize
  capacity : s.srcSize ≤ u.dstSize

namespace DecodeInput

variable {pb k : Nat} {enc : Vector U64 256} {s u : State} (h : DecodeInput pb enc s u)
include h

theorem srcBase : u.srcBase = s.dstBase := congrArg BitVec.toNat h.src

theorem isProbBits : isProbBits pb = true := by
  obtain ⟨-, -, -, hpb⟩ := blocks_of_encodeError h.checks
  exact hpb

theorem srcSize : s.srcSize = 4096 * blocksOf s := by
  obtain ⟨-, hsize, -⟩ := blocks_of_encodeError h.checks
  exact hsize

theorem srcSize_pos : 0 < s.srcSize := by
  obtain ⟨hnb, hsize, -⟩ := blocks_of_encodeError h.checks
  omega

/-! What `DECODE` reads of it (44_container.md R700, R701) -/

theorem headerWord {j : Nat} (hj : j < 8) :
    u.headerWord j = (headerWords (blocksOf s) s.srcSize (s.payloadWords enc pb) pb).getD j 0 := by
  rw [State.headerWord, h.srcBase, (h.held.header j hj).word32At]

theorem containerBlocks : u.containerBlocks = blocksOf s := by
  have hlt : blocksOf s < 2 ^ 32 := (Nat.div_le_self _ _).trans_lt s.snap.srcLen.isLt
  rw [State.containerBlocks, h.headerWord (by decide)]
  exact Nat.mod_eq_of_lt hlt

theorem uncompressedWords : u.headerWord 2 = s.snap.srcLen := by
  rw [h.headerWord (by decide)]
  exact BitVec.ofNat_toNat ..

theorem compressedWords : (u.headerWord 3).toNat = s.payloadWords enc pb := by
  rw [h.headerWord (by decide)]
  exact Nat.mod_eq_of_lt ((s.payloadWords_le enc pb).trans_lt s.snap.srcLen.isLt)

theorem containerProbBits : u.containerProbBits = pb := by
  have hpb := h.isProbBits
  rw [State.containerProbBits, h.headerWord (by decide)]
  rw [Machine.isProbBits, decide_eq_true_eq] at hpb
  rcases hpb with rfl | rfl | rfl <;> rfl

theorem containerProbs : u.containerProbs = enc.toList.map fun e => (encPdf e).setWidth 16 := by
  refine List.ext_getElem (by simp [State.containerProbs]) fun i hi _ => ?_
  have hi256 : i < 256 := by simpa [State.containerProbs] using hi
  have hprob := (h.held.probs ⟨i, hi256⟩).word16At
  rw [← h.srcBase] at hprob
  simpa [State.containerProbs, Vector.get] using hprob

theorem containerProbTotal : u.containerProbTotal = tablePdfTotal enc := by
  rw [containerProbTotal_eq, h.containerProbs, probsTotal, tablePdfTotal, List.map_map]
  refine congrArg List.sum (List.map_congr_left fun e _ => ?_)
  have := toNat_encPdf e
  rw [Function.comp_apply, BitVec.toNat_setWidth]
  omega

theorem indexWord0 : u.indexWord0 k = writtenIndexWord0 s u k := by
  rw [State.indexWord0, h.srcBase, h.containerBlocks, writtenIndexWord0]

theorem indexStart (hk : k < blocksOf s) : u.indexStart k = (s.wordsBefore enc pb k).length := by
  rw [State.indexStart, h.srcBase, h.containerBlocks, ← h.held.start hk, writtenStart]

theorem startCursor (hk : k < blocksOf s) :
    u.startCursor k = (s.wordsBefore enc pb k).length + (s.blockWords enc pb k).length := by
  rw [State.startCursor, h.indexStart hk, h.indexWord0, h.held.indexCompressed hk]

theorem storedStates (hk : k < blocksOf s) :
    u.storedStates k = (scalarEncodeBlock enc pb (s.sourceBlock k)).1 := by
  refine ext_get fun l => ?_
  rw [State.storedStates, get_ofFn, h.srcBase]
  obtain ⟨hstates, -⟩ := h.held.blocks k hk
  exact hstates l

theorem payloadWord (hk : k < blocksOf s) {j : Nat} {v : U16} (hv : (s.blockWords enc pb k)[j]? = some v) :
    u.payloadWord ((s.wordsBefore enc pb k).length + j : Nat) = v := by
  obtain ⟨-, -, hwords⟩ := h.held.blocks k hk
  obtain ⟨hj, rfl⟩ := List.getElem?_eq_some_iff.1 hv
  rw [← hwords j hj, h.held.start hk, State.payloadWord, h.srcBase, h.containerBlocks, ← Nat.add_assoc]
  rfl

/-! The checks (44_container.md R720, R722) -/

/-- The words up to the end of a block are no more than all. -/
theorem startCursor_le (hk : k < blocksOf s) : u.startCursor k ≤ s.payloadWords enc pb := by
  have := s.length_wordsBefore_mono enc pb (show k + 1 ≤ blocksOf s from hk)
  simp only [s.wordsBefore_succ, List.length_append] at this
  rwa [h.startCursor hk, s.payloadWords_eq]

/-- The container passes every check of `DECODE`, if its table's probabilities sum to `2^PB`. -/
theorem decodeError_eq_none (htotal : tablePdfTotal enc = 2 ^ pb) : decodeError u = none := by
  obtain ⟨halign, -, -, hpb⟩ := encodeError_eq_none_iff.1 h.checks
  have hsize := h.size
  have hpayload : 544 ≤ payloadOffset (blocksOf s) := by
    rw [payloadOffset]
    omega
  have hcursors : ∀ k, k < blocksOf s → u.startCursor k ≤ s.payloadWords enc pb := fun k hk => h.startCursor_le hk
  have hfull : ∀ k, k < blocksOf s → indexUncompressed (u.indexWord0 k) = Config.blockBytes := fun k hk => by
    rw [h.indexWord0, h.held.indexUncompressed hk, Config.blockBytes]
  have hmagic : u.headerWord 0 = magicAndVersion := h.headerWord (by decide)
  have hsrc : s.snap.srcLen.toNat = 4096 * blocksOf s := h.srcSize
  simp only [decodeError, firstFailing_cons_eq_none_iff, firstFailing_nil, and_true, decide_eq_true_eq,
    List.all_eq_true, List.mem_range, hmagic, h.uncompressedWords, h.compressedWords, h.containerBlocks,
    h.containerProbBits, h.containerProbTotal, h.src]
  exact ⟨halign, by omega, by decide, by decide, by omega, hpb, h.capacity, hsrc, hsize, hfull, hcursors, htotal⟩

end DecodeInput

/-! ### The blocks of a source's own container (43_decoder.md R618) -/

namespace DecodeInput

variable {pb k : Nat} {s u : State} (h : DecodeInput pb (s.sourceTable pb) s u)
include h

theorem sum_quantize : ((quantize s.sourceHistogram pb).toList.map BitVec.toNat).sum = 2 ^ pb := by
  obtain ⟨hsum, -⟩ := quantizedProbsSum s.sourceHistogram pb h.isProbBits
    (s.histTotal_sourceHistogram ▸ h.srcSize_pos)
  exact hsum

theorem containerEntry : u.containerEntry = lookupOf (quantize s.sourceHistogram pb) := by
  obtain ⟨-, hM⟩ := two_pow_probBits h.isProbBits
  have hprobs : u.containerProbs = (quantize s.sourceHistogram pb).toList.map fun p => p.setWidth 16 := by
    rw [h.containerProbs]
    refine List.ext_getElem (by simp) fun i hi _ => BitVec.eq_of_toNat_eq ?_
    have hi256 : i < 256 := by simpa using hi
    have hpdf : (encPdf (encTable (quantize s.sourceHistogram pb))[i]).toNat =
        (quantize s.sourceHistogram pb)[i].toNat :=
      toNat_encPdf_encTable (h.sum_quantize.trans_le hM) ⟨i, hi256⟩
    simp [State.sourceTable, hpdf]
  funext i
  rw [State.containerEntry, hprobs, lookupOf]

/-- A block of the container decodes to the block of the source. -/
theorem decodedBlock (hk : k < blocksOf s) :
    (u.decodedBlock k).bytes = s.sourceBlock k ∧ ∀ c ∈ (u.decodedBlock k).loads, (0 : Int) ≤ c := by
  obtain ⟨-, -, hloads, hbytes⟩ := scalarDecodeBlock_undoes_encode h.isProbBits h.sum_quantize
    (fun b hb => quantize_pos_of_mem_sourceBlock h.isProbBits hk hb) (s.length_sourceBlock k)
    (fun j v hv => h.payloadWord hk hv)
  rw [State.decodedBlock, h.containerEntry, h.containerProbBits, h.storedStates hk, h.startCursor hk]
  exact ⟨hbytes, fun c hc => (Int.natCast_nonneg _).trans (hloads c hc)⟩

/-- With its windows in place `DECODE` is ready: no load starts below the payload's origin less 16 bytes. -/
theorem decodeReady (hw : (grantOf .decode u.snap).fault? = none) : decodeReady u = true := by
  have hheld : loadsHeld u = true := by
    rw [loadsHeld_iff, h.containerBlocks]
    intro k hk c hc
    obtain ⟨-, hloads⟩ := h.decodedBlock hk
    have := hloads c hc
    rw [State.loadHeld, payloadOffset]
    omega
  rw [Machine.decodeReady, hw, h.decodeError_eq_none (tablePdfTotal_sourceTable h.isProbBits h.srcSize_pos), hheld]
  rfl

/-- `DECODE` gives the source back. -/
theorem exec_decode (hw : (grantOf .decode u.snap).fault? = none) :
    ∃ v, exec .decode u = .next v ∧ v.regs.error = 0 ∧ v.regs.result = s.snap.srcLen ∧
      ∀ i, i < s.srcSize → v.byteAt (u.dstBase + i) = s.byteAt (s.srcBase + i) := by
  obtain ⟨v, hv, ⟨hregs, -⟩, hblocks, -⟩ := decodeCompletes u (h.decodeReady hw)
  refine ⟨v, hv, by rw [hregs], ?_, fun i hi => ?_⟩
  · rw [hregs, h.uncompressedWords]
    exact BitVec.ofNat_toNat ..
  · rw [h.srcSize] at hi
    have hk : i / 4096 < blocksOf s := by omega
    have hbyte := hblocks (i / 4096) (by rwa [h.containerBlocks]) (i % 4096) (by omega)
    rw [(h.decodedBlock hk).1, Nat.div_add_mod, List.getElem?_eq_getElem (by rw [s.length_sourceBlock]; omega),
      getElem_sourceBlock, Nat.div_add_mod] at hbyte
    exact (Option.some.inj hbyte).symm

end DecodeInput

/-! ### Encode, then decode -/

/-- The operands of a `DECODE` of the container at `s`'s `DST`. -/
def State.decodeOperands (s : State) (n cap : U32) (dst : U64) : Operands :=
  { src := s.snap.dst, srcLen := n, dst := dst, dstCap := cap, tbl := s.snap.tbl }

/-- Its windows pass if the destination is clear of the container's window. -/
theorem decodeOperands_windows {s : State} {n cap : U32} {dst : U64} (hdst : dst.toNat + cap.toNat ≤ 2 ^ 64)
    (hsrc : s.dstBase + n.toNat ≤ 2 ^ 64)
    (hclear : dst.toNat + cap.toNat ≤ s.dstBase ∨ s.dstBase + n.toNat ≤ dst.toNat) :
    (grantOf .decode (s.decodeOperands n cap dst)).fault? = none := by
  rw [Grant.fault?_eq_none_iff]
  simp only [grantOf, List.cons_append, List.nil_append, List.mem_cons, List.not_mem_nil, or_false, forall_eq_or_imp,
    forall_eq, Operands.srcWindow, Operands.dstWindow, State.decodeOperands, Window.hasByte, decide_eq_true_eq]
  rw [State.dstBase] at hsrc hclear
  exact ⟨⟨hsrc, hdst⟩, fun a ⟨hin, hin'⟩ => by omega⟩

section
variable {pb : Nat} {enc : Vector U64 256} {s t : State} {n cap : U32}

/-- The count of an encode is its container's length, which does not wrap. -/
theorem EncodeDone.result_toNat (h : EncodeDone pb enc s t) (hchecks : encodeError pb s = none)
    (hfits : encodeFits pb enc s = true) :
    t.regs.result.toNat = payloadOffset (blocksOf s) + 2 * s.payloadWords enc pb := by
  have hlen := containerLength_le_of_encodeFits (blocks_of_encodeError hchecks).1 hfits
  obtain ⟨⟨hregs, -⟩, -, -⟩ := h
  rw [hregs]
  exact Nat.mod_eq_of_lt (hlen.trans_lt s.snap.dstCap.isLt)

theorem EncodeDone.result_le (h : EncodeDone pb enc s t) (hchecks : encodeError pb s = none)
    (hfits : encodeFits pb enc s = true) : t.regs.result.toNat ≤ s.dstSize := by
  rw [h.result_toNat hchecks hfits]
  exact containerLength_le_of_encodeFits (blocks_of_encodeError hchecks).1 hfits

/-- The table of an `ENCODE.T` lies outside its destination window (20_memory.md R207). -/
theorem outside_table_of_windows (hw : (grantOf (.encodeT pb) s.snap).fault? = none) {a : Nat} (hlow : s.dstBase ≤ a)
    (hhigh : a < s.dstBase + s.dstSize) : a < s.tblBase ∨ s.tblBase + 2048 ≤ a := by
  obtain ⟨-, apart⟩ := (Grant.fault?_eq_none_iff _).1 hw
  by_contra hin
  refine apart s.snap.tblWindow (List.mem_cons_of_mem _ List.mem_cons_self) s.snap.dstWindow List.mem_cons_self a
    ⟨decide_eq_true ?_, decide_eq_true ⟨hlow, hhigh⟩⟩
  simp only [Operands.tblWindow, Config.tableBytes, State.tblBase] at hin ⊢
  omega

/-- The container an encode left, in any state with its bytes. -/
theorem EncodeDone.decodeInput (h : EncodeDone pb enc s t) (hchecks : encodeError pb s = none)
    (hfits : encodeFits pb enc s = true) (hn : t.regs.result.toNat ≤ n.toNat) (hcap : s.srcSize ≤ cap.toNat)
    (dst : U64) {v : State}
    (hbytes : ∀ a, s.dstBase ≤ a → a < s.dstBase + t.regs.result.toNat → v.byteAt a = t.byteAt a) :
    DecodeInput pb enc s (v.setSnap (s.decodeOperands n cap dst)) := by
  rw [h.result_toNat hchecks hfits] at hn hbytes
  exact ⟨hchecks, h.held.congr hbytes, rfl, hn, hcap⟩

end

/-- Settles O42: the container reads back as it was written (`DecodeInput`), so its checks pass, and each block decodes
to the source's (`scalarDecodeBlock_undoes_encode`); with the table of `BUILD_TABLE` it is the container of `ENCODE`
(`encodeTMatchesEncode`). -/
theorem machineRoundTrip : Obligations.MachineRoundTrip := by
  unfold Obligations.MachineRoundTrip
  intro pb s n cap dst hcap decoding restored
  have restores : ∀ t, DecodeInput pb (s.sourceTable pb) s (t.setSnap (s.decodeOperands n cap dst)) → restored t :=
    fun t hinput hdst hsrc hclear => hinput.exec_decode (decodeOperands_windows hdst hsrc hclear)
  refine ⟨fun h => ?_, fun h => ?_, fun h hbuild hw => ?_⟩
  · obtain ⟨hchecks, t, ht, hdone⟩ := exec_encode_done h
    obtain ⟨-, hfits⟩ := Bool.and_eq_true_iff.1 h
    refine ⟨t, ht, fun hn => ?_⟩
    have hinput := hdone.decodeInput hchecks hfits hn hcap dst (v := t) fun _ _ _ => rfl
    exact ⟨hinput.decodeError_eq_none (tablePdfTotal_sourceTable hinput.isProbBits hinput.srcSize_pos),
      restores t hinput⟩
  · obtain ⟨hchecks, t, ht, hdone⟩ := exec_encodeT_done h
    obtain ⟨hready, hfits⟩ := Bool.and_eq_true_iff.1 h
    obtain ⟨-, hchecksT⟩ := Bool.and_eq_true_iff.1 hready
    obtain ⟨-, -, htotal⟩ := encodeTError_eq_none_iff.1 (of_decide_eq_true hchecksT)
    exact ⟨t, ht, fun hn =>
      (hdone.decodeInput hchecks hfits hn hcap dst (v := t) fun _ _ _ => rfl).decodeError_eq_none htotal⟩
  · obtain ⟨hchecks, t, ht, hdone⟩ := exec_encode_done h
    obtain ⟨-, hfits⟩ := Bool.and_eq_true_iff.1 h
    obtain ⟨t', u, v, ht', hu, hv, -, hresult, hsame⟩ := encodeTMatchesEncode pb s hbuild h hw
    obtain rfl : t = t' := Host.Outcome.next.inj (ht.symm.trans ht')
    have hlen := hdone.result_le hchecks hfits
    refine ⟨u, v, hu, hv, fun hn => restores v ?_⟩
    exact hdone.decodeInput hchecks hfits (hresult ▸ hn) hcap dst fun a hlow hhigh =>
      hsame a (outside_table_of_windows hw hlow (by omega)) (.inl hhigh)

end Sys2Proof.Machine
end

