-- ==== Sys2Proof/Proofs/Datapath.lean ====
section
/-! PROOF of O44 to O47: the broadcast table load selects what the gather reads, and the two permutation ROMs hold set
lanes and their ranks and invert each other (45_simd.md R830, R831, R840, R841). -/

namespace Sys2Proof.Machine

/-! ### The broadcast table load (45_simd.md R840, R841) -/

theorem tableEighth_fst_get (enc : Vector U64 256) (hb : Nat) (j : Fin 8) :
    (tableEighth enc hb).1.get j = (enc.getD (8 * hb + j.val) 0).extractLsb' 0 32 := get_ofFn _ j

theorem tableEighth_snd_get (enc : Vector U64 256) (hb : Nat) (j : Fin 8) :
    (tableEighth enc hb).2.get j = (enc.getD (8 * hb + j.val) 0).extractLsb' 32 32 := get_ofFn _ j

/-- The sign bit of the selector is bit 3 of the symbol, which tells the two eighths apart. -/
theorem msb_shiftLeft_28 {s : U32} (hs : s.toNat < 16) : (s <<< 28).msb = decide (8 ≤ s.toNat) := by
  have hshift : (s <<< 28).toNat = s.toNat * 2 ^ 28 := by
    rw [BitVec.toNat_shiftLeft, Nat.shiftLeft_eq]
    omega
  rw [BitVec.msb_eq_decide, hshift, decide_eq_decide]
  omega

/-- Entries 0..7 of `f` in one vector and 8..15 in another: the permutes and the blend select entry `sym`. -/
theorem blendv_permutes_get {a b : Vec} {f : Nat → U32} (ha : ∀ j : Fin 8, a.get j = f j.val)
    (hb : ∀ j : Fin 8, b.get j = f (8 + j.val)) {sym : Vec} {j : Fin 8} (hsym : (sym.get j).toNat < 16) :
    (blendv (permute8x32 a sym) (permute8x32 b sym) (vshl sym 28)).get j = f (sym.get j).toNat := by
  rw [blendv_get, vshl_get, msb_shiftLeft_28 hsym, permute8x32_get, permute8x32_get, ha, hb, Fin.val_ofNat]
  by_cases h : 8 ≤ (sym.get j).toNat
  · rw [if_pos (decide_eq_true h)]
    congr 1
    omega
  · rw [if_neg (by simpa using h), Nat.mod_eq_of_lt (Nat.lt_of_not_le h)]

theorem broadcastLoad_fst_get (enc : Vector U64 256) {sym : Vec} {j : Fin 8} (hsym : (sym.get j).toNat < 16) :
    (broadcastLoad enc sym).1.get j = (enc.getD (sym.get j).toNat 0).extractLsb' 0 32 :=
  blendv_permutes_get (f := fun i => (enc.getD i 0).extractLsb' 0 32)
    (fun j => by rw [tableEighth_fst_get, Nat.mul_zero, Nat.zero_add]) (tableEighth_fst_get enc 1) hsym

theorem broadcastLoad_snd_get (enc : Vector U64 256) {sym : Vec} {j : Fin 8} (hsym : (sym.get j).toNat < 16) :
    (broadcastLoad enc sym).2.get j = (enc.getD (sym.get j).toNat 0).extractLsb' 32 32 :=
  blendv_permutes_get (f := fun i => (enc.getD i 0).extractLsb' 32 32)
    (fun j => by rw [tableEighth_snd_get, Nat.mul_zero, Nat.zero_add]) (tableEighth_snd_get enc 1) hsym

/-- Settles O44: on each lane both loads are the halves of record `sym` (`blendv_permutes_get`), which lies in the
table RAM. -/
theorem broadcastMatchesGather : Obligations.BroadcastMatchesGather := by
  unfold Obligations.BroadcastMatchesGather
  intro enc sym hsym
  have hram : ∀ (j : Fin 8) (d : U64), enc.getD (sym.get j).toNat d = enc.getD (sym.get j).toNat 0 := fun j d => by
    have hlt : (sym.get j).toNat < 256 := (hsym j).trans (by decide)
    simp [Vector.getD, hlt]
  refine Prod.ext (Vector.ext fun i hi => ?_) (Vector.ext fun i hi => ?_)
  · have hlane : (broadcastLoad enc sym).1[i] = _ := broadcastLoad_fst_get enc (hsym ⟨i, hi⟩)
    rw [hlane, gather64, Vector.getElem_ofFn, ← hram ⟨i, hi⟩]
    rfl
  · have hlane : (broadcastLoad enc sym).2[i] = _ := broadcastLoad_snd_get enc (hsym ⟨i, hi⟩)
    rw [hlane, gather64, Vector.getElem_ofFn, ← hram ⟨i, hi⟩]
    rfl

/-! ### The permutation ROMs (45_simd.md R830, R831) -/

theorem getElem?_setBits_rank {m : BitVec 8} {l : Nat} (hl : l < 8) (hset : m.getLsbD l = true) :
    (setBits m)[rank m l]? = some l := getElem?_filter_range hl hset

theorem getLsbD_of_mem_setBits {m : BitVec 8} {l : Nat} (h : l ∈ setBits m) : m.getLsbD l = true :=
  (List.mem_filter.1 h).2

/-- The `i`-th set bit has rank `i`. -/
theorem rank_getElem_setBits {m : BitVec 8} {i : Nat} (hi : i < (setBits m).length) : rank m (setBits m)[i] = i := by
  have hmem := List.getElem_mem hi
  have hat := getElem?_setBits_rank (setBits_lt hmem) (getLsbD_of_mem_setBits hmem)
  have hnodup : (setBits m).Nodup := List.nodup_range.filter _
  exact ((List.getElem?_inj hi hnodup).1 ((List.getElem?_eq_getElem hi).trans hat.symm)).symm

/-- Every value of a filler entry is a lane index. -/
theorem toNat_setWidth_lt_eight (f : BitVec 3) : (f.setWidth 32).toNat < 8 := by
  rw [BitVec.toNat_setWidth_of_le (by decide)]
  exact f.isLt

theorem writePermute_lt (m : BitVec 8) (i : Fin 8) : ((writePermute m).get i).toNat < 8 := by
  by_cases hi : i.val < (setBits m).length
  · rw [writePermute_get hi]
    exact setBits_lt (List.getElem_mem hi)
  · rw [writePermute, get_ofFn, List.getElem?_eq_none (Nat.le_of_not_lt hi)]
    exact toNat_setWidth_lt_eight _

theorem readPermute_lt (m : BitVec 8) (l : Fin 8) : ((readPermute m).get l).toNat < 8 := by
  by_cases hset : m.getLsbD l.val = true
  · have hrank := rank_lt_popcount l.isLt hset
    have hcount := popcount_le m
    rw [readPermute_get hset]
    omega
  · rw [readPermute, get_ofFn, if_neg hset]
    exact toNat_setWidth_lt_eight _

/-- The write permutation lists a set lane at its rank. -/
theorem writePermute_get_of_rank {m : BitVec 8} {l i : Fin 8} (hset : m.getLsbD l.val = true)
    (hi : i.val = rank m l.val) :
    ((writePermute m).get i).toNat = l.val := by
  obtain ⟨hlt, hat⟩ := List.getElem?_eq_some_iff.1 (hi ▸ getElem?_setBits_rank l.isLt hset)
  rw [writePermute_get hlt, hat]

/-- Settles O45: an entry below the count is a member of `setBits`, whose rank is its place (`rank_getElem_setBits`). -/
theorem writePermutePacks : Obligations.WritePermutePacks := by
  unfold Obligations.WritePermutePacks
  refine fun m i => ⟨writePermute_lt m i, fun hi => ?_⟩
  rw [← length_setBits] at hi
  rw [writePermute_get hi]
  exact ⟨getLsbD_of_mem_setBits (List.getElem_mem hi), rank_getElem_setBits hi⟩

/-- Settles O46: `readPermute_get` on the set lanes, and `readPermute_lt` on all. -/
theorem readPermuteRoutes : Obligations.ReadPermuteRoutes := by
  unfold Obligations.ReadPermuteRoutes
  exact fun m l => ⟨readPermute_lt m l, readPermute_get⟩

/-- Settles O47: lane `l` reads the packed word of its rank (`readPermute_get`), which the write permutation took from
lane `l` (`writePermute_get_of_rank`). -/
theorem permutesInvert : Obligations.PermutesInvert := by
  unfold Obligations.PermutesInvert
  intro m x words hwords l hset
  have hrank := rank_lt_popcount l.isLt hset
  have hcount := popcount_le m
  have hlt : 8 - popcount m + rank m l.val < 8 := by omega
  have hword := hwords ⟨rank m l.val, hrank.trans_le hcount⟩ hrank
  rw [pack32to16_get, permute8x32_get, writePermute_get_of_rank hset rfl, Fin.ofNat_val_eq_self,
    Vector.getElem?_toList, Vector.getElem?_eq_getElem hlt] at hword
  have hread : words.get (Fin.ofNat 8 ((readPermute m).get l).toNat) = words[8 - popcount m + rank m l.val] := by
    rw [readPermute_get hset, Fin.ofNat, Vector.get]
    simp [Nat.mod_eq_of_lt hlt]
  rw [permute8x32_get, cvtU16_get, hread, Option.some.inj hword]

end Sys2Proof.Machine
end

