-- ==== Sys2Proof/Proofs/Exceptions.lean ====
section
/-! PROOF of O13, O54 and O59: what a command that ends in an error leaves, the interrupt output, and the races with
other instances (60_exceptions.md R902, R910, R943). -/

namespace Sys2Proof.Machine

/-! ### Commands that end in an error (60_exceptions.md R902) -/

/-- `r`, a part of a command's run, ends the command without an error or faults. -/
def NoErrorIn (r : Run State) : Prop := ∀ t, r.finish = .next t → t.regs.error = 0

theorem NoErrorIn.ok (n : U32) (s : State) : NoErrorIn (.ok (complete .ok n s)) := fun t h => by
  cases h
  rfl

theorem NoErrorIn.bind {α : Type} {r : Run α} {f : α → Run State} (h : ∀ t, r ≠ .error (.ended t))
    (k : ∀ a, NoErrorIn (f a)) : NoErrorIn (r >>= f) := by
  match r with
  | .ok a => exact k a
  | .error (.ended t) => exact absurd rfl (h t)
  | .error (.fault f) => exact fun _ hf => nomatch hf

/-- A command that reaches a next state has passed its window checks. -/
theorem fault?_eq_none_of_next {i : Instr} {s t : State} (h : exec i s = .next t) : (grantOf i s.snap).fault? = none := by
  cases hf : (grantOf i s.snap).fault? with
  | none => rfl
  | some f =>
    rw [(exec_decidedByWindows i s).fault f hf] at h
    cases h

/-- The checks of `i`, in order: the code of the first that fails. -/
def commandError (i : Instr) (s : State) : Option ErrorCode :=
  match i with
  | .nop => none
  | .buildTable pb => buildTableError pb s
  | .encode pb => encodeError pb s
  | .encodeT pb => encodeTError pb s
  | .decode => decodeError s

/-- Where a check fails the command ends with its code, and only working state has changed. -/
theorem exec_of_commandError {i : Instr} {s : State} {c : ErrorCode} (hw : (grantOf i s.snap).fault? = none)
    (h : commandError i s = some c) : ∃ e, exec i s = .next (complete c 0 (s.setEng e)) := by
  cases i with
  | nop => cases h
  | buildTable pb => exact ⟨s.eng, exec_buildTable_of_error hw h⟩
  | encode pb => exact ⟨s.eng, exec_encode_of_error hw h⟩
  | encodeT pb => exact exec_encodeT_of_error hw h
  | decode => exact ⟨s.eng, exec_decode_of_error hw h⟩

/-- Where every check holds no error is raised any more: what follows completes or faults. -/
theorem exec_of_no_commandError {i : Instr} {s : State} (hw : (grantOf i s.snap).fault? = none)
    (h : commandError i s = none) : ∃ r, exec i s = Run.finish r ∧ NoErrorIn r := by
  cases i with
  | nop => exact ⟨.ok (complete .ok 0 s), exec_nop s, .ok 0 s⟩
  | buildTable pb =>
    refine ⟨_, exec_buildTable_of_checks hw h, .bind (buildStats_not_ended _ pb s) fun u => ?_⟩
    exact .bind (storeTable_not_ended _ u) (.ok _)
  | encode pb =>
    obtain ⟨e, -, hexec⟩ := exec_encode_of_checks hw h
    exact ⟨_, hexec, .bind (encodeContainer_not_ended _ pb _) fun t => .ok _ t⟩
  | encodeT pb =>
    obtain ⟨e, -, hexec⟩ := exec_encodeT_of_checks hw h
    exact ⟨_, hexec, .bind (encodeContainer_not_ended _ pb _) fun t => .ok _ t⟩
  | decode =>
    refine ⟨_, exec_decode_eq hw, ?_⟩
    rw [show decodeError s = none from h, ofError_none, Run.ok_bind]
    exact .bind (decodeBlocks_not_ended _ _ _) (.ok _)

/-- Settles O13: with `ERROR` not 0 some check failed (`exec_of_no_commandError`), so the command has stored nothing
(`exec_of_commandError`). -/
theorem errorsLeaveMemory : Obligations.ErrorsLeaveMemory := by
  unfold Obligations.ErrorsLeaveMemory
  refine ⟨fun i s t h herror => ?_, fun s t h => ?_⟩
  · have hw := fault?_eq_none_of_next h
    cases hc : commandError i s with
    | none =>
      obtain ⟨r, hexec, success⟩ := exec_of_no_commandError hw hc
      exact absurd (success t (hexec.symm.trans h)) herror
    | some c =>
      obtain ⟨e, hexec⟩ := exec_of_commandError hw hc
      rw [hexec] at h
      cases h
      rfl
  · cases h
    rfl

/-! ### The interrupt output (60_exceptions.md R910) -/

theorem State.irqAt_irqLine (s : State) : s.irqAt Config.irqLine = s.irq := by
  simp [State.irqAt]

theorem State.irqAt_of_ne (s : State) {line : Nat} (h : line ≠ Config.irqLine) : s.irqAt line = false := by
  simp [State.irqAt, h]

/-- Settles O54: the write to `CTRL` clears `IE`, and the acknowledge and the issue clear `DONE`. -/
theorem irqIsDoneAndEnabled : Obligations.IrqIsDoneAndEnabled := by
  unfold Obligations.IrqIsDoneAndEnabled
  intro s
  obtain ⟨clearIe, -⟩ := ctrlAndStatusWrites s 0
  obtain ⟨-, clearDone⟩ := ctrlAndStatusWrites s 2
  refine ⟨rfl, ⟨_, clearIe rfl, ?_, rfl⟩, ⟨_, clearDone, ?_, rfl⟩, fun x => ?_, s.irqAt_irqLine,
    fun line => s.irqAt_of_ne⟩
  · exact Bool.and_false _
  · have cleared : (s.regs.done && !(2 : U32).getLsbD 1) = false := Bool.and_false _
    rw [State.irq, cleared, Bool.false_and]
  · exact Bool.false_and _

/-! ### Other instances (60_exceptions.md R943) -/

/-- Of this core, only the running command can race with a peer: idle, or with an illegal word, it has no windows. -/
theorem runningGrant_races_iff (s : State) (p : Peer) :
    (runningGrant s).races p = true ↔
      ∃ i, s.regs.busy = true ∧ decodeCommand s.regs.cmd = .ok i ∧ (grantOf i s.snap).races p = true := by
  constructor
  · intro h
    cases hbusy : s.regs.busy with
    | false =>
      rw [runningGrant_idle hbusy, Grant.races_empty] at h
      cases h
    | true =>
      rw [runningGrant_busy hbusy] at h
      cases hdecode : decodeCommand s.regs.cmd with
      | ok i =>
        rw [grantOfWord_of_decode hdecode] at h
        exact ⟨i, rfl, rfl, h⟩
      | error e =>
        rw [grantOfWord_of_illegal hdecode, Grant.races_empty] at h
        cases h
  · rintro ⟨i, hbusy, hdecode, h⟩
    rwa [runningGrant_busy hbusy, grantOfWord_of_decode hdecode]

theorem hostStep_peerIssue_of_race {p : Peer} {s : State}
    (h : (runningGrant s).races p = true ∨ ∃ q ∈ s.peers, q.grant.races p = true) :
    hostStep (.peerIssue p) s = .fault .hostRace := by
  rcases peerIssue_cases p s with ⟨-, hi⟩ | ⟨hown, hothers, -⟩
  · rw [hostStep, hi, Run.finish_fault]
  · rcases h with h | ⟨q, hq, h⟩
    · exact absurd h (Bool.eq_false_iff.1 hown)
    · exact absurd h (Bool.eq_false_iff.1 (hothers q hq))

theorem hostStep_peerIssue_of_apart {p : Peer} {s : State} (hown : ¬(runningGrant s).races p = true)
    (hothers : ∀ q ∈ s.peers, ¬q.grant.races p = true) :
    hostStep (.peerIssue p) s = .next (s.setPeers (p :: s.peers)) := by
  rcases peerIssue_cases p s with ⟨h | ⟨q, hq, h⟩, -⟩ | ⟨-, -, hi⟩
  · exact absurd h hown
  · exact absurd h (hothers q hq)
  · rw [hostStep, hi, Run.finish_ok]

theorem issueCommand_of_race {x : U32} {s : State} {p : Peer} (hfault : (grantOfWord x s.regs.operands).fault? = none)
    (hp : p ∈ s.peers) (h : (grantOfWord x s.regs.operands).races p = true) :
    issueCommand x s = .error (.fault .hostRace) := by
  rcases issueCommand_cases x s with ⟨f, hf, -⟩ | ⟨-, -, hi⟩ | ⟨-, hapart, -⟩
  · rw [hfault] at hf
    cases hf
  · exact hi
  · exact absurd h (List.any_eq_false.1 hapart p hp)

/-- Settles O59: shared bytes are what `Grant.races` tests (`Grant.races_iff`), at each of the three places. -/
theorem peersRace : Obligations.PeersRace := by
  unfold Obligations.PeersRace
  intro shares
  have races : ∀ (g : Grant) (p : Peer), g.races p = true ↔ shares g p.grant := Grant.races_iff
  refine ⟨fun s i p hbusy hdecode h => ?_, fun s p q hq h => ?_, fun s p hown hothers => ?_, fun _ _ => rfl,
    fun s i x p hdecode hidle hfault hp h => ?_⟩
  · exact hostStep_peerIssue_of_race (.inl ((runningGrant_races_iff s p).2 ⟨i, hbusy, hdecode, (races _ p).2 h⟩))
  · exact hostStep_peerIssue_of_race (.inr ⟨q, hq, (races _ p).2 h⟩)
  · refine hostStep_peerIssue_of_apart (fun h => ?_) fun q hq h => hothers q hq ((races _ p).1 h)
    obtain ⟨i, hbusy, hdecode, h⟩ := (runningGrant_races_iff s p).1 h
    exact hown i hbusy hdecode ((races _ p).1 h)
  · rw [← grantOfWord_of_decode hdecode] at hfault h
    rw [hostStep_issue hidle, issueCommand_of_race hfault hp ((races _ p).2 h), Run.finish_fault]

end Sys2Proof.Machine
end

