-- ==== Sys2Proof/Proofs/Resets.lean ====
section
/-! PROOF of O52, O55 and O56: the register writes a busy core drops, and what the two resets leave
(70_reset_and_hazards.md R1000, R1002, R1012). -/

namespace Sys2Proof.Machine

/-! ### Writes while a command runs (70_reset_and_hazards.md R1012) -/

/-- A busy core drops every register write but those to `CTRL` and `STATUS`. -/
theorem writeRegister_of_busy {s : State} (hbusy : s.regs.busy = true) {off : BitVec 7} (hctrl : off.toNat ≠ 0x08)
    (hstatus : off.toNat ≠ 0x0C) (v : U32) : writeRegister off v s = .ok s := by
  rw [writeRegister, if_neg hctrl, if_neg hstatus, if_pos hbusy]

/-- Settles O52: the nine offsets are aligned and neither `CTRL` nor `STATUS`. -/
theorem busyWritesIgnored : Obligations.BusyWritesIgnored := by
  unfold Obligations.BusyWritesIgnored
  intro s off v hbusy hoff
  simp only [List.mem_cons, List.not_mem_nil, or_false] at hoff
  rw [hostStep_store (by omega), writeRegister_of_busy hbusy (by omega) (by omega), Run.finish_ok]

/-! ### What an abort leaves (70_reset_and_hazards.md R1002) -/

theorem abortRunning_frame (s : State) :
    (abortRunning s).snap = s.snap ∧ (abortRunning s).eng = s.eng ∧ (abortRunning s).inbox = s.inbox ∧
      (abortRunning s).hostData = s.hostData ∧ (abortRunning s).peers = s.peers := by
  obtain ⟨m, n, h⟩ := havocWindows_eq (runningGrant s).writes s
  rw [abortRunning, h]
  exact ⟨rfl, rfl, rfl, rfl, rfl⟩

/-- Memory after an abort of `s`'s command: each byte outside the write windows as before, and those of a command's one
window (`grantOf_writes_length`) the next free bytes, in order. -/
theorem byteAt_abortRunning (s : State) :
    (∀ a, (∀ w ∈ (runningGrant s).writes, a < w.base ∨ w.base + w.len ≤ a) →
      (abortRunning s).byteAt a = s.byteAt a) ∧
    (∀ w, (runningGrant s).writes = [w] → w.base + w.len ≤ 2 ^ 64 →
      ∀ k, k < w.len → (abortRunning s).byteAt (w.base + k) = Config.freeByte (s.draws + k)) := by
  refine ⟨fun a hout => byteAt_havocWindows_out _ s hout, fun w hw hfits k hk => ?_⟩
  have aborted : abortRunning s = s.havoc w.len w.base := by
    rw [abortRunning, hw]
    rfl
  rw [aborted, State.byteAt_havoc_in w.len s hk hfits]

/-! ### The two resets (70_reset_and_hazards.md R1000, R1002) -/

theorem hostStep_softReset {v : U32} (hsrst : v.getLsbD 1 = true) (s : State) :
    hostStep (.store 0x08#7 .w32 v) s = .next (softReset s) := by
  have ctrl : writeRegister 0x08#7 v s = .ok (writeCtrl v s) := rfl
  rw [hostStep_store rfl, ctrl, writeCtrl, if_pos hsrst, Run.finish_ok]

theorem softReset_of_idle {s : State} (hidle : s.regs.busy = false) : softReset s = s.setRegs State.reset.regs := by
  rw [softReset, abortRunning_idle hidle]
  rfl

theorem powerOnReset_of_idle {s : State} (hidle : s.regs.busy = false) :
    powerOnReset s = ((s.setRegs State.reset.regs).setSnap State.reset.snap).setEng State.reset.eng := by
  rw [powerOnReset, abortRunning_idle hidle]
  rfl

/-- Settles O55: the state is that of the abort (`abortRunning_frame`, `byteAt_abortRunning`) with the registers at
reset. -/
theorem softResetEffect : Obligations.SoftResetEffect := by
  unfold Obligations.SoftResetEffect
  intro s v hsrst
  obtain ⟨hsnap, heng, hinbox, hdata, hpeers⟩ := abortRunning_frame s
  exact ⟨softReset s, hostStep_softReset hsrst s, rfl, rfl, hsnap, heng, hinbox, hdata, hpeers, softReset_of_idle,
    byteAt_abortRunning s⟩

/-- Settles O56: as for a soft reset, with the snapshot and the working state at reset too. -/
theorem powerOnResetEffect : Obligations.PowerOnResetEffect := by
  unfold Obligations.PowerOnResetEffect
  refine ⟨fun s hidle => congrArg Host.Outcome.next (powerOnReset_of_idle hidle), fun s => ?_⟩
  obtain ⟨-, -, hinbox, hdata, hpeers⟩ := abortRunning_frame s
  exact ⟨powerOnReset s, rfl, rfl, rfl, rfl, rfl, hinbox, hdata, hpeers, byteAt_abortRunning s⟩

end Sys2Proof.Machine
end
